-- ==== Sys2Proof/Word.lean ====
section
/-! DEFINITION. The words the machine computes with: 64-bit register values (R20), 8-bit bytes (R10). -/

namespace Sys2Proof

/-- A register value or an address while it is computed: 64 bits (R20, R23). -/
abbrev Word := BitVec 64

/-- The smallest addressable unit of memory: 8 bits (R10). -/
abbrev Byte := BitVec 8

/-- A general register number, 0 to 15 (R20). -/
abbrev Reg := Fin 16

end Sys2Proof
end

