-- ==== Sys2Proof/Syntax.lean ====
section
/-! DEFINITION. The instructions of the PunkVM core as syntax: one constructor of `Instr` per row of the opcode
table (R105), over the operand forms of R94. A constructor keeps the operand KIND the encoding used, so that the
encoding can be recovered from it. -/

namespace Sys2Proof

/-- An operand that is a single register: kind reg4 (R97) or kind reg8 (R98). The argument byte of a reg8 operand
is kept as it stands; `RegOp.wf` says that it must name one of the sixteen registers. -/
inductive RegOp where
  | reg4 (r : Reg)
  | reg8 (b : BitVec 8)
  deriving DecidableEq, Repr

/-- The second source of an arithmetic, logic or shift instruction: a register or an immediate of 1, 2, 4 or 8
bytes (R94, R99). -/
inductive Src2 where
  | reg4 (r : Reg)
  | reg8 (b : BitVec 8)
  | imm8 (v : BitVec 8)
  | imm16 (v : BitVec 16)
  | imm32 (v : BitVec 32)
  | imm64 (v : BitVec 64)
  deriving DecidableEq, Repr

/-- The target of a direct control transfer: a signed displacement from the next instruction (R100) or an absolute
address (R101). -/
inductive Target where
  | pcRel (d : BitVec 32)
  | abs (a : BitVec 32)
  deriving DecidableEq, Repr

/-- The memory operand of a load or store: base register and signed offset (R102) or an absolute address (R101). -/
inductive MemOp where
  | regOff (base : Reg) (off : BitVec 32)
  | abs (a : BitVec 32)
  deriving DecidableEq, Repr

/-- The 43 instructions of R105. Operand order is that of the assembler syntax (R112): destination first, and the
data register of a store first. -/
inductive Instr where
  -- arithmetic (40_arithmetic.md)
  | add (rd rs1 : Reg) (src2 : Src2)
  | sub (rd rs1 : Reg) (src2 : Src2)
  | mul (rd rs1 : Reg) (src2 : Src2)
  | div (rd rs1 : Reg) (src2 : Src2)
  | mod (rd rs1 : Reg) (src2 : Src2)
  | neg (rd : RegOp) (src2 : Src2)
  | mov (rd : RegOp) (src2 : Src2)
  | cmp (rs1 : RegOp) (src2 : Src2)
  -- logic and shift (41_logic_shift.md)
  | and (rd rs1 : Reg) (src2 : Src2)
  | or (rd rs1 : Reg) (src2 : Src2)
  | xor (rd rs1 : Reg) (src2 : Src2)
  | not (rd : RegOp) (src2 : Src2)
  | shl (rd rs1 : Reg) (src2 : Src2)
  | shr (rd rs1 : Reg) (src2 : Src2)
  | sar (rd rs1 : Reg) (src2 : Src2)
  | test (rs1 : RegOp) (src2 : Src2)
  -- control flow (42_control_flow.md)
  | jmp (t : Target)
  | jmpIfZero (rs1 : RegOp) (t : Target)
  | jmpIfNotZero (rs1 : RegOp) (t : Target)
  | jmpIfEqual (t : Target)
  | jmpIfNotEqual (t : Target)
  | jmpIfLess (t : Target)
  | jmpIfGreaterEqual (t : Target)
  | jmpIfGreater (t : Target)
  | jmpIfLessEqual (t : Target)
  | jmpIfBelow (t : Target)
  | jmpIfAboveEqual (t : Target)
  | jmpIfAbove (t : Target)
  | jmpIfBelowEqual (t : Target)
  | call (t : Target)
  | ret
  -- load and store (43_load_store.md)
  | load (rd : RegOp) (m : MemOp)
  | store (rs2 : RegOp) (m : MemOp)
  | loadb (rd : RegOp) (m : MemOp)
  | storeb (rs2 : RegOp) (m : MemOp)
  | loadh (rd : RegOp) (m : MemOp)
  | storeh (rs2 : RegOp) (m : MemOp)
  | loadw (rd : RegOp) (m : MemOp)
  | storew (rs2 : RegOp) (m : MemOp)
  -- miscellaneous (44_misc.md)
  | nop
  | halt
  | syscall
  | trap
  deriving DecidableEq, Repr

/-- Why bytes are not an instruction: one name per check of `DecodeAt` (R106), in the order the checks are made. -/
inductive DecodeCause where
  /-- steps 1 and 8: the instruction starts or ends outside the code range -/
  | truncated
  /-- step 3: the opcode byte is not in the table of R105 -/
  | unknownOpcode
  /-- step 4: an operand kind 0xA to 0xF -/
  | reservedOperandKind
  /-- step 5: the pair of kinds is not valid for the class of the opcode (R103) -/
  | operandKindNotValid
  /-- step 6: bit 7 of the size byte (R95) -/
  | extendedSize
  /-- step 7: the size byte is not the length the format byte gives (R96) -/
  | sizeMismatch
  /-- step 9: a nonzero must-be-zero nibble (R97, R102) or a reg8 value above 15 (R98) -/
  | invalidRegisterField
  deriving DecidableEq, Repr

end Sys2Proof
end

