-- ==== Sys2Proof/Config.lean ====
section
/-! DEFINITION. What an implementation fixes (the parameters of R8), what the loader fixes (R61, R381), and the one
free value of this hardware: the text of an error message (U14 of 93_implementation_defined.md). -/

namespace Sys2Proof

/-- The configuration record of `create(config)` (R8), with the defaults the spec decides (D2). XLEN = 64 and
NREGS = 16 are fixed and appear in the types. `Config.wf` holds the constraints. -/
structure Config where
  /-- MEM_SIZE, bytes of main memory -/
  memSize : Nat := 0x100000
  /-- FETCH_BUF_CAP -/
  fetchBufCap : Nat := 4
  /-- BTB_SIZE -/
  btbSize : Nat := 64
  /-- PHT_SIZE -/
  phtSize : Nat := 64
  /-- PHT_INIT: 0 to 3 by its type -/
  phtInit : BitVec 2 := 1
  /-- RAS_DEPTH -/
  rasDepth : Nat := 8
  /-- LINE_SIZE, bytes of a cache line -/
  lineSize : Nat := 64
  /-- NUM_SETS -/
  numSets : Nat := 64
  /-- WAYS, lines per set -/
  ways : Nat := 1
  /-- WRITE_BACK: true write-back, false write-through -/
  writeBack : Bool := true
  /-- MISS_PENALTY, stall ticks of a load miss -/
  missPenalty : Nat := 5
  /-- SB_CAP, store-buffer entries -/
  sbCap : Nat := 8
  deriving DecidableEq, Repr

/-- What `load` installs beside the memory image (R61, R381): the code range, the data range and the entry address.
The spec leaves every one of them OPEN (R8). -/
structure Layout where
  codeBase : Nat
  codeLen : Nat
  dataBase : Nat
  dataLen : Nat
  entry : Word
  deriving DecidableEq, Repr

/-- CODE_END (R61). -/
def Layout.codeEnd (l : Layout) : Nat := l.codeBase + l.codeLen

/-- DATA_END (R61). -/
def Layout.dataEnd (l : Layout) : Nat := l.dataBase + l.dataLen

/-- Before any `load`: no range holds an address. -/
def Layout.unloaded : Layout :=
  { codeBase := 0, codeLen := 0, dataBase := 0, dataLen := 0, entry := 0 }

/-- DESIGN CHOICE (log 2): the layout of `State.reset`. The bases are those R71 names for the test programs; the
code range runs to the end of memory because the spec gives no length. -/
def Layout.standard : Layout :=
  { codeBase := 0x10000, codeLen := 0xF0000, dataBase := 0, dataLen := 0x10000, entry := 0x10000 }

/-- Which check of R68 an access fails, in the order they are made. -/
inductive AccessCheck where
  | range
  | alignment
  deriving DecidableEq, Repr

/-- What the message of an error is about: the failing check (D38) and, for a memory access, its address (R362:
"the message carries `ea`"). The TEXT is not normative (R362). -/
inductive Message where
  | decode (cause : DecodeCause)
  | memory (check : AccessCheck) (ea : Word)
  | control
  | internal
  deriving DecidableEq, Repr

/-- FREE VALUE (U14, log 9): the text of an error's message. "any value (a string); only the kind and the address
fields are normative". No statement rests on it. -/
opaque Config.messageText : Message → String

end Sys2Proof
end

