-- ==== Sys2Proof/WellFormed.lean ====
section
/-! DEFINITION. The checks on terms: on an instruction (the one field whose type admits more than the spec does, the
reg8 byte of R98), on a configuration (the constraints column of R8) and on what a loader hands over (R61, U20). -/

namespace Sys2Proof

/-- A reg8 byte names one of the sixteen registers (R98). -/
def RegOp.wf : RegOp → Bool
  | .reg4 _ => true
  | .reg8 b => b.toNat < 16

/-- As `RegOp.wf`, for the second source. -/
def Src2.wf : Src2 → Bool
  | .reg8 b => b.toNat < 16
  | _ => true

/-- Every reg8 byte of the instruction names a register. -/
def Instr.wf : Instr → Bool
  | .add _ _ s => s.wf
  | .sub _ _ s => s.wf
  | .mul _ _ s => s.wf
  | .div _ _ s => s.wf
  | .mod _ _ s => s.wf
  | .neg d s => d.wf && s.wf
  | .mov d s => d.wf && s.wf
  | .cmp a s => a.wf && s.wf
  | .and _ _ s => s.wf
  | .or _ _ s => s.wf
  | .xor _ _ s => s.wf
  | .not d s => d.wf && s.wf
  | .shl _ _ s => s.wf
  | .shr _ _ s => s.wf
  | .sar _ _ s => s.wf
  | .test a s => a.wf && s.wf
  | .jmp _ => true
  | .jmpIfZero a _ => a.wf
  | .jmpIfNotZero a _ => a.wf
  | .jmpIfEqual _ => true
  | .jmpIfNotEqual _ => true
  | .jmpIfLess _ => true
  | .jmpIfGreaterEqual _ => true
  | .jmpIfGreater _ => true
  | .jmpIfLessEqual _ => true
  | .jmpIfBelow _ => true
  | .jmpIfAboveEqual _ => true
  | .jmpIfAbove _ => true
  | .jmpIfBelowEqual _ => true
  | .call _ => true
  | .ret => true
  | .load d _ => d.wf
  | .store d _ => d.wf
  | .loadb d _ => d.wf
  | .storeb d _ => d.wf
  | .loadh d _ => d.wf
  | .storeh d _ => d.wf
  | .loadw d _ => d.wf
  | .storew d _ => d.wf
  | .nop => true
  | .halt => true
  | .syscall => true
  | .trap => true

/-- The constraints of R8 (U21). LINE_SIZE is a power of two from 16 to 64, so 16, 32 or 64. -/
def Config.wf (c : Config) : Bool :=
  decide (2 ^ 20 ≤ c.memSize) && decide (c.memSize ≤ 2 ^ 32)
    && decide (1 ≤ c.fetchBufCap) && decide (1 ≤ c.btbSize) && decide (1 ≤ c.phtSize)
    && decide (1 ≤ c.rasDepth)
    && (c.lineSize == 16 || c.lineSize == 32 || c.lineSize == 64)
    && (c.numSets == 2 ^ c.numSets.log2) && decide (1 ≤ c.ways) && decide (1 ≤ c.sbCap)

/-- What R61 and U20 ask of a load: both ranges inside memory, and disjoint. The entry is NOT checked: an entry
outside the code range is a `DecodeError` at the first fetch (R401, D2). -/
def Layout.wf (c : Config) (l : Layout) : Bool :=
  decide (l.codeEnd ≤ c.memSize) && decide (l.dataEnd ≤ c.memSize)
    && (decide (l.codeEnd ≤ l.dataBase) || decide (l.dataEnd ≤ l.codeBase) || l.codeLen == 0 || l.dataLen == 0)

end Sys2Proof
end

