-- ==== Sys2Proof/Decode.lean ====
section
/-! DEFINITION. From bytes to instructions and back: the operand kinds (R94), the operand classes (R103), the opcode
map (R105), the decode function (R106), total and rejecting by name, and after it the encoder. -/

namespace Sys2Proof

/-! ## Bytes -/

/-- The unsigned number that a little-endian byte sequence stands for (R63, R99). -/
def leNat : List Byte → Nat
  | [] => 0
  | b :: bs => b.toNat + 256 * leNat bs

/-- The `n` low bytes of a number, lowest first (R63). -/
def leBytes : Nat → Nat → List Byte
  | 0, _ => []
  | n + 1, v => BitVec.ofNat 8 v :: leBytes n (v / 256)

/-- The high nibble of a byte, `b[7:4]`. -/
def hiNibble (b : Byte) : Nat := b.toNat / 16

/-- The low nibble of a byte, `b[3:0]`. -/
def loNibble (b : Byte) : Nat := b.toNat % 16

/-- A register number read from a field. Fields of four bits are always below 16. -/
def regOfNat (n : Nat) : Reg := Fin.ofNat 16 n

/-! ## Operand kinds (R94) -/

/-- The ten operand kinds of R94. -/
inductive OperandKind where
  | none | reg4 | reg8 | imm8 | imm16 | imm32 | imm64 | pcRel | absAddr | regOff
  deriving DecidableEq, Repr

/-- The kind a nibble of the format byte names (R93, R94); 0xA to 0xF are reserved. -/
def kindOfNibble : Nat → Option OperandKind
  | 0 => some .none
  | 1 => some .reg4
  | 2 => some .reg8
  | 3 => some .imm8
  | 4 => some .imm16
  | 5 => some .imm32
  | 6 => some .imm64
  | 7 => some .pcRel
  | 8 => some .absAddr
  | 9 => some .regOff
  | _ => Option.none

/-- The kind numbers of R94. -/
def OperandKind.nibble : OperandKind → Nat
  | .none => 0
  | .reg4 => 1
  | .reg8 => 2
  | .imm8 => 3
  | .imm16 => 4
  | .imm32 => 5
  | .imm64 => 6
  | .pcRel => 7
  | .absAddr => 8
  | .regOff => 9

/-- `argbytes` of R94. -/
def OperandKind.argBytes : OperandKind → Nat
  | .none => 0
  | .reg4 => 1
  | .reg8 => 1
  | .imm8 => 1
  | .imm16 => 2
  | .imm32 => 4
  | .imm64 => 8
  | .pcRel => 4
  | .absAddr => 4
  | .regOff => 5

/-- A kind that names one register where a register stands alone (R98). -/
def OperandKind.isReg : OperandKind → Bool
  | .reg4 => true
  | .reg8 => true
  | _ => false

/-- The kinds 1 to 6, which a second source may have (R103). -/
def OperandKind.isSrc2 : OperandKind → Bool
  | .reg4 => true
  | .reg8 => true
  | .imm8 => true
  | .imm16 => true
  | .imm32 => true
  | .imm64 => true
  | _ => false

/-- The kinds 7 and 8 of a direct target (R103). -/
def OperandKind.isTarget : OperandKind → Bool
  | .pcRel => true
  | .absAddr => true
  | _ => false

/-- The kinds 8 and 9 of a memory operand (R103). -/
def OperandKind.isMem : OperandKind → Bool
  | .absAddr => true
  | .regOff => true
  | _ => false

/-! ## Opcodes and classes (R103, R105) -/

/-- One row of the opcode map: the class of R103 and the constructor the row stands for. -/
inductive OpcodeRow where
  | a3 (mk : Reg → Reg → Src2 → Instr)
  | a2d (mk : RegOp → Src2 → Instr)
  | a2c (mk : RegOp → Src2 → Instr)
  | j (mk : Target → Instr)
  | jr (mk : RegOp → Target → Instr)
  | ld (mk : RegOp → MemOp → Instr)
  | st (mk : RegOp → MemOp → Instr)
  | n (i : Instr)

/-- The opcode map of R105. Any other byte, the extension prefix 0xF0 to 0xFF among them, is no opcode (R107). -/
def opcodeRow : Nat → Option OpcodeRow
  | 0x00 => some (.a3 .add)
  | 0x01 => some (.a3 .sub)
  | 0x02 => some (.a3 .mul)
  | 0x03 => some (.a3 .div)
  | 0x04 => some (.a3 .mod)
  | 0x05 => some (.a2d .neg)
  | 0x06 => some (.a2d .mov)
  | 0x07 => some (.a2c .cmp)
  | 0x20 => some (.a3 .and)
  | 0x21 => some (.a3 .or)
  | 0x22 => some (.a3 .xor)
  | 0x23 => some (.a2d .not)
  | 0x24 => some (.a3 .shl)
  | 0x25 => some (.a3 .shr)
  | 0x26 => some (.a3 .sar)
  | 0x27 => some (.a2c .test)
  | 0x40 => some (.j .jmp)
  | 0x41 => some (.jr .jmpIfZero)
  | 0x42 => some (.jr .jmpIfNotZero)
  | 0x43 => some (.j .jmpIfEqual)
  | 0x44 => some (.j .jmpIfNotEqual)
  | 0x45 => some (.j .jmpIfLess)
  | 0x46 => some (.j .jmpIfGreaterEqual)
  | 0x47 => some (.j .jmpIfGreater)
  | 0x48 => some (.j .jmpIfLessEqual)
  | 0x49 => some (.j .jmpIfBelow)
  | 0x4A => some (.j .jmpIfAboveEqual)
  | 0x4B => some (.j .jmpIfAbove)
  | 0x4C => some (.j .jmpIfBelowEqual)
  | 0x50 => some (.j .call)
  | 0x51 => some (.n .ret)
  | 0x60 => some (.ld .load)
  | 0x61 => some (.st .store)
  | 0x62 => some (.ld .loadb)
  | 0x63 => some (.st .storeb)
  | 0x64 => some (.ld .loadh)
  | 0x65 => some (.st .storeh)
  | 0x66 => some (.ld .loadw)
  | 0x67 => some (.st .storew)
  | 0x80 => some (.n .nop)
  | 0x81 => some (.n .halt)
  | 0x82 => some (.n .syscall)
  | 0x83 => some (.n .trap)
  | _ => none

/-- The pairs of operand kinds valid for a class (R103). -/
def OpcodeRow.kindsValid : OpcodeRow → OperandKind → OperandKind → Bool
  | .a3 _, k1, k2 => k1 == .reg4 && k2.isSrc2
  | .a2d _, k1, k2 => k1.isReg && k2.isSrc2
  | .a2c _, k1, k2 => k1.isReg && k2.isSrc2
  | .j _, k1, k2 => k1.isTarget && k2 == .none
  | .jr _, k1, k2 => k1.isReg && k2.isTarget
  | .ld _, k1, k2 => k1.isReg && k2.isMem
  | .st _, k1, k2 => k1.isReg && k2.isMem
  | .n _, k1, k2 => k1 == .none && k2 == .none

/-! ## Operand arguments (R97 to R102) -/

/-- A register that stands alone: reg4 with a zero low nibble (R97) or reg8 of value at most 15 (R98). -/
def parseReg : OperandKind → List Byte → Except DecodeCause RegOp
  | .reg4, [b] =>
    if loNibble b = 0 then .ok (.reg4 (regOfNat (hiNibble b))) else .error .invalidRegisterField
  | .reg8, [b] => if b.toNat < 16 then .ok (.reg8 b) else .error .invalidRegisterField
  | _, _ => .error .operandKindNotValid

/-- A second source (R97, R98, R99). -/
def parseSrc2 : OperandKind → List Byte → Except DecodeCause Src2
  | .reg4, [b] =>
    if loNibble b = 0 then .ok (.reg4 (regOfNat (hiNibble b))) else .error .invalidRegisterField
  | .reg8, [b] => if b.toNat < 16 then .ok (.reg8 b) else .error .invalidRegisterField
  | .imm8, bs => .ok (.imm8 (BitVec.ofNat 8 (leNat bs)))
  | .imm16, bs => .ok (.imm16 (BitVec.ofNat 16 (leNat bs)))
  | .imm32, bs => .ok (.imm32 (BitVec.ofNat 32 (leNat bs)))
  | .imm64, bs => .ok (.imm64 (BitVec.ofNat 64 (leNat bs)))
  | _, _ => .error .operandKindNotValid

/-- A direct target (R100, R101). -/
def parseTarget : OperandKind → List Byte → Except DecodeCause Target
  | .pcRel, bs => .ok (.pcRel (BitVec.ofNat 32 (leNat bs)))
  | .absAddr, bs => .ok (.abs (BitVec.ofNat 32 (leNat bs)))
  | _, _ => .error .operandKindNotValid

/-- A memory operand (R101, R102). -/
def parseMem : OperandKind → List Byte → Except DecodeCause MemOp
  | .absAddr, bs => .ok (.abs (BitVec.ofNat 32 (leNat bs)))
  | .regOff, b :: bs =>
    if loNibble b = 0 then .ok (.regOff (regOfNat (hiNibble b)) (BitVec.ofNat 32 (leNat bs)))
    else .error .invalidRegisterField
  | _, _ => .error .operandKindNotValid

/-- Step 9 and 10 of R106: the operands of an instruction of the given row, from the arguments of operand 1 and of
operand 2. In class A3 the byte of operand 1 packs `rd` and `rs1` (R104). -/
def parseOperands (k1 k2 : OperandKind) (arg1 arg2 : List Byte) : OpcodeRow → Except DecodeCause Instr
  | .a3 mk =>
    match arg1 with
    | [b] =>
      match parseSrc2 k2 arg2 with
      | .ok s => .ok (mk (regOfNat (hiNibble b)) (regOfNat (loNibble b)) s)
      | .error e => .error e
    | _ => .error .operandKindNotValid
  | .a2d mk =>
    match parseReg k1 arg1, parseSrc2 k2 arg2 with
    | .ok d, .ok s => .ok (mk d s)
    | .error e, _ => .error e
    | _, .error e => .error e
  | .a2c mk =>
    match parseReg k1 arg1, parseSrc2 k2 arg2 with
    | .ok a, .ok s => .ok (mk a s)
    | .error e, _ => .error e
    | _, .error e => .error e
  | .j mk =>
    match parseTarget k1 arg1 with
    | .ok t => .ok (mk t)
    | .error e => .error e
  | .jr mk =>
    match parseReg k1 arg1, parseTarget k2 arg2 with
    | .ok a, .ok t => .ok (mk a t)
    | .error e, _ => .error e
    | _, .error e => .error e
  | .ld mk =>
    match parseReg k1 arg1, parseMem k2 arg2 with
    | .ok d, .ok m => .ok (mk d m)
    | .error e, _ => .error e
    | _, .error e => .error e
  | .st mk =>
    match parseReg k1 arg1, parseMem k2 arg2 with
    | .ok d, .ok m => .ok (mk d m)
    | .error e, _ => .error e
    | _, .error e => .error e
  | .n i => .ok i

/-- Steps 6 to 10 of R106, once the row and the two kinds are known to fit. `args` are the bytes after the header. -/
def decodeArgs (row : OpcodeRow) (k1 k2 : OperandKind) (size : Byte) (args : List Byte) :
    Except DecodeCause Instr :=
  if size.toNat ≥ 128 then .error .extendedSize
  else if size.toNat ≠ 3 + k1.argBytes + k2.argBytes then .error .sizeMismatch
  else if args.length < k1.argBytes + k2.argBytes then .error .truncated
  else parseOperands k1 k2 (args.take k1.argBytes) ((args.drop k1.argBytes).take k2.argBytes) row

/-- `DecodeAt` (R106) on the code bytes from an address up to CODE_END: total, the checks in the order of R106, the
first that fails names the error. Bytes after the instruction's last are ignored. -/
def decode : List Byte → Except DecodeCause Instr
  | opcode :: format :: size :: args =>
    match opcodeRow opcode.toNat with
    | none => .error .unknownOpcode
    | some row =>
      match kindOfNibble (hiNibble format), kindOfNibble (loNibble format) with
      | some k1, some k2 =>
        if row.kindsValid k1 k2 then decodeArgs row k1 k2 size args else .error .operandKindNotValid
      | _, _ => .error .reservedOperandKind
  | _ => .error .truncated

/-- The longest instruction (R90), and so the bytes a fetch can need. -/
def maxInstrBytes : Nat := 12

/-- The instruction the decoder reads from an instruction whose bits are `w`, bit 0 the least significant bit of the
first byte; every bit above `nbits` is 0. -/
def decodeTableWord (nbits w : Nat) : Option Instr :=
  match decode (leBytes maxInstrBytes (w % 2 ^ nbits)) with
  | .ok i => some i
  | .error _ => none

/-! ## The encoder -/

/-- The opcode byte of an instruction (R105). -/
def Instr.opcode : Instr → Nat
  | .add _ _ _ => 0x00
  | .sub _ _ _ => 0x01
  | .mul _ _ _ => 0x02
  | .div _ _ _ => 0x03
  | .mod _ _ _ => 0x04
  | .neg _ _ => 0x05
  | .mov _ _ => 0x06
  | .cmp _ _ => 0x07
  | .and _ _ _ => 0x20
  | .or _ _ _ => 0x21
  | .xor _ _ _ => 0x22
  | .not _ _ => 0x23
  | .shl _ _ _ => 0x24
  | .shr _ _ _ => 0x25
  | .sar _ _ _ => 0x26
  | .test _ _ => 0x27
  | .jmp _ => 0x40
  | .jmpIfZero _ _ => 0x41
  | .jmpIfNotZero _ _ => 0x42
  | .jmpIfEqual _ => 0x43
  | .jmpIfNotEqual _ => 0x44
  | .jmpIfLess _ => 0x45
  | .jmpIfGreaterEqual _ => 0x46
  | .jmpIfGreater _ => 0x47
  | .jmpIfLessEqual _ => 0x48
  | .jmpIfBelow _ => 0x49
  | .jmpIfAboveEqual _ => 0x4A
  | .jmpIfAbove _ => 0x4B
  | .jmpIfBelowEqual _ => 0x4C
  | .call _ => 0x50
  | .ret => 0x51
  | .load _ _ => 0x60
  | .store _ _ => 0x61
  | .loadb _ _ => 0x62
  | .storeb _ _ => 0x63
  | .loadh _ _ => 0x64
  | .storeh _ _ => 0x65
  | .loadw _ _ => 0x66
  | .storew _ _ => 0x67
  | .nop => 0x80
  | .halt => 0x81
  | .syscall => 0x82
  | .trap => 0x83

/-- The kind of a lone register operand. -/
def RegOp.kind : RegOp → OperandKind
  | .reg4 _ => .reg4
  | .reg8 _ => .reg8

/-- The argument byte of a lone register operand (R97, R98). -/
def RegOp.arg : RegOp → List Byte
  | .reg4 r => [BitVec.ofNat 8 (16 * r.val)]
  | .reg8 b => [b]

/-- The kind of a second source. -/
def Src2.kind : Src2 → OperandKind
  | .reg4 _ => .reg4
  | .reg8 _ => .reg8
  | .imm8 _ => .imm8
  | .imm16 _ => .imm16
  | .imm32 _ => .imm32
  | .imm64 _ => .imm64

/-- The argument bytes of a second source (R97 to R99). -/
def Src2.arg : Src2 → List Byte
  | .reg4 r => [BitVec.ofNat 8 (16 * r.val)]
  | .reg8 b => [b]
  | .imm8 v => leBytes 1 v.toNat
  | .imm16 v => leBytes 2 v.toNat
  | .imm32 v => leBytes 4 v.toNat
  | .imm64 v => leBytes 8 v.toNat

/-- The kind of a direct target. -/
def Target.kind : Target → OperandKind
  | .pcRel _ => .pcRel
  | .abs _ => .absAddr

/-- The argument bytes of a direct target (R100, R101). -/
def Target.arg : Target → List Byte
  | .pcRel d => leBytes 4 d.toNat
  | .abs a => leBytes 4 a.toNat

/-- The kind of a memory operand. -/
def MemOp.kind : MemOp → OperandKind
  | .regOff _ _ => .regOff
  | .abs _ => .absAddr

/-- The argument bytes of a memory operand (R101, R102). -/
def MemOp.arg : MemOp → List Byte
  | .regOff b off => BitVec.ofNat 8 (16 * b.val) :: leBytes 4 off.toNat
  | .abs a => leBytes 4 a.toNat

/-- The byte of operand 1 of a class A3 instruction: `rd` high, `rs1` low (R104). -/
def a3Arg (rd rs1 : Reg) : List Byte := [BitVec.ofNat 8 (16 * rd.val + rs1.val)]

/-- The two operands as encoded: kind and argument bytes of each (R103, R104, R114). -/
def Instr.operands : Instr → (OperandKind × List Byte) × (OperandKind × List Byte)
  | .add d a s => ((.reg4, a3Arg d a), (s.kind, s.arg))
  | .sub d a s => ((.reg4, a3Arg d a), (s.kind, s.arg))
  | .mul d a s => ((.reg4, a3Arg d a), (s.kind, s.arg))
  | .div d a s => ((.reg4, a3Arg d a), (s.kind, s.arg))
  | .mod d a s => ((.reg4, a3Arg d a), (s.kind, s.arg))
  | .neg d s => ((d.kind, d.arg), (s.kind, s.arg))
  | .mov d s => ((d.kind, d.arg), (s.kind, s.arg))
  | .cmp a s => ((a.kind, a.arg), (s.kind, s.arg))
  | .and d a s => ((.reg4, a3Arg d a), (s.kind, s.arg))
  | .or d a s => ((.reg4, a3Arg d a), (s.kind, s.arg))
  | .xor d a s => ((.reg4, a3Arg d a), (s.kind, s.arg))
  | .not d s => ((d.kind, d.arg), (s.kind, s.arg))
  | .shl d a s => ((.reg4, a3Arg d a), (s.kind, s.arg))
  | .shr d a s => ((.reg4, a3Arg d a), (s.kind, s.arg))
  | .sar d a s => ((.reg4, a3Arg d a), (s.kind, s.arg))
  | .test a s => ((a.kind, a.arg), (s.kind, s.arg))
  | .jmp t => ((t.kind, t.arg), (.none, []))
  | .jmpIfZero a t => ((a.kind, a.arg), (t.kind, t.arg))
  | .jmpIfNotZero a t => ((a.kind, a.arg), (t.kind, t.arg))
  | .jmpIfEqual t => ((t.kind, t.arg), (.none, []))
  | .jmpIfNotEqual t => ((t.kind, t.arg), (.none, []))
  | .jmpIfLess t => ((t.kind, t.arg), (.none, []))
  | .jmpIfGreaterEqual t => ((t.kind, t.arg), (.none, []))
  | .jmpIfGreater t => ((t.kind, t.arg), (.none, []))
  | .jmpIfLessEqual t => ((t.kind, t.arg), (.none, []))
  | .jmpIfBelow t => ((t.kind, t.arg), (.none, []))
  | .jmpIfAboveEqual t => ((t.kind, t.arg), (.none, []))
  | .jmpIfAbove t => ((t.kind, t.arg), (.none, []))
  | .jmpIfBelowEqual t => ((t.kind, t.arg), (.none, []))
  | .call t => ((t.kind, t.arg), (.none, []))
  | .ret => ((.none, []), (.none, []))
  | .load d m => ((d.kind, d.arg), (m.kind, m.arg))
  | .store d m => ((d.kind, d.arg), (m.kind, m.arg))
  | .loadb d m => ((d.kind, d.arg), (m.kind, m.arg))
  | .storeb d m => ((d.kind, d.arg), (m.kind, m.arg))
  | .loadh d m => ((d.kind, d.arg), (m.kind, m.arg))
  | .storeh d m => ((d.kind, d.arg), (m.kind, m.arg))
  | .loadw d m => ((d.kind, d.arg), (m.kind, m.arg))
  | .storew d m => ((d.kind, d.arg), (m.kind, m.arg))
  | .nop => ((.none, []), (.none, []))
  | .halt => ((.none, []), (.none, []))
  | .syscall => ((.none, []), (.none, []))
  | .trap => ((.none, []), (.none, []))

/-- The kind of operand 1. -/
def Instr.kind1 (i : Instr) : OperandKind := i.operands.1.1

/-- The kind of operand 2. -/
def Instr.kind2 (i : Instr) : OperandKind := i.operands.2.1

/-- `len = 3 + argbytes(k1) + argbytes(k2)` (R96). -/
def Instr.length (i : Instr) : Nat := 3 + i.kind1.argBytes + i.kind2.argBytes

/-- The bytes of an instruction: opcode, format, size, arguments of operand 1, then of operand 2 (R90). -/
def encode (i : Instr) : List Byte :=
  BitVec.ofNat 8 i.opcode
    :: BitVec.ofNat 8 (16 * i.kind1.nibble + i.kind2.nibble)
    :: BitVec.ofNat 8 i.length
    :: (i.operands.1.2 ++ i.operands.2.2)

end Sys2Proof
end

