-- ==== Sys2Proof/Machine/State.lean ====
section
/-! DEFINITION. The state of the PunkVM core as plain data (10_state.md): the configuration and the loader's layout,
the architectural state (R20 to R28), the micro-architectural state (R30 to R44), the metrics (R45), and the state
after reset (R46). -/

namespace Sys2Proof.Machine

/-- The four flags (R24). No numeric layout of a status word is given (N4), so none is modelled. -/
structure Flags where
  z : Bool
  n : Bool
  c : Bool
  v : Bool
  deriving DecidableEq, Repr

/-- Access widths in bytes (R69). -/
inductive Width where
  | b1 | b2 | b4 | b8
  deriving DecidableEq, Repr

/-- The number of bytes of a width. -/
def Width.bytes : Width → Nat
  | .b1 => 1
  | .b2 => 2
  | .b4 => 4
  | .b8 => 8

/-- Why a retired instruction stopped the engine (R27, R366). -/
inductive StopReason where
  | halt | syscall | trap
  deriving DecidableEq, Repr

/-- The error kinds a status can carry (R27). -/
inductive ErrorKind where
  | decodeError | memoryFault | controlFault | internalInvariantViolated
  deriving DecidableEq, Repr

/-- Run status (R27). `halted` also carries the pc of the stopping instruction, which R366 makes part of the report
(log 12). -/
inductive Status where
  | running
  | halted (reason : StopReason) (exitCode : Word) (pc : Word)
  | error (kind : ErrorKind) (pc : Word) (message : Message)
  | budgetExhausted
  deriving DecidableEq, Repr

/-- The decoded µop (R91). `instr` stands for the mnemonic; `rd`, `rs1`, `rs2`, `imm`, `target`, `off`, `absaddr` are
the operand values in resolved form. -/
structure Uop where
  instr : Instr
  k1 : OperandKind
  k2 : OperandKind
  len : Nat
  pc : Word
  rd : Option Reg
  rs1 : Option Reg
  rs2 : Option Reg
  imm : Option Word
  target : Option Word
  off : Option Word
  absaddr : Option Word
  deriving DecidableEq, Repr

/-- An error recorded in a latch (R32, R363): the kind and what the message is about. -/
structure ErrorInfo where
  kind : ErrorKind
  message : Message
  deriving DecidableEq, Repr

/-- An entry of the fetch buffer, and the DE latch (R32 to R34). A bubble is `none` of this type, so an entry is
always valid. `uop` and `predNext` are absent in a poison entry (R238), which has no decoded instruction. The length
of R32 is `uop.len`. -/
structure FetchEntry where
  uop : Option Uop
  pc : Word
  fault : Option ErrorInfo
  predNext : Option Word
  deriving DecidableEq, Repr

/-- The memory part of the EM latch (R35): `is_load` and `is_store` are the two constructors, with the size, the
effective address and, for a store, the data. -/
inductive MemAccess where
  | load (size : Width) (ea : Word)
  | store (size : Width) (ea : Word) (data : Word)
  deriving DecidableEq, Repr

/-- The EM latch (R35). `access = none` is neither load nor store. -/
structure ExLatch where
  uop : Option Uop
  pc : Word
  fault : Option ErrorInfo
  rd : Option Reg
  result : Option Word
  flags : Option Flags
  access : Option MemAccess
  deriving DecidableEq, Repr

/-- The MW latch (R36): the EM fields and the age of the store-buffer entry that a store pushed. -/
structure MemLatch extends ExLatch where
  sbAge : Option Nat
  deriving DecidableEq, Repr

/-- A BTB entry with `valid = 1` (R40). An invalid entry is `none`: its other fields are never read (U12). -/
structure BtbEntry where
  tag : Word
  target : Word
  last : Bool
  deriving DecidableEq, Repr

/-- An L1 line with `valid = 1` (R43). An invalid line is `none`: its tag and data are never read (U12). -/
structure Line where
  tag : Nat
  dirty : Bool
  data : List Byte
  age : Nat
  deriving DecidableEq, Repr

/-- A store-buffer entry (R44). -/
structure SbEntry where
  addr : Word
  size : Width
  value : Word
  age : Nat
  retired : Bool
  deriving DecidableEq, Repr

/-- The metrics (R45, R371, R372). -/
structure Metrics where
  cycles : Nat
  instructionsCommitted : Nat
  stallsData : Nat
  stallsLoadUse : Nat
  stallsStructural : Nat
  stallsBranch : Nat
  hazardsDetected : Nat
  forwards : Nat
  branchAttempted : Nat
  branchCorrect : Nat
  loadHits : Nat
  loadMisses : Nat
  storeHits : Nat
  storeMisses : Nat
  storeBufferForwards : Nat
  deriving DecidableEq, Repr

/-- Every metric 0 (R46). -/
def Metrics.zero : Metrics :=
  { cycles := 0, instructionsCommitted := 0, stallsData := 0, stallsLoadUse := 0, stallsStructural := 0,
    stallsBranch := 0, hazardsDetected := 0, forwards := 0, branchAttempted := 0, branchCorrect := 0,
    loadHits := 0, loadMisses := 0, storeHits := 0, storeMisses := 0, storeBufferForwards := 0 }

/-- Main memory M (R28): (address, byte) pairs, addresses strictly rising, no byte equal to what an unlisted address
reads as. `Memory.wf` states the form. -/
abbrev Memory := List Host.Cell

/-- The machine. -/
structure State where
  /-- the configuration of `create` (R8) -/
  cfg : Config
  /-- what `load` installed (R381) -/
  layout : Layout
  /-- a `load` has been accepted (the MODEL's field: U23 refuses a second one; log 20) -/
  loaded : Bool
  /-- x[0] to x[15] (R20) -/
  regs : Vector Word 16
  /-- FLAGS (R24) -/
  flags : Flags
  /-- the architectural pc (R23) -/
  pc : Word
  /-- the run status (R27) -/
  status : Status
  /-- main memory M (R28) -/
  mem : Memory
  /-- pc_fetch (R31) -/
  pcFetch : Word
  /-- fetch_halted (R31) -/
  fetchHalted : Bool
  /-- the fetch buffer FB, oldest first; its head is the FD latch (R31, R33) -/
  fb : List FetchEntry
  /-- the DE latch (R34) -/
  de : Option FetchEntry
  /-- the EM latch (R35) -/
  em : Option ExLatch
  /-- the MW latch (R36) -/
  mw : Option MemLatch
  /-- mem_waiting (R39) -/
  memWaiting : Bool
  /-- mem_wait (R39) -/
  memWait : Nat
  /-- the BTB (R40) -/
  btb : List (Option BtbEntry)
  /-- the PHT (R41) -/
  pht : List (BitVec 2)
  /-- the RAS, oldest first (R42) -/
  ras : List Word
  /-- the L1 cache: sets of ways (R43) -/
  l1 : List (List (Option Line))
  /-- the store buffer, oldest first (R44) -/
  sb : List SbEntry
  /-- sb_seq (R44) -/
  sbSeq : Nat
  /-- the metrics (R45) -/
  metrics : Metrics
  deriving DecidableEq, Repr

/-- The reasons a step of the model stops without a next state. The errors of R360 are NOT among them: they are next
states whose `status` is `error` (log 8). -/
inductive Fault where
  /-- Raised only by `tick`, when a latch holds a state that R280 calls unreachable: a fault-free latch without a
  µop, a µop without an operand its class has, or a latch that writes or forwards a register without a value
  ("e.g., forward from a bubble", R360). Safe: the machine stops where the spec says it never is (log 16). -/
  | internalInvariantViolated
  deriving DecidableEq, Repr

/-- What the model refuses. -/
inductive Refusal where
  /-- An instruction without a meaning. No arm of `exec` answers it: every row has its meaning. -/
  | notModelled (mnemonic : String)
  /-- A host operation that is allowed only when `status ≠ Running` (R383 to R385, U23). Raised by the host
  operations only. Safe. -/
  | hostCallWhileRunning
  /-- `read_register` with an id above 15 (R383, U23). Safe. -/
  | noSuchRegister (id : Nat)
  /-- `read_memory` outside `[0, MEM_SIZE)` (R384, U23). Safe. -/
  | rangeOutsideMemory (addr len : Nat)
  /-- `create` with a parameter outside the constraints of R8 (U21). Safe. -/
  | badConfiguration
  /-- `load` with ranges that overlap or leave memory (R61, U20). Safe. -/
  | badLayout
  /-- `load` of a segment that leaves memory (R381). Safe. -/
  | segmentOutsideMemory
  /-- A second `load` (U23). Safe. -/
  | alreadyLoaded
  /-- A first `load` on a created engine that has already been run: DESIGN CHOICE, the spec is silent (log 23).
  Safe. -/
  | loadAfterRun
  deriving DecidableEq, Repr

/-- Every piece of state at its reset value for a given configuration and layout (R46, R380), memory all zero;
`loaded` says whether a `load` stands behind the layout. -/
def State.initial (cfg : Config) (layout : Layout) (loaded : Bool) : State :=
  { cfg := cfg
    layout := layout
    loaded := loaded
    regs := Vector.replicate 16 0
    flags := { z := false, n := false, c := false, v := false }
    pc := layout.entry
    status := .running
    mem := []
    pcFetch := layout.entry
    fetchHalted := false
    fb := []
    de := none
    em := none
    mw := none
    memWaiting := false
    memWait := 0
    btb := List.replicate cfg.btbSize none
    pht := List.replicate cfg.phtSize cfg.phtInit
    ras := []
    l1 := List.replicate cfg.numSets (List.replicate cfg.ways none)
    sb := []
    sbSeq := 0
    metrics := Metrics.zero }

/-- The machine right after reset (R46, R400): the default configuration of R8 and the layout of log 2; memory has
nothing listed, as no program is loaded (log 3). -/
def State.reset : State := State.initial {} Layout.standard true

end Sys2Proof.Machine
end

