-- ==== Sys2Proof/Machine/Flags.lean ====
section
/-! DEFINITION. The ALU (component E): each operation a pure function of its operands giving the result and the four
flags (R130, R150, R250), and the predicates of the flag jumps (R187). Arithmetic is on unbounded integers and every
truncation is written (R10). -/

namespace Sys2Proof.Machine

/-- What the ALU produces: `(result, flags)` (R130). -/
structure AluOut where
  result : Word
  flags : Flags
  deriving DecidableEq, Repr

/-- A result with its flags: `Z = (result = 0)`, `N = result[63]` (R130), C and V as given. -/
def aluOut (result : Word) (c v : Bool) : AluOut :=
  { result := result, flags := { z := result == 0, n := result.msb, c := c, v := v } }

/-- ADD (R131). -/
def aluAdd (a b : Word) : AluOut :=
  let s := a.toNat + b.toNat
  let r : Word := BitVec.ofNat 64 s
  aluOut r (decide (s ≥ 2 ^ 64)) (a.msb == b.msb && r.msb != a.msb)

/-- SUB (R132): C is the borrow. -/
def aluSub (a b : Word) : AluOut :=
  let r : Word := BitVec.ofInt 64 ((a.toNat : Int) - (b.toNat : Int))
  aluOut r (decide (a.toNat < b.toNat)) (a.msb != b.msb && r.msb != a.msb)

/-- MUL (R133): C when the unsigned product does not fit, V when the signed product does not. -/
def aluMul (a b : Word) : AluOut :=
  let p := a.toNat * b.toNat
  let q := a.toInt * b.toInt
  aluOut (BitVec.ofNat 64 p) (decide (p ≥ 2 ^ 64)) (decide (q < -2 ^ 63) || decide (q ≥ 2 ^ 63))

/-- DIV (R134): unsigned; a zero divisor gives 0. -/
def aluDiv (a b : Word) : AluOut :=
  aluOut (if b = 0 then 0 else BitVec.ofNat 64 (a.toNat / b.toNat)) false false

/-- MOD (R135): unsigned; a zero divisor gives 0. -/
def aluMod (a b : Word) : AluOut :=
  aluOut (if b = 0 then 0 else BitVec.ofNat 64 (a.toNat - b.toNat * (a.toNat / b.toNat))) false false

/-- NEG (R136): the flags of SUB with `a = 0`. -/
def aluNeg (b : Word) : AluOut :=
  aluOut (BitVec.ofInt 64 (0 - (b.toNat : Int))) (b != 0) (b == BitVec.ofNat 64 (2 ^ 63))

/-- AND (R151). -/
def aluAnd (a b : Word) : AluOut := aluOut (a &&& b) false false

/-- OR (R152). -/
def aluOr (a b : Word) : AluOut := aluOut (a ||| b) false false

/-- XOR (R153). -/
def aluXor (a b : Word) : AluOut := aluOut (a ^^^ b) false false

/-- NOT (R154). -/
def aluNot (b : Word) : AluOut := aluOut (BitVec.ofNat 64 (2 ^ 64 - 1 - b.toNat)) false false

/-- The shift amount: the low six bits of the second source (R150). -/
def shiftAmount (b : Word) : Nat := b.toNat % 64

/-- SHL (R155): C is the last bit shifted out, 0 when the amount is 0. -/
def aluShl (a b : Word) : AluOut :=
  let n := shiftAmount b
  aluOut (BitVec.ofNat 64 (a.toNat * 2 ^ n)) (decide (n > 0) && a.getLsbD (64 - n)) false

/-- SHR (R156). -/
def aluShr (a b : Word) : AluOut :=
  let n := shiftAmount b
  aluOut (BitVec.ofNat 64 (a.toNat / 2 ^ n)) (decide (n > 0) && a.getLsbD (n - 1)) false

/-- SAR (R157): floor division of the signed value. -/
def aluSar (a b : Word) : AluOut :=
  let n := shiftAmount b
  aluOut (BitVec.ofInt 64 (a.toInt / (2 : Int) ^ n)) (decide (n > 0) && a.getLsbD (n - 1)) false

/-- The ten conditions of R187. -/
inductive Cond where
  | equal | notEqual | less | greaterEqual | greater | lessEqual | below | aboveEqual | above | belowEqual
  deriving DecidableEq, Repr

/-- The condition on FLAGS (R187). -/
def condHolds (c : Cond) (f : Flags) : Bool :=
  match c with
  | .equal => f.z
  | .notEqual => !f.z
  | .less => f.n != f.v
  | .greaterEqual => f.n == f.v
  | .greater => !f.z && f.n == f.v
  | .lessEqual => f.z || f.n != f.v
  | .below => f.c
  | .aboveEqual => !f.c
  | .above => !f.c && !f.z
  | .belowEqual => f.c || f.z

end Sys2Proof.Machine
end

