-- ==== Sys2Proof/Machine/Cache.lean ====
section
/-! DEFINITION. The L1 data cache and the store buffer (53_cache_store_buffer.md), and the memory a program sees
(`ArchMem`, 20_memory.md R70). -/

namespace Sys2Proof.Machine

/-! ## Bytes of a word -/

/-- Byte `i` of a word, `v[8i+7:8i]` (R63). -/
def wordByte (v : Word) (i : Nat) : Byte := BitVec.ofNat 8 (v.toNat / 256 ^ i)

/-- `v` with byte `i` replaced. -/
def setWordByte (v : Word) (i : Nat) (b : Byte) : Word :=
  BitVec.ofNat 64 (v.toNat % 256 ^ i + 256 ^ i * (b.toNat + 256 * (v.toNat / 256 ^ (i + 1))))

/-- The `n` low bytes of a word, in memory order (R63). -/
def wordBytes (v : Word) (n : Nat) : List Byte := leBytes n v.toNat

/-- The value of bytes in memory order, zero-extended (R63, R69). -/
def wordOfBytes (bs : List Byte) : Word := BitVec.ofNat 64 (leNat bs)

/-! ## Geometry (R320) -/

/-- `line(a)`. -/
def lineNumber (c : Config) (a : Nat) : Nat := a / c.lineSize

/-- `set(a)`. -/
def setIndex (c : Config) (a : Nat) : Nat := lineNumber c a % c.numSets

/-- `tag(a)`. -/
def tagOf (c : Config) (a : Nat) : Nat := lineNumber c a / c.numSets

/-- `offset(a)`. -/
def lineOffset (c : Config) (a : Nat) : Nat := a % c.lineSize

/-- The base address of the line with tag `t` in set `si`. -/
def lineBase (c : Config) (si t : Nat) : Nat := (t * c.numSets + si) * c.lineSize

/-! ## Lines -/

/-- The valid line in a way of a set, if there is one. -/
def lineAt (s : State) (si w : Nat) : Option Line := ((s.l1.getD si []).getD w none)

/-- Put a line into a way of a set. -/
def setLine (s : State) (si w : Nat) (l : Line) : State :=
  { s with l1 := s.l1.modify si (fun ways => ways.set w (some l)) }

/-- A valid line holds the given tag. -/
def hasTag (t : Nat) (l : Option Line) : Bool :=
  match l with
  | some l => l.tag == t
  | none => false

/-- `Lookup(a)` (R322): the way of `set(a)` that holds the line, or none. -/
def lookupWay (s : State) (a : Nat) : Option Nat :=
  (s.l1.getD (setIndex s.cfg a) []).findIdx? (hasTag (tagOf s.cfg a))

/-- The line that holds `a`, if any (R322). -/
def lookupLine (s : State) (a : Nat) : Option Line :=
  match (s.l1.getD (setIndex s.cfg a) []).find? (hasTag (tagOf s.cfg a)) with
  | some l => l
  | none => none

/-- Ages after `Touch` of way `w` (R323): the other valid ways age by one, way `w` becomes 0. -/
def touchWays (ways : List (Option Line)) (w : Nat) : List (Option Line) :=
  ways.mapIdx fun v l => l.map fun l => { l with age := if v = w then 0 else l.age + 1 }

/-- `Touch(s, w)` (R323). -/
def touch (s : State) (si w : Nat) : State :=
  { s with l1 := s.l1.modify si (fun ways => touchWays ways w) }

/-- The age of a way, 0 if it is invalid. -/
def wayAge : Option Line → Nat
  | some l => l.age
  | none => 0

/-- The largest age of a set. -/
def maxAge : List (Option Line) → Nat
  | [] => 0
  | l :: rest => max (wayAge l) (maxAge rest)

/-- The way `Install` uses (R324): the lowest-numbered invalid way, else the largest age, ties to the lowest. -/
def victimWay (ways : List (Option Line)) : Nat :=
  match ways.findIdx? Option.isNone with
  | some w => w
  | none =>
    match ways.findIdx? (fun l => wayAge l == maxAge ways) with
    | some w => w
    | none => 0

/-- Write the line in a way back to M if it is dirty (R324, "Evictions flush dirty lines to memory before reuse"). -/
def writeBackVictim (s : State) (si w : Nat) : State :=
  match lineAt s si w with
  | some l => if l.dirty then { s with mem := Memory.writeBytes s.mem (lineBase s.cfg si l.tag) l.data } else s
  | none => s

/-- `Install(a)` (R324): the new state and the way. -/
def install (s : State) (a : Nat) : State × Nat :=
  let si := setIndex s.cfg a
  let w := victimWay (s.l1.getD si [])
  let s1 := writeBackVictim s si w
  let base := lineNumber s.cfg a * s.cfg.lineSize
  let l : Line := { tag := tagOf s.cfg a, dirty := false, data := Memory.readBytes s1.mem base s.cfg.lineSize, age := 0 }
  (touch (setLine s1 si w l) si w, w)

/-- `ReadLine(s, w, a, n)` (R325). -/
def readLine (s : State) (si w a n : Nat) : Word :=
  match lineAt s si w with
  | some l => wordOfBytes ((l.data.drop (lineOffset s.cfg a)).take n)
  | none => 0

/-- Replace the bytes of a line's data from an offset on. -/
def patchData : List Byte → Nat → List Byte → List Byte
  | data, _, [] => data
  | data, o, b :: bs => patchData (data.set o b) (o + 1) bs

/-- Write bytes into the line in a way, at `offset(a)`. -/
def writeLine (s : State) (si w a : Nat) (bs : List Byte) : State :=
  match lineAt s si w with
  | some l => setLine s si w { l with data := patchData l.data (lineOffset s.cfg a) bs }
  | none => s

/-- Set the dirty bit of the line in a way. -/
def markDirty (s : State) (si w : Nat) : State :=
  match lineAt s si w with
  | some l => setLine s si w { l with dirty := true }
  | none => s

/-! ## The store buffer -/

/-- The first address after an entry. -/
def SbEntry.stop (e : SbEntry) : Nat := e.addr.toNat + e.size.bytes

/-- The entry holds a copy of the byte at `a`. -/
def SbEntry.covers (e : SbEntry) (a : Nat) : Bool := decide (e.addr.toNat ≤ a) && decide (a < e.stop)

/-- The byte ranges of the entry and of an access intersect (R333). -/
def SbEntry.overlaps (e : SbEntry) (ea n : Nat) : Bool := decide (e.addr.toNat < ea + n) && decide (ea < e.stop)

/-- The entry covers an access entirely (R333). -/
def SbEntry.coversAll (e : SbEntry) (ea n : Nat) : Bool := decide (e.addr.toNat ≤ ea) && decide (ea + n ≤ e.stop)

/-- The bytes `ea - e.addr .. ea - e.addr + n - 1` of the entry's value (R333). -/
def SbEntry.forward (e : SbEntry) (ea n : Nat) : Word :=
  BitVec.ofNat 64 (e.value.toNat / 256 ^ (ea - e.addr.toNat) % 256 ^ n)

/-- `SBSearch(ea, n)` (R333): the youngest entry that overlaps, retired or not. -/
def sbSearch (s : State) (ea n : Nat) : Option SbEntry := s.sb.reverse.find? (fun e => e.overlaps ea n)

/-- Count a drain as a hit or a miss (R330). `commit` does not count (R335). -/
def countDrain (count hit : Bool) (m : Metrics) : Metrics :=
  if count then
    if hit then { m with storeHits := m.storeHits + 1 } else { m with storeMisses := m.storeMisses + 1 }
  else m

/-- The line of `a`, for a drain (R330): a hit touches its way, a miss installs it. The new state and the way. -/
def bringLine (count : Bool) (s : State) (a : Nat) : State × Nat :=
  match lookupWay s a with
  | none => install { s with metrics := countDrain count false s.metrics } a
  | some w => (touch { s with metrics := countDrain count true s.metrics } (setIndex s.cfg a) w, w)

/-- A drained value enters the line in a way (R332): write-back marks the line dirty, write-through writes M too. -/
def storeInLine (s : State) (si w a : Nat) (bs : List Byte) : State :=
  if s.cfg.writeBack then markDirty (writeLine s si w a bs) si w
  else { writeLine s si w a bs with mem := Memory.writeBytes s.mem a bs }

/-- What a drained entry does to cache and memory (R330, R332). -/
def drainEntry (count : Bool) (s : State) (e : SbEntry) : State :=
  storeInLine (bringLine count s e.addr.toNat).1 (setIndex s.cfg e.addr.toNat) (bringLine count s e.addr.toNat).2
    e.addr.toNat (wordBytes e.value e.size.bytes)

/-- `DrainHead()` (R330): the head leaves the buffer if it is retired. -/
def drainHead (count : Bool) (s : State) : State :=
  match s.sb with
  | [] => s
  | e :: rest => if e.retired then drainEntry count { s with sb := rest } e else s

/-- The store that pushed the entry of the given age has retired (R329). -/
def markRetired (sb : List SbEntry) (age : Nat) : List SbEntry :=
  sb.map fun e => if e.age = age then { e with retired := true } else e

/-! ## The memory a program sees -/

/-- `ArchMem(a)` (R70, R334): the byte of the youngest store-buffer entry that covers `a`, else of the valid L1 line
that holds it, else of M. -/
def archByte (s : State) (a : Nat) : Byte :=
  match s.sb.reverse.find? (fun e => e.covers a) with
  | some e => wordByte e.value (a - e.addr.toNat)
  | none =>
    match (lookupLine s a).bind (fun l => l.data[lineOffset s.cfg a]?) with
    | some b => b
    | none => Memory.read s.mem a

/-- An entry with its copy of the byte at `a`, if it holds one, replaced. -/
def patchEntry (a : Nat) (b : Byte) (e : SbEntry) : SbEntry :=
  if e.covers a then { e with value := setWordByte e.value (a - e.addr.toNat) b } else e

/-- A line with its copy of a byte, if its tag is the given one, replaced. -/
def patchWay (t o : Nat) (b : Byte) (l : Option Line) : Option Line :=
  if hasTag t l then l.map fun l => { l with data := l.data.set o b } else l

/-- One byte of an architectural store: `ArchMem(a) <- b` (R70, "`MemWrite` writes it"). The byte is written wherever
the machine holds a copy of it, so that it is what every later read sees, whatever store buffer and cache hold
(log 6). With both empty, as from reset under `step`, this is the write of M. -/
def archWriteByte (s : State) (a : Nat) (b : Byte) : State :=
  { s with
    mem := Memory.write s.mem a b
    l1 := s.l1.modify (setIndex s.cfg a) (fun ways => ways.map (patchWay (tagOf s.cfg a) (lineOffset s.cfg a) b))
    sb := s.sb.map (patchEntry a b) }

/-- The `n` bytes of ArchMem from `a`. -/
def archBytes (s : State) : Nat → Nat → List Byte
  | _, 0 => []
  | a, n + 1 => archByte s a :: archBytes s (a + 1) n

/-- Store bytes into ArchMem at ascending addresses from `a`. -/
def archWriteBytes : State → Nat → List Byte → State
  | s, _, [] => s
  | s, a, b :: bs => archWriteBytes (archWriteByte s a b) (a + 1) bs

end Sys2Proof.Machine
end

