-- ==== Sys2Proof/Machine/Ops.lean ====
section
/-! DEFINITION. The named operations the meanings are made of, at the architectural level (R4, R11): registers and
flags, retiring, raising an error, stopping, the range tests, and the byte accesses of loads and stores. -/

namespace Sys2Proof.Machine

/-- What a step answers. -/
abbrev Result := Host.Outcome State Fault Refusal

/-! ## Registers, flags, pc -/

/-- `x[r]` (R20). No register is hard-wired. -/
def State.reg (s : State) (r : Reg) : Word := s.regs.get r

/-- `x[r] <- v` (R11). -/
def State.setReg (s : State) (r : Reg) (v : Word) : State := { s with regs := s.regs.set r v }

/-- `FLAGS <- f`: all four at once (R24). -/
def State.setFlags (s : State) (f : Flags) : State := { s with flags := f }

/-- The link register R15 (R22). -/
def linkReg : Reg := 15

/-- The register the exit code is read from (R366). -/
def exitReg : Reg := 0

/-- `pc + len`, 64 bits (R23). -/
def seqPc (s : State) (len : Nat) : Word := s.pc + BitVec.ofNat 64 len

/-! ## Retiring, raising, stopping -/

/-- One more instruction has retired (R372). -/
def Metrics.commit (m : Metrics) : Metrics := { m with instructionsCommitted := m.instructionsCommitted + 1 }

/-- The instruction retires and the next one is at `next` (R11, R372). -/
def retire (next : Word) (s : State) : State := { s with pc := next, metrics := s.metrics.commit }

/-- TAKING AN EXCEPTION: `raise <Kind>(info)` (R362). The instruction does not retire and none of its effects
happen; `status <- Error(kind, pc, message)` with the pc of the instruction; nothing else changes, as there is no
saved register, no mode and no vector (R368). There is no return from it (R369). -/
def raise (kind : ErrorKind) (message : Message) (s : State) : State :=
  { s with status := .error kind s.pc message }

/-- `stop <Reason>` (R366): the instruction of length `len` retires, then
`status <- Halted(reason, exit_code = x[0])`, with the pc of the instruction in the report (log 11, log 12). -/
def stopEngine (reason : StopReason) (len : Nat) (s : State) : State :=
  { retire (seqPc s len) s with status := .halted reason (s.reg exitReg) s.pc }

/-! ## Ranges -/

/-- `CODE_BASE ≤ a < CODE_END` (R61, R170). -/
def inCode (l : Layout) (a : Word) : Bool := decide (l.codeBase ≤ a.toNat) && decide (a.toNat < l.codeEnd)

/-- The access check of R68: range, then alignment; `none` when the access is allowed. The range check does not
wrap (R209). -/
def accessCheck (l : Layout) (ea : Word) (n : Nat) : Option AccessCheck :=
  if ¬ (l.dataBase ≤ ea.toNat ∧ ea.toNat + n ≤ l.dataEnd) then some .range
  else if ea.toNat % n ≠ 0 then some .alignment
  else none

/-! ## Control transfer, load, store -/

/-- A control transfer (R170): not taken, the next instruction; taken, the target if it is in the code range, else
`ControlFault`. -/
def transfer (taken : Bool) (target : Word) (len : Nat) (s : State) : State :=
  if taken then
    if inCode s.layout target then retire target s else raise .controlFault .control s
  else retire (seqPc s len) s

/-- `MemRead(ea, n)` (R11, R63) on the memory a program sees, zero-extended. The check is the caller's. -/
def memRead (s : State) (ea : Word) (w : Width) : Word := wordOfBytes (archBytes s ea.toNat w.bytes)

/-- `MemWrite(ea, n, v)` (R11, R63) on the memory a program sees. The check is the caller's. -/
def memWrite (s : State) (ea : Word) (w : Width) (v : Word) : State :=
  archWriteBytes s ea.toNat (wordBytes v w.bytes)

/-- A load (R200): the check, then `x[rd] <- MemRead(ea, n)`. -/
def loadTo (w : Width) (rd : Reg) (ea : Word) (len : Nat) (s : State) : State :=
  match accessCheck s.layout ea w.bytes with
  | some c => raise .memoryFault (.memory c ea) s
  | none => retire (seqPc s len) (s.setReg rd (memRead s ea w))

/-- A store (R200): the check, then `MemWrite(ea, n, v)`. -/
def storeFrom (w : Width) (v : Word) (ea : Word) (len : Nat) (s : State) : State :=
  match accessCheck s.layout ea w.bytes with
  | some c => raise .memoryFault (.memory c ea) s
  | none => retire (seqPc s len) (memWrite s ea w v)

end Sys2Proof.Machine
end

