-- ==== Sys2Proof/Machine/Operands.lean ====
section
/-! DEFINITION. The operand forms: what a register, source, target or memory operand stands for (R97 to R102, R130,
R170, R200), and the µop of an instruction (R91, R114). -/

namespace Sys2Proof.Machine

/-- The register a lone register operand names. For a well-formed operand the byte is the number (R98); a byte above
15, which the decoder never yields, is read by its low nibble (log 17). -/
def regNum : RegOp → Reg
  | .reg4 r => r
  | .reg8 b => regOfNat b.toNat

/-- The register of a second source, when it is one. -/
def src2Reg : Src2 → Option Reg
  | .reg4 r => some r
  | .reg8 b => some (regOfNat b.toNat)
  | _ => none

/-- The immediate of a second source, zero-extended (R99). -/
def src2Imm : Src2 → Option Word
  | .imm8 v => some (v.setWidth 64)
  | .imm16 v => some (v.setWidth 64)
  | .imm32 v => some (v.setWidth 64)
  | .imm64 v => some v
  | _ => none

/-- The operand `b` of R130: `x[rs2]` or the zero-extended immediate. -/
def src2Value (s : State) : Src2 → Word
  | .reg4 r => s.reg r
  | .reg8 b => s.reg (regOfNat b.toNat)
  | .imm8 v => v.setWidth 64
  | .imm16 v => v.setWidth 64
  | .imm32 v => v.setWidth 64
  | .imm64 v => v

/-- The address of a direct target, counted from the next instruction `next` (R100) or absolute (R101). -/
def targetAddr (next : Word) : Target → Word
  | .pcRel d => next + d.signExtend 64
  | .abs a => a.setWidth 64

/-- The effective address (R200): `(x[base] + off) mod 2^64`, or the absolute address. -/
def effAddr (s : State) : MemOp → Word
  | .regOff b off => s.reg b + off.signExtend 64
  | .abs a => a.setWidth 64

/-! ## The µop (R91, R114) -/

/-- The base register of a memory operand. -/
def memBase : MemOp → Option Reg
  | .regOff b _ => some b
  | .abs _ => none

/-- The sign-extended offset of a memory operand (R102). -/
def memOff : MemOp → Option Word
  | .regOff _ off => some (off.signExtend 64)
  | .abs _ => none

/-- The absolute data address of a memory operand (R101). -/
def memAbs : MemOp → Option Word
  | .regOff _ _ => none
  | .abs a => some (a.setWidth 64)

/-- The µop of an instruction at `pc` with no operand value filled in. -/
def bareUop (i : Instr) (pc : Word) : Uop :=
  { instr := i, k1 := i.kind1, k2 := i.kind2, len := i.length, pc := pc, rd := none, rs1 := none, rs2 := none,
    imm := none, target := none, off := none, absaddr := none }

/-- Class A3 (R114): `rd`, `rs1` from operand 1, `rs2` or `imm` from operand 2. -/
def uopA3 (i : Instr) (pc : Word) (rd rs1 : Reg) (s : Src2) : Uop :=
  { bareUop i pc with rd := some rd, rs1 := some rs1, rs2 := src2Reg s, imm := src2Imm s }

/-- Class A2D (R114): `rd` from operand 1, `rs2` or `imm` from operand 2. -/
def uopA2D (i : Instr) (pc : Word) (rd : RegOp) (s : Src2) : Uop :=
  { bareUop i pc with rd := some (regNum rd), rs2 := src2Reg s, imm := src2Imm s }

/-- Class A2C (R114): `rs1` from operand 1, `rs2` or `imm` from operand 2, no `rd`. -/
def uopA2C (i : Instr) (pc : Word) (rs1 : RegOp) (s : Src2) : Uop :=
  { bareUop i pc with rs1 := some (regNum rs1), rs2 := src2Reg s, imm := src2Imm s }

/-- Class J (R114): `target` from operand 1. -/
def uopJ (i : Instr) (pc : Word) (t : Target) : Uop :=
  { bareUop i pc with target := some (targetAddr (pc + BitVec.ofNat 64 i.length) t) }

/-- Class JR (R114): `rs1` from operand 1, `target` from operand 2. -/
def uopJR (i : Instr) (pc : Word) (rs1 : RegOp) (t : Target) : Uop :=
  { bareUop i pc with rs1 := some (regNum rs1), target := some (targetAddr (pc + BitVec.ofNat 64 i.length) t) }

/-- Class LD (R114): `rd` from operand 1; base and offset, or the absolute address, from operand 2. -/
def uopLD (i : Instr) (pc : Word) (rd : RegOp) (m : MemOp) : Uop :=
  { bareUop i pc with rd := some (regNum rd), rs1 := memBase m, off := memOff m, absaddr := memAbs m }

/-- Class ST (R114): `rs2`, the data register, from operand 1; operand 2 as for LD. -/
def uopST (i : Instr) (pc : Word) (rs2 : RegOp) (m : MemOp) : Uop :=
  { bareUop i pc with rs2 := some (regNum rs2), rs1 := memBase m, off := memOff m, absaddr := memAbs m }

/-- The decoded µop of an instruction at an address (R91, R114). -/
def uopOf (i : Instr) (pc : Word) : Uop :=
  match i with
  | .add d a s => uopA3 i pc d a s
  | .sub d a s => uopA3 i pc d a s
  | .mul d a s => uopA3 i pc d a s
  | .div d a s => uopA3 i pc d a s
  | .mod d a s => uopA3 i pc d a s
  | .neg d s => uopA2D i pc d s
  | .mov d s => uopA2D i pc d s
  | .cmp a s => uopA2C i pc a s
  | .and d a s => uopA3 i pc d a s
  | .or d a s => uopA3 i pc d a s
  | .xor d a s => uopA3 i pc d a s
  | .not d s => uopA2D i pc d s
  | .shl d a s => uopA3 i pc d a s
  | .shr d a s => uopA3 i pc d a s
  | .sar d a s => uopA3 i pc d a s
  | .test a s => uopA2C i pc a s
  | .jmp t => uopJ i pc t
  | .jmpIfZero a t => uopJR i pc a t
  | .jmpIfNotZero a t => uopJR i pc a t
  | .jmpIfEqual t => uopJ i pc t
  | .jmpIfNotEqual t => uopJ i pc t
  | .jmpIfLess t => uopJ i pc t
  | .jmpIfGreaterEqual t => uopJ i pc t
  | .jmpIfGreater t => uopJ i pc t
  | .jmpIfLessEqual t => uopJ i pc t
  | .jmpIfBelow t => uopJ i pc t
  | .jmpIfAboveEqual t => uopJ i pc t
  | .jmpIfAbove t => uopJ i pc t
  | .jmpIfBelowEqual t => uopJ i pc t
  | .call t => { uopJ i pc t with rd := some linkReg }
  | .ret => { bareUop i pc with rs1 := some linkReg }
  | .load d m => uopLD i pc d m
  | .store d m => uopST i pc d m
  | .loadb d m => uopLD i pc d m
  | .storeb d m => uopST i pc d m
  | .loadh d m => uopLD i pc d m
  | .storeh d m => uopST i pc d m
  | .loadw d m => uopLD i pc d m
  | .storew d m => uopST i pc d m
  | .nop => bareUop i pc
  | .halt => bareUop i pc
  | .syscall => bareUop i pc
  | .trap => bareUop i pc

end Sys2Proof.Machine
end

