-- ==== Sys2Proof/Machine/Arith.lean ====
section
/-! DEFINITION. The meanings of the arithmetic instructions (40_arithmetic.md): ADD SUB MUL DIV MOD NEG MOV CMP. -/

namespace Sys2Proof.Machine

/-- The writes of an ALU instruction with a destination (R130): register, flags, then the next instruction. The
operands were read before (`o` is their result), so a destination that is also a source is written after. -/
def aluToReg (len : Nat) (rd : Reg) (o : AluOut) (s : State) : Result :=
  .next (retire (seqPc s len) ((s.setReg rd o.result).setFlags o.flags))

/-- The writes of CMP and TEST (R138, R158): flags only. -/
def aluToFlags (len : Nat) (o : AluOut) (s : State) : Result :=
  .next (retire (seqPc s len) (s.setFlags o.flags))

/-- ADD (R131): `x[rd] <- result`, all four flags. -/
def execAdd (rd rs1 : Reg) (src2 : Src2) (s : State) : Result :=
  aluToReg (Instr.add rd rs1 src2).length rd (aluAdd (s.reg rs1) (src2Value s src2)) s

/-- SUB (R132): `x[rd] <- result`, all four flags. -/
def execSub (rd rs1 : Reg) (src2 : Src2) (s : State) : Result :=
  aluToReg (Instr.sub rd rs1 src2).length rd (aluSub (s.reg rs1) (src2Value s src2)) s

/-- MUL (R133): `x[rd] <- result`, all four flags. -/
def execMul (rd rs1 : Reg) (src2 : Src2) (s : State) : Result :=
  aluToReg (Instr.mul rd rs1 src2).length rd (aluMul (s.reg rs1) (src2Value s src2)) s

/-- DIV (R134): `x[rd] <- result`, all four flags. -/
def execDiv (rd rs1 : Reg) (src2 : Src2) (s : State) : Result :=
  aluToReg (Instr.div rd rs1 src2).length rd (aluDiv (s.reg rs1) (src2Value s src2)) s

/-- MOD (R135): `x[rd] <- result`, all four flags. -/
def execMod (rd rs1 : Reg) (src2 : Src2) (s : State) : Result :=
  aluToReg (Instr.mod rd rs1 src2).length rd (aluMod (s.reg rs1) (src2Value s src2)) s

/-- NEG (R136). -/
def execNeg (rd : RegOp) (src2 : Src2) (s : State) : Result :=
  aluToReg (Instr.neg rd src2).length (regNum rd) (aluNeg (src2Value s src2)) s

/-- MOV (R137): the flags are unchanged. -/
def execMov (rd : RegOp) (src2 : Src2) (s : State) : Result :=
  .next (retire (seqPc s (Instr.mov rd src2).length) (s.setReg (regNum rd) (src2Value s src2)))

/-- CMP (R138): the flags of SUB; no register is written. -/
def execCmp (rs1 : RegOp) (src2 : Src2) (s : State) : Result :=
  aluToFlags (Instr.cmp rs1 src2).length (aluSub (s.reg (regNum rs1)) (src2Value s src2)) s

end Sys2Proof.Machine
end

