-- ==== Sys2Proof/Machine/Control.lean ====
section
/-! DEFINITION. The meanings of the control-flow instructions (42_control_flow.md): JMP, the conditional jumps, CALL,
RET. There are no delay slots (R170). -/

namespace Sys2Proof.Machine

/-- A direct transfer to a target operand (R170): the target is counted from the next instruction. -/
def jumpTo (taken : Bool) (t : Target) (len : Nat) (s : State) : Result :=
  .next (transfer taken (targetAddr (seqPc s len) t) len s)

/-- JMP (R171). -/
def execJmp (t : Target) (s : State) : Result := jumpTo true t (Instr.jmp t).length s

/-- JMP_IF_ZERO (R172): the test is on the register. -/
def execJmpIfZero (rs1 : RegOp) (t : Target) (s : State) : Result :=
  jumpTo (s.reg (regNum rs1) == 0) t (Instr.jmpIfZero rs1 t).length s

/-- JMP_IF_NOT_ZERO (R173): the test is on the register, not on `Z`. -/
def execJmpIfNotZero (rs1 : RegOp) (t : Target) (s : State) : Result :=
  jumpTo (s.reg (regNum rs1) != 0) t (Instr.jmpIfNotZero rs1 t).length s

/-- JMP_IF_EQUAL (R174, R187). -/
def execJmpIfEqual (t : Target) (s : State) : Result :=
  jumpTo (condHolds .equal s.flags) t (Instr.jmpIfEqual t).length s

/-- JMP_IF_NOT_EQUAL (R175, R187). -/
def execJmpIfNotEqual (t : Target) (s : State) : Result :=
  jumpTo (condHolds .notEqual s.flags) t (Instr.jmpIfNotEqual t).length s

/-- JMP_IF_LESS (R176, R187). -/
def execJmpIfLess (t : Target) (s : State) : Result :=
  jumpTo (condHolds .less s.flags) t (Instr.jmpIfLess t).length s

/-- JMP_IF_GREATER_EQUAL (R177, R187). -/
def execJmpIfGreaterEqual (t : Target) (s : State) : Result :=
  jumpTo (condHolds .greaterEqual s.flags) t (Instr.jmpIfGreaterEqual t).length s

/-- JMP_IF_GREATER (R178, R187). -/
def execJmpIfGreater (t : Target) (s : State) : Result :=
  jumpTo (condHolds .greater s.flags) t (Instr.jmpIfGreater t).length s

/-- JMP_IF_LESS_EQUAL (R179, R187). -/
def execJmpIfLessEqual (t : Target) (s : State) : Result :=
  jumpTo (condHolds .lessEqual s.flags) t (Instr.jmpIfLessEqual t).length s

/-- JMP_IF_BELOW (R180, R187). -/
def execJmpIfBelow (t : Target) (s : State) : Result :=
  jumpTo (condHolds .below s.flags) t (Instr.jmpIfBelow t).length s

/-- JMP_IF_ABOVE_EQUAL (R181, R187). -/
def execJmpIfAboveEqual (t : Target) (s : State) : Result :=
  jumpTo (condHolds .aboveEqual s.flags) t (Instr.jmpIfAboveEqual t).length s

/-- JMP_IF_ABOVE (R182, R187). -/
def execJmpIfAbove (t : Target) (s : State) : Result :=
  jumpTo (condHolds .above s.flags) t (Instr.jmpIfAbove t).length s

/-- JMP_IF_BELOW_EQUAL (R183, R187). -/
def execJmpIfBelowEqual (t : Target) (s : State) : Result :=
  jumpTo (condHolds .belowEqual s.flags) t (Instr.jmpIfBelowEqual t).length s

/-- CALL (R184): a target in the code range: `x[15] <- pc + len; pc <- target`; else `ControlFault` with R15
unchanged. -/
def execCall (t : Target) (s : State) : Result :=
  let seq := seqPc s (Instr.call t).length
  let target := targetAddr seq t
  if inCode s.layout target then .next (retire target (s.setReg linkReg seq))
  else .next (raise .controlFault .control s)

/-- RET (R185): to the address in R15. -/
def execRet (s : State) : Result := .next (transfer true (s.reg linkReg) Instr.ret.length s)

end Sys2Proof.Machine
end

