-- ==== Sys2Proof/Machine/LoadStore.lean ====
section
/-! DEFINITION. The meanings of the load and store instructions (43_load_store.md), on the memory a program sees. -/

namespace Sys2Proof.Machine

/-- LOAD (R201): 8 bytes. -/
def execLoad (rd : RegOp) (m : MemOp) (s : State) : Result :=
  .next (loadTo .b8 (regNum rd) (effAddr s m) (Instr.load rd m).length s)

/-- LOADB (R203): 1 byte, zero-extended. -/
def execLoadb (rd : RegOp) (m : MemOp) (s : State) : Result :=
  .next (loadTo .b1 (regNum rd) (effAddr s m) (Instr.loadb rd m).length s)

/-- LOADH (R205): 2 bytes, zero-extended. -/
def execLoadh (rd : RegOp) (m : MemOp) (s : State) : Result :=
  .next (loadTo .b2 (regNum rd) (effAddr s m) (Instr.loadh rd m).length s)

/-- LOADW (R207): 4 bytes, zero-extended. -/
def execLoadw (rd : RegOp) (m : MemOp) (s : State) : Result :=
  .next (loadTo .b4 (regNum rd) (effAddr s m) (Instr.loadw rd m).length s)

/-- STORE (R202): 8 bytes of the data register. -/
def execStore (rs2 : RegOp) (m : MemOp) (s : State) : Result :=
  .next (storeFrom .b8 (s.reg (regNum rs2)) (effAddr s m) (Instr.store rs2 m).length s)

/-- STOREB (R204): the low byte of the data register. -/
def execStoreb (rs2 : RegOp) (m : MemOp) (s : State) : Result :=
  .next (storeFrom .b1 (s.reg (regNum rs2)) (effAddr s m) (Instr.storeb rs2 m).length s)

/-- STOREH (R206): the low 2 bytes of the data register. -/
def execStoreh (rs2 : RegOp) (m : MemOp) (s : State) : Result :=
  .next (storeFrom .b2 (s.reg (regNum rs2)) (effAddr s m) (Instr.storeh rs2 m).length s)

/-- STOREW (R208): the low 4 bytes of the data register. -/
def execStorew (rs2 : RegOp) (m : MemOp) (s : State) : Result :=
  .next (storeFrom .b4 (s.reg (regNum rs2)) (effAddr s m) (Instr.storew rs2 m).length s)

end Sys2Proof.Machine
end

