-- ==== Sys2Proof/Machine/Logic.lean ====
section
/-! DEFINITION. The meanings of the logic and shift instructions (41_logic_shift.md): AND OR XOR NOT SHL SHR SAR
TEST. -/

namespace Sys2Proof.Machine

/-- AND (R151): `x[rd] <- result`, all four flags. -/
def execAnd (rd rs1 : Reg) (src2 : Src2) (s : State) : Result :=
  aluToReg (Instr.and rd rs1 src2).length rd (aluAnd (s.reg rs1) (src2Value s src2)) s

/-- OR (R152): `x[rd] <- result`, all four flags. -/
def execOr (rd rs1 : Reg) (src2 : Src2) (s : State) : Result :=
  aluToReg (Instr.or rd rs1 src2).length rd (aluOr (s.reg rs1) (src2Value s src2)) s

/-- XOR (R153): `x[rd] <- result`, all four flags. -/
def execXor (rd rs1 : Reg) (src2 : Src2) (s : State) : Result :=
  aluToReg (Instr.xor rd rs1 src2).length rd (aluXor (s.reg rs1) (src2Value s src2)) s

/-- SHL (R155): `x[rd] <- result`, all four flags. -/
def execShl (rd rs1 : Reg) (src2 : Src2) (s : State) : Result :=
  aluToReg (Instr.shl rd rs1 src2).length rd (aluShl (s.reg rs1) (src2Value s src2)) s

/-- SHR (R156): `x[rd] <- result`, all four flags. -/
def execShr (rd rs1 : Reg) (src2 : Src2) (s : State) : Result :=
  aluToReg (Instr.shr rd rs1 src2).length rd (aluShr (s.reg rs1) (src2Value s src2)) s

/-- SAR (R157): `x[rd] <- result`, all four flags. -/
def execSar (rd rs1 : Reg) (src2 : Src2) (s : State) : Result :=
  aluToReg (Instr.sar rd rs1 src2).length rd (aluSar (s.reg rs1) (src2Value s src2)) s

/-- NOT (R154). -/
def execNot (rd : RegOp) (src2 : Src2) (s : State) : Result :=
  aluToReg (Instr.not rd src2).length (regNum rd) (aluNot (src2Value s src2)) s

/-- TEST (R158): the flags of AND; no register is written. -/
def execTest (rs1 : RegOp) (src2 : Src2) (s : State) : Result :=
  aluToFlags (Instr.test rs1 src2).length (aluAnd (s.reg (regNum rs1)) (src2Value s src2)) s

end Sys2Proof.Machine
end

