-- ==== Sys2Proof/Machine/Misc.lean ====
section
/-! DEFINITION. The meanings of the miscellaneous instructions (44_misc.md): NOP HALT SYSCALL TRAP. -/

namespace Sys2Proof.Machine

/-- NOP (R220): it retires and does nothing else. -/
def execNop (s : State) : Result := .next (retire (seqPc s Instr.nop.length) s)

/-- HALT (R221). -/
def execHalt (s : State) : Result := .next (stopEngine .halt Instr.halt.length s)

/-- SYSCALL (R222). -/
def execSyscall (s : State) : Result := .next (stopEngine .syscall Instr.syscall.length s)

/-- TRAP (R223): not an error, a retired instruction. -/
def execTrap (s : State) : Result := .next (stopEngine .trap Instr.trap.length s)

end Sys2Proof.Machine
end

