-- ==== Sys2Proof/Machine/Dispatch.lean ====
section
/-! DEFINITION. One arm per instruction: each calls its meaning. -/

namespace Sys2Proof.Machine

/-- The effect of one instruction at the architectural level (R4): the instruction at `s.pc`. -/
def exec (i : Instr) (s : State) : Host.Outcome State Fault Refusal :=
  match i with
  | .add rd rs1 src2 => Sys2Proof.Machine.execAdd rd rs1 src2 s
  | .sub rd rs1 src2 => Sys2Proof.Machine.execSub rd rs1 src2 s
  | .mul rd rs1 src2 => Sys2Proof.Machine.execMul rd rs1 src2 s
  | .div rd rs1 src2 => Sys2Proof.Machine.execDiv rd rs1 src2 s
  | .mod rd rs1 src2 => Sys2Proof.Machine.execMod rd rs1 src2 s
  | .neg rd src2 => Sys2Proof.Machine.execNeg rd src2 s
  | .mov rd src2 => Sys2Proof.Machine.execMov rd src2 s
  | .cmp rs1 src2 => Sys2Proof.Machine.execCmp rs1 src2 s
  | .and rd rs1 src2 => Sys2Proof.Machine.execAnd rd rs1 src2 s
  | .or rd rs1 src2 => Sys2Proof.Machine.execOr rd rs1 src2 s
  | .xor rd rs1 src2 => Sys2Proof.Machine.execXor rd rs1 src2 s
  | .not rd src2 => Sys2Proof.Machine.execNot rd src2 s
  | .shl rd rs1 src2 => Sys2Proof.Machine.execShl rd rs1 src2 s
  | .shr rd rs1 src2 => Sys2Proof.Machine.execShr rd rs1 src2 s
  | .sar rd rs1 src2 => Sys2Proof.Machine.execSar rd rs1 src2 s
  | .test rs1 src2 => Sys2Proof.Machine.execTest rs1 src2 s
  | .jmp t => Sys2Proof.Machine.execJmp t s
  | .jmpIfZero rs1 t => Sys2Proof.Machine.execJmpIfZero rs1 t s
  | .jmpIfNotZero rs1 t => Sys2Proof.Machine.execJmpIfNotZero rs1 t s
  | .jmpIfEqual t => Sys2Proof.Machine.execJmpIfEqual t s
  | .jmpIfNotEqual t => Sys2Proof.Machine.execJmpIfNotEqual t s
  | .jmpIfLess t => Sys2Proof.Machine.execJmpIfLess t s
  | .jmpIfGreaterEqual t => Sys2Proof.Machine.execJmpIfGreaterEqual t s
  | .jmpIfGreater t => Sys2Proof.Machine.execJmpIfGreater t s
  | .jmpIfLessEqual t => Sys2Proof.Machine.execJmpIfLessEqual t s
  | .jmpIfBelow t => Sys2Proof.Machine.execJmpIfBelow t s
  | .jmpIfAboveEqual t => Sys2Proof.Machine.execJmpIfAboveEqual t s
  | .jmpIfAbove t => Sys2Proof.Machine.execJmpIfAbove t s
  | .jmpIfBelowEqual t => Sys2Proof.Machine.execJmpIfBelowEqual t s
  | .call t => Sys2Proof.Machine.execCall t s
  | .ret => Sys2Proof.Machine.execRet s
  | .load rd m => Sys2Proof.Machine.execLoad rd m s
  | .store rs2 m => Sys2Proof.Machine.execStore rs2 m s
  | .loadb rd m => Sys2Proof.Machine.execLoadb rd m s
  | .storeb rs2 m => Sys2Proof.Machine.execStoreb rs2 m s
  | .loadh rd m => Sys2Proof.Machine.execLoadh rd m s
  | .storeh rs2 m => Sys2Proof.Machine.execStoreh rs2 m s
  | .loadw rd m => Sys2Proof.Machine.execLoadw rd m s
  | .storew rs2 m => Sys2Proof.Machine.execStorew rs2 m s
  | .nop => Sys2Proof.Machine.execNop s
  | .halt => Sys2Proof.Machine.execHalt s
  | .syscall => Sys2Proof.Machine.execSyscall s
  | .trap => Sys2Proof.Machine.execTrap s

end Sys2Proof.Machine
end

