-- ==== Sys2Proof/Machine/Fetch.lean ====
section
/-! DEFINITION. Fetching an instruction from the code range of M and decoding it (R65, R106, R248). -/

namespace Sys2Proof.Machine

/-- The code bytes a decode at `a` can need: from `a` up to CODE_END, at most the longest instruction. They come
from M, never from cache or store buffer (R62, R248). -/
def codeWindow (l : Layout) (m : Memory) (a : Nat) : List Byte :=
  Memory.readBytes m a (min maxInstrBytes (l.codeEnd - a))

/-- `DecodeAt(a)` (R106): below CODE_BASE nothing is read; the rest of step 1, and step 8, follow from the window
ending at CODE_END. -/
def decodeAt (s : State) (a : Word) : Except DecodeCause Instr :=
  if a.toNat < s.layout.codeBase then .error .truncated
  else decode (codeWindow s.layout s.mem a.toNat)

/-- The bytes of an instruction whose bits are `w`, every bit above `nbits` 0, up to the longest instruction. -/
def instrWordBytes (nbits w : Nat) : List Byte := leBytes maxInstrBytes (w % 2 ^ nbits)

/-- The layout with a code range that holds `n` bytes from `a`: the layout itself when its code range does. -/
def coverCode (l : Layout) (a n : Nat) : Layout :=
  if l.codeBase ≤ a ∧ a + n ≤ l.codeEnd then l else { l with codeBase := a, codeLen := n }

/-- Load the bytes of one instruction where the next fetch reads (log 3). -/
def loadInstrBytes (bs : List Byte) (s : State) : State :=
  { s with
    layout := coverCode s.layout s.pc.toNat bs.length
    status := .running
    mem := Memory.writeBytes s.mem s.pc.toNat bs }

/-- One instruction at the architectural level, given how it executes (R4): decode at `pc` and execute, or raise
`DecodeError` (R362). -/
def fetchAndRun (execute : Instr → State → Result) (s : State) : Result :=
  match decodeAt s s.pc with
  | .ok i => execute i s
  | .error c => .next (raise .decodeError (.decode c) s)

end Sys2Proof.Machine
end

