-- ==== Sys2Proof/Machine/Step.lean ====
section
/-! DEFINITION. The architectural step: one instruction (R4). The tick of the pipeline is Machine/Pipeline.lean. -/

namespace Sys2Proof.Machine

/-- One step of the architectural level: the instruction at `pc`, or `DecodeError`. Once the status is not `Running`
no state changes (R27; log 7). -/
def step (s : State) : Host.Outcome State Fault Refusal :=
  match s.status with
  | .running => fetchAndRun exec s
  | _ => .next s

/-- `s` with the instruction whose bits are `w` (every bit above `nbits` 0) stored at `pc`, where `step` fetches. It
stands for `load` (log 3): the code range is made to hold it if it does not, and the engine is running. -/
def State.withFetchWord (s : State) (nbits w : Nat) : State := loadInstrBytes (instrWordBytes nbits w) s

end Sys2Proof.Machine
end

