-- ==== Sys2Proof/Machine/Predictor.lean ====
section
/-! DEFINITION. The branch predictor (component I, 52_branch_predictor.md): BTB, 2-bit counters, return-address stack
and static policy. It decides only which address Fetch reads next. -/

namespace Sys2Proof.Machine

/-! ## What an instruction does, by class -/

/-- The work of an instruction in the EX stage (R249): the operation of its class. -/
inductive Work where
  /-- class A3: `(result, flags)` of two operands -/
  | alu3 (f : Word → Word → AluOut)
  /-- NEG, NOT: `(result, flags)` of one operand -/
  | alu2 (f : Word → AluOut)
  /-- MOV: no flags -/
  | move
  /-- class A2C: flags only -/
  | compare (f : Word → Word → AluOut)
  | load (w : Width)
  | store (w : Width)
  | jump
  | call
  | ret
  | ifZero
  | ifNotZero
  | ifFlags (c : Cond)
  /-- NOP, HALT, SYSCALL, TRAP: nothing further -/
  | nothing

/-- The work of each instruction (R249, R297). -/
def workOf : Instr → Work
  | .add _ _ _ => .alu3 aluAdd
  | .sub _ _ _ => .alu3 aluSub
  | .mul _ _ _ => .alu3 aluMul
  | .div _ _ _ => .alu3 aluDiv
  | .mod _ _ _ => .alu3 aluMod
  | .neg _ _ => .alu2 aluNeg
  | .mov _ _ => .move
  | .cmp _ _ => .compare aluSub
  | .and _ _ _ => .alu3 aluAnd
  | .or _ _ _ => .alu3 aluOr
  | .xor _ _ _ => .alu3 aluXor
  | .not _ _ => .alu2 aluNot
  | .shl _ _ _ => .alu3 aluShl
  | .shr _ _ _ => .alu3 aluShr
  | .sar _ _ _ => .alu3 aluSar
  | .test _ _ => .compare aluAnd
  | .jmp _ => .jump
  | .jmpIfZero _ _ => .ifZero
  | .jmpIfNotZero _ _ => .ifNotZero
  | .jmpIfEqual _ => .ifFlags .equal
  | .jmpIfNotEqual _ => .ifFlags .notEqual
  | .jmpIfLess _ => .ifFlags .less
  | .jmpIfGreaterEqual _ => .ifFlags .greaterEqual
  | .jmpIfGreater _ => .ifFlags .greater
  | .jmpIfLessEqual _ => .ifFlags .lessEqual
  | .jmpIfBelow _ => .ifFlags .below
  | .jmpIfAboveEqual _ => .ifFlags .aboveEqual
  | .jmpIfAbove _ => .ifFlags .above
  | .jmpIfBelowEqual _ => .ifFlags .belowEqual
  | .call _ => .call
  | .ret => .ret
  | .load _ _ => .load .b8
  | .store _ _ => .store .b8
  | .loadb _ _ => .load .b1
  | .storeb _ _ => .store .b1
  | .loadh _ _ => .load .b2
  | .storeh _ _ => .store .b2
  | .loadw _ _ => .load .b4
  | .storew _ _ => .store .b4
  | .nop => .nothing
  | .halt => .nothing
  | .syscall => .nothing
  | .trap => .nothing

/-- The instructions that stop the engine when they retire (R234, R366). -/
def stopReasonOf : Instr → Option StopReason
  | .halt => some .halt
  | .syscall => some .syscall
  | .trap => some .trap
  | _ => none

/-- The class "conditional" of R291. -/
def isConditional : Work → Bool
  | .ifZero => true
  | .ifNotZero => true
  | .ifFlags _ => true
  | _ => false

/-! ## BTB (R40, R292, R298) -/

/-- The index of a pc in the BTB (R40). -/
def btbIndex (s : State) (pc : Word) : Nat := pc.toNat % s.cfg.btbSize

/-- `BTBHit(pc)`: the entry, when it is valid and its tag is the full pc (R292). -/
def btbHit (s : State) (pc : Word) : Option BtbEntry :=
  match s.btb.getD (btbIndex s pc) none with
  | some e => if e.tag = pc then some e else none
  | none => none

/-- `UpdateBTB(pc, taken, tgt)` (R298). -/
def updateBtb (s : State) (pc : Word) (taken : Bool) (tgt : Word) : State :=
  if taken then
    { s with btb := s.btb.set (btbIndex s pc) (some { tag := pc, target := tgt, last := true }) }
  else
    match btbHit s pc with
    | some e => { s with btb := s.btb.set (btbIndex s pc) (some { e with last := false }) }
    | none => s

/-! ## PHT (R41, R293, R299) -/

/-- The 2-bit saturating transition (R293): 0 Strongly-Not-Taken, 1 Weakly-Not-Taken, 2 Weakly-Taken,
3 Strongly-Taken. -/
def phtNext (c : BitVec 2) (taken : Bool) : BitVec 2 :=
  if taken then BitVec.ofNat 2 (min 3 (c.toNat + 1)) else BitVec.ofNat 2 (c.toNat - 1)

/-- The counter predicts taken in the two taken states (R293). -/
def phtTaken (c : BitVec 2) : Bool := decide (c.toNat ≥ 2)

/-- The index of a pc in the PHT (R41). -/
def phtIndex (s : State) (pc : Word) : Nat := pc.toNat % s.cfg.phtSize

/-- The counter of a pc. -/
def phtAt (s : State) (pc : Word) : BitVec 2 := s.pht.getD (phtIndex s pc) s.cfg.phtInit

/-- `UpdatePHT(pc, taken)` (R299). -/
def updatePht (s : State) (pc : Word) (taken : Bool) : State :=
  { s with pht := s.pht.modify (phtIndex s pc) (fun c => phtNext c taken) }

/-! ## RAS (R42, R294) -/

/-- `RASPush(v)`: the oldest is discarded on overflow. -/
def rasPush (s : State) (v : Word) : State :=
  let r := s.ras ++ [v]
  { s with ras := if r.length > s.cfg.rasDepth then r.drop 1 else r }

/-- `RASPop()`: the newest, or none. -/
def rasPop (s : State) : Option Word × State := (s.ras.getLast?, { s with ras := s.ras.dropLast })

/-! ## Prediction (R295, R296, R301) -/

/-- The prediction of a conditional jump: BTB and counter on a hit, else the static policy (R296). -/
def predictConditional (s : State) (pc target seq : Word) : Word :=
  match btbHit s pc with
  | some e => if phtTaken (phtAt s pc) then e.target else seq
  | none => if target.toNat ≤ pc.toNat then target else seq

/-- `Predict(u)` (R295): the address to fetch next, and the state with the RAS pushed or popped. -/
def predict (u : Uop) (s : State) : Word × State :=
  let seq := u.pc + BitVec.ofNat 64 u.len
  let target := u.target.getD seq
  match workOf u.instr with
  | .jump => (target, s)
  | .call => (target, rasPush s seq)
  | .ret => ((rasPop s).1.getD seq, (rasPop s).2)
  | .ifZero => (predictConditional s u.pc target seq, s)
  | .ifNotZero => (predictConditional s u.pc target seq, s)
  | .ifFlags _ => (predictConditional s u.pc target seq, s)
  | _ => (seq, s)

end Sys2Proof.Machine
end

