-- ==== Sys2Proof/Machine/Pipeline.lean ====
section
/-! DEFINITION. The pipeline controller and the tick (50_pipeline.md), with the hazard and forwarding units
(51_hazard_forwarding.md). One tick is WB, MEM, EX, ID, IF in this order over start-of-tick snapshots of the latches
(R231, R232). -/

namespace Sys2Proof.Machine

/-! ## Counters (R372) -/

/-- One forward: `forwards` and `hazards_detected` (R272, R273). -/
def countForward (s : State) : State :=
  { s with metrics := { s.metrics with
      forwards := s.metrics.forwards + 1, hazardsDetected := s.metrics.hazardsDetected + 1 } }

/-- One tick of a data stall in MEM (R235). -/
def countStallData (s : State) : State :=
  { s with metrics := { s.metrics with stallsData := s.metrics.stallsData + 1 } }

/-- One tick of a full store buffer (R276). -/
def countStallStructural (s : State) : State :=
  { s with metrics := { s.metrics with
      stallsStructural := s.metrics.stallsStructural + 1, hazardsDetected := s.metrics.hazardsDetected + 1 } }

/-- One load-use stall (R274). -/
def countLoadUse (s : State) : State :=
  { s with metrics := { s.metrics with
      stallsLoadUse := s.metrics.stallsLoadUse + 1, hazardsDetected := s.metrics.hazardsDetected + 1 } }

/-- A load at MEM found an overlapping store-buffer entry (R278). -/
def countOverlap (s : State) : State :=
  { s with metrics := { s.metrics with hazardsDetected := s.metrics.hazardsDetected + 1 } }

/-- A load took its value from the store buffer (R278). -/
def countSbForward (s : State) : State :=
  { s with metrics := { s.metrics with storeBufferForwards := s.metrics.storeBufferForwards + 1 } }

/-- A load hit the L1. -/
def countLoadHit (s : State) : State :=
  { s with metrics := { s.metrics with loadHits := s.metrics.loadHits + 1 } }

/-- A load missed the L1. -/
def countLoadMiss (s : State) : State :=
  { s with metrics := { s.metrics with loadMisses := s.metrics.loadMisses + 1 } }

/-- A control transfer resolved as predicted (R297). -/
def countCorrect (s : State) : State :=
  { s with metrics := { s.metrics with
      branchAttempted := s.metrics.branchAttempted + 1, branchCorrect := s.metrics.branchCorrect + 1 } }

/-- A control transfer resolved against its prediction (R277, R297). -/
def countMispredicted (s : State) : State :=
  { s with metrics := { s.metrics with
      branchAttempted := s.metrics.branchAttempted + 1, stallsBranch := s.metrics.stallsBranch + 1,
      hazardsDetected := s.metrics.hazardsDetected + 1 } }

/-- One tick has started (R233). -/
def countCycle (s : State) : State := { s with metrics := { s.metrics with cycles := s.metrics.cycles + 1 } }

/-! ## WB (R234) -/

/-- The pc of the oldest instruction younger than the one retiring: the head of what EM, DE and FB hold, else the
address Fetch reads next. It is the architectural pc after the retirement (log 10). -/
def nextUnretired (s : State) : Word :=
  match s.em, s.de, s.fb with
  | some l, _, _ => l.pc
  | none, some e, _ => e.pc
  | none, none, e :: _ => e.pc
  | none, none, [] => s.pcFetch

/-- `x[w.rd] <- w.result` when the latch names a register (R234). -/
def writeBack (l : ExLatch) (s : State) : Except Fault State :=
  match l.rd, l.result with
  | some r, some v => .ok (s.setReg r v)
  | some _, none => .error .internalInvariantViolated
  | none, _ => .ok s

/-- `FLAGS <- w.flags` when the latch carries flags (R234). -/
def writeFlags (l : ExLatch) (s : State) : State :=
  match l.flags with
  | some f => s.setFlags f
  | none => s

/-- Mark the store-buffer entry of the retiring store (R329). -/
def retireStore (w : MemLatch) (s : State) : State :=
  match w.sbAge with
  | some age => { s with sb := markRetired s.sb age }
  | none => s

/-- The stop of HALT, SYSCALL and TRAP when they retire: exit code x[0] as it stands after the WB step (R366). -/
def stopAt (i : Instr) (pc : Word) (s : State) : State × Bool :=
  match stopReasonOf i with
  | some r => ({ s with status := .halted r (s.reg exitReg) pc }, true)
  | none => (s, false)

/-- The WB step on `old(MW)` (R234): the state, and whether the tick ends here. -/
def wbStep (mwo : Option MemLatch) (s : State) : Except Fault (State × Bool) :=
  match mwo with
  | none => .ok (s, false)
  | some w =>
    match w.fault, w.uop with
    | some f, _ => .ok ({ s with status := .error f.kind w.pc f.message }, true)
    | none, none => .error .internalInvariantViolated
    | none, some u =>
      match writeBack w.toExLatch s with
      | .error e => .error e
      | .ok s1 =>
        .ok (stopAt u.instr w.pc (retire (nextUnretired s) (retireStore w (writeFlags w.toExLatch s1))))

/-! ## MEM (R235) -/

/-- The latch a memory access that fails its check passes on: fault-carrying, `rd` cleared (R363). -/
def faultLatch (m : ExLatch) (kind : ErrorKind) (message : Message) : ExLatch :=
  { m with fault := some { kind := kind, message := message }, rd := none }

/-- What the MEM step hands on: the state, the latch for MW (`none` when it stalls), the age of a pushed store, and
whether the L1 port was used (R331). -/
structure MemOut where
  state : State
  out : Option ExLatch
  sbAge : Option Nat
  portBusy : Bool

/-- The load in MEM stalls this tick. -/
def memStallOut (s : State) (portBusy : Bool) : MemOut :=
  { state := s, out := none, sbAge := none, portBusy := portBusy }

/-- The load in MEM delivers a value. -/
def memLoadOut (s : State) (m : ExLatch) (v : Word) (portBusy : Bool) : MemOut :=
  { state := s, out := some { m with result := some v }, sbAge := none, portBusy := portBusy }

/-- Bring the line in and deliver (R324, R326). -/
def memInstall (s : State) (m : ExLatch) (ea : Word) (n : Nat) : MemOut :=
  let p := install s ea.toNat
  memLoadOut p.1 m (readLine p.1 (setIndex s.cfg ea.toNat) p.2 ea.toNat n) true

/-- A load whose checks passed and that is not waiting: store buffer, then L1 (R235, R325, R333). -/
def memLoad (s : State) (m : ExLatch) (ea : Word) (n : Nat) : MemOut :=
  match sbSearch s ea.toNat n with
  | some e =>
    let s1 := countOverlap s
    if e.coversAll ea.toNat n then memLoadOut (countSbForward s1) m (e.forward ea.toNat n) false
    else memStallOut (countStallData s1) false
  | none =>
    let si := setIndex s.cfg ea.toNat
    match lookupWay s ea.toNat with
    | some w =>
      let s1 := touch (countLoadHit s) si w
      memLoadOut s1 m (readLine s1 si w ea.toNat n) true
    | none =>
      let s1 := countLoadMiss s
      if s1.cfg.missPenalty = 0 then memInstall s1 m ea n
      else memStallOut (countStallData { s1 with memWaiting := true, memWait := s1.cfg.missPenalty }) true

/-- A tick of a load miss in progress (R326). -/
def memWaitTick (s : State) (m : ExLatch) (ea : Word) (n : Nat) : MemOut :=
  let s1 := { s with memWait := s.memWait - 1 }
  if s1.memWait = 0 then memInstall { s1 with memWaiting := false } m ea n
  else memStallOut (countStallData s1) true

/-- A store whose checks passed: push, or stall on a full buffer (R328, R276). -/
def memStore (s : State) (m : ExLatch) (w : Width) (ea data : Word) : MemOut :=
  if s.sb.length ≥ s.cfg.sbCap then memStallOut (countStallStructural s) false
  else
    let age := s.sbSeq + 1
    let e : SbEntry := { addr := ea, size := w, value := BitVec.ofNat 64 (data.toNat % 256 ^ w.bytes), age := age, retired := false }
    { state := { s with sbSeq := age, sb := s.sb ++ [e] }, out := some m, sbAge := some age, portBusy := false }

/-- The access of the MEM step, before the drain (R235). -/
def memAccess (s : State) (m : ExLatch) (a : MemAccess) : MemOut :=
  match a with
  | .load w ea =>
    if s.memWaiting then memWaitTick s m ea w.bytes
    else
      match accessCheck s.layout ea w.bytes with
      | some c =>
        { state := s, out := some (faultLatch m .memoryFault (.memory c ea)), sbAge := none, portBusy := false }
      | none => memLoad s m ea w.bytes
  | .store w ea data =>
    if s.memWaiting then memWaitTick s m ea w.bytes
    else
      match accessCheck s.layout ea w.bytes with
      | some c =>
        { state := s, out := some (faultLatch m .memoryFault (.memory c ea)), sbAge := none, portBusy := false }
      | none => memStore s m w ea data

/-- What MEM does with `old(EM)` before the drain: bubbles, fault-carrying latches and other instructions pass. -/
def memOut (emo : Option ExLatch) (s : State) : MemOut :=
  match emo with
  | none => { state := s, out := none, sbAge := none, portBusy := false }
  | some m =>
    match m.fault, m.access with
    | none, some a => memAccess s m a
    | _, _ => { state := s, out := some m, sbAge := none, portBusy := false }

/-- `mem_stall` (R235): an instruction was in EM and nothing leaves it. -/
def memStalls (emo : Option ExLatch) (o : MemOut) : Bool := emo.isSome && o.out.isNone

/-- The MEM step on `old(EM)` (R235): the access, then MW, then at most one drain if the port is free (R331). -/
def memStep (emo : Option ExLatch) (s : State) : State × Bool :=
  let o := memOut emo s
  let s1 := { o.state with mw := o.out.map fun l => { toExLatch := l, sbAge := o.sbAge } }
  (if o.portBusy then s1 else drainHead true s1, memStalls emo o)

/-! ## EX (R236, R249, R272 to R274, R297) -/

/-- The signals the EX step raises for this tick (R38, R239). -/
structure ExSignals where
  loadUse : Bool
  deConsumed : Bool
  flush : Bool
  redirect : Option Word
  haltFetch : Bool

/-- No signal. -/
def ExSignals.quiet : ExSignals :=
  { loadUse := false, deConsumed := false, flush := false, redirect := none, haltFetch := false }

/-- The latch forwards register `r`: valid, fault-free, and its `rd` is `r` (R272, R280). -/
def forwardsReg (l : ExLatch) (r : Reg) : Bool := l.fault.isNone && l.rd == some r

/-- The value a matching latch supplies. A latch without a value is the illegal state of R360. -/
def forwardedReg (l : ExLatch) (s : State) : Except Fault (Word × State) :=
  match l.result with
  | some v => .ok (v, countForward s)
  | none => .error .internalInvariantViolated

/-- The register file, or MW when its `rd` matches (R272 (2), (3)). -/
def resolveFromMw (mwo : Option MemLatch) (r : Reg) (s : State) : Except Fault (Word × State) :=
  match mwo with
  | some l => if forwardsReg l.toExLatch r then forwardedReg l.toExLatch s else .ok (s.reg r, s)
  | none => .ok (s.reg r, s)

/-- `Resolve(r)` (R272): EM, then MW, then the register file as this tick's WB step left it. -/
def resolve (emo : Option ExLatch) (mwo : Option MemLatch) (r : Reg) (s : State) : Except Fault (Word × State) :=
  match emo with
  | some l => if forwardsReg l r then forwardedReg l s else resolveFromMw mwo r s
  | none => resolveFromMw mwo r s

/-- `Resolve` of an operand that may be absent. -/
def resolveOpt (emo : Option ExLatch) (mwo : Option MemLatch) (r : Option Reg) (s : State) :
    Except Fault (Option Word × State) :=
  match r with
  | none => .ok (none, s)
  | some r =>
    match resolve emo mwo r s with
    | .ok (v, s1) => .ok (some v, s1)
    | .error f => .error f

/-- The flags a valid, fault-free latch carries (R273, R280). -/
def latchFlags (l : ExLatch) : Option Flags := if l.fault.isNone then l.flags else none

/-- `ResolveFlags()` (R273). -/
def resolveFlags (emo : Option ExLatch) (mwo : Option MemLatch) (s : State) : Flags × State :=
  match emo.bind latchFlags, mwo.bind (fun l => latchFlags l.toExLatch) with
  | some f, _ => (f, countForward s)
  | none, some f => (f, countForward s)
  | none, none => (s.flags, s)

/-- What `Execute` produces: the EM latch, the state, and the flush signals. -/
structure ExecOut where
  latch : ExLatch
  state : State
  flush : Bool
  redirect : Option Word
  haltFetch : Bool

/-- An instruction that raises no signal. -/
def ExecOut.plain (l : ExLatch) (s : State) : ExecOut :=
  { latch := l, state := s, flush := false, redirect := none, haltFetch := false }

/-- The EM latch an instruction starts from (R249). -/
def freshLatch (e : FetchEntry) : ExLatch :=
  { uop := e.uop, pc := e.pc, fault := none, rd := none, result := none, flags := none, access := none }

/-- The effective address of a load or store in EX (R249). -/
def exEffAddr (u : Uop) (a : Option Word) : Option Word :=
  match u.absaddr, a, u.off with
  | some x, _, _ => some x
  | none, some base, some off => some (base + off)
  | none, _, _ => none

/-- Train the predictor with the outcome of a conditional jump (R297 to R299). -/
def trainPredictor (conditional : Bool) (pc : Word) (taken : Bool) (tgt : Word) (s : State) : State :=
  if conditional then updateBtb (updatePht s pc taken) pc taken tgt else s

/-- `ResolveTransfer` (R297) once direction and target are known: train, check the range, compare with the
prediction. `link` is what CALL writes to R15. -/
def resolveTransfer (e : FetchEntry) (u : Uop) (taken : Bool) (tgt : Word) (link : Option Word) (s : State) : ExecOut :=
  let seq := e.pc + BitVec.ofNat 64 u.len
  let s1 := trainPredictor (isConditional (workOf u.instr)) e.pc taken tgt s
  if taken && !inCode s1.layout tgt then
    { latch := faultLatch (freshLatch e) .controlFault .control, state := s1, flush := true, redirect := none, haltFetch := true }
  else
    let actual := if taken then tgt else seq
    let l : ExLatch := { freshLatch e with rd := link.map (fun _ => linkReg), result := link }
    if e.predNext = some actual then ExecOut.plain l (countCorrect s1)
    else { latch := l, state := countMispredicted s1, flush := true, redirect := some actual, haltFetch := false }

/-- `Execute(e)` by class (R249), with operand values `a` and `b` resolved. -/
def executeWork (emo : Option ExLatch) (mwo : Option MemLatch) (e : FetchEntry) (u : Uop) (a b : Option Word) (s : State) :
    Except Fault ExecOut :=
  match workOf u.instr, a, b, u.target with
  | .alu3 f, some a, some b, _ =>
    .ok (.plain { freshLatch e with result := some (f a b).result, flags := some (f a b).flags, rd := u.rd } s)
  | .alu2 f, _, some b, _ =>
    .ok (.plain { freshLatch e with result := some (f b).result, flags := some (f b).flags, rd := u.rd } s)
  | .move, _, some b, _ => .ok (.plain { freshLatch e with result := some b, rd := u.rd } s)
  | .compare f, some a, some b, _ => .ok (.plain { freshLatch e with flags := some (f a b).flags } s)
  | .load w, a, _, _ =>
    match exEffAddr u a with
    | some ea => .ok (.plain { freshLatch e with access := some (.load w ea), rd := u.rd } s)
    | none => .error .internalInvariantViolated
  | .store w, a, some b, _ =>
    match exEffAddr u a with
    | some ea => .ok (.plain { freshLatch e with access := some (.store w ea b) } s)
    | none => .error .internalInvariantViolated
  | .jump, _, _, some t => .ok (resolveTransfer e u true t none s)
  | .call, _, _, some t => .ok (resolveTransfer e u true t (some (e.pc + BitVec.ofNat 64 u.len)) s)
  | .ret, some a, _, _ => .ok (resolveTransfer e u true a none s)
  | .ifZero, some a, _, some t => .ok (resolveTransfer e u (a == 0) t none s)
  | .ifNotZero, some a, _, some t => .ok (resolveTransfer e u (a != 0) t none s)
  | .ifFlags c, _, _, some t =>
    .ok (resolveTransfer e u (condHolds c (resolveFlags emo mwo s).1) t none (resolveFlags emo mwo s).2)
  | .nothing, _, _, _ => .ok (.plain (freshLatch e) s)
  | _, _, _, _ => .error .internalInvariantViolated

/-- `Execute(e)` (R249): resolve `a` and `b` (the register, else the immediate), then the work of the class. -/
def execute (emo : Option ExLatch) (mwo : Option MemLatch) (e : FetchEntry) (s : State) : Except Fault ExecOut :=
  match e.uop with
  | none => .error .internalInvariantViolated
  | some u =>
    match resolveOpt emo mwo u.rs1 s with
    | .error f => .error f
    | .ok (a, s1) =>
      match resolveOpt emo mwo u.rs2 s1 with
      | .error f => .error f
      | .ok (r, s2) => executeWork emo mwo e u a (r.or u.imm) s2

/-- EM holds a load that is about to write register `r` (R274). -/
def loadPending (emo : Option ExLatch) (r : Option Reg) : Bool :=
  match emo, r with
  | some l, some r =>
    match l.access with
    | some (.load _ _) => forwardsReg l r
    | _ => false
  | _, _ => false

/-- Load-use (R274): EM is a load whose `rd` is a source of the instruction in DE. -/
def loadUse (emo : Option ExLatch) (e : FetchEntry) : Bool :=
  match e.uop with
  | some u => loadPending emo u.rs1 || loadPending emo u.rs2
  | none => false

/-- The EM latch of a fault-carrying entry, which moves on with its label (R236, R363). -/
def carryFault (e : FetchEntry) : ExLatch := { freshLatch e with fault := e.fault }

/-- The EX step on `old(DE)` (R236). -/
def exStep (stalled : Bool) (emo : Option ExLatch) (mwo : Option MemLatch) (deo : Option FetchEntry) (s : State) :
    Except Fault (State × ExSignals) :=
  if stalled then .ok (s, ExSignals.quiet)
  else
    match deo with
    | none => .ok ({ s with em := none }, { ExSignals.quiet with deConsumed := true })
    | some e =>
      if e.fault.isSome then .ok ({ s with em := some (carryFault e) }, { ExSignals.quiet with deConsumed := true })
      else if loadUse emo e then
        .ok (countLoadUse { s with em := none }, { ExSignals.quiet with loadUse := true })
      else
        match execute emo mwo e s with
        | .error f => .error f
        | .ok o =>
          .ok ({ o.state with em := some o.latch },
            { ExSignals.quiet with
              deConsumed := true, flush := o.flush, redirect := o.redirect, haltFetch := o.haltFetch })

/-! ## ID and IF (R237, R238) -/

/-- The ID step (R237). -/
def idStep (sig : ExSignals) (s : State) : State :=
  if sig.flush then { s with fb := [], de := none }
  else if sig.deConsumed then { s with de := s.fb.head?, fb := s.fb.drop 1 }
  else s

/-- The poison entry of an address where nothing decodes (R238). -/
def poisonEntry (pc : Word) (c : DecodeCause) : FetchEntry :=
  { uop := none, pc := pc, fault := some { kind := .decodeError, message := .decode c }, predNext := none }

/-- One fetch (R238): decode at `pc_fetch`, predict, append to FB. -/
def fetchOne (s : State) : State :=
  match decodeAt s s.pcFetch with
  | .error c => { s with fb := s.fb ++ [poisonEntry s.pcFetch c], fetchHalted := true }
  | .ok i =>
    let u := uopOf i s.pcFetch
    let p := predict u s
    { p.2 with
      fb := s.fb ++ [{ uop := some u, pc := s.pcFetch, fault := none, predNext := some p.1 }]
      pcFetch := p.1 }

/-- The IF step (R238). -/
def ifStep (sig : ExSignals) (s : State) : State :=
  if sig.flush then
    if sig.haltFetch then { s with fetchHalted := true }
    else { s with pcFetch := sig.redirect.getD s.pcFetch, fetchHalted := false }
  else if sig.loadUse || s.fetchHalted || decide (s.fb.length ≥ s.cfg.fetchBufCap) then s
  else fetchOne s

/-! ## The tick (R231) -/

/-- Steps 2 to 5 of the tick, on the snapshots. -/
def tickRest (emo : Option ExLatch) (mwo : Option MemLatch) (deo : Option FetchEntry) (s : State) : Result :=
  let m := memStep emo s
  match exStep m.2 emo mwo deo m.1 with
  | .error f => .fault f
  | .ok (s2, sig) => .next (ifStep sig (idStep sig s2))

/-- One tick of a running engine (R231). -/
def runningTick (s : State) : Result :=
  match wbStep s.mw (countCycle s) with
  | .error f => .fault f
  | .ok (s1, true) => .next s1
  | .ok (s1, false) => tickRest s.em s.mw s.de s1

/-- One step of the micro-architectural level (R231). Once the status is not `Running` no tick is performed and no
state changes (R27). -/
def tick (s : State) : Result :=
  match s.status with
  | .running => runningTick s
  | _ => .next s

end Sys2Proof.Machine
end

