-- ==== Sys2Proof/Machine/HostInterface.lean ====
section
/-! DEFINITION. The operations of the host (60_exceptions.md R380 to R388) and `commit` (53_cache_store_buffer.md
R335). A call the spec calls a host error is refused by name (U20 to U23). -/

namespace Sys2Proof.Machine

/-! ## create and load -/

/-- `create(config)` (R380): every piece of state at its reset value, memory all zero, nothing loaded. -/
def create (c : Config) : Except Refusal State :=
  if c.wf then .ok (State.initial c Layout.unloaded false) else .error .badConfiguration

/-- A memory image: segments, each a base address and its bytes. -/
abbrev Image := List (Nat × List Byte)

/-- Every segment lies inside memory. -/
def imageFits (c : Config) (image : Image) : Bool :=
  image.all fun seg => decide (seg.1 + seg.2.length ≤ c.memSize)

/-- Place the segments of an image in memory, in order. -/
def placeImage : Memory → Image → Memory
  | m, [] => m
  | m, seg :: rest => placeImage (Memory.writeBytes m seg.1 seg.2) rest

/-- No tick has been performed and no `run` has stopped the engine. -/
def notRun (s : State) : Bool := decide (s.status = .running) && s.metrics.cycles == 0

/-- `load` (R381): place the image, install the two ranges and the entry, `pc_fetch <- ENTRY`, and nothing else. The
parsing of the bytecode file is outside the core (R6, R126). A second load is a host error (U23). DESIGN CHOICE
(log 23): a first load on a created engine that has been run before any load, of which the spec is silent, is refused
too, under a name of its own. -/
def load (image : Image) (layout : Layout) (s : State) : Except Refusal State :=
  if s.loaded then .error .alreadyLoaded
  else if ¬ notRun s then .error .loadAfterRun
  else if ¬ layout.wf s.cfg then .error .badLayout
  else if ¬ imageFits s.cfg image then .error .segmentOutsideMemory
  else
    .ok { s with
      layout := layout
      loaded := true
      mem := placeImage s.mem image
      pc := layout.entry
      pcFetch := layout.entry }

/-- Reset (R400): `create(config)` followed by `load(...)`. -/
def boot (c : Config) (image : Image) (layout : Layout) : Except Refusal State :=
  match create c with
  | .ok s => load image layout s
  | .error r => .error r

/-! ## run -/

/-- The budget of a `run` is used up (R233). -/
def overBudget (maxCycles : Option Nat) (s : State) : Bool :=
  match maxCycles with
  | some n => decide (s.metrics.cycles ≥ n)
  | none => false

/-- The loop of R233 with fuel (U22): while Running, stop at the budget, else one tick. -/
def runLoop (maxCycles : Option Nat) : Nat → State → Result
  | 0, s => .next s
  | fuel + 1, s =>
    if s.status ≠ .running then .next s
    else if overBudget maxCycles s then .next { s with status := .budgetExhausted }
    else
      match tick s with
      | .next t => runLoop maxCycles fuel t
      | .fault f => .fault f
      | .refused r => .refused r

/-- A `run` after `BudgetExhausted` continues from the state left (R382, U25; log 19). -/
def reopen (s : State) : State :=
  match s.status with
  | .budgetExhausted => { s with status := .running }
  | _ => s

/-- `run(max_cycles?)` (R382): after any other stop it does nothing. -/
def run (maxCycles : Option Nat) (fuel : Nat) (s : State) : Result := runLoop maxCycles fuel (reopen s)

/-! ## Inspection after a stop -/

/-- `read_register(id)` (R383). -/
def readRegister (id : Nat) (s : State) : Except Refusal Word :=
  if s.status = .running then .error .hostCallWhileRunning
  else if h : id < 16 then .ok (s.reg ⟨id, h⟩)
  else .error (.noSuchRegister id)

/-- `read_flags()` (R383). -/
def readFlags (s : State) : Except Refusal Flags :=
  if s.status = .running then .error .hostCallWhileRunning else .ok s.flags

/-- `read_memory(addr, len)` (R384): M only, not cache or store buffer (R78). -/
def readMemory (addr len : Nat) (s : State) : Except Refusal (List Byte) :=
  if s.status = .running then .error .hostCallWhileRunning
  else if addr + len ≤ s.cfg.memSize then .ok (Memory.readBytes s.mem addr len)
  else .error (.rangeOutsideMemory addr len)

/-- IPC (R371): undefined before the first cycle. -/
def Metrics.ipc (m : Metrics) : Option Rat :=
  if m.cycles = 0 then none else some ((m.instructionsCommitted : Rat) / (m.cycles : Rat))

/-- The text of an error's message (R362; free, log 9); none when the engine has no error. -/
def errorText (s : State) : Option String :=
  match s.status with
  | .error _ _ m => some (Config.messageText m)
  | _ => none

/-! ## commit (R335) -/

/-- Drain until the buffer is empty, without counting. The fuel is the number of entries. -/
def drainAll : Nat → State → State
  | 0, s => s
  | n + 1, s => drainAll n (drainHead false s)

/-- Write the dirty lines of one set back to M. -/
def flushWays (c : Config) (si : Nat) : List (Option Line) → Memory → Memory
  | [], m => m
  | some l :: rest, m =>
    flushWays c si rest (if l.dirty then Memory.writeBytes m (lineBase c si l.tag) l.data else m)
  | none :: rest, m => flushWays c si rest m

/-- Write the dirty lines of the sets from number `si` on back to M. -/
def flushSets (c : Config) : Nat → List (List (Option Line)) → Memory → Memory
  | _, [], m => m
  | si, ways :: rest, m => flushSets c (si + 1) rest (flushWays c si ways m)

/-- A line after its write-back: clean, still valid. -/
def cleanLine (l : Option Line) : Option Line := l.map fun l => { l with dirty := false }

/-- Write every dirty line back to M and mark it clean. -/
def flushCache (s : State) : State :=
  { s with mem := flushSets s.cfg 0 s.l1 s.mem, l1 := s.l1.map fun ways => ways.map cleanLine }

/-- Remove every entry whose store never retired. -/
def dropUnretired (s : State) : State := { s with sb := s.sb.filter fun e => e.retired }

/-- `commit()` (R335), allowed only on a stopped engine. -/
def commitEngine (s : State) : State :=
  let s1 := dropUnretired s
  flushCache (drainAll s1.sb.length s1)

/-- The host call `commit()`. -/
def commit (s : State) : Result :=
  if s.status = .running then .refused .hostCallWhileRunning else .next (commitEngine s)

end Sys2Proof.Machine
end

