-- ==== Sys2Proof/Safety.lean ====
section
/-! DEFINITION. What claims speak of: runs of the two levels, the ways an instruction can end, what it leaves alone, and
the invariants of the architectural level and of the tick level (R280, R310, R327, R336). -/

namespace Sys2Proof.Machine

/-! ## Runs -/

/-- No error has stopped the engine (R27). -/
def errorFree (s : State) : Bool :=
  match s.status with
  | .error _ _ _ => false
  | _ => true

/-- `k` instructions (R4, architectural level). -/
def runSteps : Nat → State → Result
  | 0, s => .next s
  | k + 1, s =>
    match step s with
    | .next t => runSteps k t
    | .fault f => .fault f
    | .refused r => .refused r

/-- `k` ticks (R4, tick level). -/
def runTicks : Nat → State → Result
  | 0, s => .next s
  | k + 1, s =>
    match tick s with
    | .next t => runTicks k t
    | .fault f => .fault f
    | .refused r => .refused r

/-! ## How an instruction ends, and what it leaves alone -/

/-- Everything that no instruction of the architectural level changes: configuration, layout, fetch state, latches,
miss-wait state, predictor, and the push counter of the store buffer. (Not L1, store buffer and metrics: see
`sameBuffers`, and the frames that name them.) -/
def sameMachine (s t : State) : Prop :=
  t.cfg = s.cfg ∧ t.layout = s.layout ∧ t.loaded = s.loaded ∧ t.pcFetch = s.pcFetch ∧ t.fetchHalted = s.fetchHalted
    ∧ t.fb = s.fb ∧ t.de = s.de ∧ t.em = s.em ∧ t.mw = s.mw ∧ t.memWaiting = s.memWaiting ∧ t.memWait = s.memWait
    ∧ t.btb = s.btb ∧ t.pht = s.pht ∧ t.ras = s.ras ∧ t.sbSeq = s.sbSeq

/-- No byte a program sees has changed, nor any byte of main memory, cache line or store-buffer entry behind it. -/
def sameMemory (s t : State) : Prop :=
  (∀ a, archByte t a = archByte s a) ∧ (∀ a, Memory.read t.mem a = Memory.read s.mem a)
    ∧ t.mem = s.mem ∧ t.l1 = s.l1 ∧ t.sb = s.sb

/-- What a cache line is, without its data. -/
def Line.shape (l : Line) : Nat × Bool × Nat := (l.tag, l.dirty, l.age)

/-- What a store-buffer entry is, without its value. -/
def SbEntry.shape (e : SbEntry) : Word × Width × Nat × Bool := (e.addr, e.size, e.age, e.retired)

/-- Cache and store buffer hold the same lines and entries as before: only data and values may differ (log 6). -/
def sameBuffers (s t : State) : Prop :=
  t.l1.map (fun ways => ways.map (Option.map Line.shape)) = s.l1.map (fun ways => ways.map (Option.map Line.shape))
    ∧ t.sb.map SbEntry.shape = s.sb.map SbEntry.shape

/-- No general register but those `written` has changed. -/
def sameRegsBut (written : List Reg) (s t : State) : Prop := ∀ r, r ∉ written → t.reg r = s.reg r

/-- The instruction has retired and the engine goes on as it was, at `next` (R11, R372). -/
def retired (next : Word) (s t : State) : Prop :=
  t.pc = next ∧ t.status = s.status
    ∧ t.metrics = { s.metrics with instructionsCommitted := s.metrics.instructionsCommitted + 1 }

/-- The whole effect of an instruction that writes registers and flags only: it retires, and nothing changes but the
registers `written`, the flags, the pc and the count of retired instructions. -/
def registerEffect (written : List Reg) (next : Word) (s t : State) : Prop :=
  retired next s t ∧ sameRegsBut written s t ∧ sameMemory s t ∧ sameMachine s t

/-- The state in which an error has stopped the engine: `s` with another status and nothing else changed (R362). -/
def stoppedWith (kind : ErrorKind) (message : Message) (s : State) : State :=
  { s with status := .error kind s.pc message }

/-- An access of `n` bytes at `ea` that R68 allows: inside the data range without wrapping, and aligned. -/
def accessAllowed (l : Layout) (ea : Word) (n : Nat) : Prop :=
  l.dataBase ≤ ea.toNat ∧ ea.toNat + n ≤ l.dataEnd ∧ ea.toNat % n = 0

/-- A target inside the code range (R170). -/
def targetInCode (l : Layout) (a : Word) : Prop := l.codeBase ≤ a.toNat ∧ a.toNat < l.codeEnd

/-! ## Control transfers -/

/-- The ten flag jumps, by their condition (R174 to R183). -/
def flagJump : Cond → Target → Instr
  | .equal => .jmpIfEqual
  | .notEqual => .jmpIfNotEqual
  | .less => .jmpIfLess
  | .greaterEqual => .jmpIfGreaterEqual
  | .greater => .jmpIfGreater
  | .lessEqual => .jmpIfLessEqual
  | .below => .jmpIfBelow
  | .aboveEqual => .jmpIfAboveEqual
  | .above => .jmpIfAbove
  | .belowEqual => .jmpIfBelowEqual

/-- What each condition means after `CMP a,b` (R187, last column). -/
def relationHolds (c : Cond) (a b : Word) : Prop :=
  match c with
  | .equal => a = b
  | .notEqual => a ≠ b
  | .less => a.toInt < b.toInt
  | .greaterEqual => a.toInt ≥ b.toInt
  | .greater => a.toInt > b.toInt
  | .lessEqual => a.toInt ≤ b.toInt
  | .below => a.toNat < b.toNat
  | .aboveEqual => a.toNat ≥ b.toNat
  | .above => a.toNat > b.toNat
  | .belowEqual => a.toNat ≤ b.toNat

/-- The condition of each flag jump on FLAGS (R187, second column). -/
def flagCondition (c : Cond) (f : Flags) : Prop :=
  match c with
  | .equal => f.z = true
  | .notEqual => f.z = false
  | .less => f.n ≠ f.v
  | .greaterEqual => f.n = f.v
  | .greater => f.z = false ∧ f.n = f.v
  | .lessEqual => f.z = true ∨ f.n ≠ f.v
  | .below => f.c = true
  | .aboveEqual => f.c = false
  | .above => f.c = false ∧ f.z = false
  | .belowEqual => f.c = true ∨ f.z = true

/-- The target of a direct transfer of `len` bytes at `pc` (R100, R101). -/
def directTarget (pc : Word) (len : Nat) : Target → Word
  | .pcRel d => pc + BitVec.ofNat 64 len + d.signExtend 64
  | .abs a => a.setWidth 64

/-- The instruction is a control transfer that is taken in `s`, to `target` (R171 to R185). -/
def takenTo (i : Instr) (s : State) (target : Word) : Prop :=
  match i with
  | .jmp t => target = directTarget s.pc 7 t
  | .jmpIfZero r t => s.reg (regNum r) = 0 ∧ target = directTarget s.pc 8 t
  | .jmpIfNotZero r t => s.reg (regNum r) ≠ 0 ∧ target = directTarget s.pc 8 t
  | .jmpIfEqual t => flagCondition .equal s.flags ∧ target = directTarget s.pc 7 t
  | .jmpIfNotEqual t => flagCondition .notEqual s.flags ∧ target = directTarget s.pc 7 t
  | .jmpIfLess t => flagCondition .less s.flags ∧ target = directTarget s.pc 7 t
  | .jmpIfGreaterEqual t => flagCondition .greaterEqual s.flags ∧ target = directTarget s.pc 7 t
  | .jmpIfGreater t => flagCondition .greater s.flags ∧ target = directTarget s.pc 7 t
  | .jmpIfLessEqual t => flagCondition .lessEqual s.flags ∧ target = directTarget s.pc 7 t
  | .jmpIfBelow t => flagCondition .below s.flags ∧ target = directTarget s.pc 7 t
  | .jmpIfAboveEqual t => flagCondition .aboveEqual s.flags ∧ target = directTarget s.pc 7 t
  | .jmpIfAbove t => flagCondition .above s.flags ∧ target = directTarget s.pc 7 t
  | .jmpIfBelowEqual t => flagCondition .belowEqual s.flags ∧ target = directTarget s.pc 7 t
  | .call t => target = directTarget s.pc 7 t
  | .ret => target = s.reg linkReg
  | _ => False

/-! ## The words of the statements -/

/-- The eight instructions of 40_arithmetic.md, with the register each writes (R114). -/
def arithmeticDest : Instr → Option (Option Reg)
  | .add rd _ _ => some (some rd)
  | .sub rd _ _ => some (some rd)
  | .mul rd _ _ => some (some rd)
  | .div rd _ _ => some (some rd)
  | .mod rd _ _ => some (some rd)
  | .neg rd _ => some (some (regNum rd))
  | .mov rd _ => some (some (regNum rd))
  | .cmp _ _ => some none
  | _ => none

/-- One row of R159: with `a` in the first source and `b` as the second source, the instruction writes `r` and leaves
the four flags as given. -/
def givesValue (mk : Reg → Reg → Src2 → Instr) (a b r : Word) (z n c v : Bool) : Prop :=
  ∀ (rd rs1 : Reg) (src2 : Src2) (s : State), s.reg rs1 = a → src2Value s src2 = b →
    ∃ t, exec (mk rd rs1 src2) s = .next t ∧ t.reg rd = r ∧ t.flags = { z := z, n := n, c := c, v := v }

/-- The value a load of `n` bytes at `ea` delivers: the bytes a program sees there, little-endian (R63). -/
def bytesValue (s : State) (ea n : Nat) : Nat := ∑ k ∈ Finset.range n, (archByte s (ea + k)).toNat * 256 ^ k

/-- A load writes the `n` bytes at its effective address, zero-extended, to its register, and changes nothing else. -/
def loadsBytes (i : Instr) (rd : RegOp) (m : MemOp) (n : Nat) (s : State) : Prop :=
  accessAllowed s.layout (effAddr s m) n →
    ∃ t, exec i s = .next t ∧ (t.reg (regNum rd)).toNat = bytesValue s (effAddr s m).toNat n ∧ t.flags = s.flags
      ∧ registerEffect [regNum rd] (s.pc + BitVec.ofNat 64 i.length) s t

/-- A store of `n` bytes puts byte `k` of its data register at its effective address plus `k`, leaves every other byte
a program sees as it was, and changes no register, no flag and nothing else. -/
def storesBytes (i : Instr) (rs2 : RegOp) (m : MemOp) (n : Nat) (s : State) : Prop :=
  accessAllowed s.layout (effAddr s m) n →
    ∃ t, exec i s = .next t
      ∧ (∀ k, k < n → archByte t ((effAddr s m).toNat + k) = (s.reg (regNum rs2)).extractLsb' (8 * k) 8)
      ∧ (∀ a, ¬ ((effAddr s m).toNat ≤ a ∧ a < (effAddr s m).toNat + n) → archByte t a = archByte s a)
      ∧ t.flags = s.flags ∧ sameRegsBut [] s t ∧ sameMachine s t
      ∧ retired (s.pc + BitVec.ofNat 64 i.length) s t

/-- The access check of R68 refuses the access: range first, then alignment. -/
def faultsOnAccess (i : Instr) (m : MemOp) (n : Nat) (s : State) : Prop :=
  let ea := effAddr s m
  (¬ (s.layout.dataBase ≤ ea.toNat ∧ ea.toNat + n ≤ s.layout.dataEnd) →
      exec i s = .next (stoppedWith .memoryFault (.memory .range ea) s))
    ∧ (s.layout.dataBase ≤ ea.toNat ∧ ea.toNat + n ≤ s.layout.dataEnd → ea.toNat % n ≠ 0 →
      exec i s = .next (stoppedWith .memoryFault (.memory .alignment ea) s))

/-- The store of each width. -/
def storeOf : Width → RegOp → MemOp → Instr
  | .b1 => .storeb
  | .b2 => .storeh
  | .b4 => .storew
  | .b8 => .store

/-- The load of each width. -/
def loadOf : Width → RegOp → MemOp → Instr
  | .b1 => .loadb
  | .b2 => .loadh
  | .b4 => .loadw
  | .b8 => .load

/-- The fifteen instructions that set the flags (R24). -/
def setsFlags : Instr → Bool
  | .add _ _ _ | .sub _ _ _ | .mul _ _ _ | .div _ _ _ | .mod _ _ _ | .neg _ _ | .cmp _ _ => true
  | .and _ _ _ | .or _ _ _ | .xor _ _ _ | .not _ _ | .shl _ _ _ | .shr _ _ _ | .sar _ _ _ | .test _ _ => true
  | _ => false

/-- The address lies in the segment of an image. -/
def segmentCovers (seg : Nat × List Byte) (a : Nat) : Prop := seg.1 ≤ a ∧ a < seg.1 + seg.2.length

/-- The state a run starts in: booted, with any contents of the predictor's tables (R312). -/
def bootedWith (btb : List (Option BtbEntry)) (pht : List (BitVec 2)) (ras : List Word) (s : State) : State :=
  { s with btb := btb, pht := pht, ras := ras }

/-! ## The invariant of the architectural level -/

/-- Every listed address lies in `[0, MEM_SIZE)` (R28, R60). -/
def memInside (s : State) : Bool := s.mem.all fun c => decide (c.1 < s.cfg.memSize)

/-- Memory is canonical and inside its size, and the ranges are those a loader may give (R28, R60, R61). -/
def archInv (s : State) : Bool := s.mem.wf && memInside s && s.layout.wf s.cfg

/-! ## The invariants of the tick level -/

/-- An entry of FB or DE is as Fetch makes it (R33, R238): a decoded instruction with its prediction, or an error. -/
def entryLegal (e : FetchEntry) : Bool :=
  match e.fault, e.uop with
  | none, some u => (u == uopOf u.instr e.pc) && e.predNext.isSome
  | none, none => false
  | some _, u => u.isNone

/-- A latch without an error holds a decoded instruction; one with an error names no register (R32, R280, R363). -/
def latchLegal (l : ExLatch) : Bool :=
  match l.fault, l.uop with
  | none, some u => u == uopOf u.instr l.pc
  | none, none => false
  | some _, _ => l.rd.isNone

/-- The latch is a load (R35). -/
def isLoad (l : ExLatch) : Bool :=
  match l.access with
  | some (.load _ _) => true
  | _ => false

/-- A latch that names a register has its value, unless it is a load that MEM has not served (R35, R272). -/
def emLegal (l : ExLatch) : Bool := latchLegal l && (l.rd.isNone || l.result.isSome || isLoad l)

/-- After MEM a latch that names a register has its value (R36). -/
def mwLegal (l : ExLatch) : Bool := latchLegal l && (l.rd.isNone || l.result.isSome)

/-- No latch is in the illegal state of R280. -/
def pipelineLegal (s : State) : Bool :=
  s.fb.all entryLegal && s.de.all entryLegal && s.em.all emLegal && s.mw.all (fun w => mwLegal w.toExLatch)

/-- Some entry or latch carries an error on its way to WB (R242, R363). -/
def errorInFlight (s : State) : Bool :=
  s.fb.any (fun e => e.fault.isSome) || s.de.any (fun e => e.fault.isSome) || s.em.any (fun l => l.fault.isSome)
    || s.mw.any (fun w => w.fault.isSome)

/-- Fetch is halted only while an error is in flight (R242). -/
def haltedOk (s : State) : Bool := !s.fetchHalted || errorInFlight s

/-- Predictor state as R310 (1) to (3) have it: the tables keep their sizes, a valid BTB entry stands at the index of
its tag, the RAS is within its depth. -/
def predictorOk (s : State) : Bool :=
  (s.pht.length == s.cfg.phtSize) && (s.btb.length == s.cfg.btbSize) && decide (s.ras.length ≤ s.cfg.rasDepth)
    && s.btb.zipIdx.all fun p => p.1.all fun e => e.tag.toNat % s.cfg.btbSize == p.2

/-- NUM_SETS sets of WAYS lines of LINE_SIZE bytes (R43, R320). -/
def geometryOk (s : State) : Bool :=
  (s.l1.length == s.cfg.numSets)
    && s.l1.all fun ways => (ways.length == s.cfg.ways) && ways.all fun l => l.all fun x => x.data.length == s.cfg.lineSize

/-- The tags of the valid lines of a set, in the order of the ways. -/
def validTags (ways : List (Option Line)) : List Nat := ways.filterMap fun l => l.map fun x => x.tag

/-- A line of set `si` against M (R321, R324, R336 (2) and (3)): a clean line equals M over its range; a dirty line
exists only in write-back mode and equals M at every byte outside the data range. -/
def lineCoherent (s : State) (si : Nat) (l : Line) : Bool :=
  if l.dirty then
    s.cfg.writeBack && (l.data.zipIdx (lineBase s.cfg si l.tag)).all fun p =>
      (decide (s.layout.dataBase ≤ p.2) && decide (p.2 < s.layout.dataEnd)) || p.1 == Memory.read s.mem p.2
  else l.data == Memory.readBytes s.mem (lineBase s.cfg si l.tag) s.cfg.lineSize

/-- R336 (1) to (3): no tag twice in a set, and every valid line is coherent. -/
def cacheOk (s : State) : Bool :=
  s.l1.zipIdx.all fun p => decide (validTags p.1).Nodup && p.1.all fun l => l.all (lineCoherent s p.2)

/-- An entry as a checked store pushes it (R328): its access is allowed and its value fits its size. -/
def sbEntryOk (s : State) (e : SbEntry) : Bool :=
  (accessCheck s.layout e.addr e.size.bytes).isNone && decide (e.value.toNat < 256 ^ e.size.bytes)
    && decide (e.age ≤ s.sbSeq)

/-- An entry that has not retired belongs to the store now in MW (R327). -/
def sbOwned (s : State) (e : SbEntry) : Bool :=
  e.retired || s.mw.any fun w => w.fault.isNone && w.sbAge == some e.age

/-- R327, R336 (4) and (5): within SB_CAP, ages strictly rising, only the tail not yet retired. -/
def sbOk (s : State) : Bool :=
  decide (s.sb.length ≤ s.cfg.sbCap) && decide (s.sb.Pairwise fun e f => e.age < f.age)
    && s.sb.all (sbEntryOk s) && s.sb.dropLast.all (fun e => e.retired) && s.sb.all (sbOwned s)

/-- What a waiting load in EM needs (R326, R336 (6)): it carries no error, its access is allowed, its line is absent
and no store-buffer entry overlaps it. -/
def waitingLoadOk (s : State) (l : ExLatch) : Bool :=
  match l.fault, l.access with
  | none, some (.load w ea) =>
    (accessCheck s.layout ea w.bytes).isNone && (lookupWay s ea.toNat).isNone && (sbSearch s ea.toNat w.bytes).isNone
  | _, _ => false

/-- R336 (6). -/
def waitOk (s : State) : Bool :=
  !s.memWaiting || (s.em.any (waitingLoadOk s) && decide (1 ≤ s.memWait) && decide (s.memWait ≤ s.cfg.missPenalty))

/-- The invariants of R336 (1) to (6), with the shape of the structures they speak of. -/
def microInv (s : State) : Bool :=
  s.cfg.wf && s.mem.wf && geometryOk s && cacheOk s && sbOk s && waitOk s

/-! ## The coupling of the two levels (R4, R245)

A pipeline state `s` is coupled to an architectural state `u` that has run the instructions `s` has retired. The
instructions in MW and EM are the next two that the architectural level runs, and their latches hold what it will
compute; DE and FB hold what stands at the address after them, and then along the predicted path. -/

/-- One instruction of the architectural level. -/
def afterStep (u : State) : State :=
  match step u with
  | .next v => v
  | _ => u

/-- `v` is `u` with the register and flag writes of a latch. -/
def writesOf (l : ExLatch) (u v : State) : Prop :=
  (∀ r, v.reg r = if l.rd = some r then l.result.getD 0 else u.reg r) ∧ v.flags = l.flags.getD u.flags

/-- The latch holds the instruction at the pc of `u`. -/
def holdsNext (l : ExLatch) (u : State) : Prop :=
  ∃ i, decodeAt u u.pc = .ok i ∧ l.uop = some (uopOf i u.pc)

/-- What EX made of the instruction at the pc of `u` is what the architectural level does with it (R249): the error, the
register and flag writes, or the access still to be made. -/
def emCoupled (l : ExLatch) (u : State) : Prop :=
  match l.fault, l.access with
  | some f, _ => step u = .next (stoppedWith f.kind f.message u)
  | none, none =>
    holdsNext l u ∧ errorFree (afterStep u) = true ∧ writesOf l u (afterStep u)
      ∧ ∀ a, archByte (afterStep u) a = archByte u a
  | none, some (.load w ea) =>
    holdsNext l u ∧ l.flags = none
      ∧ ∃ r, l.rd = some r ∧ ∃ len, l.uop.map (fun x => x.len) = some len ∧ step u = .next (loadTo w r ea len u)
  | none, some (.store w ea d) =>
    holdsNext l u ∧ l.flags = none ∧ l.rd = none
      ∧ ∃ len, l.uop.map (fun x => x.len) = some len ∧ step u = .next (storeFrom w d ea len u)

/-- What MEM hands to WB is what the architectural level does with the instruction at the pc of `u` (R234, R336 (7)):
the error, or the register and flag writes, with every byte a program sees as the pipeline already has it. -/
def mwCoupled (w : MemLatch) (u s : State) : Prop :=
  match w.fault with
  | some f => step u = .next (stoppedWith f.kind f.message u)
  | none =>
    holdsNext w.toExLatch u ∧ errorFree (afterStep u) = true ∧ writesOf w.toExLatch u (afterStep u)
      ∧ ∀ a, archByte (afterStep u) a = archByte s a

/-- The entries `es` follow one another from `p` on the path Fetch took (R33, R238, R290): each is what stands at its
address, the next one stands at its prediction, an entry that carries a decode error is the last and has halted
fetch, and after the last one fetch goes on. Only a control transfer is predicted anywhere but at the next instruction. -/
def pathFrom (s : State) (p : Word) : List FetchEntry → Prop
  | [] => s.fetchHalted = false ∧ s.pcFetch = p
  | e :: rest =>
    e.pc = p ∧
      match e.fault with
      | some f =>
        (∃ c, decodeAt s p = .error c ∧ f = { kind := .decodeError, message := .decode c }) ∧ rest = []
          ∧ s.fetchHalted = true
      | none =>
        ∃ i n, decodeAt s p = .ok i ∧ e.uop = some (uopOf i p) ∧ e.predNext = some n
          ∧ ((∀ x target, ¬ takenTo i x target) → n = p + BitVec.ofNat 64 i.length) ∧ pathFrom s n rest

/-- DE and FB begin where the architectural level goes on, if no error has stopped it. -/
def frontCoupled (s u : State) : Prop := errorFree u = true → pathFrom s u.pc (s.de.toList ++ s.fb)

/-- EM and what is behind it, for the architectural state `u` after the instruction in MW. Behind an instruction that
stops the engine only the pc is said of EM: it is never retired. -/
def restCoupled (s u : State) : Prop :=
  match s.em with
  | none => frontCoupled s u
  | some l =>
    (errorFree u = true → l.pc = u.pc) ∧ (u.status = .running → emCoupled l u ∧ frontCoupled s (afterStep u))

/-- The coupling. The architectural part agrees (R365), every byte a program sees agrees but for the store in MW (R336
(7)), and while the engine runs the latches are those of the next instructions. -/
def coupled (s u : State) : Prop :=
  microInv s = true ∧ pipelineLegal s = true ∧ s.layout.wf s.cfg = true ∧ u.cfg = s.cfg ∧ u.layout = s.layout
    ∧ u.regs = s.regs ∧ u.flags = s.flags ∧ u.pc = s.pc ∧ u.status = s.status
    ∧ u.metrics.instructionsCommitted = s.metrics.instructionsCommitted
    ∧ (∀ a, archByte u a = archByte (dropUnretired s) a) ∧ (∀ a, decodeAt u a = decodeAt s a)
    ∧ (s.status = .running →
      match s.mw with
      | none => restCoupled s u
      | some w => w.pc = u.pc ∧ mwCoupled w u s ∧ restCoupled s (afterStep u))

/-- How many instructions the architectural level runs for the next tick: one when an instruction, or an error, is in
MW, else none. -/
def stepsOfTick (s : State) : Nat := if s.status = .running ∧ s.mw.isSome then 1 else 0

end Sys2Proof.Machine
end

