-- ==== Sys2Proof/Certificates/Slice0/Obligations.lean ====
section
/-! DEFINITION. The statements for the provers. Each docstring names the rules of spec/ it formalises. -/

open Sys2Proof Sys2Proof.Machine

/-! ## Encoding and decoding (30_encoding.md) -/

/-- Decoding an encoded well-formed instruction gives it back, whatever bytes follow (R90 to R106). -/
def Obligations.DecodeInvertsEncode : Prop :=
  ∀ (i : Instr) (rest : List Byte), i.wf = true → decode (encode i ++ rest) = .ok i

/-- Every word has one meaning: bytes that decode to an instruction start with exactly the encoding of it, and the
instruction is well formed (R91, R96 to R102, R106). -/
def Obligations.DecodedBytesAreTheEncoding : Prop :=
  ∀ (bs : List Byte) (i : Instr), decode bs = .ok i → i.wf = true ∧ ∃ rest, bs = encode i ++ rest

/-- The opcode bytes that no row of R105 has are refused by name, whatever follows, and no other byte is (R105,
R107). -/
def Obligations.OpcodesOutsideTheMapAreRefused : Prop :=
  ∀ (op f z : Byte) (args : List Byte),
    decode (op :: f :: z :: args) = .error .unknownOpcode ↔
      ¬ (op.toNat ≤ 0x07 ∨ (0x20 ≤ op.toNat ∧ op.toNat ≤ 0x27) ∨ (0x40 ≤ op.toNat ∧ op.toNat ≤ 0x4C)
        ∨ (0x50 ≤ op.toNat ∧ op.toNat ≤ 0x51) ∨ (0x60 ≤ op.toNat ∧ op.toNat ≤ 0x67)
        ∨ (0x80 ≤ op.toNat ∧ op.toNat ≤ 0x83))

/-- Words written out from the encodings of the spec, one for each operand class, decode to what they stand for. -/
def Obligations.SampleWordsDecode : Prop :=
  decode [0x00, 0x11, 0x05, 0x31, 0x20] = .ok (.add 3 1 (.reg4 2))
    ∧ decode [0x06, 0x14, 0x06, 0x10, 0x00, 0x01] = .ok (.mov (.reg4 1) (.imm16 0x100))
    ∧ decode [0x27, 0x13, 0x05, 0x10, 0x08] = .ok (.test (.reg4 1) (.imm8 8))
    ∧ decode [0x40, 0x70, 0x07, 0xF9, 0xFF, 0xFF, 0xFF] = .ok (.jmp (.pcRel (-7)))
    ∧ decode [0x41, 0x28, 0x08, 0x0F, 0x78, 0x56, 0x34, 0x12] = .ok (.jmpIfZero (.reg8 15) (.abs 0x12345678))
    ∧ decode [0x62, 0x19, 0x09, 0x20, 0x10, 0x03, 0x00, 0x00, 0x00] = .ok (.loadb (.reg4 2) (.regOff 1 3))
    ∧ decode [0x61, 0x18, 0x08, 0x90, 0x00, 0x02, 0x00, 0x00] = .ok (.store (.reg4 9) (.abs 0x200))
    ∧ decode [0x81, 0x00, 0x03] = .ok .halt

/-- An instruction must begin at or after CODE_BASE and end by CODE_END: where its bytes lie so, they decode to it;
where the code range starts later or ends sooner, the decode is refused as truncated (R106 steps 1 and 8, R107). So
while the engine runs, an encoded instruction at the pc that lies so is what the step runs (R65), and one that does not
is a `DecodeError`. -/
def Obligations.InstructionMustLieInTheCodeRange : Prop :=
  (∀ (s : State) (a : Word) (i : Instr), i.wf = true → Memory.readBytes s.mem a.toNat i.length = encode i →
    decodeAt s a = if s.layout.codeBase ≤ a.toNat ∧ a.toNat + i.length ≤ s.layout.codeEnd then .ok i
      else .error .truncated)
    ∧ ∀ (s : State) (i : Instr), s.status = .running → i.wf = true →
      Memory.readBytes s.mem s.pc.toNat i.length = encode i →
      step s = if s.layout.codeBase ≤ s.pc.toNat ∧ s.pc.toNat + i.length ≤ s.layout.codeEnd then exec i s
        else .next (stoppedWith .decodeError (.decode .truncated) s)

/-! ## The step (R4, R11, R27, R106) -/

/-- While the engine runs, one step runs the instruction decoded at the pc, and nothing around it; where nothing
decodes it stops with `DecodeError` at that pc, every other piece of state unchanged; an engine that has stopped
does not move, at either level. -/
def Obligations.StepRunsTheDecodedInstruction : Prop :=
  (∀ (s : State) (i : Instr), s.status = .running → decodeAt s s.pc = .ok i → step s = exec i s)
    ∧ (∀ (s : State) (c : DecodeCause), s.status = .running → decodeAt s s.pc = .error c →
        step s = .next (stoppedWith .decodeError (.decode c) s))
    ∧ (∀ s : State, s.status ≠ .running → step s = .next s ∧ tick s = .next s)

/-! ## Operands (R97 to R102, R200) -/

/-- What each operand form stands for: a register number from either kind, an immediate zero-extended, an absolute
address zero-extended (of a load or store, or of a transfer, whatever its pc), an effective address modulo 2^64. -/
def Obligations.OperandFormsDenote : Prop :=
  (∀ b : BitVec 8, b.toNat < 16 → (regNum (.reg8 b)).val = b.toNat)
    ∧ (∀ r : Reg, regNum (.reg4 r) = r)
    ∧ (∀ (next : Word) (a : BitVec 32), (targetAddr next (.abs a)).toNat = a.toNat)
    ∧ (∀ (s : State) (b : BitVec 8) (r : Reg), b.toNat = r.val →
        src2Value s (.reg8 b) = s.reg r ∧ src2Value s (.reg4 r) = s.reg r)
    ∧ (∀ (s : State) (v : BitVec 8), (src2Value s (.imm8 v)).toNat = v.toNat)
    ∧ (∀ (s : State) (v : BitVec 16), (src2Value s (.imm16 v)).toNat = v.toNat)
    ∧ (∀ (s : State) (v : BitVec 32), (src2Value s (.imm32 v)).toNat = v.toNat)
    ∧ (∀ (s : State) (v : BitVec 64), src2Value s (.imm64 v) = v)
    ∧ (∀ (s : State) (a : BitVec 32), (effAddr s (.abs a)).toNat = a.toNat)
    ∧ (∀ (s : State) (base : Reg) (off : BitVec 32),
        ((effAddr s (.regOff base off)).toNat : Int) = (((s.reg base).toNat : Int) + off.toInt) % 2 ^ 64)

/-- A pc-relative target (R100): the four argument bytes are a signed little-endian displacement, counted modulo
2^64 from the next instruction; displacement 0 names the next instruction. -/
def Obligations.PcRelativeTarget : Prop :=
  (∀ b0 b1 b2 b3 : Byte, ∃ d : BitVec 32, parseTarget .pcRel [b0, b1, b2, b3] = .ok (.pcRel d)
      ∧ d.toNat = b0.toNat + 256 * b1.toNat + 65536 * b2.toNat + 16777216 * b3.toNat)
    ∧ (∀ (s : State) (len : Nat) (d : BitVec 32),
        ((targetAddr (seqPc s len) (.pcRel d)).toNat : Int) = ((s.pc.toNat : Int) + len + d.toInt) % 2 ^ 64)
    ∧ ∀ (s : State) (len : Nat), targetAddr (seqPc s len) (.pcRel 0) = s.pc + BitVec.ofNat 64 len

/-! ## Arithmetic (40_arithmetic.md) -/

/-- ADD, for every operand form and every state (R131): the sum modulo 2^64, C the carry out of bit 63, V exactly when
the signed sum does not fit, and nothing else. -/
def Obligations.AddResultFlagsFrame : Prop :=
  ∀ (rd rs1 : Reg) (src2 : Src2) (s : State),
    let a := s.reg rs1
    let b := src2Value s src2
    ∃ t, exec (.add rd rs1 src2) s = .next t ∧ t.reg rd = a + b
      ∧ t.flags = { z := a + b == 0, n := (a + b).msb, c := decide (2 ^ 64 ≤ a.toNat + b.toNat),
                    v := !decide (-2 ^ 63 ≤ a.toInt + b.toInt ∧ a.toInt + b.toInt < 2 ^ 63) }
      ∧ registerEffect [rd] (s.pc + BitVec.ofNat 64 (Instr.add rd rs1 src2).length) s t

/-- SUB and CMP (R132, R138): the difference modulo 2^64, Z exactly when the operands are equal, C the borrow, V exactly
when the signed difference does not fit; CMP has the flags of SUB and writes no register. -/
def Obligations.SubAndCmpResultFlagsFrame : Prop :=
  (∀ (rd rs1 : Reg) (src2 : Src2) (s : State),
    let a := s.reg rs1
    let b := src2Value s src2
    ∃ t, exec (.sub rd rs1 src2) s = .next t ∧ t.reg rd = a - b
      ∧ t.flags = { z := a == b, n := (a - b).msb, c := decide (a.toNat < b.toNat),
                    v := !decide (-2 ^ 63 ≤ a.toInt - b.toInt ∧ a.toInt - b.toInt < 2 ^ 63) }
      ∧ registerEffect [rd] (s.pc + BitVec.ofNat 64 (Instr.sub rd rs1 src2).length) s t)
    ∧ ∀ (rs1 : RegOp) (src2 : Src2) (s : State),
      let a := s.reg (regNum rs1)
      let b := src2Value s src2
      ∃ t, exec (.cmp rs1 src2) s = .next t
        ∧ t.flags = { z := a == b, n := (a - b).msb, c := decide (a.toNat < b.toNat),
                      v := !decide (-2 ^ 63 ≤ a.toInt - b.toInt ∧ a.toInt - b.toInt < 2 ^ 63) }
        ∧ registerEffect [] (s.pc + BitVec.ofNat 64 (Instr.cmp rs1 src2).length) s t

/-- MUL (R133): the low 64 bits of the product, C when the unsigned product does not fit, V when the signed product
does not; the low bits are those of the signed product too. -/
def Obligations.MulResultFlagsFrame : Prop :=
  ∀ (rd rs1 : Reg) (src2 : Src2) (s : State),
    let a := s.reg rs1
    let b := src2Value s src2
    ∃ t, exec (.mul rd rs1 src2) s = .next t ∧ t.reg rd = a * b ∧ t.reg rd = BitVec.ofInt 64 (a.toInt * b.toInt)
      ∧ t.flags = { z := a * b == 0, n := (a * b).msb, c := decide (2 ^ 64 ≤ a.toNat * b.toNat),
                    v := !decide (-2 ^ 63 ≤ a.toInt * b.toInt ∧ a.toInt * b.toInt < 2 ^ 63) }
      ∧ registerEffect [rd] (s.pc + BitVec.ofNat 64 (Instr.mul rd rs1 src2).length) s t

/-- DIV and MOD (R134, R135): unsigned quotient and remainder; a zero divisor gives 0 and `Z = 1` and the machine goes
on; C and V are 0. -/
def Obligations.DivAndModResultFlagsFrame : Prop :=
  (∀ (rd rs1 : Reg) (src2 : Src2) (s : State),
    let q := (s.reg rs1).toNat / (src2Value s src2).toNat
    ∃ t, exec (.div rd rs1 src2) s = .next t ∧ (t.reg rd).toNat = q
      ∧ t.flags = { z := q == 0, n := decide (2 ^ 63 ≤ q), c := false, v := false }
      ∧ registerEffect [rd] (s.pc + BitVec.ofNat 64 (Instr.div rd rs1 src2).length) s t)
    ∧ ∀ (rd rs1 : Reg) (src2 : Src2) (s : State),
      let r := if src2Value s src2 = 0 then 0 else (s.reg rs1).toNat % (src2Value s src2).toNat
      ∃ t, exec (.mod rd rs1 src2) s = .next t ∧ (t.reg rd).toNat = r
        ∧ t.flags = { z := r == 0, n := decide (2 ^ 63 ≤ r), c := false, v := false }
        ∧ registerEffect [rd] (s.pc + BitVec.ofNat 64 (Instr.mod rd rs1 src2).length) s t

/-- NEG and MOV (R136, R137): the negation with the flags of a subtraction from 0; the copy with the flags
unchanged. -/
def Obligations.NegAndMovResultFlagsFrame : Prop :=
  (∀ (rd : RegOp) (src2 : Src2) (s : State),
    let b := src2Value s src2
    ∃ t, exec (.neg rd src2) s = .next t ∧ t.reg (regNum rd) = -b
      ∧ t.flags = { z := b == 0, n := (-b).msb, c := decide (0 < b.toNat),
                    v := !decide (-2 ^ 63 ≤ -b.toInt ∧ -b.toInt < 2 ^ 63) }
      ∧ registerEffect [regNum rd] (s.pc + BitVec.ofNat 64 (Instr.neg rd src2).length) s t)
    ∧ ∀ (rd : RegOp) (src2 : Src2) (s : State),
      ∃ t, exec (.mov rd src2) s = .next t ∧ t.reg (regNum rd) = src2Value s src2 ∧ t.flags = s.flags
        ∧ registerEffect [regNum rd] (s.pc + BitVec.ofNat 64 (Instr.mov rd src2).length) s t

/-- R139. (1) ADD, SUB, MUL are the ring operations modulo 2^64. (2) The flags of SUB order its operands. (3) DIV and
MOD answer a next state and change only `rd` and FLAGS. (4) All but MOV write all four flags (what they leave does not
depend on the flags before); none writes memory; `pc` becomes `pc + len`. (5) The result of every instruction,
for every operand form and whatever the destination, is that of the old values, `s.reg`, in the state before ((1) says so
of ADD, SUB and MUL); in particular where the destination is both sources. -/
def Obligations.ArithmeticLaws : Prop :=
  (∀ (rd rs1 : Reg) (src2 : Src2) (s t : State),
      (exec (.add rd rs1 src2) s = .next t →
        ((t.reg rd).toNat : Int) = (((s.reg rs1).toNat : Int) + (src2Value s src2).toNat) % 2 ^ 64)
      ∧ (exec (.sub rd rs1 src2) s = .next t →
        ((t.reg rd).toNat : Int) = (((s.reg rs1).toNat : Int) - (src2Value s src2).toNat) % 2 ^ 64)
      ∧ (exec (.mul rd rs1 src2) s = .next t →
        ((t.reg rd).toNat : Int) = (((s.reg rs1).toNat : Int) * (src2Value s src2).toNat) % 2 ^ 64))
    ∧ (∀ (rd rs1 : Reg) (src2 : Src2) (s t : State), exec (.sub rd rs1 src2) s = .next t →
        (t.flags.z = true ↔ s.reg rs1 = src2Value s src2)
        ∧ (t.flags.c = true ↔ (s.reg rs1).toNat < (src2Value s src2).toNat)
        ∧ (t.flags.n ≠ t.flags.v ↔ (s.reg rs1).toInt < (src2Value s src2).toInt))
    ∧ (∀ (rd rs1 : Reg) (src2 : Src2) (s : State) (i : Instr), i = .div rd rs1 src2 ∨ i = .mod rd rs1 src2 →
        ∃ t, exec i s = .next t ∧ registerEffect [rd] (s.pc + BitVec.ofNat 64 i.length) s t)
    ∧ (∀ (i : Instr) (d : Option Reg) (s t : State), arithmeticDest i = some d → exec i s = .next t →
        ((∀ rd src2, i ≠ .mov rd src2) → ∀ f : Flags, ∃ u, exec i (s.setFlags f) = .next u ∧ u.flags = t.flags)
        ∧ (∀ rd src2, i = .mov rd src2 → t.flags = s.flags)
        ∧ sameMemory s t ∧ sameRegsBut d.toList s t ∧ t.pc = s.pc + BitVec.ofNat 64 i.length)
    ∧ (∀ (r : Reg) (s t : State),
        (exec (.add r r (.reg4 r)) s = .next t → t.reg r = s.reg r + s.reg r)
        ∧ (exec (.sub r r (.reg4 r)) s = .next t → t.reg r = 0)
        ∧ (exec (.mul r r (.reg4 r)) s = .next t → t.reg r = s.reg r * s.reg r)
        ∧ (exec (.div r r (.reg4 r)) s = .next t → t.reg r = if s.reg r = 0 then 0 else 1)
        ∧ (exec (.mod r r (.reg4 r)) s = .next t → t.reg r = 0)
        ∧ (exec (.neg (.reg4 r) (.reg4 r)) s = .next t → t.reg r = -s.reg r)
        ∧ (exec (.mov (.reg4 r) (.reg4 r)) s = .next t → t.reg r = s.reg r))
    ∧ (∀ (rd rs1 : Reg) (src2 : Src2) (s t : State),
        (exec (.div rd rs1 src2) s = .next t → (t.reg rd).toNat = (s.reg rs1).toNat / (src2Value s src2).toNat)
        ∧ (exec (.mod rd rs1 src2) s = .next t →
          (t.reg rd).toNat = if src2Value s src2 = 0 then 0 else (s.reg rs1).toNat % (src2Value s src2).toNat))
    ∧ ∀ (rd : RegOp) (src2 : Src2) (s t : State),
      (exec (.neg rd src2) s = .next t → t.reg (regNum rd) = -src2Value s src2)
      ∧ (exec (.mov rd src2) s = .next t → t.reg (regNum rd) = src2Value s src2)

/-! ## Logic and shift (41_logic_shift.md) -/

/-- AND, OR, XOR, NOT and TEST bit by bit, with C = V = 0 (R151 to R154, R158); TEST writes no register. -/
def Obligations.BitwiseResultFlagsFrame : Prop :=
  (∀ (rd rs1 : Reg) (src2 : Src2) (s : State),
    let a := s.reg rs1
    let b := src2Value s src2
    (∃ t, exec (.and rd rs1 src2) s = .next t ∧ (∀ k, (t.reg rd).getLsbD k = (a.getLsbD k && b.getLsbD k))
      ∧ t.flags = { z := t.reg rd == 0, n := (t.reg rd).getLsbD 63, c := false, v := false }
      ∧ registerEffect [rd] (s.pc + BitVec.ofNat 64 (Instr.and rd rs1 src2).length) s t)
    ∧ (∃ t, exec (.or rd rs1 src2) s = .next t ∧ (∀ k, (t.reg rd).getLsbD k = (a.getLsbD k || b.getLsbD k))
      ∧ t.flags = { z := t.reg rd == 0, n := (t.reg rd).getLsbD 63, c := false, v := false }
      ∧ registerEffect [rd] (s.pc + BitVec.ofNat 64 (Instr.or rd rs1 src2).length) s t)
    ∧ (∃ t, exec (.xor rd rs1 src2) s = .next t ∧ (∀ k, (t.reg rd).getLsbD k = (a.getLsbD k != b.getLsbD k))
      ∧ t.flags = { z := t.reg rd == 0, n := (t.reg rd).getLsbD 63, c := false, v := false }
      ∧ registerEffect [rd] (s.pc + BitVec.ofNat 64 (Instr.xor rd rs1 src2).length) s t))
    ∧ (∀ (rd : RegOp) (src2 : Src2) (s : State),
      ∃ t, exec (.not rd src2) s = .next t
        ∧ (∀ k, k < 64 → (t.reg (regNum rd)).getLsbD k = !(src2Value s src2).getLsbD k)
        ∧ t.flags = { z := t.reg (regNum rd) == 0, n := (t.reg (regNum rd)).getLsbD 63, c := false, v := false }
        ∧ registerEffect [regNum rd] (s.pc + BitVec.ofNat 64 (Instr.not rd src2).length) s t)
    ∧ ∀ (rs1 : RegOp) (src2 : Src2) (s : State),
      let r := s.reg (regNum rs1) &&& src2Value s src2
      ∃ t, exec (.test rs1 src2) s = .next t ∧ t.flags = { z := r == 0, n := r.getLsbD 63, c := false, v := false }
        ∧ registerEffect [] (s.pc + BitVec.ofNat 64 (Instr.test rs1 src2).length) s t

/-- SHL, SHR and SAR by `n`, the low six bits of the second source (R155 to R157): zeros enter on the vacated side, or
the sign for SAR; C is the last bit shifted out, or 0 when `n = 0`; V = 0. -/
def Obligations.ShiftResultFlagsFrame : Prop :=
  ∀ (rd rs1 : Reg) (src2 : Src2) (s : State),
    let a := s.reg rs1
    let n := (src2Value s src2).toNat % 64
    (∃ t, exec (.shl rd rs1 src2) s = .next t ∧ t.reg rd = a <<< n
      ∧ t.flags = { z := t.reg rd == 0, n := (t.reg rd).msb, c := if n = 0 then false else a.getLsbD (64 - n), v := false }
      ∧ registerEffect [rd] (s.pc + BitVec.ofNat 64 (Instr.shl rd rs1 src2).length) s t)
    ∧ (∃ t, exec (.shr rd rs1 src2) s = .next t ∧ t.reg rd = a >>> n
      ∧ t.flags = { z := t.reg rd == 0, n := (t.reg rd).msb, c := if n = 0 then false else a.getLsbD (n - 1), v := false }
      ∧ registerEffect [rd] (s.pc + BitVec.ofNat 64 (Instr.shr rd rs1 src2).length) s t)
    ∧ ∃ t, exec (.sar rd rs1 src2) s = .next t ∧ t.reg rd = a.sshiftRight n
      ∧ t.flags = { z := t.reg rd == 0, n := (t.reg rd).msb, c := if n = 0 then false else a.getLsbD (n - 1), v := false }
      ∧ registerEffect [rd] (s.pc + BitVec.ofNat 64 (Instr.sar rd rs1 src2).length) s t

/-- The worked values of R159, in its order. -/
def Obligations.LogicAndShiftWorkedValues : Prop :=
  givesValue .and 0xF0F0 0x0FF0 0x00F0 false false false false
    ∧ givesValue .or 0x8000000000000000 1 0x8000000000000001 false true false false
    ∧ givesValue .xor 0x1234 0x1234 0 true false false false
    ∧ (∀ (rd : RegOp) (src2 : Src2) (s : State), src2Value s src2 = 0 →
        ∃ t, exec (.not rd src2) s = .next t ∧ t.reg (regNum rd) = 0xFFFFFFFFFFFFFFFF
          ∧ t.flags = { z := false, n := true, c := false, v := false })
    ∧ givesValue .shl 0x8000000000000001 1 2 false false true false
    ∧ givesValue .shl 1 63 0x8000000000000000 false true false false
    ∧ givesValue .shl 5 64 5 false false false false
    ∧ givesValue .shr 0x8000000000000001 1 0x4000000000000000 false false true false
    ∧ givesValue .shr 3 2 0 true false true false
    ∧ givesValue .sar 0x8000000000000000 63 0xFFFFFFFFFFFFFFFF false true false false
    ∧ givesValue .sar 0xFFFFFFFFFFFFFFFE 1 0xFFFFFFFFFFFFFFFF false true false false
    ∧ givesValue .sar 0xFFFFFFFFFFFFFFFF 1 0xFFFFFFFFFFFFFFFF false true true false
    ∧ ∀ (rs1 : RegOp) (src2 : Src2) (s : State), s.reg (regNum rs1) = 6 → src2Value s src2 = 1 →
        ∃ t, exec (.test rs1 src2) s = .next t ∧ t.flags = { z := true, n := false, c := false, v := false }
          ∧ sameRegsBut [] s t

/-! ## Control flow (42_control_flow.md) -/

/-- JMP to a target inside the code range (R171). -/
def Obligations.JmpGoesToItsTarget : Prop :=
  ∀ (t : Target) (s : State), targetInCode s.layout (directTarget s.pc 7 t) →
    ∃ u, exec (.jmp t) s = .next u ∧ u.flags = s.flags ∧ registerEffect [] (directTarget s.pc 7 t) s u

/-- JMP_IF_ZERO and JMP_IF_NOT_ZERO test the register, not the Z flag (R172, R173): taken to a target inside the code
range, or on to the next instruction, whatever the target. -/
def Obligations.RegisterJumpsTestTheRegister : Prop :=
  ∀ (r : RegOp) (t : Target) (s : State),
    (s.reg (regNum r) = 0 → targetInCode s.layout (directTarget s.pc 8 t) →
      ∃ u, exec (.jmpIfZero r t) s = .next u ∧ u.flags = s.flags ∧ registerEffect [] (directTarget s.pc 8 t) s u)
    ∧ (s.reg (regNum r) ≠ 0 →
      ∃ u, exec (.jmpIfZero r t) s = .next u ∧ u.flags = s.flags ∧ registerEffect [] (s.pc + 8) s u)
    ∧ (s.reg (regNum r) ≠ 0 → targetInCode s.layout (directTarget s.pc 8 t) →
      ∃ u, exec (.jmpIfNotZero r t) s = .next u ∧ u.flags = s.flags ∧ registerEffect [] (directTarget s.pc 8 t) s u)
    ∧ (s.reg (regNum r) = 0 →
      ∃ u, exec (.jmpIfNotZero r t) s = .next u ∧ u.flags = s.flags ∧ registerEffect [] (s.pc + 8) s u)

/-- Each of the ten flag jumps goes to a target inside the code range exactly when its condition on FLAGS holds
(R174 to R183, R187), else to the next instruction, whatever the target. -/
def Obligations.FlagJumpsTestTheFlags : Prop :=
  ∀ (c : Cond) (t : Target) (s : State),
    (flagCondition c s.flags → targetInCode s.layout (directTarget s.pc 7 t) →
      ∃ u, exec (flagJump c t) s = .next u ∧ u.flags = s.flags ∧ registerEffect [] (directTarget s.pc 7 t) s u)
    ∧ (¬ flagCondition c s.flags →
      ∃ u, exec (flagJump c t) s = .next u ∧ u.flags = s.flags ∧ registerEffect [] (s.pc + 7) s u)

/-- After `CMP a,b`, or `SUB rd,a,b`, the condition of every flag jump is the relation its name says (R187, last
column). -/
def Obligations.ConditionsMeanTheirNamesAfterCompare : Prop :=
  ∀ (c : Cond) (s t : State),
    (∀ (rs1 : RegOp) (src2 : Src2), exec (.cmp rs1 src2) s = .next t →
      (flagCondition c t.flags ↔ relationHolds c (s.reg (regNum rs1)) (src2Value s src2)))
    ∧ ∀ (rd rs1 : Reg) (src2 : Src2), exec (.sub rd rs1 src2) s = .next t →
      (flagCondition c t.flags ↔ relationHolds c (s.reg rs1) (src2Value s src2))

/-- CALL to a target inside the code range writes the address of the next instruction to R15; RET goes to the address
in R15 and writes nothing (R184, R185). -/
def Obligations.CallLinksAndRetReturns : Prop :=
  (∀ (t : Target) (s : State), targetInCode s.layout (directTarget s.pc 7 t) →
    ∃ u, exec (.call t) s = .next u ∧ u.reg 15 = s.pc + 7 ∧ u.flags = s.flags
      ∧ registerEffect [15] (directTarget s.pc 7 t) s u)
    ∧ ∀ s : State, targetInCode s.layout (s.reg 15) →
      ∃ u, exec .ret s = .next u ∧ u.flags = s.flags ∧ registerEffect [] (s.reg 15) s u

/-- Any control transfer that is taken to a target outside the code range stops with `ControlFault` at its own pc, and
nothing else changes: in particular CALL does not write R15 (R170, R184). -/
def Obligations.BadTargetIsAControlFault : Prop :=
  ∀ (i : Instr) (s : State) (target : Word), takenTo i s target → ¬ targetInCode s.layout target →
    exec i s = .next (stoppedWith .controlFault .control s)

/-- The pc after an instruction that has not stopped with an error (R23, R170): the target of a taken transfer, else
`pc + len` (for HALT, SYSCALL and TRAP this is log 11). -/
def Obligations.PcAfterAnInstruction : Prop :=
  ∀ (i : Instr) (s t : State), errorFree s = true → exec i s = .next t → errorFree t = true →
    (∀ target, takenTo i s target → t.pc = target)
      ∧ ((∀ target, ¬ takenTo i s target) → t.pc = s.pc + BitVec.ofNat 64 i.length)

/-! ## Loads and stores (43_load_store.md) -/

/-- LOAD, LOADB, LOADH, LOADW at an allowed address (R63, R69, R200 to R207). -/
def Obligations.LoadsDeliverTheBytes : Prop :=
  ∀ (rd : RegOp) (m : MemOp) (s : State),
    loadsBytes (.load rd m) rd m 8 s ∧ loadsBytes (.loadb rd m) rd m 1 s ∧ loadsBytes (.loadh rd m) rd m 2 s
      ∧ loadsBytes (.loadw rd m) rd m 4 s

/-- STORE, STOREB, STOREH, STOREW at an allowed address (R63, R69, R200, R202 to R208). -/
def Obligations.StoresWriteTheBytes : Prop :=
  ∀ (rs2 : RegOp) (m : MemOp) (s : State),
    storesBytes (.store rs2 m) rs2 m 8 s ∧ storesBytes (.storeb rs2 m) rs2 m 1 s ∧ storesBytes (.storeh rs2 m) rs2 m 2 s
      ∧ storesBytes (.storew rs2 m) rs2 m 4 s

/-- A load or store outside the data range, or misaligned, stops with `MemoryFault` at its pc, the message carrying the
effective address, and has no other effect; the range check does not wrap (R66, R68, R209). -/
def Obligations.BadAccessIsAMemoryFault : Prop :=
  ∀ (r : RegOp) (m : MemOp) (s : State),
    faultsOnAccess (.load r m) m 8 s ∧ faultsOnAccess (.loadb r m) m 1 s ∧ faultsOnAccess (.loadh r m) m 2 s
      ∧ faultsOnAccess (.loadw r m) m 4 s ∧ faultsOnAccess (.store r m) m 8 s ∧ faultsOnAccess (.storeb r m) m 1 s
      ∧ faultsOnAccess (.storeh r m) m 2 s ∧ faultsOnAccess (.storew r m) m 4 s

/-- R64. A load of any width after a store of any width sees, byte by byte, the stored bytes where the two overlap and
the old bytes elsewhere; and the worked case of the rule. -/
def Obligations.MixedWidthsSeeEachOthersBytes : Prop :=
  (∀ (ws wl : Width) (rs rd : RegOp) (ms ml : MemOp) (s t u : State),
    accessAllowed s.layout (effAddr s ms) ws.bytes → accessAllowed t.layout (effAddr t ml) wl.bytes →
    exec (storeOf ws rs ms) s = .next t → exec (loadOf wl rd ml) t = .next u →
    ∀ k, k < wl.bytes →
      let a := (effAddr t ml).toNat + k
      (u.reg (regNum rd)).extractLsb' (8 * k) 8 =
        if (effAddr s ms).toNat ≤ a ∧ a < (effAddr s ms).toNat + ws.bytes then
          (s.reg (regNum rs)).extractLsb' (8 * (a - (effAddr s ms).toNat)) 8
        else archByte s a)
    ∧ ∀ (a : BitVec 32) (rs rd : RegOp) (s t : State), a.toNat % 8 = 0 → s.layout.dataBase ≤ a.toNat →
      a.toNat + 8 ≤ s.layout.dataEnd → s.reg (regNum rs) = 0x1122334455667788 → exec (.store rs (.abs a)) s = .next t →
      a.toNat + 8 ≤ 2 ^ 32 →
      (∃ u, exec (.loadb rd (.abs a)) t = .next u ∧ u.reg (regNum rd) = 0x88)
        ∧ (∃ u, exec (.loadh rd (.abs (a + 2))) t = .next u ∧ u.reg (regNum rd) = 0x5566)
        ∧ ∃ u, exec (.loadw rd (.abs (a + 4))) t = .next u ∧ u.reg (regNum rd) = 0x11223344

/-! ## Miscellaneous (44_misc.md) and whole-machine rules -/

/-- NOP retires and changes nothing else (R220). -/
def Obligations.NopOnlyRetires : Prop :=
  ∀ s : State, ∃ t, exec .nop s = .next t ∧ t.flags = s.flags ∧ registerEffect [] (s.pc + 3) s t

/-- HALT, SYSCALL and TRAP retire and stop the engine with their reason, `x[0]` as exit code and their own pc in the
report; nothing else changes (R221 to R223, R366). Where the pc stands afterwards is log 11. -/
def Obligations.StopInstructionsStop : Prop :=
  ∀ (i : Instr) (r : StopReason) (s : State),
    (i = .halt ∧ r = .halt) ∨ (i = .syscall ∧ r = .syscall) ∨ (i = .trap ∧ r = .trap) →
    ∃ t, exec i s = .next t ∧ t.status = .halted r (s.reg 0) s.pc ∧ t.pc = s.pc + 3
      ∧ t.metrics = { s.metrics with instructionsCommitted := s.metrics.instructionsCommitted + 1 } ∧ t.flags = s.flags
      ∧ sameRegsBut [] s t ∧ sameMemory s t ∧ sameMachine s t

/-- Every instruction answers a next state in every state: none is refused and none faults the model; an error
or a stop is a next state with its status (log 8). -/
def Obligations.EveryInstructionAnswersNext : Prop := ∀ (i : Instr) (s : State), ∃ t, exec i s = .next t

/-- An error is precise (R362, R368): an instruction that ends in one changes `status` alone, and the pc reported is its
own; an instruction that does not, retires: it is counted once. -/
def Obligations.ErrorsChangeTheStatusAlone : Prop :=
  ∀ (i : Instr) (s t : State), errorFree s = true → exec i s = .next t →
    (∀ k pc m, t.status = .error k pc m → pc = s.pc ∧ t = stoppedWith k m s)
      ∧ (errorFree t = true → t.metrics.instructionsCommitted = s.metrics.instructionsCommitted + 1)

/-- Whole-machine frame over all instructions. Only the register a µop names as `rd` can change (R114, R271), and only the
fifteen flag-setting instructions can change FLAGS (R24). The rest is how the model frames the architectural level (log 1,
log 6, log 13): configuration, layout, fetch state, latches, miss-wait state, predictor and `sb_seq` never change; of the
metrics only the count of retired instructions does; main memory, L1 and store buffer are left alone by every
instruction but the four stores, and a store changes the bytes in them, not which lines and entries they hold. -/
def Obligations.OnlyNamedDestinationsChange : Prop :=
  ∀ (i : Instr) (s t : State), exec i s = .next t →
    sameRegsBut (uopOf i s.pc).rd.toList s t ∧ (setsFlags i = false → t.flags = s.flags) ∧ sameMachine s t
      ∧ t.metrics = { s.metrics with instructionsCommitted := t.metrics.instructionsCommitted }
      ∧ ((∀ w r m, i ≠ storeOf w r m) → sameMemory s t) ∧ sameBuffers s t

/-- The code a program runs is the code the loader placed (R62, R76): no step changes a byte of the code range, so
decoding at any address gives the same before and after. -/
def Obligations.StepNeverChangesCode : Prop :=
  ∀ s t : State, s.layout.wf s.cfg = true → step s = .next t →
    (∀ a, s.layout.codeBase ≤ a → a < s.layout.codeEnd → Memory.read t.mem a = Memory.read s.mem a)
      ∧ ∀ a, decodeAt t a = decodeAt s a

/-- Every step keeps the architectural invariant: memory canonical and inside MEM_SIZE, ranges legal (R28, R60, R61).
The canonical form is the model's own representation. -/
def Obligations.StepKeepsArchInv : Prop :=
  ∀ s t : State, archInv s = true → step s = .next t → archInv t = true

/-- The state after reset, with the layout of log 2, satisfies every invariant stated here: of the architectural level, of
cache and store buffer, of the latches, of the predictor, of halted fetch, and the coupling of the two levels. -/
def Obligations.ResetMeetsTheInvariants : Prop :=
  archInv State.reset = true ∧ microInv State.reset = true ∧ pipelineLegal State.reset = true
    ∧ predictorOk State.reset = true ∧ haltedOk State.reset = true ∧ coupled State.reset State.reset

/-! ## Reset and boot (R46, R380, R381, R400) -/

/-- R46: what create and load leave, for every configuration, image and layout they accept. The table of the rule, row
by row; the code and data ranges hold the bytes the loader placed, and a byte of the data range that no segment covers is
0. (Bytes outside both ranges are left open, and so they are here.) A second load is refused (U23). -/
def Obligations.BootLeavesResetValues : Prop :=
  ∀ (c : Config) (image : Image) (l : Layout) (s : State), boot c image l = .ok s →
    (∀ r, s.reg r = 0) ∧ s.flags = { z := false, n := false, c := false, v := false }
      ∧ s.pc = l.entry ∧ s.pcFetch = l.entry ∧ s.fetchHalted = false ∧ s.fb = [] ∧ s.de = none ∧ s.em = none
      ∧ s.mw = none ∧ s.memWaiting = false ∧ s.memWait = 0
      ∧ s.btb.length = c.btbSize ∧ (∀ e ∈ s.btb, e = none)
      ∧ s.pht.length = c.phtSize ∧ (∀ k ∈ s.pht, k = c.phtInit) ∧ s.ras = []
      ∧ s.l1.length = c.numSets ∧ (∀ ways ∈ s.l1, ways.length = c.ways ∧ ∀ e ∈ ways, e = none)
      ∧ s.sb = [] ∧ s.sbSeq = 0 ∧ s.metrics = Metrics.zero ∧ s.status = .running ∧ s.cfg = c ∧ s.layout = l
      ∧ (∀ a, l.dataBase ≤ a → a < l.dataEnd → (∀ seg ∈ image, ¬ segmentCovers seg a) → Memory.read s.mem a = 0)
      ∧ (∀ seg a, (l.codeBase ≤ a ∧ a < l.codeEnd) ∨ (l.dataBase ≤ a ∧ a < l.dataEnd) → seg ∈ image →
          segmentCovers seg a →
          (∀ other ∈ image, segmentCovers other a → other = seg) → some (Memory.read s.mem a) = seg.2[a - seg.1]?)
      ∧ ∀ image' l', load image' l' s = .error .alreadyLoaded

/-! ## The predictor (52_branch_predictor.md) -/

/-- R293: the saturating transition and what each counter predicts, the whole table. -/
def Obligations.CounterTransition : Prop :=
  (∀ c : BitVec 2, (phtNext c true).toNat = min 3 (c.toNat + 1) ∧ (phtNext c false).toNat = c.toNat - 1)
    ∧ (phtNext 0 true = 1 ∧ phtNext 1 true = 2 ∧ phtNext 2 true = 3 ∧ phtNext 3 true = 3)
    ∧ (phtNext 0 false = 0 ∧ phtNext 1 false = 0 ∧ phtNext 2 false = 1 ∧ phtNext 3 false = 2)
    ∧ (phtTaken 0 = false ∧ phtTaken 1 = false ∧ phtTaken 2 = true ∧ phtTaken 3 = true)

/-- R294: push appends and discards the oldest on overflow; pop returns the newest, or none on underflow; only Fetch
touches the stack: the WB, MEM, EX and ID steps leave it alone. -/
def Obligations.ReturnStackOperations : Prop :=
  (∀ (s : State) (v : Word), s.ras.length < s.cfg.rasDepth → (rasPush s v).ras = s.ras ++ [v])
    ∧ (∀ (s : State) (v : Word), s.cfg.rasDepth ≤ s.ras.length → (rasPush s v).ras = (s.ras ++ [v]).tail)
    ∧ (∀ (s : State), s.ras = [] → (rasPop s).1 = none ∧ (rasPop s).2.ras = [])
    ∧ (∀ (s : State) (r : List Word) (v : Word), s.ras = r ++ [v] → (rasPop s).1 = some v ∧ (rasPop s).2.ras = r)
    ∧ (∀ (mwo : Option MemLatch) (s t : State) (stop : Bool), wbStep mwo s = .ok (t, stop) → t.ras = s.ras)
    ∧ (∀ (emo : Option ExLatch) (s : State), (memStep emo s).1.ras = s.ras)
    ∧ (∀ (stalled : Bool) (emo : Option ExLatch) (mwo : Option MemLatch) (deo : Option FetchEntry) (s t : State)
        (sig : ExSignals), exStep stalled emo mwo deo s = .ok (t, sig) → t.ras = s.ras)
    ∧ ∀ (sig : ExSignals) (s : State), (idStep sig s).ras = s.ras

/-- R298: a taken branch installs or replaces the entry at its index; one not taken clears `last` of its own entry if it
is there, and else changes nothing. -/
def Obligations.BtbUpdate : Prop :=
  ∀ (s : State) (pc tgt : Word),
    (∀ k, (updateBtb s pc true tgt).btb[k]? =
        if k = pc.toNat % s.cfg.btbSize ∧ k < s.btb.length then some (some { tag := pc, target := tgt, last := true })
        else s.btb[k]?)
      ∧ (∀ e : BtbEntry, s.btb[pc.toNat % s.cfg.btbSize]? = some (some e) → e.tag = pc →
          ∀ k, (updateBtb s pc false tgt).btb[k]? =
            if k = pc.toNat % s.cfg.btbSize then some (some { tag := pc, target := e.target, last := false })
            else s.btb[k]?)
      ∧ ((∀ e : BtbEntry, s.btb[pc.toNat % s.cfg.btbSize]? = some (some e) → e.tag ≠ pc) →
          (updateBtb s pc false tgt).btb = s.btb)

/-- What Fetch predicts for each instruction, and what that does to the return-address stack: the decoded target of JMP
and CALL, the newest address of the stack for RET, else the next instruction; a conditional jump by its BTB entry and
counter, or, cold, taken when its target is not after its pc (the prediction of R295 and R296, R301). -/
def Obligations.PredictionAtFetch : Prop :=
  ∀ (i : Instr) (p : Word) (s : State),
    let seq := p + BitVec.ofNat 64 i.length
    let given := predict (uopOf i p) s
    (∀ t, i = .jmp t → given = (directTarget p 7 t, s))
      ∧ (∀ t, i = .call t → given = (directTarget p 7 t, rasPush s (p + 7)))
      ∧ (i = .ret → (s.ras = [] → given.1 = seq ∧ given.2.ras = [])
          ∧ ∀ r v, s.ras = r ++ [v] → given.1 = v ∧ given.2.ras = r)
      ∧ (∀ t, (∃ c, i = flagJump c t) ∨ (∃ r, i = .jmpIfZero r t ∨ i = .jmpIfNotZero r t) →
          given.2 = s
          ∧ (∀ e c, s.btb[p.toNat % s.cfg.btbSize]? = some (some e) → e.tag = p →
              s.pht[p.toNat % s.cfg.phtSize]? = some c → given.1 = if 2 ≤ c.toNat then e.target else seq)
          ∧ ((∀ e, s.btb[p.toNat % s.cfg.btbSize]? = some (some e) → e.tag ≠ p) →
              given.1 = if (directTarget p i.length t).toNat ≤ p.toNat then directTarget p i.length t else seq))
      ∧ ((∀ u target, ¬ takenTo i u target) → given = (seq, s))

/-- The predictor's tables keep their sizes, a valid BTB entry stands at the index of its tag and the RAS stays within
its depth, over every tick (R310). -/
def Obligations.TickKeepsPredictorOk : Prop :=
  ∀ s t : State, predictorOk s = true → tick s = .next t → predictorOk t = true

/-- A resolved transfer without a fault flushes exactly when the address that follows differs from the one predicted,
and then redirects fetch there (R290, R297, R300). A fault flushes, halts fetch and names no register. -/
def Obligations.MispredictionFlushesAndRedirects : Prop :=
  ∀ (e : FetchEntry) (u : Uop) (taken : Bool) (tgt : Word) (link : Option Word) (s : State),
    let o := resolveTransfer e u taken tgt link s
    let actual := if taken then tgt else e.pc + BitVec.ofNat 64 u.len
    ((taken = false ∨ targetInCode s.layout tgt) →
      o.latch.fault = none ∧ o.haltFetch = false ∧ (o.flush = true ↔ e.predNext ≠ some actual)
        ∧ (o.flush = true → o.redirect = some actual) ∧ o.latch.result = link)
      ∧ (taken = true → ¬ targetInCode s.layout tgt →
        o.latch.fault = some { kind := .controlFault, message := .control } ∧ o.latch.rd = none ∧ o.flush = true
          ∧ o.haltFetch = true)

/-! ## The tick (50_pipeline.md, 51_hazard_forwarding.md) -/

/-- `Resolve` (R272, R280): the fault-free latch EM that names the register, else MW, else the register file; a match
counts one forward and one hazard. A latch that carries a fault never supplies a value. -/
def Obligations.YoungestProducerWins : Prop :=
  ∀ (em : Option ExLatch) (mw : Option MemLatch) (r : Reg) (s : State),
    (∀ l v, em = some l → l.fault = none → l.rd = some r → l.result = some v →
        ∃ t, resolve em mw r s = .ok (v, t) ∧ t.metrics.forwards = s.metrics.forwards + 1
          ∧ t.metrics.hazardsDetected = s.metrics.hazardsDetected + 1)
      ∧ ((∀ l, em = some l → l.fault = none → l.rd ≠ some r) →
        (∀ w v, mw = some w → w.fault = none → w.rd = some r → w.result = some v →
          ∃ t, resolve em mw r s = .ok (v, t) ∧ t.metrics.forwards = s.metrics.forwards + 1
            ∧ t.metrics.hazardsDetected = s.metrics.hazardsDetected + 1)
        ∧ ((∀ w, mw = some w → w.fault = none → w.rd ≠ some r) → resolve em mw r s = .ok (s.reg r, s)))

/-- What a tick can do to the architectural registers (R21, R24, R234, R243, R244): only the fault-free instruction in MW
writes, only its `rd` and its flags, and only it is counted; without one, registers, flags and count stay. -/
def Obligations.OnlyWritebackWrites : Prop :=
  ∀ s t : State, s.status = .running → tick s = .next t →
    (∀ r, t.reg r ≠ s.reg r → ∃ w, s.mw = some w ∧ w.fault = none ∧ w.rd = some r ∧ w.result = some (t.reg r))
      ∧ (t.flags ≠ s.flags → ∃ w, s.mw = some w ∧ w.fault = none ∧ w.flags = some t.flags)
      ∧ (t.metrics.instructionsCommitted = s.metrics.instructionsCommitted +
          if s.mw.any (fun w => w.fault.isNone) then 1 else 0)
      ∧ t.metrics.cycles = s.metrics.cycles + 1

/-- The stops of the WB step (R221, R234, R363, R366). A fault-carrying latch stops the engine with its error and its
pc, and nothing else happens in that tick but the cycle count; HALT, SYSCALL or TRAP retires and stops it with exit code
`x[0]` as that step leaves it, and no later stage acts. -/
def Obligations.StopsAtWriteback : Prop :=
  (∀ (s : State) (w : MemLatch) (f : ErrorInfo), s.status = .running → s.mw = some w → w.fault = some f →
    tick s = .next { s with status := .error f.kind w.pc f.message
                            metrics := { s.metrics with cycles := s.metrics.cycles + 1 } })
    ∧ ∀ (s t : State) (w : MemLatch) (u : Uop) (r : StopReason), s.status = .running → s.mw = some w → w.fault = none →
      w.uop = some u → stopReasonOf u.instr = some r → tick s = .next t →
      t.status = .halted r (t.reg 0) w.pc
        ∧ t.metrics = { s.metrics with cycles := s.metrics.cycles + 1
                                       instructionsCommitted := s.metrics.instructionsCommitted + 1 }
        ∧ t.em = s.em ∧ t.mw = s.mw ∧ t.de = s.de ∧ t.fb = s.fb ∧ t.pcFetch = s.pcFetch ∧ t.mem = s.mem ∧ t.l1 = s.l1
        ∧ t.sb.length = s.sb.length

/-- A flush removes everything younger than the instruction in EX, which itself, and nothing else, moves on from DE into
EM; fetch goes to the redirect, or halts on a control fault; and a flush never meets a MEM stall or a load-use stall
(R237, R238, R241). -/
def Obligations.FlushRemovesTheYounger : Prop :=
  ∀ (stalled : Bool) (emo : Option ExLatch) (mwo : Option MemLatch) (deo : Option FetchEntry) (s s2 : State)
    (sig : ExSignals), exStep stalled emo mwo deo s = .ok (s2, sig) → sig.flush = true →
    let t := ifStep sig (idStep sig s2)
    stalled = false ∧ sig.loadUse = false ∧ t.fb = [] ∧ t.de = none ∧ t.em = s2.em
      ∧ (∃ e l, deo = some e ∧ e.fault = none ∧ s2.em = some l ∧ l.pc = e.pc ∧ l.uop = e.uop)
      ∧ (sig.haltFetch = true → t.fetchHalted = true)
      ∧ (sig.haltFetch = false → t.fetchHalted = false ∧ some t.pcFetch = sig.redirect)

/-- What the EX step makes of an instruction is what the architectural level does (R130, R170, R200, R245, R249), with
the operands in the register file: the same instruction in the latch, the same register and flag writes, the same next
pc, the same error, the same access; and an instruction for which EX notes no access touches no memory. -/
def Obligations.ExecuteAgreesWithExec : Prop :=
  ∀ (i : Instr) (p : Word) (s : State),
    let e : FetchEntry := { uop := some (uopOf i s.pc), pc := s.pc, fault := none, predNext := some p }
    ∃ o, execute none none e s = .ok o ∧ o.latch.uop = e.uop ∧ o.latch.pc = s.pc
      ∧ (∀ f, o.latch.fault = some f → exec i s = .next (stoppedWith f.kind f.message s))
      ∧ (o.latch.fault = none → o.latch.access = none → ∃ t, exec i s = .next t ∧ sameMemory s t
          ∧ (errorFree s = true → errorFree t = true)
          ∧ (∀ r, t.reg r = if o.latch.rd = some r then o.latch.result.getD 0 else s.reg r)
          ∧ t.flags = o.latch.flags.getD s.flags ∧ (∀ n, o.redirect = some n → t.pc = n)
          ∧ (o.redirect = none →
            t.pc = p ∨ ((∀ x target, ¬ takenTo i x target) ∧ t.pc = s.pc + BitVec.ofNat 64 i.length)))
      ∧ (∀ w ea, o.latch.access = some (.load w ea) →
          ∃ r, o.latch.rd = some r ∧ o.latch.flags = none ∧ exec i s = .next (loadTo w r ea i.length s))
      ∧ (∀ w ea d, o.latch.access = some (.store w ea d) →
          o.latch.rd = none ∧ o.latch.flags = none ∧ exec i s = .next (storeFrom w d ea i.length s))

/-- From a legal pipeline state every tick answers a next state, and that state is legal: the state R280 and R360 call
unreachable is never met. -/
def Obligations.TickKeepsPipelineLegal : Prop :=
  ∀ s : State, pipelineLegal s = true → ∃ t, tick s = .next t ∧ pipelineLegal t = true

/-- Fetch is halted only while an error is in flight, so a drained pipeline with fetch halted cannot occur (R242). -/
def Obligations.HaltedFetchHasAnErrorInFlight : Prop :=
  ∀ s t : State, haltedOk s = true → tick s = .next t → haltedOk t = true

/-! ## Cache and store buffer (53_cache_store_buffer.md) -/

/-- R336 (1) to (6) hold after every tick from every state in which they hold. -/
def Obligations.TickKeepsMicroInv : Prop :=
  ∀ s t : State, microInv s = true → tick s = .next t → microInv t = true

/-- A drain moves a stored value from the store buffer to the cache, and evicts, without changing a byte a program sees
(R334). -/
def Obligations.DrainKeepsWhatAProgramSees : Prop :=
  ∀ (count : Bool) (s : State), microInv s = true → ∀ a, archByte (drainHead count s) a = archByte s a

/-- A load that MEM serves, from store buffer, cache or memory, delivers the newest value of every byte (R70, R73, R325,
R326, R333); one that fails the check carries the fault of R68. -/
def Obligations.ServedLoadDeliversTheNewestBytes : Prop :=
  ∀ (s : State) (l l' : ExLatch) (w : Width) (ea : Word), microInv s = true → s.em = some l → l.fault = none →
    l.access = some (.load w ea) → (memOut s.em s).out = some l' →
    (accessAllowed s.layout ea w.bytes ∧ l'.fault = none
        ∧ ∃ v, l'.result = some v ∧ v.toNat = bytesValue s ea.toNat w.bytes)
      ∨ (¬ accessAllowed s.layout ea w.bytes ∧ l'.rd = none
        ∧ ∃ c, l'.fault = some { kind := .memoryFault, message := .memory c ea })

/-- A tick writes no byte of main memory outside the data range, so no byte of code (R62, R76, R324). -/
def Obligations.TickNeverWritesOutsideTheDataRange : Prop :=
  ∀ s t : State, microInv s = true → tick s = .next t →
    ∀ a, ¬ (s.layout.dataBase ≤ a ∧ a < s.layout.dataEnd) → Memory.read t.mem a = Memory.read s.mem a

/-- `commit` (R77, R335): refused while Running; on a stopped engine main memory takes the value of every byte a program
sees, entries that never retired left out; the store buffer is empty, no line is dirty, and a way that held a valid line
still holds one; nothing else changes, and a second commit changes nothing. -/
def Obligations.CommitBringsMemoryUpToDate : Prop :=
  (∀ s : State, s.status = .running → commit s = .refused .hostCallWhileRunning)
    ∧ ∀ s : State, microInv s = true → s.status ≠ .running →
      ∃ t, commit s = .next t
        ∧ (∀ a, Memory.read t.mem a = archByte (dropUnretired s) a) ∧ (∀ a, archByte t a = archByte (dropUnretired s) a)
        ∧ t.sb = [] ∧ (∀ ways ∈ t.l1, ∀ l ∈ ways, l.all (fun x => !x.dirty) = true)
        ∧ (∀ (si w : Nat) (ways : List (Option Line)) (l : Line), s.l1[si]? = some ways →
            ways[w]? = some (some l) →
            ∃ (ways' : List (Option Line)) (l' : Line), t.l1[si]? = some ways' ∧ ways'[w]? = some (some l'))
        ∧ t.regs = s.regs ∧ t.flags = s.flags ∧ t.status = s.status ∧ t.metrics = s.metrics ∧ t.pc = s.pc
        ∧ sameMachine s t ∧ commit t = .next t

/-! ## The host interface (60_exceptions.md) -/

/-- R383 and R384, on a stopped engine only: `read_register` for the ids 0 to 15, `read_flags`, and `read_memory`, which
reads main memory alone, byte by byte, anywhere inside MEM_SIZE; every other call is a host error, refused by name. -/
def Obligations.HostReadsAfterTheStop : Prop :=
  (∀ (s : State) (id : Nat) (h : id < 16), s.status ≠ .running → readRegister id s = .ok (s.reg ⟨id, h⟩))
    ∧ (∀ (s : State) (id : Nat), s.status ≠ .running → 16 ≤ id → readRegister id s = .error (.noSuchRegister id))
    ∧ (∀ s : State, s.status ≠ .running → readFlags s = .ok s.flags)
    ∧ (∀ (s : State) (addr len : Nat), s.status ≠ .running → addr + len ≤ s.cfg.memSize →
        ∃ bs, readMemory addr len s = .ok bs ∧ bs.length = len
          ∧ ∀ k, k < len → bs[k]? = some (Memory.read s.mem (addr + k)))
    ∧ (∀ (s : State) (addr len : Nat), s.status ≠ .running → s.cfg.memSize < addr + len →
        readMemory addr len s = .error (.rangeOutsideMemory addr len))
    ∧ ∀ (s : State) (id addr len : Nat), s.status = .running →
        readRegister id s = .error .hostCallWhileRunning ∧ readFlags s = .error .hostCallWhileRunning
          ∧ readMemory addr len s = .error .hostCallWhileRunning

/-- The cycle budget (R233): a program that stops in its N-th tick completes under a budget of N, or none, and under
N - 1 is cut off with `BudgetExhausted`, everything else as after tick N - 1; the tick it stops in is counted. -/
def Obligations.BudgetCutsOffExactly : Prop :=
  ∀ (s t u : State) (n fuel : Nat), s.metrics.cycles = 0 → s.status = .running → runTicks n s = .next t →
    t.status = .running → tick t = .next u → u.status ≠ .running → n + 1 < fuel →
    run (some (n + 1)) fuel s = .next u ∧ run none fuel s = .next u
      ∧ run (some n) fuel s = .next { t with status := .budgetExhausted }
      ∧ t.metrics.cycles = n ∧ u.metrics.cycles = n + 1

/-! ## The two levels agree (R245, R312, R365) -/

/-- Every tick keeps the two levels coupled, from every pair of coupled states: where an instruction, or an error, is in
MW, the architectural level runs one instruction, else none, and the states are coupled again (R4, R245, R336 (7), R363,
R365). That the coupling relates the pc rests on log 10. -/
def Obligations.TickKeepsCoupling : Prop :=
  ∀ s u t : State, coupled s u → tick s = .next t →
    ∃ v, runSteps (stepsOfTick s) u = .next v ∧ coupled t v

/-- After any number of ticks from reset, with any configuration, program and predictor contents, the
registers, the flags, the pc and the status are those of the architectural level after the instructions retired so far
(and, when an error has stopped the engine, the step that raises it); so is every byte of memory a program sees, but for
the store that is in MW and has not retired (R245, R336 (7), R365). That the pc agrees rests on log 10. -/
def Obligations.TicksRefineSteps : Prop :=
  ∀ (c : Config) (image : Image) (l : Layout) (s0 s t : State) (btb : List (Option BtbEntry)) (pht : List (BitVec 2))
    (ras : List Word) (n : Nat), boot c image l = .ok s0 → s = bootedWith btb pht ras s0 → runTicks n s = .next t →
    ∃ u, runSteps (t.metrics.instructionsCommitted + if errorFree t then 0 else 1) s = .next u
      ∧ u.regs = t.regs ∧ u.flags = t.flags ∧ u.pc = t.pc ∧ u.status = t.status
      ∧ u.metrics.instructionsCommitted = t.metrics.instructionsCommitted
      ∧ ∀ a, archByte u a = archByte (dropUnretired t) a

/-- The predictor changes no architectural result (R312): two runs of one program that differ only in the contents of
BTB, PHT and RAS, and that both stop, stop in the same way with the same registers, flags, pc (by log 10) and memory. -/
def Obligations.PredictorChangesNoResult : Prop :=
  ∀ (c : Config) (image : Image) (l : Layout) (s t1 t2 : State) (btb : List (Option BtbEntry)) (pht : List (BitVec 2))
    (ras : List Word) (n1 n2 : Nat), boot c image l = .ok s → runTicks n1 s = .next t1 →
    runTicks n2 (bootedWith btb pht ras s) = .next t2 → t1.status ≠ .running → t2.status ≠ .running →
    t1.status = t2.status ∧ t1.regs = t2.regs ∧ t1.flags = t2.flags ∧ t1.pc = t2.pc
      ∧ t1.metrics.instructionsCommitted = t2.metrics.instructionsCommitted ∧ ∀ a, archByte t1 a = archByte t2 a
end

