-- ==== Sys2Proof/Laws/Decode.lean ====
section
/-! SUPPORT. Little-endian bytes and numbers, nibbles, and the sizes of encoded operands. -/

namespace Sys2Proof

@[simp] theorem length_leBytes (n v : Nat) : (leBytes n v).length = n := by
  induction n generalizing v with
  | zero => rfl
  | succ n ih => simp [leBytes, ih]

/-- The low `n` bytes of a number stand for it modulo `256 ^ n`. -/
theorem leNat_leBytes (n v : Nat) : leNat (leBytes n v) = v % 256 ^ n := by
  induction n generalizing v with
  | zero => simp [leBytes, leNat, Nat.mod_one]
  | succ n ih =>
    have h : (BitVec.ofNat 8 v).toNat = v % 256 := rfl
    rw [leBytes, leNat, ih, h, pow_succ', Nat.mod_mul]

theorem leNat_lt (bs : List Byte) : leNat bs < 256 ^ bs.length := by
  induction bs with
  | nil => simp [leNat]
  | cons b bs ih =>
    have := b.isLt
    simp only [leNat, List.length_cons, pow_succ']
    omega

/-- The bytes of the number that a byte sequence stands for are that sequence. -/
theorem leBytes_leNat (bs : List Byte) : leBytes bs.length (leNat bs) = bs := by
  induction bs with
  | nil => rfl
  | cons b bs ih =>
    have hb := b.isLt
    have h1 : BitVec.ofNat 8 (b.toNat + 256 * leNat bs) = b := by
      apply BitVec.eq_of_toNat_eq; simp only [BitVec.toNat_ofNat]; omega
    have h2 : (b.toNat + 256 * leNat bs) / 256 = leNat bs := by omega
    simp only [leNat, List.length_cons, leBytes, h1, h2, ih]

theorem kindOfNibble_nibble (k : OperandKind) : kindOfNibble k.nibble = some k := by cases k <;> rfl

theorem nibble_lt (k : OperandKind) : k.nibble < 10 := by cases k <;> decide

theorem nibble_of_kindOfNibble {n : Nat} {k : OperandKind} (h : kindOfNibble n = some k) : k.nibble = n := by
  unfold kindOfNibble at h; split at h <;> cases h <;> rfl

theorem RegOp.length_arg (r : RegOp) : r.arg.length = r.kind.argBytes := by cases r <;> rfl
theorem Src2.length_arg (s : Src2) : s.arg.length = s.kind.argBytes := by cases s <;> rfl
theorem Target.length_arg (t : Target) : t.arg.length = t.kind.argBytes := by cases t <;> rfl
theorem MemOp.length_arg (m : MemOp) : m.arg.length = m.kind.argBytes := by cases m <;> rfl

theorem Src2.argBytes_bounds (s : Src2) : 1 ≤ s.kind.argBytes ∧ s.kind.argBytes ≤ 8 := by
  cases s <;> simp [Src2.kind, OperandKind.argBytes]
theorem RegOp.argBytes_eq (r : RegOp) : r.kind.argBytes = 1 := by cases r <;> rfl
theorem Target.argBytes_eq (t : Target) : t.kind.argBytes = 4 := by cases t <;> rfl
theorem MemOp.argBytes_bounds (m : MemOp) : 4 ≤ m.kind.argBytes ∧ m.kind.argBytes ≤ 5 := by
  cases m <;> simp [MemOp.kind, OperandKind.argBytes]

/-- What fixes the size of an encoding: each operand's bytes are as many as its kind takes (R94). -/
theorem encode_length_of_operands (i : Instr) (h1 : i.operands.1.2.length = i.kind1.argBytes)
    (h2 : i.operands.2.2.length = i.kind2.argBytes) : (encode i).length = i.length := by
  simp only [encode, List.length_cons, List.length_append, h1, h2, Instr.length]; omega

end Sys2Proof
end

