-- ==== Sys2Proof/Laws/Memory.lean ====
section
/-! SUPPORT. Main memory: read after write, and every operation keeps the canonical form. -/

namespace Sys2Proof.Machine

@[simp] theorem Memory.read_nil (a : Nat) : read [] a = unlisted := rfl

theorem Memory.read_erase (m : Memory) (a x : Nat) : read (erase m a) x = if x = a then unlisted else read m x := by
  induction m with
  | nil => simp [erase]
  | cons c m ih => obtain ⟨k, b⟩ := c; simp only [erase, read]; split_ifs <;> simp_all [read]

theorem Memory.read_insert (m : Memory) (a : Nat) (v : Byte) (x : Nat) :
    read (insert m a v) x = if x = a then v else read m x := by
  induction m with
  | nil => simp [insert, read, eq_comm]
  | cons c m ih => obtain ⟨k, b⟩ := c; simp only [insert]; split_ifs <;> simp_all [read] <;> grind

/-- A write gives the byte at its address and leaves every other address alone. -/
theorem Memory.read_write (m : Memory) (a : Nat) (v : Byte) (x : Nat) :
    read (write m a v) x = if x = a then v else read m x := by
  unfold write; split_ifs with h h' <;> simp_all [read_erase, read_insert]

@[simp] theorem Memory.read_write_same (m : Memory) (a : Nat) (v : Byte) : read (write m a v) a = v := by
  simp [read_write]

@[simp] theorem Memory.read_write_of_ne (m : Memory) {a x : Nat} (v : Byte) (h : x ≠ a) : read (write m a v) x = read m x := by
  simp [read_write, h]

/-- Bytes written at ascending addresses are read back there, and nothing else changes. -/
theorem Memory.read_writeBytes (m : Memory) (a : Nat) (bs : List Byte) (x : Nat) :
    read (writeBytes m a bs) x = if a ≤ x ∧ x < a + bs.length then bs.getD (x - a) unlisted else read m x := by
  induction bs generalizing m a with
  | nil => simp [writeBytes]
  | cons b bs ih =>
    simp only [writeBytes, ih, read_write, List.length_cons]
    rcases Nat.lt_trichotomy x a with h | rfl | h
    · rw [if_neg (by omega), if_neg (by omega), if_neg (by omega)]
    · rw [if_neg (by omega), if_pos rfl, if_pos (by omega)]; simp
    · by_cases h2 : x < a + 1 + bs.length
      · rw [if_pos (by omega), if_pos (by omega)]
        obtain ⟨d, rfl⟩ : ∃ d, x = a + 1 + d := ⟨x - (a + 1), by omega⟩
        have e1 : a + 1 + d - (a + 1) = d := by omega
        have e2 : a + 1 + d - a = d + 1 := by omega
        simp [e1, e2]
      · rw [if_neg (by omega), if_neg (by omega), if_neg (by omega)]

theorem Memory.length_readBytes (m : Memory) (a n : Nat) : (readBytes m a n).length = n := by
  induction n generalizing a with
  | zero => rfl
  | succ n ih => simp [readBytes, ih]

theorem Memory.getElem?_readBytes (m : Memory) (a n i : Nat) :
    (readBytes m a n)[i]? = if i < n then some (read m (a + i)) else none := by
  induction n generalizing a i with
  | zero => simp [readBytes]
  | succ n ih =>
    cases i with
    | zero => simp [readBytes]
    | succ i => simp only [readBytes, List.getElem?_cons_succ, ih, Nat.add_lt_add_iff_right]
                rw [show a + 1 + i = a + (i + 1) by omega]

/-! ## the canonical form -/

theorem Memory.wfFrom_mono {lo lo' : Nat} {m : Memory} (h : wfFrom lo m) (hl : lo' ≤ lo) : wfFrom lo' m := by
  cases m with
  | nil => rfl
  | cons c m => simp only [wfFrom, Bool.and_eq_true, decide_eq_true_eq] at h ⊢; exact ⟨⟨by omega, h.1.2⟩, h.2⟩

theorem Memory.wfFrom_erase {lo : Nat} {m : Memory} (h : wfFrom lo m) (a : Nat) : wfFrom lo (erase m a) := by
  induction m generalizing lo with
  | nil => exact h
  | cons c m ih =>
    simp only [wfFrom, Bool.and_eq_true, decide_eq_true_eq] at h
    simp only [erase]
    split_ifs
    · exact wfFrom_mono (ih h.2) (by omega)
    · simp only [wfFrom, Bool.and_eq_true, decide_eq_true_eq]; exact ⟨h.1, ih h.2⟩

theorem Memory.wfFrom_insert {lo : Nat} {m : Memory} (h : wfFrom lo m) {a : Nat} {v : Byte} (ha : lo ≤ a)
    (hv : v ≠ unlisted) : wfFrom lo (insert m a v) := by
  induction m generalizing lo with
  | nil => simp [insert, wfFrom, ha, hv]
  | cons c m ih =>
    obtain ⟨k, b⟩ := c
    simp only [wfFrom, Bool.and_eq_true, decide_eq_true_eq] at h
    simp only [insert]
    split_ifs with h1 h2
    · simp only [wfFrom, Bool.and_eq_true, decide_eq_true_eq]; exact ⟨h.1, ih h.2 (by omega)⟩
    · subst h2; simp only [wfFrom, Bool.and_eq_true, decide_eq_true_eq]
      exact ⟨⟨ha, by simpa using hv⟩, h.2⟩
    · simp only [wfFrom, Bool.and_eq_true, decide_eq_true_eq]
      exact ⟨⟨ha, by simpa using hv⟩, ⟨by omega, h.1.2⟩, h.2⟩

/-- A write keeps the canonical form. -/
theorem Memory.wf_write {m : Memory} (h : m.wf) (a : Nat) (v : Byte) : (write m a v).wf := by
  unfold write; split_ifs with hv
  · exact wfFrom_erase h a
  · exact wfFrom_insert h (Nat.zero_le a) hv

/-- So does a write of several bytes. -/
theorem Memory.wf_writeBytes {m : Memory} (h : m.wf) (a : Nat) (bs : List Byte) : (writeBytes m a bs).wf := by
  induction bs generalizing m a with
  | nil => exact h
  | cons b bs ih => exact ih (wf_write h a b) (a + 1)

end Sys2Proof.Machine
end

