-- ==== Sys2Proof/Laws/State.lean ====
section
/-! SUPPORT. One lemma per field per named update of State (true by `rfl`), and the read-after-write law of the
register file. -/

namespace Sys2Proof.Machine

/-! ## setReg -/

@[simp] theorem setReg_cfg (s : State) (r : Reg) (v : Word) : (s.setReg r v).cfg = s.cfg := rfl
@[simp] theorem setReg_layout (s : State) (r : Reg) (v : Word) : (s.setReg r v).layout = s.layout := rfl
@[simp] theorem setReg_loaded (s : State) (r : Reg) (v : Word) : (s.setReg r v).loaded = s.loaded := rfl
@[simp] theorem setReg_regs (s : State) (r : Reg) (v : Word) : (s.setReg r v).regs = s.regs.set r v := rfl
@[simp] theorem setReg_flags (s : State) (r : Reg) (v : Word) : (s.setReg r v).flags = s.flags := rfl
@[simp] theorem setReg_pc (s : State) (r : Reg) (v : Word) : (s.setReg r v).pc = s.pc := rfl
@[simp] theorem setReg_status (s : State) (r : Reg) (v : Word) : (s.setReg r v).status = s.status := rfl
@[simp] theorem setReg_mem (s : State) (r : Reg) (v : Word) : (s.setReg r v).mem = s.mem := rfl
@[simp] theorem setReg_pcFetch (s : State) (r : Reg) (v : Word) : (s.setReg r v).pcFetch = s.pcFetch := rfl
@[simp] theorem setReg_fetchHalted (s : State) (r : Reg) (v : Word) : (s.setReg r v).fetchHalted = s.fetchHalted := rfl
@[simp] theorem setReg_fb (s : State) (r : Reg) (v : Word) : (s.setReg r v).fb = s.fb := rfl
@[simp] theorem setReg_de (s : State) (r : Reg) (v : Word) : (s.setReg r v).de = s.de := rfl
@[simp] theorem setReg_em (s : State) (r : Reg) (v : Word) : (s.setReg r v).em = s.em := rfl
@[simp] theorem setReg_mw (s : State) (r : Reg) (v : Word) : (s.setReg r v).mw = s.mw := rfl
@[simp] theorem setReg_memWaiting (s : State) (r : Reg) (v : Word) : (s.setReg r v).memWaiting = s.memWaiting := rfl
@[simp] theorem setReg_memWait (s : State) (r : Reg) (v : Word) : (s.setReg r v).memWait = s.memWait := rfl
@[simp] theorem setReg_btb (s : State) (r : Reg) (v : Word) : (s.setReg r v).btb = s.btb := rfl
@[simp] theorem setReg_pht (s : State) (r : Reg) (v : Word) : (s.setReg r v).pht = s.pht := rfl
@[simp] theorem setReg_ras (s : State) (r : Reg) (v : Word) : (s.setReg r v).ras = s.ras := rfl
@[simp] theorem setReg_l1 (s : State) (r : Reg) (v : Word) : (s.setReg r v).l1 = s.l1 := rfl
@[simp] theorem setReg_sb (s : State) (r : Reg) (v : Word) : (s.setReg r v).sb = s.sb := rfl
@[simp] theorem setReg_sbSeq (s : State) (r : Reg) (v : Word) : (s.setReg r v).sbSeq = s.sbSeq := rfl
@[simp] theorem setReg_metrics (s : State) (r : Reg) (v : Word) : (s.setReg r v).metrics = s.metrics := rfl

/-! ## setFlags -/

@[simp] theorem setFlags_cfg (s : State) (f : Flags) : (s.setFlags f).cfg = s.cfg := rfl
@[simp] theorem setFlags_layout (s : State) (f : Flags) : (s.setFlags f).layout = s.layout := rfl
@[simp] theorem setFlags_loaded (s : State) (f : Flags) : (s.setFlags f).loaded = s.loaded := rfl
@[simp] theorem setFlags_regs (s : State) (f : Flags) : (s.setFlags f).regs = s.regs := rfl
@[simp] theorem setFlags_flags (s : State) (f : Flags) : (s.setFlags f).flags = f := rfl
@[simp] theorem setFlags_pc (s : State) (f : Flags) : (s.setFlags f).pc = s.pc := rfl
@[simp] theorem setFlags_status (s : State) (f : Flags) : (s.setFlags f).status = s.status := rfl
@[simp] theorem setFlags_mem (s : State) (f : Flags) : (s.setFlags f).mem = s.mem := rfl
@[simp] theorem setFlags_pcFetch (s : State) (f : Flags) : (s.setFlags f).pcFetch = s.pcFetch := rfl
@[simp] theorem setFlags_fetchHalted (s : State) (f : Flags) : (s.setFlags f).fetchHalted = s.fetchHalted := rfl
@[simp] theorem setFlags_fb (s : State) (f : Flags) : (s.setFlags f).fb = s.fb := rfl
@[simp] theorem setFlags_de (s : State) (f : Flags) : (s.setFlags f).de = s.de := rfl
@[simp] theorem setFlags_em (s : State) (f : Flags) : (s.setFlags f).em = s.em := rfl
@[simp] theorem setFlags_mw (s : State) (f : Flags) : (s.setFlags f).mw = s.mw := rfl
@[simp] theorem setFlags_memWaiting (s : State) (f : Flags) : (s.setFlags f).memWaiting = s.memWaiting := rfl
@[simp] theorem setFlags_memWait (s : State) (f : Flags) : (s.setFlags f).memWait = s.memWait := rfl
@[simp] theorem setFlags_btb (s : State) (f : Flags) : (s.setFlags f).btb = s.btb := rfl
@[simp] theorem setFlags_pht (s : State) (f : Flags) : (s.setFlags f).pht = s.pht := rfl
@[simp] theorem setFlags_ras (s : State) (f : Flags) : (s.setFlags f).ras = s.ras := rfl
@[simp] theorem setFlags_l1 (s : State) (f : Flags) : (s.setFlags f).l1 = s.l1 := rfl
@[simp] theorem setFlags_sb (s : State) (f : Flags) : (s.setFlags f).sb = s.sb := rfl
@[simp] theorem setFlags_sbSeq (s : State) (f : Flags) : (s.setFlags f).sbSeq = s.sbSeq := rfl
@[simp] theorem setFlags_metrics (s : State) (f : Flags) : (s.setFlags f).metrics = s.metrics := rfl

/-! ## retire -/

@[simp] theorem retire_cfg (next : Word) (s : State) : (retire next s).cfg = s.cfg := rfl
@[simp] theorem retire_layout (next : Word) (s : State) : (retire next s).layout = s.layout := rfl
@[simp] theorem retire_loaded (next : Word) (s : State) : (retire next s).loaded = s.loaded := rfl
@[simp] theorem retire_regs (next : Word) (s : State) : (retire next s).regs = s.regs := rfl
@[simp] theorem retire_flags (next : Word) (s : State) : (retire next s).flags = s.flags := rfl
@[simp] theorem retire_pc (next : Word) (s : State) : (retire next s).pc = next := rfl
@[simp] theorem retire_status (next : Word) (s : State) : (retire next s).status = s.status := rfl
@[simp] theorem retire_mem (next : Word) (s : State) : (retire next s).mem = s.mem := rfl
@[simp] theorem retire_pcFetch (next : Word) (s : State) : (retire next s).pcFetch = s.pcFetch := rfl
@[simp] theorem retire_fetchHalted (next : Word) (s : State) : (retire next s).fetchHalted = s.fetchHalted := rfl
@[simp] theorem retire_fb (next : Word) (s : State) : (retire next s).fb = s.fb := rfl
@[simp] theorem retire_de (next : Word) (s : State) : (retire next s).de = s.de := rfl
@[simp] theorem retire_em (next : Word) (s : State) : (retire next s).em = s.em := rfl
@[simp] theorem retire_mw (next : Word) (s : State) : (retire next s).mw = s.mw := rfl
@[simp] theorem retire_memWaiting (next : Word) (s : State) : (retire next s).memWaiting = s.memWaiting := rfl
@[simp] theorem retire_memWait (next : Word) (s : State) : (retire next s).memWait = s.memWait := rfl
@[simp] theorem retire_btb (next : Word) (s : State) : (retire next s).btb = s.btb := rfl
@[simp] theorem retire_pht (next : Word) (s : State) : (retire next s).pht = s.pht := rfl
@[simp] theorem retire_ras (next : Word) (s : State) : (retire next s).ras = s.ras := rfl
@[simp] theorem retire_l1 (next : Word) (s : State) : (retire next s).l1 = s.l1 := rfl
@[simp] theorem retire_sb (next : Word) (s : State) : (retire next s).sb = s.sb := rfl
@[simp] theorem retire_sbSeq (next : Word) (s : State) : (retire next s).sbSeq = s.sbSeq := rfl
@[simp] theorem retire_metrics (next : Word) (s : State) : (retire next s).metrics = s.metrics.commit := rfl

/-! ## raise -/

@[simp] theorem raise_cfg (k : ErrorKind) (m : Message) (s : State) : (raise k m s).cfg = s.cfg := rfl
@[simp] theorem raise_layout (k : ErrorKind) (m : Message) (s : State) : (raise k m s).layout = s.layout := rfl
@[simp] theorem raise_loaded (k : ErrorKind) (m : Message) (s : State) : (raise k m s).loaded = s.loaded := rfl
@[simp] theorem raise_regs (k : ErrorKind) (m : Message) (s : State) : (raise k m s).regs = s.regs := rfl
@[simp] theorem raise_flags (k : ErrorKind) (m : Message) (s : State) : (raise k m s).flags = s.flags := rfl
@[simp] theorem raise_pc (k : ErrorKind) (m : Message) (s : State) : (raise k m s).pc = s.pc := rfl
@[simp] theorem raise_status (k : ErrorKind) (m : Message) (s : State) : (raise k m s).status = .error k s.pc m := rfl
@[simp] theorem raise_mem (k : ErrorKind) (m : Message) (s : State) : (raise k m s).mem = s.mem := rfl
@[simp] theorem raise_pcFetch (k : ErrorKind) (m : Message) (s : State) : (raise k m s).pcFetch = s.pcFetch := rfl
@[simp] theorem raise_fetchHalted (k : ErrorKind) (m : Message) (s : State) : (raise k m s).fetchHalted = s.fetchHalted := rfl
@[simp] theorem raise_fb (k : ErrorKind) (m : Message) (s : State) : (raise k m s).fb = s.fb := rfl
@[simp] theorem raise_de (k : ErrorKind) (m : Message) (s : State) : (raise k m s).de = s.de := rfl
@[simp] theorem raise_em (k : ErrorKind) (m : Message) (s : State) : (raise k m s).em = s.em := rfl
@[simp] theorem raise_mw (k : ErrorKind) (m : Message) (s : State) : (raise k m s).mw = s.mw := rfl
@[simp] theorem raise_memWaiting (k : ErrorKind) (m : Message) (s : State) : (raise k m s).memWaiting = s.memWaiting := rfl
@[simp] theorem raise_memWait (k : ErrorKind) (m : Message) (s : State) : (raise k m s).memWait = s.memWait := rfl
@[simp] theorem raise_btb (k : ErrorKind) (m : Message) (s : State) : (raise k m s).btb = s.btb := rfl
@[simp] theorem raise_pht (k : ErrorKind) (m : Message) (s : State) : (raise k m s).pht = s.pht := rfl
@[simp] theorem raise_ras (k : ErrorKind) (m : Message) (s : State) : (raise k m s).ras = s.ras := rfl
@[simp] theorem raise_l1 (k : ErrorKind) (m : Message) (s : State) : (raise k m s).l1 = s.l1 := rfl
@[simp] theorem raise_sb (k : ErrorKind) (m : Message) (s : State) : (raise k m s).sb = s.sb := rfl
@[simp] theorem raise_sbSeq (k : ErrorKind) (m : Message) (s : State) : (raise k m s).sbSeq = s.sbSeq := rfl
@[simp] theorem raise_metrics (k : ErrorKind) (m : Message) (s : State) : (raise k m s).metrics = s.metrics := rfl

/-! ## stopEngine -/

@[simp] theorem stopEngine_cfg (r : StopReason) (len : Nat) (s : State) : (stopEngine r len s).cfg = s.cfg := rfl
@[simp] theorem stopEngine_layout (r : StopReason) (len : Nat) (s : State) : (stopEngine r len s).layout = s.layout := rfl
@[simp] theorem stopEngine_loaded (r : StopReason) (len : Nat) (s : State) : (stopEngine r len s).loaded = s.loaded := rfl
@[simp] theorem stopEngine_regs (r : StopReason) (len : Nat) (s : State) : (stopEngine r len s).regs = s.regs := rfl
@[simp] theorem stopEngine_flags (r : StopReason) (len : Nat) (s : State) : (stopEngine r len s).flags = s.flags := rfl
@[simp] theorem stopEngine_pc (r : StopReason) (len : Nat) (s : State) : (stopEngine r len s).pc = seqPc s len := rfl
@[simp] theorem stopEngine_status (r : StopReason) (len : Nat) (s : State) : (stopEngine r len s).status = .halted r (s.reg exitReg) s.pc := rfl
@[simp] theorem stopEngine_mem (r : StopReason) (len : Nat) (s : State) : (stopEngine r len s).mem = s.mem := rfl
@[simp] theorem stopEngine_pcFetch (r : StopReason) (len : Nat) (s : State) : (stopEngine r len s).pcFetch = s.pcFetch := rfl
@[simp] theorem stopEngine_fetchHalted (r : StopReason) (len : Nat) (s : State) : (stopEngine r len s).fetchHalted = s.fetchHalted := rfl
@[simp] theorem stopEngine_fb (r : StopReason) (len : Nat) (s : State) : (stopEngine r len s).fb = s.fb := rfl
@[simp] theorem stopEngine_de (r : StopReason) (len : Nat) (s : State) : (stopEngine r len s).de = s.de := rfl
@[simp] theorem stopEngine_em (r : StopReason) (len : Nat) (s : State) : (stopEngine r len s).em = s.em := rfl
@[simp] theorem stopEngine_mw (r : StopReason) (len : Nat) (s : State) : (stopEngine r len s).mw = s.mw := rfl
@[simp] theorem stopEngine_memWaiting (r : StopReason) (len : Nat) (s : State) : (stopEngine r len s).memWaiting = s.memWaiting := rfl
@[simp] theorem stopEngine_memWait (r : StopReason) (len : Nat) (s : State) : (stopEngine r len s).memWait = s.memWait := rfl
@[simp] theorem stopEngine_btb (r : StopReason) (len : Nat) (s : State) : (stopEngine r len s).btb = s.btb := rfl
@[simp] theorem stopEngine_pht (r : StopReason) (len : Nat) (s : State) : (stopEngine r len s).pht = s.pht := rfl
@[simp] theorem stopEngine_ras (r : StopReason) (len : Nat) (s : State) : (stopEngine r len s).ras = s.ras := rfl
@[simp] theorem stopEngine_l1 (r : StopReason) (len : Nat) (s : State) : (stopEngine r len s).l1 = s.l1 := rfl
@[simp] theorem stopEngine_sb (r : StopReason) (len : Nat) (s : State) : (stopEngine r len s).sb = s.sb := rfl
@[simp] theorem stopEngine_sbSeq (r : StopReason) (len : Nat) (s : State) : (stopEngine r len s).sbSeq = s.sbSeq := rfl
@[simp] theorem stopEngine_metrics (r : StopReason) (len : Nat) (s : State) : (stopEngine r len s).metrics = s.metrics.commit := rfl

/-! ## archWriteByte -/

@[simp] theorem archWriteByte_cfg (s : State) (a : Nat) (b : Byte) : (archWriteByte s a b).cfg = s.cfg := rfl
@[simp] theorem archWriteByte_layout (s : State) (a : Nat) (b : Byte) : (archWriteByte s a b).layout = s.layout := rfl
@[simp] theorem archWriteByte_loaded (s : State) (a : Nat) (b : Byte) : (archWriteByte s a b).loaded = s.loaded := rfl
@[simp] theorem archWriteByte_regs (s : State) (a : Nat) (b : Byte) : (archWriteByte s a b).regs = s.regs := rfl
@[simp] theorem archWriteByte_flags (s : State) (a : Nat) (b : Byte) : (archWriteByte s a b).flags = s.flags := rfl
@[simp] theorem archWriteByte_pc (s : State) (a : Nat) (b : Byte) : (archWriteByte s a b).pc = s.pc := rfl
@[simp] theorem archWriteByte_status (s : State) (a : Nat) (b : Byte) : (archWriteByte s a b).status = s.status := rfl
@[simp] theorem archWriteByte_mem (s : State) (a : Nat) (b : Byte) : (archWriteByte s a b).mem = Memory.write s.mem a b := rfl
@[simp] theorem archWriteByte_pcFetch (s : State) (a : Nat) (b : Byte) : (archWriteByte s a b).pcFetch = s.pcFetch := rfl
@[simp] theorem archWriteByte_fetchHalted (s : State) (a : Nat) (b : Byte) : (archWriteByte s a b).fetchHalted = s.fetchHalted := rfl
@[simp] theorem archWriteByte_fb (s : State) (a : Nat) (b : Byte) : (archWriteByte s a b).fb = s.fb := rfl
@[simp] theorem archWriteByte_de (s : State) (a : Nat) (b : Byte) : (archWriteByte s a b).de = s.de := rfl
@[simp] theorem archWriteByte_em (s : State) (a : Nat) (b : Byte) : (archWriteByte s a b).em = s.em := rfl
@[simp] theorem archWriteByte_mw (s : State) (a : Nat) (b : Byte) : (archWriteByte s a b).mw = s.mw := rfl
@[simp] theorem archWriteByte_memWaiting (s : State) (a : Nat) (b : Byte) : (archWriteByte s a b).memWaiting = s.memWaiting := rfl
@[simp] theorem archWriteByte_memWait (s : State) (a : Nat) (b : Byte) : (archWriteByte s a b).memWait = s.memWait := rfl
@[simp] theorem archWriteByte_btb (s : State) (a : Nat) (b : Byte) : (archWriteByte s a b).btb = s.btb := rfl
@[simp] theorem archWriteByte_pht (s : State) (a : Nat) (b : Byte) : (archWriteByte s a b).pht = s.pht := rfl
@[simp] theorem archWriteByte_ras (s : State) (a : Nat) (b : Byte) : (archWriteByte s a b).ras = s.ras := rfl
@[simp] theorem archWriteByte_l1 (s : State) (a : Nat) (b : Byte) : (archWriteByte s a b).l1 = s.l1.modify (setIndex s.cfg a) (fun ways => ways.map (patchWay (tagOf s.cfg a) (lineOffset s.cfg a) b)) := rfl
@[simp] theorem archWriteByte_sb (s : State) (a : Nat) (b : Byte) : (archWriteByte s a b).sb = s.sb.map (patchEntry a b) := rfl
@[simp] theorem archWriteByte_sbSeq (s : State) (a : Nat) (b : Byte) : (archWriteByte s a b).sbSeq = s.sbSeq := rfl
@[simp] theorem archWriteByte_metrics (s : State) (a : Nat) (b : Byte) : (archWriteByte s a b).metrics = s.metrics := rfl

/-! ## storing bytes: only `mem`, `l1` and `sb` change -/

@[simp] theorem archWriteBytes_cfg (s : State) (a : Nat) (bs : List Byte) : (archWriteBytes s a bs).cfg = s.cfg := by
  induction bs generalizing s a with
  | nil => rfl
  | cons b bs ih => simp [archWriteBytes, ih]

@[simp] theorem memWrite_cfg (s : State) (ea : Word) (w : Width) (v : Word) : (memWrite s ea w v).cfg = s.cfg := by
  simp [memWrite]

@[simp] theorem archWriteBytes_layout (s : State) (a : Nat) (bs : List Byte) : (archWriteBytes s a bs).layout = s.layout := by
  induction bs generalizing s a with
  | nil => rfl
  | cons b bs ih => simp [archWriteBytes, ih]
@[simp] theorem archWriteBytes_loaded (s : State) (a : Nat) (bs : List Byte) : (archWriteBytes s a bs).loaded = s.loaded := by
  induction bs generalizing s a with
  | nil => rfl
  | cons b bs ih => simp [archWriteBytes, ih]

@[simp] theorem memWrite_layout (s : State) (ea : Word) (w : Width) (v : Word) : (memWrite s ea w v).layout = s.layout := by
  simp [memWrite]
@[simp] theorem memWrite_loaded (s : State) (ea : Word) (w : Width) (v : Word) : (memWrite s ea w v).loaded = s.loaded := by
  simp [memWrite]

@[simp] theorem archWriteBytes_regs (s : State) (a : Nat) (bs : List Byte) : (archWriteBytes s a bs).regs = s.regs := by
  induction bs generalizing s a with
  | nil => rfl
  | cons b bs ih => simp [archWriteBytes, ih]

@[simp] theorem memWrite_regs (s : State) (ea : Word) (w : Width) (v : Word) : (memWrite s ea w v).regs = s.regs := by
  simp [memWrite]

@[simp] theorem archWriteBytes_flags (s : State) (a : Nat) (bs : List Byte) : (archWriteBytes s a bs).flags = s.flags := by
  induction bs generalizing s a with
  | nil => rfl
  | cons b bs ih => simp [archWriteBytes, ih]

@[simp] theorem memWrite_flags (s : State) (ea : Word) (w : Width) (v : Word) : (memWrite s ea w v).flags = s.flags := by
  simp [memWrite]

@[simp] theorem archWriteBytes_pc (s : State) (a : Nat) (bs : List Byte) : (archWriteBytes s a bs).pc = s.pc := by
  induction bs generalizing s a with
  | nil => rfl
  | cons b bs ih => simp [archWriteBytes, ih]

@[simp] theorem memWrite_pc (s : State) (ea : Word) (w : Width) (v : Word) : (memWrite s ea w v).pc = s.pc := by
  simp [memWrite]

@[simp] theorem archWriteBytes_status (s : State) (a : Nat) (bs : List Byte) : (archWriteBytes s a bs).status = s.status := by
  induction bs generalizing s a with
  | nil => rfl
  | cons b bs ih => simp [archWriteBytes, ih]

@[simp] theorem memWrite_status (s : State) (ea : Word) (w : Width) (v : Word) : (memWrite s ea w v).status = s.status := by
  simp [memWrite]

@[simp] theorem archWriteBytes_pcFetch (s : State) (a : Nat) (bs : List Byte) : (archWriteBytes s a bs).pcFetch = s.pcFetch := by
  induction bs generalizing s a with
  | nil => rfl
  | cons b bs ih => simp [archWriteBytes, ih]

@[simp] theorem memWrite_pcFetch (s : State) (ea : Word) (w : Width) (v : Word) : (memWrite s ea w v).pcFetch = s.pcFetch := by
  simp [memWrite]

@[simp] theorem archWriteBytes_fetchHalted (s : State) (a : Nat) (bs : List Byte) : (archWriteBytes s a bs).fetchHalted = s.fetchHalted := by
  induction bs generalizing s a with
  | nil => rfl
  | cons b bs ih => simp [archWriteBytes, ih]

@[simp] theorem memWrite_fetchHalted (s : State) (ea : Word) (w : Width) (v : Word) : (memWrite s ea w v).fetchHalted = s.fetchHalted := by
  simp [memWrite]

@[simp] theorem archWriteBytes_fb (s : State) (a : Nat) (bs : List Byte) : (archWriteBytes s a bs).fb = s.fb := by
  induction bs generalizing s a with
  | nil => rfl
  | cons b bs ih => simp [archWriteBytes, ih]

@[simp] theorem memWrite_fb (s : State) (ea : Word) (w : Width) (v : Word) : (memWrite s ea w v).fb = s.fb := by
  simp [memWrite]

@[simp] theorem archWriteBytes_de (s : State) (a : Nat) (bs : List Byte) : (archWriteBytes s a bs).de = s.de := by
  induction bs generalizing s a with
  | nil => rfl
  | cons b bs ih => simp [archWriteBytes, ih]

@[simp] theorem memWrite_de (s : State) (ea : Word) (w : Width) (v : Word) : (memWrite s ea w v).de = s.de := by
  simp [memWrite]

@[simp] theorem archWriteBytes_em (s : State) (a : Nat) (bs : List Byte) : (archWriteBytes s a bs).em = s.em := by
  induction bs generalizing s a with
  | nil => rfl
  | cons b bs ih => simp [archWriteBytes, ih]

@[simp] theorem memWrite_em (s : State) (ea : Word) (w : Width) (v : Word) : (memWrite s ea w v).em = s.em := by
  simp [memWrite]

@[simp] theorem archWriteBytes_mw (s : State) (a : Nat) (bs : List Byte) : (archWriteBytes s a bs).mw = s.mw := by
  induction bs generalizing s a with
  | nil => rfl
  | cons b bs ih => simp [archWriteBytes, ih]

@[simp] theorem memWrite_mw (s : State) (ea : Word) (w : Width) (v : Word) : (memWrite s ea w v).mw = s.mw := by
  simp [memWrite]

@[simp] theorem archWriteBytes_memWaiting (s : State) (a : Nat) (bs : List Byte) : (archWriteBytes s a bs).memWaiting = s.memWaiting := by
  induction bs generalizing s a with
  | nil => rfl
  | cons b bs ih => simp [archWriteBytes, ih]

@[simp] theorem memWrite_memWaiting (s : State) (ea : Word) (w : Width) (v : Word) : (memWrite s ea w v).memWaiting = s.memWaiting := by
  simp [memWrite]

@[simp] theorem archWriteBytes_memWait (s : State) (a : Nat) (bs : List Byte) : (archWriteBytes s a bs).memWait = s.memWait := by
  induction bs generalizing s a with
  | nil => rfl
  | cons b bs ih => simp [archWriteBytes, ih]

@[simp] theorem memWrite_memWait (s : State) (ea : Word) (w : Width) (v : Word) : (memWrite s ea w v).memWait = s.memWait := by
  simp [memWrite]

@[simp] theorem archWriteBytes_btb (s : State) (a : Nat) (bs : List Byte) : (archWriteBytes s a bs).btb = s.btb := by
  induction bs generalizing s a with
  | nil => rfl
  | cons b bs ih => simp [archWriteBytes, ih]

@[simp] theorem memWrite_btb (s : State) (ea : Word) (w : Width) (v : Word) : (memWrite s ea w v).btb = s.btb := by
  simp [memWrite]

@[simp] theorem archWriteBytes_pht (s : State) (a : Nat) (bs : List Byte) : (archWriteBytes s a bs).pht = s.pht := by
  induction bs generalizing s a with
  | nil => rfl
  | cons b bs ih => simp [archWriteBytes, ih]

@[simp] theorem memWrite_pht (s : State) (ea : Word) (w : Width) (v : Word) : (memWrite s ea w v).pht = s.pht := by
  simp [memWrite]

@[simp] theorem archWriteBytes_ras (s : State) (a : Nat) (bs : List Byte) : (archWriteBytes s a bs).ras = s.ras := by
  induction bs generalizing s a with
  | nil => rfl
  | cons b bs ih => simp [archWriteBytes, ih]

@[simp] theorem memWrite_ras (s : State) (ea : Word) (w : Width) (v : Word) : (memWrite s ea w v).ras = s.ras := by
  simp [memWrite]

@[simp] theorem archWriteBytes_sbSeq (s : State) (a : Nat) (bs : List Byte) : (archWriteBytes s a bs).sbSeq = s.sbSeq := by
  induction bs generalizing s a with
  | nil => rfl
  | cons b bs ih => simp [archWriteBytes, ih]

@[simp] theorem memWrite_sbSeq (s : State) (ea : Word) (w : Width) (v : Word) : (memWrite s ea w v).sbSeq = s.sbSeq := by
  simp [memWrite]

@[simp] theorem archWriteBytes_metrics (s : State) (a : Nat) (bs : List Byte) : (archWriteBytes s a bs).metrics = s.metrics := by
  induction bs generalizing s a with
  | nil => rfl
  | cons b bs ih => simp [archWriteBytes, ih]

@[simp] theorem memWrite_metrics (s : State) (ea : Word) (w : Width) (v : Word) : (memWrite s ea w v).metrics = s.metrics := by
  simp [memWrite]

/-! ## registers -/

theorem reg_eq_getElem (s : State) (r : Reg) : s.reg r = s.regs[r.val] := rfl

@[simp] theorem reg_setReg_same (s : State) (r : Reg) (v : Word) : (s.setReg r v).reg r = v := by
  simp [reg_eq_getElem]

@[simp] theorem reg_setReg_of_ne (s : State) {r q : Reg} (v : Word) (h : r ≠ q) : (s.setReg r v).reg q = s.reg q := by
  have : r.val ≠ q.val := fun e => h (Fin.ext e)
  simp [reg_eq_getElem, this]

@[simp] theorem reg_retire (s : State) (n : Word) (r : Reg) : (retire n s).reg r = s.reg r := rfl
@[simp] theorem reg_setFlags (s : State) (f : Flags) (r : Reg) : (s.setFlags f).reg r = s.reg r := rfl
@[simp] theorem reg_raise (k : ErrorKind) (m : Message) (s : State) (r : Reg) : (raise k m s).reg r = s.reg r := rfl
@[simp] theorem reg_stopEngine (k : StopReason) (n : Nat) (s : State) (r : Reg) : (stopEngine k n s).reg r = s.reg r := rfl
@[simp] theorem reg_memWrite (s : State) (ea : Word) (w : Width) (v : Word) (r : Reg) :
    (memWrite s ea w v).reg r = s.reg r := by
  simp [reg_eq_getElem]

@[simp] theorem commit_instructionsCommitted (m : Metrics) :
    m.commit.instructionsCommitted = m.instructionsCommitted + 1 := rfl

end Sys2Proof.Machine
end

