-- ==== Sys2Proof/Laws/Ops.lean ====
section
/-! SUPPORT. One lemma per shared operation: what it can do, said once. -/

namespace Sys2Proof.Machine

/-! ## Bytes of a word -/

theorem wordByte_eq_extract (v : Word) (i : Nat) : wordByte v i = v.extractLsb' (8 * i) 8 := by
  apply BitVec.eq_of_toNat_eq
  simp only [wordByte, BitVec.toNat_ofNat, BitVec.extractLsb'_toNat, Nat.shiftRight_eq_div_pow, pow_mul]
  norm_num

theorem getLsbD_wordByte (v : Word) (i k : Nat) : (wordByte v i).getLsbD k = (decide (k < 8) && v.getLsbD (8 * i + k)) := by
  rw [wordByte_eq_extract, BitVec.getLsbD_extractLsb']

theorem toNat_setWordByte (v : Word) {i : Nat} (hi : i < 8) (b : Byte) :
    (setWordByte v i b).toNat = v.toNat % 256 ^ i + 256 ^ i * (b.toNat + 256 * (v.toNat / 256 ^ (i + 1))) := by
  have hv := v.isLt
  have hb := b.isLt
  simp only [setWordByte, BitVec.toNat_ofNat]
  apply Nat.mod_eq_of_lt
  interval_cases i <;> omega

theorem wordByte_setWordByte (v : Word) {i j : Nat} (hi : i < 8) (hj : j < 8) (b : Byte) :
    wordByte (setWordByte v i b) j = if j = i then b else wordByte v j := by
  have hb := b.isLt
  have h := toNat_setWordByte v hi b
  apply BitVec.eq_of_toNat_eq
  have hv := v.isLt
  split_ifs with e
  · subst e
    simp only [wordByte, h, BitVec.toNat_ofNat]
    interval_cases j <;> omega
  · simp only [wordByte, h, BitVec.toNat_ofNat]
    interval_cases i <;> interval_cases j <;> omega

/-! ## The memory a program sees: read after write -/

theorem Width.bytes_le (w : Width) : w.bytes ≤ 8 := by cases w <;> decide
theorem Width.bytes_pos (w : Width) : 0 < w.bytes := by cases w <;> decide

@[simp] theorem covers_patchEntry (a : Nat) (b : Byte) (e : SbEntry) (x : Nat) :
    (patchEntry a b e).covers x = e.covers x := by
  unfold patchEntry; split_ifs <;> rfl

@[simp] theorem addr_patchEntry (a : Nat) (b : Byte) (e : SbEntry) : (patchEntry a b e).addr = e.addr := by
  unfold patchEntry; split_ifs <;> rfl

@[simp] theorem hasTag_patchWay (t o : Nat) (b : Byte) (l : Option Line) (u : Nat) :
    hasTag u (patchWay t o b l) = hasTag u l := by
  unfold patchWay; split_ifs <;> cases l <;> rfl

theorem find?_map_of_pred {α : Type} (p : α → Bool) (f : α → α) (h : ∀ x, p (f x) = p x) (l : List α) :
    (l.map f).find? p = (l.find? p).map f := by
  induction l with
  | nil => rfl
  | cons x l ih => simp only [List.map_cons, List.find?_cons, h, ih]; cases p x <;> rfl

theorem covers_iff (e : SbEntry) (x : Nat) :
    e.covers x = true ↔ e.addr.toNat ≤ x ∧ x < e.addr.toNat + e.size.bytes := by
  simp only [SbEntry.covers, Bool.and_eq_true, decide_eq_true_eq]; exact Iff.rfl

/-- The byte a covering entry holds, after one byte of memory is written. -/
theorem wordByte_patchEntry {a x : Nat} (b : Byte) {e : SbEntry} (h : e.covers x = true) :
    wordByte (patchEntry a b e).value (x - e.addr.toNat) =
      if x = a then b else wordByte e.value (x - e.addr.toNat) := by
  have hs := e.size.bytes_le
  rw [covers_iff] at h
  unfold patchEntry
  by_cases h1 : e.covers a = true
  · rw [if_pos h1]
    rw [covers_iff] at h1
    rw [wordByte_setWordByte _ (by omega) (by omega)]
    by_cases h2 : x = a
    · rw [if_pos h2, if_pos (by omega)]
    · rw [if_neg h2, if_neg (by omega)]
  · rw [if_neg h1, if_neg]
    rintro rfl
    exact h1 ((covers_iff e x).2 h)

/-- The byte at `x` that the cache holds, if it does. -/
def cachedByte (s : State) (x : Nat) : Option Byte := (lookupLine s x).bind fun l => l.data[lineOffset s.cfg x]?

theorem cachedByte_archWriteByte (s : State) (a : Nat) (b : Byte) (x : Nat) :
    cachedByte (archWriteByte s a b) x = (cachedByte s x).map fun y => if x = a then b else y := by
  unfold cachedByte lookupLine
  simp only [archWriteByte_l1, archWriteByte_cfg]
  by_cases hset : setIndex s.cfg a = setIndex s.cfg x
  · have e1 : (s.l1.modify (setIndex s.cfg a) fun ways => ways.map (patchWay (tagOf s.cfg a) (lineOffset s.cfg a) b)).getD
        (setIndex s.cfg x) [] = (s.l1.getD (setIndex s.cfg x) []).map (patchWay (tagOf s.cfg a) (lineOffset s.cfg a) b) := by
      simp only [List.getD_eq_getElem?_getD, List.getElem?_modify, hset, if_true]
      cases s.l1[setIndex s.cfg x]? <;> rfl
    rw [e1, find?_map_of_pred _ _ (fun l => hasTag_patchWay _ _ _ l _)]
    rcases hf : (s.l1.getD (setIndex s.cfg x) []).find? (hasTag (tagOf s.cfg x)) with _ | (_ | l)
    · rfl
    · have := List.find?_some hf; simp [hasTag] at this
    · have ht := List.find?_some hf
      simp only [Option.map_some, patchWay]
      by_cases htag : hasTag (tagOf s.cfg a) (some l) = true
      · rw [if_pos htag]
        simp only [hasTag, beq_iff_eq] at ht htag
        simp only [Option.bind_some, List.getElem?_set]
        by_cases ho : lineOffset s.cfg a = lineOffset s.cfg x
        · have hxa : x = a := by
            have hl : lineNumber s.cfg x = lineNumber s.cfg a := by
              have h1 : tagOf s.cfg a = tagOf s.cfg x := by rw [← htag, ← ht]
              rw [← Nat.div_add_mod (lineNumber s.cfg x) s.cfg.numSets, ← Nat.div_add_mod (lineNumber s.cfg a) s.cfg.numSets]
              unfold tagOf setIndex at *; rw [h1, hset]
            unfold lineNumber lineOffset at *
            rw [← Nat.div_add_mod x s.cfg.lineSize, ← Nat.div_add_mod a s.cfg.lineSize, hl, ho]
          subst hxa; simp only [if_true]
          split_ifs with hlt
          · simp [hlt]
          · simp [List.getElem?_eq_none (Nat.le_of_not_lt hlt)]
        · have hxa : x ≠ a := fun e => ho (by rw [e])
          simp [ho, hxa]
      · rw [if_neg htag]
        have hxa : x ≠ a := fun e => htag (by rw [← e]; exact ht)
        simp [hxa]
  · have hxa : x ≠ a := fun e => hset (by rw [e])
    simp [List.getD_eq_getElem?_getD, hset, hxa]

theorem archByte_eq (s : State) (x : Nat) : archByte s x =
    match s.sb.reverse.find? (fun e => e.covers x) with
    | some e => wordByte e.value (x - e.addr.toNat)
    | none => (cachedByte s x).getD (Memory.read s.mem x) := by
  unfold archByte cachedByte
  cases s.sb.reverse.find? (fun e => e.covers x) with
  | some e => rfl
  | none => cases (lookupLine s x).bind fun l => l.data[lineOffset s.cfg x]? <;> rfl

/-- One byte written is read back, whatever the store buffer and the cache hold, and no other byte changes (R63, R70). -/
theorem archByte_archWriteByte (s : State) (a : Nat) (b : Byte) (x : Nat) :
    archByte (archWriteByte s a b) x = if x = a then b else archByte s x := by
  rw [archByte_eq, archByte_eq s x, cachedByte_archWriteByte]
  simp only [archWriteByte_sb, archWriteByte_mem, ← List.map_reverse]
  rw [find?_map_of_pred _ _ (fun e => covers_patchEntry a b e x)]
  cases hf : s.sb.reverse.find? (fun e => e.covers x) with
  | none => cases cachedByte s x <;> simp [Memory.read_write]
  | some e =>
    have hc : e.covers x = true := by simpa using List.find?_some hf
    simpa using wordByte_patchEntry b hc

/-- Bytes written at ascending addresses are read back there, and no other byte changes. -/
theorem archByte_archWriteBytes (s : State) (a : Nat) (bs : List Byte) (x : Nat) :
    archByte (archWriteBytes s a bs) x = if a ≤ x ∧ x < a + bs.length then bs.getD (x - a) 0 else archByte s x := by
  induction bs generalizing s a with
  | nil => simp [archWriteBytes]
  | cons b bs ih =>
    simp only [archWriteBytes, ih, archByte_archWriteByte, List.length_cons]
    rcases Nat.lt_trichotomy x a with h | rfl | h
    · rw [if_neg (by omega), if_neg (by omega), if_neg (by omega)]
    · rw [if_neg (by omega), if_pos rfl, if_pos (by omega)]; simp
    · by_cases h2 : x < a + 1 + bs.length
      · rw [if_pos (by omega), if_pos (by omega), show x - a = (x - (a + 1)) + 1 by omega]; simp
      · rw [if_neg (by omega), if_neg (by omega), if_neg (by omega)]

theorem getElem?_leBytes (n v k : Nat) : (leBytes n v)[k]? = if k < n then some (BitVec.ofNat 8 (v / 256 ^ k)) else none := by
  induction n generalizing v k with
  | zero => simp [leBytes]
  | succ n ih =>
    cases k with
    | zero => simp [leBytes]
    | succ k => simp [leBytes, ih, Nat.div_div_eq_div_mul, pow_succ']

theorem getD_leBytes {n k : Nat} (v : Nat) (h : k < n) : (leBytes n v).getD k 0 = BitVec.ofNat 8 (v / 256 ^ k) := by
  rw [List.getD_eq_getElem?_getD, getElem?_leBytes, if_pos h]; rfl

/-- What a store leaves (R63): byte `k` of the value at `ea + k`, every other byte as before. -/
theorem archByte_memWrite (s : State) (ea : Word) (w : Width) (v : Word) (x : Nat) :
    archByte (memWrite s ea w v) x =
      if ea.toNat ≤ x ∧ x < ea.toNat + w.bytes then wordByte v (x - ea.toNat) else archByte s x := by
  simp only [memWrite, archByte_archWriteBytes, wordBytes, length_leBytes]
  split_ifs with h
  · exact getD_leBytes _ (by omega)
  · rfl

theorem getElem?_archBytes (s : State) (a n k : Nat) : (archBytes s a n)[k]? = if k < n then some (archByte s (a + k)) else none := by
  induction n generalizing a k with
  | zero => simp [archBytes]
  | succ n ih =>
    cases k with
    | zero => simp [archBytes]
    | succ k => simp only [archBytes, List.getElem?_cons_succ, ih, Nat.add_lt_add_iff_right]
                rw [show a + 1 + k = a + (k + 1) by omega]

@[simp] theorem length_archBytes (s : State) (a n : Nat) : (archBytes s a n).length = n := by
  induction n generalizing a with
  | zero => rfl
  | succ n ih => simp [archBytes, ih]

/-- Byte `k` of what a load of `w` bytes reads is the byte a program sees at `ea + k` (R63). -/
theorem wordByte_wordOfBytes (bs : List Byte) (h : bs.length ≤ 8) (k : Nat) : wordByte (wordOfBytes bs) k = bs.getD k 0 := by
  have hlt : leNat bs < 2 ^ 64 := lt_of_lt_of_le (leNat_lt bs) (by
    calc 256 ^ bs.length ≤ 256 ^ 8 := Nat.pow_le_pow_right (by decide) h
      _ = 2 ^ 64 := by norm_num)
  have hv : (wordOfBytes bs).toNat = leNat bs := by rw [wordOfBytes, BitVec.toNat_ofNat, Nat.mod_eq_of_lt hlt]
  rw [wordByte, hv]
  clear hlt hv h
  induction bs generalizing k with
  | nil => simp [leNat]
  | cons b bs ih =>
    have hb := b.isLt
    cases k with
    | zero => apply BitVec.eq_of_toNat_eq; simp only [leNat, BitVec.toNat_ofNat, pow_zero, Nat.div_one, List.getD_cons_zero]; omega
    | succ k =>
      rw [List.getD_cons_succ, ← ih k, leNat, pow_succ', ← Nat.div_div_eq_div_mul]
      congr 2; omega

/-! ## The access check -/

theorem accessCheck_eq_none_iff (l : Layout) (ea : Word) (n : Nat) : accessCheck l ea n = none ↔ accessAllowed l ea n := by
  unfold accessCheck accessAllowed; split_ifs <;> simp_all

/-- A store keeps memory in its canonical form. -/
theorem wf_memWrite {s : State} (h : s.mem.wf) (ea : Word) (w : Width) (v : Word) : (memWrite s ea w v).mem.wf := by
  unfold memWrite
  generalize wordBytes v w.bytes = bs
  generalize ea.toNat = a
  induction bs generalizing s a with
  | nil => exact h
  | cons b bs ih => exact ih (s := archWriteByte s a b) (by simpa using Memory.wf_write h a b) (a + 1)

theorem read_memWrite (s : State) (ea : Word) (w : Width) (v : Word) (x : Nat) :
    Memory.read (memWrite s ea w v).mem x =
      if ea.toNat ≤ x ∧ x < ea.toNat + w.bytes then wordByte v (x - ea.toNat) else Memory.read s.mem x := by
  have h : ∀ (bs : List Byte) (t : State) (a : Nat), (archWriteBytes t a bs).mem = Memory.writeBytes t.mem a bs := by
    intro bs
    induction bs with
    | nil => intros; rfl
    | cons b bs ih => intro t a; simp [archWriteBytes, ih, Memory.writeBytes]
  simp only [memWrite, h, Memory.read_writeBytes, wordBytes, length_leBytes]
  split_ifs with hc
  · exact getD_leBytes _ (by omega)
  · rfl

/-! ## What the shared operations answer -/

/-- A transfer retires or raises `ControlFault` (R170). -/
theorem transfer_eq (taken : Bool) (target : Word) (len : Nat) (s : State) :
    transfer taken target len s =
      if taken = true ∧ inCode s.layout target = false then raise .controlFault .control s
      else retire (if taken = true then target else seqPc s len) s := by
  cases taken <;> cases h : inCode s.layout target <;> simp [transfer, h]

theorem inCode_iff (l : Layout) (a : Word) : inCode l a = true ↔ targetInCode l a := by
  simp [inCode, targetInCode]

theorem loadTo_of_allowed {w : Width} {ea : Word} {s : State} (h : accessAllowed s.layout ea w.bytes) (rd : Reg) (len : Nat) :
    loadTo w rd ea len s = retire (seqPc s len) (s.setReg rd (memRead s ea w)) := by
  simp [loadTo, (accessCheck_eq_none_iff _ _ _).2 h]

theorem storeFrom_of_allowed {w : Width} {ea : Word} {s : State} (h : accessAllowed s.layout ea w.bytes) (v : Word) (len : Nat) :
    storeFrom w v ea len s = retire (seqPc s len) (memWrite s ea w v) := by
  simp [storeFrom, (accessCheck_eq_none_iff _ _ _).2 h]

theorem loadTo_of_refused {w : Width} {ea : Word} {s : State} {c : AccessCheck} (h : accessCheck s.layout ea w.bytes = some c)
    (rd : Reg) (len : Nat) : loadTo w rd ea len s = raise .memoryFault (.memory c ea) s := by
  simp [loadTo, h]

theorem storeFrom_of_refused {w : Width} {ea : Word} {s : State} {c : AccessCheck} (h : accessCheck s.layout ea w.bytes = some c)
    (v : Word) (len : Nat) : storeFrom w v ea len s = raise .memoryFault (.memory c ea) s := by
  simp [storeFrom, h]

end Sys2Proof.Machine
end

