-- ==== Sys2Proof/Laws/Effects.lean ====
section
/-! SUPPORT. What the closing operation of each kind of meaning does to the whole state, the flags of the arithmetic in
terms of integers, and the facts about jumps and micro-operations that every claim about them starts from. -/

namespace Sys2Proof.Machine

/-! ## Whole effects -/

/-- Retiring alone changes the pc and the count. -/
theorem registerEffect_retire (next : Word) (s : State) : registerEffect [] next s (retire next s) :=
  ⟨⟨rfl, rfl, rfl⟩, fun _ _ => rfl, ⟨fun _ => rfl, fun _ => rfl, rfl, rfl, rfl⟩, by simp [sameMachine]⟩

/-- Writing flags and retiring. -/
theorem registerEffect_flags (next : Word) (f : Flags) (s : State) :
    registerEffect [] next s (retire next (s.setFlags f)) :=
  ⟨⟨rfl, rfl, rfl⟩, fun _ _ => rfl, ⟨fun _ => rfl, fun _ => rfl, rfl, rfl, rfl⟩, by simp [sameMachine]⟩

/-- Writing one register and retiring. -/
theorem registerEffect_setReg (next : Word) (rd : Reg) (v : Word) (s : State) :
    registerEffect [rd] next s (retire next (s.setReg rd v)) := by
  refine ⟨⟨rfl, rfl, rfl⟩, fun r hr => ?_, ⟨fun _ => rfl, fun _ => rfl, rfl, rfl, rfl⟩, by simp [sameMachine]⟩
  simp only [List.mem_singleton] at hr
  simp [Ne.symm hr]

/-- Writing one register and the flags, and retiring. -/
theorem registerEffect_setReg_flags (next : Word) (rd : Reg) (v : Word) (f : Flags) (s : State) :
    registerEffect [rd] next s (retire next ((s.setReg rd v).setFlags f)) := by
  refine ⟨⟨rfl, rfl, rfl⟩, fun r hr => ?_, ⟨fun _ => rfl, fun _ => rfl, rfl, rfl, rfl⟩, by simp [sameMachine]⟩
  simp only [List.mem_singleton] at hr
  simp [Ne.symm hr]

/-! ## Signed overflow as a range -/

/-- The V flag of R131 is set exactly when the signed sum does not fit. -/
theorem addOverflow_eq (a b : Word) : (a.msb == b.msb && (BitVec.ofNat 64 (a.toNat + b.toNat)).msb != a.msb) =
    !decide (-2 ^ 63 ≤ a.toInt + b.toInt ∧ a.toInt + b.toInt < 2 ^ 63) := by
  have ha := a.isLt
  have hb := b.isLt
  simp only [BitVec.msb_eq_decide, BitVec.toInt_eq_toNat_cond, BitVec.toNat_ofNat]
  grind

/-- The V flag of R132 is set exactly when the signed difference does not fit. -/
theorem subOverflow_eq (a b : Word) : (a.msb != b.msb && (a - b).msb != a.msb) =
    !decide (-2 ^ 63 ≤ a.toInt - b.toInt ∧ a.toInt - b.toInt < 2 ^ 63) := by
  have ha := a.isLt
  have hb := b.isLt
  simp only [BitVec.msb_eq_decide, BitVec.toInt_eq_toNat_cond, BitVec.toNat_sub]
  grind

/-- The unbounded difference, cut to 64 bits, is the difference of words. -/
theorem ofInt_sub_toNat (a b : Word) : BitVec.ofInt 64 ((a.toNat : Int) - b.toNat) = a - b := by
  apply BitVec.eq_of_toInt_eq
  rw [BitVec.toInt_ofInt, BitVec.toInt_sub]
  simp only [BitVec.toInt_eq_toNat_bmod]
  rw [Int.bmod_sub_bmod, Int.sub_bmod_bmod]

/-! ## Control transfers -/

/-- The condition a flag jump tests is that of R187. -/
theorem condHolds_iff (c : Cond) (f : Flags) : condHolds c f = true ↔ flagCondition c f := by
  obtain ⟨z, n, cc, v⟩ := f
  cases c <;> cases z <;> cases n <;> cases cc <;> cases v <;> simp [condHolds, flagCondition]

theorem targetAddr_seqPc (s : State) (len : Nat) (t : Target) : targetAddr (seqPc s len) t = directTarget s.pc len t := by
  cases t <;> rfl

/-- All ten flag jumps are one operation. -/
theorem exec_flagJump (c : Cond) (t : Target) (s : State) : exec (flagJump c t) s = jumpTo (condHolds c s.flags) t 7 s := by
  cases c <;> cases t <;> rfl

/-- A jump that is taken to a target inside the code range. -/
theorem jumpTo_inside {t : Target} {len : Nat} {s : State} (h : targetInCode s.layout (directTarget s.pc len t)) :
    jumpTo true t len s = .next (retire (directTarget s.pc len t) s) := by
  simp [jumpTo, transfer, targetAddr_seqPc, (inCode_iff _ _).2 h]

/-- A jump that is taken to a target outside the code range. -/
theorem jumpTo_outside {t : Target} {len : Nat} {s : State} (h : ¬ targetInCode s.layout (directTarget s.pc len t)) :
    jumpTo true t len s = .next (stoppedWith .controlFault .control s) := by
  rw [← inCode_iff, Bool.not_eq_true] at h
  simp only [jumpTo, transfer, targetAddr_seqPc, h]
  rfl

/-! ## Cache and store buffer under an architectural store (log 6) -/

theorem sameBuffers.rfl {s : State} : sameBuffers s s := ⟨Eq.refl _, Eq.refl _⟩

theorem sameBuffers.trans {s t u : State} (h : sameBuffers s t) (k : sameBuffers t u) : sameBuffers s u :=
  ⟨k.1.trans h.1, k.2.trans h.2⟩

@[simp] theorem shape_patchWay (t o : Nat) (b : Byte) (l : Option Line) :
    (patchWay t o b l).map Line.shape = l.map Line.shape := by
  cases l <;> simp only [patchWay] <;> split <;> rfl

@[simp] theorem shape_patchEntry (a : Nat) (b : Byte) (e : SbEntry) : (patchEntry a b e).shape = e.shape := by
  unfold patchEntry; split <;> rfl

/-- A byte stored changes data and values only. -/
theorem sameBuffers_archWriteByte (s : State) (a : Nat) (b : Byte) : sameBuffers s (archWriteByte s a b) := by
  constructor
  · apply List.ext_getElem?
    intro k
    simp only [archWriteByte, List.getElem?_map, List.getElem?_modify]
    cases s.l1[k]? <;> simp
    split <;> simp
  · simp [archWriteByte]

/-- The bytes of a store change data and values only. -/
theorem sameBuffers_archWriteBytes (s : State) (a : Nat) (bs : List Byte) : sameBuffers s (archWriteBytes s a bs) := by
  induction bs generalizing s a with
  | nil => exact .rfl
  | cons b bs ih => exact (sameBuffers_archWriteByte s a b).trans (ih ..)

/-! ## The coupling -/

/-- `afterStep` is the state a step answers. -/
theorem afterStep_eq {u v : State} (h : step u = .next v) : afterStep u = v := by simp only [afterStep, h]

/-- One instruction as a run of length one. -/
theorem runSteps_one {u v : State} (h : step u = .next v) : runSteps 1 u = .next v := by simp only [runSteps, h]

/-- A latch that carries an error is coupled by the step that raises it. -/
theorem emCoupled_of_fault {l : ExLatch} {f : ErrorInfo} (hf : l.fault = some f) (u : State) :
    emCoupled l u ↔ step u = .next (stoppedWith f.kind f.message u) := by simp only [emCoupled, hf]

/-- Fetching one more entry extends a path that has not ended in an error. -/
theorem pathFrom_append {s t : State} {p : Word} {es : List FetchEntry} {e : FetchEntry}
    (hd : ∀ a, decodeAt t a = decodeAt s a) (hh : s.fetchHalted = false) (h : pathFrom s p es)
    (he : pathFrom t s.pcFetch [e]) : pathFrom t p (es ++ [e]) := by
  induction es generalizing p with
  | nil => obtain ⟨_, rfl⟩ := h; exact he
  | cons x rest ih =>
    obtain ⟨h1, h2⟩ := h
    refine ⟨h1, ?_⟩
    cases hf : x.fault with
    | some f => rw [hf] at h2; exact absurd h2.2.2 (by simp [hh])
    | none =>
      rw [hf] at h2
      obtain ⟨i, n, h3, h4, h5, h6, h7⟩ := h2
      exact ⟨i, n, (hd p).trans h3, h4, h5, h6, ih h7⟩

/-! ## Micro-operations (R91, R114) -/

@[simp] theorem uopOf_instr (i : Instr) (pc : Word) : (uopOf i pc).instr = i := by cases i <;> rfl
@[simp] theorem uopOf_pc (i : Instr) (pc : Word) : (uopOf i pc).pc = pc := by cases i <;> rfl
@[simp] theorem uopOf_len (i : Instr) (pc : Word) : (uopOf i pc).len = i.length := by cases i <;> rfl

/-- A second source supplies a value once its register, if it has one, is read. -/
theorem src2_value {s : Src2} {v : Option Word} (h : v.isSome = (src2Reg s).isSome) : ∃ b, v.or (src2Imm s) = some b := by
  cases s <;> simp_all [src2Reg, src2Imm] <;> exact Option.isSome_iff_exists.1 h

end Sys2Proof.Machine
end

