-- ==== Sys2Proof/Laws/PerInstr.lean ====
section
/-! SUPPORT. Per-instruction families. `EncodedLength`: the encoding of an instruction is as long as R96 says, from 3
to 12 bytes (R90). -/

namespace Sys2Proof.Laws.EncodedLength

/-- The encoding has the length of R96, and that is 3 to 12 bytes (R90). -/
def Statement (i : Instr) : Prop := (encode i).length = i.length ∧ 3 ≤ i.length ∧ i.length ≤ 12

theorem of_bounds (i : Instr) (h1 : i.operands.1.2.length = i.kind1.argBytes)
    (h2 : i.operands.2.2.length = i.kind2.argBytes) (hb : i.kind1.argBytes + i.kind2.argBytes ≤ 9) : Statement i := by
  refine ⟨encode_length_of_operands i h1 h2, ?_, ?_⟩ <;> unfold Instr.length <;> omega

theorem of_src2 (i : Instr) (s : Src2) (n : i.kind1.argBytes = 1) (e1 : i.operands.1.2.length = 1)
    (e2 : i.operands.2 = (s.kind, s.arg)) : Statement i := by
  have hk : i.kind2 = s.kind := by simp [Instr.kind2, e2]
  have hs := s.argBytes_bounds
  exact of_bounds i (by omega) (by rw [e2, hk]; exact s.length_arg) (by rw [n, hk]; omega)

theorem of_target (i : Instr) (t : Target) (e1 : i.operands.1 = (t.kind, t.arg)) (e2 : i.operands.2 = (.none, [])) :
    Statement i := by
  have hk : i.kind1 = t.kind := by simp [Instr.kind1, e1]
  have hk2 : i.kind2 = .none := by simp [Instr.kind2, e2]
  have ht := t.argBytes_eq
  exact of_bounds i (by rw [e1, hk]; exact t.length_arg) (by rw [e2, hk2]; rfl) (by rw [hk, hk2, ht]; decide)

theorem of_reg_target (i : Instr) (r : RegOp) (t : Target) (e1 : i.operands.1 = (r.kind, r.arg))
    (e2 : i.operands.2 = (t.kind, t.arg)) : Statement i := by
  have hk : i.kind1 = r.kind := by simp [Instr.kind1, e1]
  have hk2 : i.kind2 = t.kind := by simp [Instr.kind2, e2]
  have hr := r.argBytes_eq
  have ht := t.argBytes_eq
  exact of_bounds i (by rw [e1, hk]; exact r.length_arg) (by rw [e2, hk2]; exact t.length_arg) (by rw [hk, hk2]; omega)

theorem of_reg_mem (i : Instr) (r : RegOp) (m : MemOp) (e1 : i.operands.1 = (r.kind, r.arg))
    (e2 : i.operands.2 = (m.kind, m.arg)) : Statement i := by
  have hk : i.kind1 = r.kind := by simp [Instr.kind1, e1]
  have hk2 : i.kind2 = m.kind := by simp [Instr.kind2, e2]
  have hr := r.argBytes_eq
  have hm := m.argBytes_bounds
  exact of_bounds i (by rw [e1, hk]; exact r.length_arg) (by rw [e2, hk2]; exact m.length_arg) (by rw [hk, hk2]; omega)

theorem add (rd rs1 : Reg) (s : Src2) : Statement (Instr.add rd rs1 s) := of_src2 _ s rfl rfl rfl
theorem sub (rd rs1 : Reg) (s : Src2) : Statement (Instr.sub rd rs1 s) := of_src2 _ s rfl rfl rfl
theorem mul (rd rs1 : Reg) (s : Src2) : Statement (Instr.mul rd rs1 s) := of_src2 _ s rfl rfl rfl
theorem div (rd rs1 : Reg) (s : Src2) : Statement (Instr.div rd rs1 s) := of_src2 _ s rfl rfl rfl
theorem mod (rd rs1 : Reg) (s : Src2) : Statement (Instr.mod rd rs1 s) := of_src2 _ s rfl rfl rfl
theorem neg (rd : RegOp) (s : Src2) : Statement (Instr.neg rd s) := of_src2 _ s rd.argBytes_eq (rd.length_arg.trans rd.argBytes_eq) rfl
theorem mov (rd : RegOp) (s : Src2) : Statement (Instr.mov rd s) := of_src2 _ s rd.argBytes_eq (rd.length_arg.trans rd.argBytes_eq) rfl
theorem cmp (rs1 : RegOp) (s : Src2) : Statement (Instr.cmp rs1 s) := of_src2 _ s rs1.argBytes_eq (rs1.length_arg.trans rs1.argBytes_eq) rfl
theorem and (rd rs1 : Reg) (s : Src2) : Statement (Instr.and rd rs1 s) := of_src2 _ s rfl rfl rfl
theorem or (rd rs1 : Reg) (s : Src2) : Statement (Instr.or rd rs1 s) := of_src2 _ s rfl rfl rfl
theorem xor (rd rs1 : Reg) (s : Src2) : Statement (Instr.xor rd rs1 s) := of_src2 _ s rfl rfl rfl
theorem not (rd : RegOp) (s : Src2) : Statement (Instr.not rd s) := of_src2 _ s rd.argBytes_eq (rd.length_arg.trans rd.argBytes_eq) rfl
theorem shl (rd rs1 : Reg) (s : Src2) : Statement (Instr.shl rd rs1 s) := of_src2 _ s rfl rfl rfl
theorem shr (rd rs1 : Reg) (s : Src2) : Statement (Instr.shr rd rs1 s) := of_src2 _ s rfl rfl rfl
theorem sar (rd rs1 : Reg) (s : Src2) : Statement (Instr.sar rd rs1 s) := of_src2 _ s rfl rfl rfl
theorem test (rs1 : RegOp) (s : Src2) : Statement (Instr.test rs1 s) := of_src2 _ s rs1.argBytes_eq (rs1.length_arg.trans rs1.argBytes_eq) rfl
theorem jmp (t : Target) : Statement (Instr.jmp t) := of_target _ t rfl rfl
theorem jmpIfZero (rs1 : RegOp) (t : Target) : Statement (Instr.jmpIfZero rs1 t) := of_reg_target _ rs1 t rfl rfl
theorem jmpIfNotZero (rs1 : RegOp) (t : Target) : Statement (Instr.jmpIfNotZero rs1 t) := of_reg_target _ rs1 t rfl rfl
theorem jmpIfEqual (t : Target) : Statement (Instr.jmpIfEqual t) := of_target _ t rfl rfl
theorem jmpIfNotEqual (t : Target) : Statement (Instr.jmpIfNotEqual t) := of_target _ t rfl rfl
theorem jmpIfLess (t : Target) : Statement (Instr.jmpIfLess t) := of_target _ t rfl rfl
theorem jmpIfGreaterEqual (t : Target) : Statement (Instr.jmpIfGreaterEqual t) := of_target _ t rfl rfl
theorem jmpIfGreater (t : Target) : Statement (Instr.jmpIfGreater t) := of_target _ t rfl rfl
theorem jmpIfLessEqual (t : Target) : Statement (Instr.jmpIfLessEqual t) := of_target _ t rfl rfl
theorem jmpIfBelow (t : Target) : Statement (Instr.jmpIfBelow t) := of_target _ t rfl rfl
theorem jmpIfAboveEqual (t : Target) : Statement (Instr.jmpIfAboveEqual t) := of_target _ t rfl rfl
theorem jmpIfAbove (t : Target) : Statement (Instr.jmpIfAbove t) := of_target _ t rfl rfl
theorem jmpIfBelowEqual (t : Target) : Statement (Instr.jmpIfBelowEqual t) := of_target _ t rfl rfl
theorem call (t : Target) : Statement (Instr.call t) := of_target _ t rfl rfl
theorem ret : Statement Instr.ret := by unfold Statement; decide
theorem load (rd : RegOp) (m : MemOp) : Statement (Instr.load rd m) := of_reg_mem _ rd m rfl rfl
theorem store (rs2 : RegOp) (m : MemOp) : Statement (Instr.store rs2 m) := of_reg_mem _ rs2 m rfl rfl
theorem loadb (rd : RegOp) (m : MemOp) : Statement (Instr.loadb rd m) := of_reg_mem _ rd m rfl rfl
theorem storeb (rs2 : RegOp) (m : MemOp) : Statement (Instr.storeb rs2 m) := of_reg_mem _ rs2 m rfl rfl
theorem loadh (rd : RegOp) (m : MemOp) : Statement (Instr.loadh rd m) := of_reg_mem _ rd m rfl rfl
theorem storeh (rs2 : RegOp) (m : MemOp) : Statement (Instr.storeh rs2 m) := of_reg_mem _ rs2 m rfl rfl
theorem loadw (rd : RegOp) (m : MemOp) : Statement (Instr.loadw rd m) := of_reg_mem _ rd m rfl rfl
theorem storew (rs2 : RegOp) (m : MemOp) : Statement (Instr.storew rs2 m) := of_reg_mem _ rs2 m rfl rfl
theorem nop : Statement Instr.nop := by unfold Statement; decide
theorem halt : Statement Instr.halt := by unfold Statement; decide
theorem syscall : Statement Instr.syscall := by unfold Statement; decide
theorem trap : Statement Instr.trap := by unfold Statement; decide

end Sys2Proof.Laws.EncodedLength
end

