-- ==== Sys2Proof/Laws/Pipeline.lean ====
section
/-! SUPPORT. What each stage of the tick leaves alone, and the cases of a tick: every claim about ticks starts here. -/

namespace Sys2Proof.Machine

/-! ## Frames -/

/-- What the MEM step, the drain and the cache never touch: everything but MW, the miss-wait state, cache, store buffer,
main memory and the metrics of stalls and cache. -/
def sameOutsideMemory (s t : State) : Prop :=
  t.cfg = s.cfg ∧ t.layout = s.layout ∧ t.loaded = s.loaded ∧ t.regs = s.regs ∧ t.flags = s.flags ∧ t.pc = s.pc
    ∧ t.status = s.status
    ∧ t.pcFetch = s.pcFetch ∧ t.fetchHalted = s.fetchHalted ∧ t.fb = s.fb ∧ t.de = s.de ∧ t.em = s.em
    ∧ t.btb = s.btb ∧ t.pht = s.pht ∧ t.ras = s.ras
    ∧ t.metrics.instructionsCommitted = s.metrics.instructionsCommitted ∧ t.metrics.cycles = s.metrics.cycles

theorem sameOutsideMemory.rfl {s : State} : sameOutsideMemory s s := by simp [sameOutsideMemory]

theorem sameOutsideMemory.trans {s t u : State} (h : sameOutsideMemory s t) (k : sameOutsideMemory t u) :
    sameOutsideMemory s u := by
  simp only [sameOutsideMemory] at *
  simp only [h, k, and_self]

theorem sameOutsideMemory_writeLine (s : State) (si w a : Nat) (bs : List Byte) :
    sameOutsideMemory s (writeLine s si w a bs) := by
  unfold writeLine; split <;> simp [sameOutsideMemory, setLine]

theorem sameOutsideMemory_markDirty (s : State) (si w : Nat) : sameOutsideMemory s (markDirty s si w) := by
  unfold markDirty; split <;> simp [sameOutsideMemory, setLine]

theorem sameOutsideMemory_writeBackVictim (s : State) (si w : Nat) : sameOutsideMemory s (writeBackVictim s si w) := by
  unfold writeBackVictim; split
  · split_ifs <;> simp [sameOutsideMemory]
  · exact .rfl

theorem sameOutsideMemory_install (s : State) (a : Nat) : sameOutsideMemory s (install s a).1 :=
  (sameOutsideMemory_writeBackVictim s (setIndex s.cfg a) (victimWay (s.l1.getD (setIndex s.cfg a) []))).trans
    (by simp [sameOutsideMemory, install, touch, setLine])

theorem sameOutsideMemory_bringLine (c : Bool) (s : State) (a : Nat) : sameOutsideMemory s (bringLine c s a).1 := by
  have hc : ∀ hit, sameOutsideMemory s { s with metrics := countDrain c hit s.metrics } := by
    intro hit; cases c <;> cases hit <;> simp [sameOutsideMemory, countDrain]
  unfold bringLine
  split
  · exact (hc false).trans (sameOutsideMemory_install _ a)
  · exact (hc true).trans (by simp [sameOutsideMemory, touch])

theorem sameOutsideMemory_storeInLine (s : State) (si w a : Nat) (bs : List Byte) :
    sameOutsideMemory s (storeInLine s si w a bs) := by
  unfold storeInLine
  split_ifs
  · exact (sameOutsideMemory_writeLine s si w a bs).trans (sameOutsideMemory_markDirty _ si w)
  · exact (sameOutsideMemory_writeLine s si w a bs).trans (by simp [sameOutsideMemory])

theorem sameOutsideMemory_drainEntry (c : Bool) (s : State) (e : SbEntry) : sameOutsideMemory s (drainEntry c s e) :=
  (sameOutsideMemory_bringLine c s _).trans (sameOutsideMemory_storeInLine _ _ _ _ _)

theorem sameOutsideMemory_drainHead (c : Bool) (s : State) : sameOutsideMemory s (drainHead c s) := by
  unfold drainHead
  split
  · exact .rfl
  · split_ifs
    · exact sameOutsideMemory.trans (by simp [sameOutsideMemory]) (sameOutsideMemory_drainEntry c _ _)
    · exact .rfl

theorem sameOutsideMemory_memOut (emo : Option ExLatch) (s : State) : sameOutsideMemory s (memOut emo s).state := by
  have hi : ∀ (t : State) (m : ExLatch) (ea : Word) (n : Nat), sameOutsideMemory s t →
      sameOutsideMemory s (memInstall t m ea n).state :=
    fun t m ea n h => h.trans (sameOutsideMemory_install t ea.toNat)
  have hw : ∀ m ea n, sameOutsideMemory s (memWaitTick s m ea n).state := by
    intro m ea n
    unfold memWaitTick
    simp only
    split_ifs
    · exact hi _ _ _ _ (by simp [sameOutsideMemory])
    · simp [sameOutsideMemory, memStallOut, countStallData]
  unfold memOut
  split
  · exact .rfl
  · split
    · unfold memAccess
      split
      · split_ifs
        · exact hw _ _ _
        · split
          · exact .rfl
          · unfold memLoad
            split
            · simp only; split_ifs <;>
                simp [sameOutsideMemory, memStallOut, memLoadOut, countStallData, countSbForward, countOverlap]
            · simp only; split
              · simp [sameOutsideMemory, memLoadOut, touch, countLoadHit]
              · split_ifs
                · exact hi _ _ _ _ (by simp [sameOutsideMemory, countLoadMiss])
                · simp [sameOutsideMemory, memStallOut, countStallData, countLoadMiss]
      · split_ifs
        · exact hw _ _ _
        · split
          · exact .rfl
          · unfold memStore
            split_ifs <;> simp [sameOutsideMemory, memStallOut, countStallStructural]
    · exact .rfl

/-- The MEM step leaves everything outside the memory system alone. -/
theorem sameOutsideMemory_memStep (emo : Option ExLatch) (s : State) : sameOutsideMemory s (memStep emo s).1 := by
  unfold memStep
  have h : sameOutsideMemory s { (memOut emo s).state with
      mw := (memOut emo s).out.map fun l => { toExLatch := l, sbAge := (memOut emo s).sbAge } } :=
    (sameOutsideMemory_memOut emo s).trans (by simp [sameOutsideMemory])
  simp only
  split_ifs
  · exact h
  · exact h.trans (sameOutsideMemory_drainHead true _)

/-- What the EX step never touches: everything but EM, BTB, PHT and metrics. -/
def sameOutsideEx (s t : State) : Prop :=
  t.cfg = s.cfg ∧ t.layout = s.layout ∧ t.loaded = s.loaded ∧ t.regs = s.regs ∧ t.flags = s.flags ∧ t.pc = s.pc
    ∧ t.status = s.status
    ∧ t.mem = s.mem ∧ t.pcFetch = s.pcFetch ∧ t.fetchHalted = s.fetchHalted ∧ t.fb = s.fb ∧ t.de = s.de ∧ t.mw = s.mw
    ∧ t.memWaiting = s.memWaiting ∧ t.memWait = s.memWait ∧ t.ras = s.ras ∧ t.l1 = s.l1 ∧ t.sb = s.sb
    ∧ t.sbSeq = s.sbSeq ∧ t.metrics.instructionsCommitted = s.metrics.instructionsCommitted
    ∧ t.metrics.cycles = s.metrics.cycles

theorem sameOutsideEx.rfl {s : State} : sameOutsideEx s s := by simp [sameOutsideEx]

theorem sameOutsideEx.trans {s t u : State} (h : sameOutsideEx s t) (k : sameOutsideEx t u) : sameOutsideEx s u := by
  simp only [sameOutsideEx] at *
  simp only [h, k, and_self]

/-- A resolved operand changes counters only. -/
theorem resolve_ok_cases {emo : Option ExLatch} {mwo : Option MemLatch} {r : Reg} {s t : State} {v : Word}
    (h : resolve emo mwo r s = .ok (v, t)) : t = s ∨ t = countForward s := by
  simp only [resolve, resolveFromMw, forwardedReg] at h
  repeat' split at h
  all_goals first | (cases h; done) | (cases h; simp)

theorem resolveOpt_ok_cases {emo : Option ExLatch} {mwo : Option MemLatch} {r : Option Reg} {s t : State}
    {v : Option Word} (h : resolveOpt emo mwo r s = .ok (v, t)) : t = s ∨ t = countForward s := by
  unfold resolveOpt at h
  split at h
  · cases h; exact .inl (Eq.refl _)
  · split at h
    · rename_i e; cases h; exact resolve_ok_cases e
    · cases h

theorem resolveFlags_cases (emo : Option ExLatch) (mwo : Option MemLatch) (s : State) :
    (resolveFlags emo mwo s).2 = s ∨ (resolveFlags emo mwo s).2 = countForward s := by
  unfold resolveFlags; split <;> simp

theorem sameOutsideEx_countForward {s t : State} (h : t = s ∨ t = countForward s) : sameOutsideEx s t := by
  rcases h with rfl | rfl
  · exact .rfl
  · simp [sameOutsideEx, countForward]

theorem sameOutsideEx_train (c : Bool) (pc : Word) (taken : Bool) (tgt : Word) (s : State) :
    sameOutsideEx s (trainPredictor c pc taken tgt s) := by
  unfold trainPredictor updateBtb
  split_ifs
  · simp [sameOutsideEx, updatePht]
  · split <;> simp [sameOutsideEx, updatePht]
  · exact .rfl

theorem sameOutsideEx_resolveTransfer (e : FetchEntry) (u : Uop) (taken : Bool) (tgt : Word) (link : Option Word)
    (s : State) : sameOutsideEx s (resolveTransfer e u taken tgt link s).state := by
  unfold resolveTransfer
  have h := sameOutsideEx_train (isConditional (workOf u.instr)) e.pc taken tgt s
  simp only
  split_ifs <;> exact h

theorem sameOutsideEx_executeWork {emo : Option ExLatch} {mwo : Option MemLatch} {e : FetchEntry} {u : Uop}
    {a b : Option Word} {s : State} {o : ExecOut} (h : executeWork emo mwo e u a b s = .ok o) :
    sameOutsideEx s o.state := by
  unfold executeWork at h
  repeat' split at h
  all_goals first
    | (cases h; done)
    | (cases h; with_reducible exact sameOutsideEx_resolveTransfer ..)
    | (cases h
       with_reducible exact (sameOutsideEx_countForward (resolveFlags_cases _ _ _)).trans (sameOutsideEx_resolveTransfer ..))
    | (cases h; exact .rfl)

theorem sameOutsideEx_execute {emo : Option ExLatch} {mwo : Option MemLatch} {e : FetchEntry} {s : State} {o : ExecOut}
    (h : execute emo mwo e s = .ok o) : sameOutsideEx s o.state := by
  unfold execute at h
  split at h
  · cases h
  · split at h
    · cases h
    · rename_i h1
      split at h
      · cases h
      · rename_i h2
        exact ((sameOutsideEx_countForward (resolveOpt_ok_cases h1)).trans
          (sameOutsideEx_countForward (resolveOpt_ok_cases h2))).trans (sameOutsideEx_executeWork h)

/-- The EX step leaves everything but EM, the predictor's tables and the metrics alone. -/
theorem sameOutsideEx_exStep {st : Bool} {emo : Option ExLatch} {mwo : Option MemLatch} {deo : Option FetchEntry}
    {s t : State} {sig : ExSignals} (h : exStep st emo mwo deo s = .ok (t, sig)) : sameOutsideEx s t := by
  unfold exStep at h
  repeat' split at h
  all_goals first | (cases h; done) | skip
  · cases h; exact .rfl
  · cases h; simp [sameOutsideEx]
  · cases h; simp [sameOutsideEx]
  · cases h; simp [sameOutsideEx, countLoadUse]
  · rename_i h1; cases h; exact (sameOutsideEx_execute h1).trans (by simp [sameOutsideEx])

/-- What the ID and IF steps never touch: everything but FB, DE, pc_fetch, fetch_halted and the RAS. -/
def sameOutsideFetch (s t : State) : Prop :=
  t.cfg = s.cfg ∧ t.layout = s.layout ∧ t.loaded = s.loaded ∧ t.regs = s.regs ∧ t.flags = s.flags ∧ t.pc = s.pc
    ∧ t.status = s.status
    ∧ t.mem = s.mem ∧ t.em = s.em ∧ t.mw = s.mw ∧ t.memWaiting = s.memWaiting ∧ t.memWait = s.memWait ∧ t.btb = s.btb
    ∧ t.pht = s.pht ∧ t.l1 = s.l1 ∧ t.sb = s.sb ∧ t.sbSeq = s.sbSeq ∧ t.metrics = s.metrics

theorem sameOutsideFetch_idStep (sig : ExSignals) (s : State) : sameOutsideFetch s (idStep sig s) := by
  unfold idStep; split_ifs <;> simp [sameOutsideFetch]

/-- Prediction touches the RAS only. -/
theorem predict_state (u : Uop) (s : State) :
    (predict u s).2 = s ∨ (∃ v, (predict u s).2 = rasPush s v) ∨ (predict u s).2 = (rasPop s).2 := by
  unfold predict; simp only; split <;> simp

theorem sameOutsideFetch_predict (u : Uop) (s : State) : sameOutsideFetch s (predict u s).2
    ∧ (predict u s).2.fb = s.fb ∧ (predict u s).2.de = s.de ∧ (predict u s).2.fetchHalted = s.fetchHalted := by
  rcases predict_state u s with h | ⟨v, h⟩ | h <;> rw [h] <;> simp [sameOutsideFetch, rasPush, rasPop]

theorem sameOutsideFetch_ifStep (sig : ExSignals) (s : State) : sameOutsideFetch s (ifStep sig s) := by
  unfold ifStep fetchOne
  split_ifs
  · simp [sameOutsideFetch]
  · simp [sameOutsideFetch]
  · simp [sameOutsideFetch]
  · split
    · simp [sameOutsideFetch]
    · exact (sameOutsideFetch_predict _ s).1

/-! ## The WB step -/

/-- What the WB step leaves, when it neither stops the engine with an error nor meets an illegal latch. -/
theorem wbStep_retire {w : MemLatch} {s t : State} {stop : Bool} (hf : w.fault = none)
    (h : wbStep (some w) s = .ok (t, stop)) :
    ∃ u, w.uop = some u ∧ stop = (stopReasonOf u.instr).isSome ∧
      (w.rd.isSome → w.result.isSome) ∧
      t = { s with
        regs := match w.rd, w.result with
          | some r, some v => s.regs.set r v
          | _, _ => s.regs
        flags := w.flags.getD s.flags
        pc := nextUnretired s
        metrics := s.metrics.commit
        sb := match w.sbAge with
          | some age => markRetired s.sb age
          | none => s.sb
        status := match stopReasonOf u.instr with
          | some r => .halted r (t.reg exitReg) w.pc
          | none => s.status } := by
  simp only [wbStep, hf] at h
  cases hu : w.uop with
  | none => simp [hu] at h
  | some u =>
    simp only [hu] at h
    refine ⟨u, (Eq.refl _), ?_⟩
    cases hrd : w.rd <;> cases hres : w.result <;> cases hfl : w.flags <;> cases hsb : w.sbAge <;>
      cases hst : stopReasonOf u.instr <;>
      simp [writeBack, writeFlags, retireStore, stopAt, retire, hrd, hres, hfl, hsb, hst, State.setReg, State.setFlags] at h <;>
      obtain ⟨rfl, rfl⟩ := h <;> simp [State.reg]

/-! ## The cases of a tick -/

/-- A tick of a running engine that answers a next state: the engine stops at WB with an error; or the WB step stops it
with a retirement; or all five steps are made. -/
theorem tick_cases {s t : State} (hr : s.status = .running) (h : tick s = .next t) :
    (∃ w f, s.mw = some w ∧ w.fault = some f
        ∧ t = { s with status := .error f.kind w.pc f.message
                       metrics := { s.metrics with cycles := s.metrics.cycles + 1 } })
      ∨ (∃ w, s.mw = some w ∧ w.fault = none ∧ wbStep s.mw (countCycle s) = .ok (t, true))
      ∨ (∃ s1 s2 sig, wbStep s.mw (countCycle s) = .ok (s1, false) ∧ (∀ w, s.mw = some w → w.fault = none)
        ∧ exStep (memStep s.em s1).2 s.em s.mw s.de (memStep s.em s1).1 = .ok (s2, sig)
        ∧ t = ifStep sig (idStep sig s2)) := by
  simp only [tick, hr, runningTick] at h
  have fault_of : ∀ w f, s.mw = some w → w.fault = some f →
      wbStep s.mw (countCycle s) = .ok ({ countCycle s with status := .error f.kind w.pc f.message }, true) := by
    intro w f hw hf; simp [wbStep, hw, hf]
  have nofault : ∀ s1, wbStep s.mw (countCycle s) = .ok (s1, false) → ∀ w, s.mw = some w → w.fault = none := by
    intro s1 h1 w hw
    cases hf : w.fault with
    | none => rfl
    | some f => rw [fault_of w f hw hf] at h1; simp at h1
  split at h
  · cases h
  · rename_i s1 h1
    cases h
    rcases Option.eq_none_or_eq_some s.mw with hw | ⟨w, hw⟩
    · rw [hw] at h1; simp [wbStep] at h1
    · rcases Option.eq_none_or_eq_some w.fault with hf | ⟨f, hf⟩
      · exact .inr (.inl ⟨w, hw, hf, h1⟩)
      · rw [fault_of w f hw hf] at h1
        cases h1
        exact .inl ⟨w, f, hw, hf, (Eq.refl _)⟩
  · rename_i s1 h1
    simp only [tickRest] at h
    split at h
    · cases h
    · rename_i s2 sig h2
      cases h
      exact .inr (.inr ⟨s1, s2, sig, h1, nofault s1 h1, h2, (Eq.refl _)⟩)

end Sys2Proof.Machine
end

