-- ==== Sys2Proof/Tests/Slice0.lean ====
section
/-! SUPPORT. Tests on fixed values, each with its source in spec/, and a witness for the hypotheses of every statement of
Obligations.lean. Expected values are copied from the spec, or worked out from its rules by hand. -/

namespace Sys2Proof.Tests

open Sys2Proof Sys2Proof.Machine

/-! ## WellFormed refuses ill-formed terms -/

theorem test_wf_reg8_16_refused : (RegOp.reg8 16).wf = false := by decide
theorem test_wf_reg8_15_allowed : (RegOp.reg8 15).wf = true := by decide
theorem test_wf_src2_reg8_255_refused : (Src2.reg8 255).wf = false := by decide
theorem test_wf_second_source_refused :
    [Instr.add 1 2 (.reg8 16), Instr.sub 1 2 (.reg8 16), Instr.mul 1 2 (.reg8 16), Instr.div 1 2 (.reg8 16), Instr.mod 1 2 (.reg8 16), Instr.and 1 2 (.reg8 16), Instr.or 1 2 (.reg8 16), Instr.xor 1 2 (.reg8 16), Instr.shl 1 2 (.reg8 16), Instr.shr 1 2 (.reg8 16), Instr.sar 1 2 (.reg8 16)].all (fun i => !i.wf) = true := by
  decide
theorem test_wf_two_operand_refused :
    [Instr.neg (.reg8 16) (.imm8 0), .neg (.reg4 0) (.reg8 200), Instr.mov (.reg8 16) (.imm8 0), .mov (.reg4 0) (.reg8 200), Instr.not (.reg8 16) (.imm8 0), .not (.reg4 0) (.reg8 200), Instr.cmp (.reg8 16) (.imm8 0), .cmp (.reg4 0) (.reg8 200), Instr.test (.reg8 16) (.imm8 0), .test (.reg4 0) (.reg8 200)].all (fun i => !i.wf) = true := by
  decide
theorem test_wf_register_jump_refused :
    [Instr.jmpIfZero (.reg8 16) (.abs 0), .jmpIfNotZero (.reg8 16) (.abs 0)].all (fun i => !i.wf) = true := by
  decide
theorem test_wf_load_store_refused :
    [Instr.load (.reg8 16) (.abs 0), Instr.store (.reg8 16) (.abs 0), Instr.loadb (.reg8 16) (.abs 0), Instr.storeb (.reg8 16) (.abs 0), Instr.loadh (.reg8 16) (.abs 0), Instr.storeh (.reg8 16) (.abs 0), Instr.loadw (.reg8 16) (.abs 0), Instr.storew (.reg8 16) (.abs 0)].all (fun i => !i.wf) = true := by
  decide
theorem test_config_memory_too_small_refused : Config.wf { memSize := 0xFFFFF } = false := by decide
theorem test_config_memory_too_large_refused : Config.wf { memSize := 0x100000001 } = false := by decide
theorem test_config_no_fetch_buffer_refused : Config.wf { fetchBufCap := 0 } = false := by decide
theorem test_config_no_btb_refused : Config.wf { btbSize := 0 } = false := by decide
theorem test_config_no_pht_refused : Config.wf { phtSize := 0 } = false := by decide
theorem test_config_no_ras_refused : Config.wf { rasDepth := 0 } = false := by decide
theorem test_config_line_size_48_refused : Config.wf { lineSize := 48 } = false := by decide
theorem test_config_sets_not_a_power_refused : Config.wf { numSets := 3 } = false := by decide
theorem test_config_no_ways_refused : Config.wf { ways := 0 } = false := by decide
theorem test_config_no_store_buffer_refused : Config.wf { sbCap := 0 } = false := by decide
theorem test_config_default_allowed : Config.wf {} = true := by decide
theorem test_layout_overlap_refused :
    Layout.wf {} { codeBase := 0x100, codeLen := 0x100, dataBase := 0x1FF, dataLen := 0x10, entry := 0x100 } = false := by
  decide
theorem test_layout_code_past_memory_refused :
    Layout.wf {} { codeBase := 0xFFFFF, codeLen := 2, dataBase := 0, dataLen := 0x10, entry := 0xFFFFF } = false := by
  decide
theorem test_layout_data_past_memory_refused :
    Layout.wf {} { codeBase := 0, codeLen := 2, dataBase := 0xFFFFF, dataLen := 2, entry := 0 } = false := by decide
theorem test_layout_adjacent_allowed : Layout.wf {} Layout.standard = true := by decide

/-! ## Decoding: one word of every opcode, from 95_test_vectors.md "One encoding per opcode" -/

theorem test_decode_add : decode [0x00, 0x11, 0x05, 0x31, 0x20] = .ok (.add 3 1 (.reg4 2)) := by decide
theorem test_decode_sub : decode [0x01, 0x14, 0x06, 0x44, 0x34, 0x12] = .ok (.sub 4 4 (.imm16 0x1234)) := by decide
theorem test_decode_mul : decode [0x02, 0x15, 0x08, 0x56, 0x78, 0x56, 0x34, 0x12] = .ok (.mul 5 6 (.imm32 0x12345678)) := by decide
theorem test_decode_div : decode [0x03, 0x16, 0x0C, 0x78, 0x9A, 0x78, 0x56, 0x34, 0x12, 0x00, 0x00, 0x00] = .ok (.div 7 8 (.imm64 0x123456789A)) := by decide
theorem test_decode_mod : decode [0x04, 0x11, 0x05, 0x9A, 0xB0] = .ok (.mod 9 10 (.reg4 11)) := by decide
theorem test_decode_neg : decode [0x05, 0x11, 0x05, 0x10, 0x20] = .ok (.neg (.reg4 1) (.reg4 2)) := by decide
theorem test_decode_mov : decode [0x06, 0x16, 0x0C, 0xC0, 0xFF, 0xFF, 0xFF, 0xFF, 0xFF, 0xFF, 0xFF, 0xFF] = .ok (.mov (.reg4 12) (.imm64 0xFFFFFFFFFFFFFFFF)) := by decide
theorem test_decode_cmp : decode [0x07, 0x13, 0x05, 0x10, 0x00] = .ok (.cmp (.reg4 1) (.imm8 0)) := by decide
theorem test_decode_and : decode [0x20, 0x11, 0x05, 0x12, 0x30] = .ok (.and 1 2 (.reg4 3)) := by decide
theorem test_decode_or : decode [0x21, 0x13, 0x05, 0x12, 0x80] = .ok (.or 1 2 (.imm8 0x80)) := by decide
theorem test_decode_xor : decode [0x22, 0x11, 0x05, 0xFF, 0xF0] = .ok (.xor 15 15 (.reg4 15)) := by decide
theorem test_decode_not : decode [0x23, 0x11, 0x05, 0x30, 0x40] = .ok (.not (.reg4 3) (.reg4 4)) := by decide
theorem test_decode_shl : decode [0x24, 0x13, 0x05, 0x11, 0x04] = .ok (.shl 1 1 (.imm8 4)) := by decide
theorem test_decode_shr : decode [0x25, 0x11, 0x05, 0x23, 0x40] = .ok (.shr 2 3 (.reg4 4)) := by decide
theorem test_decode_sar : decode [0x26, 0x13, 0x05, 0x55, 0x3F] = .ok (.sar 5 5 (.imm8 0x3F)) := by decide
theorem test_decode_test : decode [0x27, 0x11, 0x05, 0x60, 0x70] = .ok (.test (.reg4 6) (.reg4 7)) := by decide
theorem test_decode_jmp : decode [0x40, 0x80, 0x07, 0x00, 0x00, 0x01, 0x00] = .ok (.jmp (.abs 0x10000)) := by decide
theorem test_decode_jmpIfZero : decode [0x41, 0x17, 0x08, 0x30, 0xEA, 0xFF, 0xFF, 0xFF] = .ok (.jmpIfZero (.reg4 3) (.pcRel (-22))) := by decide
theorem test_decode_jmpIfNotZero : decode [0x42, 0x18, 0x08, 0x40, 0x10, 0x00, 0x01, 0x00] = .ok (.jmpIfNotZero (.reg4 4) (.abs 0x10010)) := by decide
theorem test_decode_jmpIfEqual : decode [0x43, 0x70, 0x07, 0x3F, 0x00, 0x00, 0x00] = .ok (.jmpIfEqual (.pcRel 0x3F)) := by decide
theorem test_decode_jmpIfNotEqual : decode [0x44, 0x70, 0x07, 0x38, 0x00, 0x00, 0x00] = .ok (.jmpIfNotEqual (.pcRel 0x38)) := by decide
theorem test_decode_jmpIfLess : decode [0x45, 0x70, 0x07, 0x31, 0x00, 0x00, 0x00] = .ok (.jmpIfLess (.pcRel 0x31)) := by decide
theorem test_decode_jmpIfGreaterEqual : decode [0x46, 0x70, 0x07, 0x2A, 0x00, 0x00, 0x00] = .ok (.jmpIfGreaterEqual (.pcRel 0x2A)) := by decide
theorem test_decode_jmpIfGreater : decode [0x47, 0x70, 0x07, 0x23, 0x00, 0x00, 0x00] = .ok (.jmpIfGreater (.pcRel 0x23)) := by decide
theorem test_decode_jmpIfLessEqual : decode [0x48, 0x70, 0x07, 0x1C, 0x00, 0x00, 0x00] = .ok (.jmpIfLessEqual (.pcRel 0x1C)) := by decide
theorem test_decode_jmpIfBelow : decode [0x49, 0x70, 0x07, 0x15, 0x00, 0x00, 0x00] = .ok (.jmpIfBelow (.pcRel 0x15)) := by decide
theorem test_decode_jmpIfAboveEqual : decode [0x4A, 0x70, 0x07, 0x0E, 0x00, 0x00, 0x00] = .ok (.jmpIfAboveEqual (.pcRel 0x0E)) := by decide
theorem test_decode_jmpIfAbove : decode [0x4B, 0x70, 0x07, 0x07, 0x00, 0x00, 0x00] = .ok (.jmpIfAbove (.pcRel 0x07)) := by decide
theorem test_decode_jmpIfBelowEqual : decode [0x4C, 0x80, 0x07, 0x00, 0x00, 0x01, 0x00] = .ok (.jmpIfBelowEqual (.abs 0x10000)) := by decide
theorem test_decode_call : decode [0x50, 0x70, 0x07, 0x95, 0xFF, 0xFF, 0xFF] = .ok (.call (.pcRel (-0x6B))) := by decide
theorem test_decode_ret : decode [0x51, 0x00, 0x03] = .ok (.ret) := by decide
theorem test_decode_load : decode [0x60, 0x19, 0x09, 0x10, 0x20, 0xF8, 0xFF, 0xFF, 0xFF] = .ok (.load (.reg4 1) (.regOff 2 (-8))) := by decide
theorem test_decode_store : decode [0x61, 0x19, 0x09, 0x10, 0x20, 0xF8, 0xFF, 0xFF, 0x7F] = .ok (.store (.reg4 1) (.regOff 2 0x7FFFFFF8)) := by decide
theorem test_decode_loadb : decode [0x62, 0x18, 0x08, 0x30, 0xFF, 0xFF, 0x00, 0x00] = .ok (.loadb (.reg4 3) (.abs 0xFFFF)) := by decide
theorem test_decode_storeb : decode [0x63, 0x19, 0x09, 0x30, 0x40, 0x01, 0x00, 0x00, 0x00] = .ok (.storeb (.reg4 3) (.regOff 4 1)) := by decide
theorem test_decode_loadh : decode [0x64, 0x18, 0x08, 0x50, 0xFE, 0x01, 0x00, 0x00] = .ok (.loadh (.reg4 5) (.abs 0x1FE)) := by decide
theorem test_decode_storeh : decode [0x65, 0x19, 0x09, 0x50, 0x60, 0xFE, 0xFF, 0xFF, 0xFF] = .ok (.storeh (.reg4 5) (.regOff 6 (-2))) := by decide
theorem test_decode_loadw : decode [0x66, 0x19, 0x09, 0x70, 0x00, 0x04, 0x00, 0x00, 0x00] = .ok (.loadw (.reg4 7) (.regOff 0 4)) := by decide
theorem test_decode_storew : decode [0x67, 0x18, 0x08, 0x70, 0x00, 0x10, 0x00, 0x00] = .ok (.storew (.reg4 7) (.abs 0x1000)) := by decide
theorem test_decode_nop : decode [0x80, 0x00, 0x03] = .ok (.nop) := by decide
theorem test_decode_halt : decode [0x81, 0x00, 0x03] = .ok (.halt) := by decide
theorem test_decode_syscall : decode [0x82, 0x00, 0x03] = .ok (.syscall) := by decide
theorem test_decode_trap : decode [0x83, 0x00, 0x03] = .ok (.trap) := by decide
theorem test_decode_reg8_source : decode [0x00, 0x12, 0x05, 0x31, 0x02] = .ok (.add 3 1 (.reg8 2)) := by decide
theorem test_decode_reg8_both : decode [0x06, 0x22, 0x05, 0x03, 0x04] = .ok (.mov (.reg8 3) (.reg8 4)) := by decide
theorem test_decode_reg8_jump : decode [0x41, 0x27, 0x08, 0x0F, 0x00, 0x00, 0x00, 0x00] = .ok (.jmpIfZero (.reg8 15) (.pcRel 0)) := by decide

/-! The illegal encodings of 95_test_vectors.md, by the check that fails (R106) -/

theorem test_illegal_unknown_opcode :
    [([0x84, 0x00, 0x03] : List Byte), [0xF0, 0x00, 0x03], [0xA0, 0x00, 0x03], [0x08, 0x11, 0x05, 0x31, 0x20]].all (fun bs => decode bs == .error .unknownOpcode) = true := by
  decide
theorem test_illegal_kinds_not_valid :
    [([0x00, 0x00, 0x03] : List Byte), [0x00, 0x21, 0x05, 0x03, 0x20], [0x81, 0x10, 0x04, 0x00], [0x40, 0x90, 0x08, 0x00, 0x00, 0x00, 0x00, 0x00]].all (fun bs => decode bs == .error .operandKindNotValid) = true := by
  decide
theorem test_illegal_reserved_kind :
    [([0x60, 0x1A, 0x09, 0x20, 0x00, 0x00, 0x00, 0x00, 0x00] : List Byte)].all (fun bs => decode bs == .error .reservedOperandKind) = true := by
  decide
theorem test_illegal_size_mismatch :
    [([0x06, 0x13, 0x06, 0x10, 0x05] : List Byte)].all (fun bs => decode bs == .error .sizeMismatch) = true := by
  decide
theorem test_illegal_extended_size :
    [([0x06, 0x13, 0x85, 0x10, 0x05] : List Byte)].all (fun bs => decode bs == .error .extendedSize) = true := by
  decide
theorem test_illegal_register_field :
    [([0x00, 0x11, 0x05, 0x31, 0x21] : List Byte), [0x06, 0x13, 0x05, 0x15, 0x05], [0x60, 0x19, 0x09, 0x20, 0x01, 0x00, 0x00, 0x00, 0x00], [0x00, 0x12, 0x05, 0x31, 0x10], [0x41, 0x27, 0x08, 0x10, 0x00, 0x00, 0x00, 0x00]].all (fun bs => decode bs == .error .invalidRegisterField) = true := by
  decide
theorem test_illegal_truncated :
    [([0x06, 0x13] : List Byte), [0x06, 0x13, 0x05, 0x10]].all (fun bs => decode bs == .error .truncated) = true := by
  decide

/-! ## One step of each instruction, from the examples of the rules -/

/-- A configuration with one cache line and one entry in each predictor table, so that states stay small. -/
def tiny : Config := { btbSize := 1, phtSize := 1, lineSize := 16, numSets := 1, ways := 1, sbCap := 2 }

/-- An engine with the given registers, flags and data bytes, about to run the instruction of the given bytes at `pc`. -/
def engine (bytes : List Byte) (regs : List (Reg × Word)) (f : Flags) (pc : Word) (data : Image) : State :=
  loadInstrBytes bytes
    { regs.foldl (fun s p => s.setReg p.1 p.2) (State.initial tiny Layout.standard true) with
      flags := f, pc := pc, mem := placeImage [] data }

/-- The flags with the given Z, N, C, V. -/
def zncv (z n c v : Bool) : Flags := { z := z, n := n, c := c, v := v }

/-- What a step leaves, seen through `f`. -/
def stepped {α : Type} (f : State → α) (s : State) : Option α :=
  match step s with
  | .next t => some (f t)
  | _ => none

/-- Registers `r`, flags and pc after one step. -/
def seen (r : Reg) (t : State) : Word × Flags × Word := (t.reg r, t.flags, t.pc)

/-- The flags before the tests of instructions that leave them alone. -/
def odd : Flags := zncv true false true true

theorem test_add_signed_overflow :
    stepped (seen 3) (engine [0x00, 0x11, 0x05, 0x31, 0x20] [(1, 0x7FFFFFFFFFFFFFFF), (2, 0x1)] odd 0x10000 []) =
      some (0x8000000000000000, zncv false true false true, 0x10005) := by
  decide
theorem test_add_carry_into_its_source :
    stepped (seen 1) (engine [0x00, 0x13, 0x05, 0x11, 0x01] [(1, 0xFFFFFFFFFFFFFFFF)] odd 0x10000 []) =
      some (0x0, zncv true false true false, 0x10005) := by
  decide
theorem test_sub_borrow :
    stepped (seen 3) (engine [0x01, 0x13, 0x05, 0x31, 0x01] [] odd 0x10000 []) =
      some (0xFFFFFFFFFFFFFFFF, zncv false true true false, 0x10005) := by
  decide
theorem test_sub_of_itself :
    stepped (seen 3) (engine [0x01, 0x11, 0x05, 0x33, 0x30] [(3, 0x7)] odd 0x10000 []) =
      some (0x0, zncv true false false false, 0x10005) := by
  decide
theorem test_mul_low_half :
    stepped (seen 3) (engine [0x02, 0x11, 0x05, 0x31, 0x20] [(1, 0x100000000), (2, 0x100000000)] odd 0x10000 []) =
      some (0x0, zncv true false true true, 0x10005) := by
  decide
theorem test_mul_minus_one_twice :
    stepped (seen 3) (engine [0x02, 0x11, 0x05, 0x31, 0x20] [(1, 0xFFFFFFFFFFFFFFFF), (2, 0xFFFFFFFFFFFFFFFF)] odd 0x10000 []) =
      some (0x1, zncv false false true false, 0x10005) := by
  decide
theorem test_div :
    stepped (seen 3) (engine [0x03, 0x13, 0x05, 0x31, 0x05] [(1, 0x11)] odd 0x10000 []) =
      some (0x3, zncv false false false false, 0x10005) := by
  decide
theorem test_div_by_zero :
    stepped (seen 3) (engine [0x03, 0x11, 0x05, 0x31, 0x20] [(1, 0xA)] odd 0x10000 []) =
      some (0x0, zncv true false false false, 0x10005) := by
  decide
theorem test_mod :
    stepped (seen 3) (engine [0x04, 0x13, 0x05, 0x31, 0x05] [(1, 0x11)] odd 0x10000 []) =
      some (0x2, zncv false false false false, 0x10005) := by
  decide
theorem test_mod_by_zero :
    stepped (seen 3) (engine [0x04, 0x11, 0x05, 0x31, 0x20] [(1, 0xA)] odd 0x10000 []) =
      some (0x0, zncv true false false false, 0x10005) := by
  decide
theorem test_neg_one :
    stepped (seen 3) (engine [0x05, 0x11, 0x05, 0x30, 0x20] [(2, 0x1)] odd 0x10000 []) =
      some (0xFFFFFFFFFFFFFFFF, zncv false true true false, 0x10005) := by
  decide
theorem test_neg_most_negative :
    stepped (seen 3) (engine [0x05, 0x11, 0x05, 0x30, 0x20] [(2, 0x8000000000000000)] odd 0x10000 []) =
      some (0x8000000000000000, zncv false true true true, 0x10005) := by
  decide
theorem test_mov_imm16_keeps_flags :
    stepped (seen 3) (engine [0x06, 0x14, 0x06, 0x30, 0x00, 0x01] [] odd 0x10000 []) =
      some (0x100, odd, 0x10006) := by
  decide
theorem test_mov_imm8_zero_extends :
    stepped (seen 3) (engine [0x06, 0x13, 0x05, 0x30, 0xFF] [] odd 0x10000 []) =
      some (0xFF, odd, 0x10005) := by
  decide
theorem test_cmp_writes_no_register :
    stepped (seen 3) (engine [0x07, 0x11, 0x05, 0x10, 0x20] [(1, 0x3), (2, 0x5), (3, 0x9)] odd 0x10000 []) =
      some (0x9, zncv false true true false, 0x10005) := by
  decide
theorem test_and_imm8_clears_the_rest :
    stepped (seen 3) (engine [0x20, 0x13, 0x05, 0x31, 0xFF] [(1, 0xF0F0)] odd 0x10000 []) =
      some (0xF0, zncv false false false false, 0x10005) := by
  decide
theorem test_or :
    stepped (seen 3) (engine [0x21, 0x13, 0x05, 0x31, 0x0F] [(1, 0xF000)] odd 0x10000 []) =
      some (0xF00F, zncv false false false false, 0x10005) := by
  decide
theorem test_xor_of_equals :
    stepped (seen 3) (engine [0x22, 0x11, 0x05, 0x31, 0x20] [(1, 0xFF), (2, 0xFF)] odd 0x10000 []) =
      some (0x0, zncv true false false false, 0x10005) := by
  decide
theorem test_not_zero :
    stepped (seen 3) (engine [0x23, 0x11, 0x05, 0x30, 0x20] [] odd 0x10000 []) =
      some (0xFFFFFFFFFFFFFFFF, zncv false true false false, 0x10005) := by
  decide
theorem test_shl_by_one :
    stepped (seen 3) (engine [0x24, 0x13, 0x05, 0x31, 0x01] [(1, 0x8000000000000001)] odd 0x10000 []) =
      some (0x2, zncv false false true false, 0x10005) := by
  decide
theorem test_shl_by_64 :
    stepped (seen 3) (engine [0x24, 0x13, 0x05, 0x31, 0x40] [(1, 0x5)] odd 0x10000 []) =
      some (0x5, zncv false false false false, 0x10005) := by
  decide
theorem test_shr_by_one :
    stepped (seen 3) (engine [0x25, 0x13, 0x05, 0x31, 0x01] [(1, 0x8000000000000001)] odd 0x10000 []) =
      some (0x4000000000000000, zncv false false true false, 0x10005) := by
  decide
theorem test_sar_by_one :
    stepped (seen 3) (engine [0x26, 0x13, 0x05, 0x31, 0x01] [(1, 0x8000000000000001)] odd 0x10000 []) =
      some (0xC000000000000000, zncv false true true false, 0x10005) := by
  decide
theorem test_sar_by_63 :
    stepped (seen 3) (engine [0x26, 0x13, 0x05, 0x31, 0x3F] [(1, 0x8000000000000000)] odd 0x10000 []) =
      some (0xFFFFFFFFFFFFFFFF, zncv false true false false, 0x10005) := by
  decide
theorem test_test_writes_no_register :
    stepped (seen 3) (engine [0x27, 0x13, 0x05, 0x10, 0x08] [(1, 0xF7), (3, 0x4)] odd 0x10000 []) =
      some (0x4, zncv true false false false, 0x10005) := by
  decide
theorem test_jmp :
    stepped (seen 3) (engine [0x40, 0x70, 0x07, 0x20, 0x00, 0x00, 0x00] [] odd 0x10000 []) =
      some (0, odd, 0x10027) := by
  decide
theorem test_jmp_to_itself :
    stepped (seen 3) (engine [0x40, 0x70, 0x07, 0xF9, 0xFF, 0xFF, 0xFF] [] odd 0x10000 []) =
      some (0, odd, 0x10000) := by
  decide
theorem test_jmp_if_zero_taken :
    stepped (seen 3) (engine [0x41, 0x17, 0x08, 0x10, 0x10, 0x00, 0x00, 0x00] [] odd 0x10000 []) =
      some (0, odd, 0x10018) := by
  decide
theorem test_jmp_if_zero_not_taken :
    stepped (seen 3) (engine [0x41, 0x17, 0x08, 0x10, 0x10, 0x00, 0x00, 0x00] [(1, 0x5)] odd 0x10000 []) =
      some (0, odd, 0x10008) := by
  decide
theorem test_jmp_if_not_zero_taken :
    stepped (seen 3) (engine [0x42, 0x17, 0x08, 0x10, 0xF3, 0xFF, 0xFF, 0xFF] [(1, 0x2)] odd 0x1000A []) =
      some (0, odd, 0x10005) := by
  decide
theorem test_jmp_if_not_zero_not_taken :
    stepped (seen 3) (engine [0x42, 0x17, 0x08, 0x10, 0xF3, 0xFF, 0xFF, 0xFF] [] odd 0x1000A []) =
      some (0, odd, 0x10012) := by
  decide
theorem test_jmp_if_equal_not_taken :
    stepped (State.pc) (engine [0x43, 0x70, 0x07, 0x10, 0x00, 0x00, 0x00] [] (zncv false true true false) 0x10020 []) =
      some 0x10027 := by
  decide
theorem test_jmp_if_equal_taken :
    stepped (State.pc) (engine [0x43, 0x70, 0x07, 0x10, 0x00, 0x00, 0x00] [] (zncv true false false false) 0x10020 []) =
      some 0x10037 := by
  decide
theorem test_jmp_if_not_equal_taken :
    stepped (State.pc) (engine [0x44, 0x70, 0x07, 0x10, 0x00, 0x00, 0x00] [] (zncv false true true false) 0x10020 []) =
      some 0x10037 := by
  decide
theorem test_jmp_if_not_equal_not_taken :
    stepped (State.pc) (engine [0x44, 0x70, 0x07, 0x10, 0x00, 0x00, 0x00] [] (zncv true false false false) 0x10020 []) =
      some 0x10027 := by
  decide
theorem test_jmp_if_less_taken :
    stepped (State.pc) (engine [0x45, 0x70, 0x07, 0x10, 0x00, 0x00, 0x00] [] (zncv false true false false) 0x10020 []) =
      some 0x10037 := by
  decide
theorem test_jmp_if_less_not_taken :
    stepped (State.pc) (engine [0x45, 0x70, 0x07, 0x10, 0x00, 0x00, 0x00] [] (zncv true false false false) 0x10020 []) =
      some 0x10027 := by
  decide
theorem test_jmp_if_greater_equal_not_taken :
    stepped (State.pc) (engine [0x46, 0x70, 0x07, 0x10, 0x00, 0x00, 0x00] [] (zncv false true true false) 0x10020 []) =
      some 0x10027 := by
  decide
theorem test_jmp_if_greater_equal_taken :
    stepped (State.pc) (engine [0x46, 0x70, 0x07, 0x10, 0x00, 0x00, 0x00] [] (zncv true false false false) 0x10020 []) =
      some 0x10037 := by
  decide
theorem test_jmp_if_greater_not_taken :
    stepped (State.pc) (engine [0x47, 0x70, 0x07, 0x10, 0x00, 0x00, 0x00] [] (zncv false true true false) 0x10020 []) =
      some 0x10027 := by
  decide
theorem test_jmp_if_greater_taken :
    stepped (State.pc) (engine [0x47, 0x70, 0x07, 0x10, 0x00, 0x00, 0x00] [] (zncv false false false false) 0x10020 []) =
      some 0x10037 := by
  decide
theorem test_jmp_if_less_equal_taken :
    stepped (State.pc) (engine [0x48, 0x70, 0x07, 0x10, 0x00, 0x00, 0x00] [] (zncv false true false false) 0x10020 []) =
      some 0x10037 := by
  decide
theorem test_jmp_if_less_equal_not_taken :
    stepped (State.pc) (engine [0x48, 0x70, 0x07, 0x10, 0x00, 0x00, 0x00] [] (zncv false false false false) 0x10020 []) =
      some 0x10027 := by
  decide
theorem test_jmp_if_below_taken :
    stepped (State.pc) (engine [0x49, 0x70, 0x07, 0x10, 0x00, 0x00, 0x00] [] (zncv false true true false) 0x10020 []) =
      some 0x10037 := by
  decide
theorem test_jmp_if_below_not_taken :
    stepped (State.pc) (engine [0x49, 0x70, 0x07, 0x10, 0x00, 0x00, 0x00] [] (zncv false true false false) 0x10020 []) =
      some 0x10027 := by
  decide
theorem test_jmp_if_above_equal_not_taken :
    stepped (State.pc) (engine [0x4A, 0x70, 0x07, 0x10, 0x00, 0x00, 0x00] [] (zncv false true true false) 0x10020 []) =
      some 0x10027 := by
  decide
theorem test_jmp_if_above_equal_taken :
    stepped (State.pc) (engine [0x4A, 0x70, 0x07, 0x10, 0x00, 0x00, 0x00] [] (zncv false true false false) 0x10020 []) =
      some 0x10037 := by
  decide
theorem test_jmp_if_above_taken :
    stepped (State.pc) (engine [0x4B, 0x70, 0x07, 0x10, 0x00, 0x00, 0x00] [] (zncv false true false false) 0x10020 []) =
      some 0x10037 := by
  decide
theorem test_jmp_if_above_not_taken :
    stepped (State.pc) (engine [0x4B, 0x70, 0x07, 0x10, 0x00, 0x00, 0x00] [] (zncv true false false false) 0x10020 []) =
      some 0x10027 := by
  decide
theorem test_jmp_if_below_equal_taken :
    stepped (State.pc) (engine [0x4C, 0x70, 0x07, 0x10, 0x00, 0x00, 0x00] [] (zncv true false false false) 0x10020 []) =
      some 0x10037 := by
  decide
theorem test_jmp_if_below_equal_not_taken :
    stepped (State.pc) (engine [0x4C, 0x70, 0x07, 0x10, 0x00, 0x00, 0x00] [] (zncv false true false false) 0x10020 []) =
      some 0x10027 := by
  decide
theorem test_call_links :
    stepped (seen 15) (engine [0x50, 0x70, 0x07, 0x03, 0x00, 0x00, 0x00] [] odd 0x10000 []) =
      some (0x10007, odd, 0x1000A) := by
  decide
theorem test_call_bad_target_keeps_r15 :
    stepped (fun t => (t.reg 15, t.status)) (engine [0x50, 0x80, 0x07, 0x00, 0x00, 0x01, 0x80] [(15, 0x9)] odd 0x10000 []) =
      some (9, .error .controlFault 0x10000 .control) := by
  decide
theorem test_ret :
    stepped (seen 15) (engine [0x51, 0x00, 0x03] [(15, 0x10007)] odd 0x10012 []) =
      some (0x10007, odd, 0x10007) := by
  decide
theorem test_ret_outside_code_faults :
    stepped (fun t => (t.pc, t.status)) (engine [0x51, 0x00, 0x03] [] odd 0x10000 []) =
      some (0x10000, .error .controlFault 0x10000 .control) := by
  decide
theorem test_load :
    stepped (seen 2) (engine [0x60, 0x19, 0x09, 0x20, 0x10, 0x00, 0x00, 0x00, 0x00] [(1, 0x200)] odd 0x10000 [(0x200, [0x88, 0x77, 0x66, 0x55, 0x44, 0x33, 0x22, 0x11])]) =
      some (0x1122334455667788, odd, 0x10009) := by
  decide
theorem test_load_unaligned_faults :
    stepped (fun t => (t.reg 2, t.status)) (engine [0x60, 0x19, 0x09, 0x20, 0x10, 0x04, 0x00, 0x00, 0x00] [(1, 0x200), (2, 0x5)] odd 0x10000 [(0x200, [0x88, 0x77, 0x66, 0x55, 0x44, 0x33, 0x22, 0x11])]) =
      some (5, .error .memoryFault 0x10000 (.memory .alignment 0x204)) := by
  decide
theorem test_loadb :
    stepped (seen 2) (engine [0x62, 0x19, 0x09, 0x20, 0x10, 0x03, 0x00, 0x00, 0x00] [(1, 0x200)] odd 0x10000 [(0x200, [0x88, 0x77, 0x66, 0x55, 0x44, 0x33, 0x22, 0x11])]) =
      some (0x55, odd, 0x10009) := by
  decide
theorem test_loadb_wraps_out_of_range :
    stepped (State.status) (engine [0x62, 0x19, 0x09, 0x20, 0x10, 0xFF, 0xFD, 0xFF, 0xFF] [(1, 0x200)] odd 0x10000 [(0x200, [0x88, 0x77, 0x66, 0x55, 0x44, 0x33, 0x22, 0x11])]) =
      some (.error .memoryFault 0x10000 (.memory .range 0xFFFFFFFFFFFFFFFF)) := by
  decide
theorem test_loadh :
    stepped (seen 2) (engine [0x64, 0x19, 0x09, 0x20, 0x10, 0x02, 0x00, 0x00, 0x00] [(1, 0x200)] odd 0x10000 [(0x200, [0x88, 0x77, 0x66, 0x55, 0x44, 0x33, 0x22, 0x11])]) =
      some (0x5566, odd, 0x10009) := by
  decide
theorem test_loadh_unaligned_faults :
    stepped (State.status) (engine [0x64, 0x19, 0x09, 0x20, 0x10, 0x01, 0x00, 0x00, 0x00] [(1, 0x200)] odd 0x10000 [(0x200, [0x88, 0x77, 0x66, 0x55, 0x44, 0x33, 0x22, 0x11])]) =
      some (.error .memoryFault 0x10000 (.memory .alignment 0x201)) := by
  decide
theorem test_loadw :
    stepped (seen 2) (engine [0x66, 0x19, 0x09, 0x20, 0x10, 0x04, 0x00, 0x00, 0x00] [(1, 0x200)] odd 0x10000 [(0x200, [0x88, 0x77, 0x66, 0x55, 0x44, 0x33, 0x22, 0x11])]) =
      some (0x11223344, odd, 0x10009) := by
  decide
theorem test_loadw_unaligned_faults :
    stepped (State.status) (engine [0x66, 0x19, 0x09, 0x20, 0x10, 0x02, 0x00, 0x00, 0x00] [(1, 0x200)] odd 0x10000 [(0x200, [0x88, 0x77, 0x66, 0x55, 0x44, 0x33, 0x22, 0x11])]) =
      some (.error .memoryFault 0x10000 (.memory .alignment 0x202)) := by
  decide
theorem test_store :
    stepped (fun t => archBytes t 0x200 8) (engine [0x61, 0x19, 0x09, 0x90, 0x10, 0x00, 0x00, 0x00, 0x00] [(1, 0x200), (9, 0xA1B2C3D4E5F60718)] odd 0x10000 [(0x200, [0x88, 0x77, 0x66, 0x55, 0x44, 0x33, 0x22, 0x11])]) =
      some [0x18, 0x07, 0xF6, 0xE5, 0xD4, 0xC3, 0xB2, 0xA1] := by
  decide
theorem test_storeb :
    stepped (fun t => archBytes t 0x200 8) (engine [0x63, 0x19, 0x09, 0x90, 0x10, 0x03, 0x00, 0x00, 0x00] [(1, 0x200), (9, 0xA1B2C3D4E5F60718)] odd 0x10000 [(0x200, [0x88, 0x77, 0x66, 0x55, 0x44, 0x33, 0x22, 0x11])]) =
      some [0x88, 0x77, 0x66, 0x18, 0x44, 0x33, 0x22, 0x11] := by
  decide
theorem test_storeb_to_code_faults :
    stepped (State.status) (engine [0x63, 0x18, 0x08, 0x90, 0x00, 0x00, 0x01, 0x00] [(1, 0x200), (9, 0xA1B2C3D4E5F60718)] odd 0x10000 [(0x200, [0x88, 0x77, 0x66, 0x55, 0x44, 0x33, 0x22, 0x11])]) =
      some (.error .memoryFault 0x10000 (.memory .range 0x10000)) := by
  decide
theorem test_storeh :
    stepped (fun t => archBytes t 0x200 8) (engine [0x65, 0x19, 0x09, 0x90, 0x10, 0x06, 0x00, 0x00, 0x00] [(1, 0x200), (9, 0xA1B2C3D4E5F60718)] odd 0x10000 [(0x200, [0x88, 0x77, 0x66, 0x55, 0x44, 0x33, 0x22, 0x11])]) =
      some [0x88, 0x77, 0x66, 0x55, 0x44, 0x33, 0x18, 0x07] := by
  decide
theorem test_storew :
    stepped (fun t => archBytes t 0x200 8) (engine [0x67, 0x19, 0x09, 0x90, 0x10, 0x04, 0x00, 0x00, 0x00] [(1, 0x200), (9, 0xA1B2C3D4E5F60718)] odd 0x10000 [(0x200, [0x88, 0x77, 0x66, 0x55, 0x44, 0x33, 0x22, 0x11])]) =
      some [0x88, 0x77, 0x66, 0x55, 0x18, 0x07, 0xF6, 0xE5] := by
  decide
theorem test_nop :
    stepped (fun t => (t.pc, t.status, t.metrics.instructionsCommitted)) (engine [0x80, 0x00, 0x03] [] odd 0x10000 []) =
      some (0x10003, .running, 1) := by
  decide
theorem test_halt :
    stepped (fun t => (t.pc, t.status, t.metrics.instructionsCommitted)) (engine [0x81, 0x00, 0x03] [(0, 0x2)] odd 0x10000 []) =
      some (0x10003, .halted .halt 2 0x10000, 1) := by
  decide
theorem test_syscall :
    stepped (fun t => (t.pc, t.status, t.metrics.instructionsCommitted)) (engine [0x82, 0x00, 0x03] [(0, 0x7)] odd 0x10000 []) =
      some (0x10003, .halted .syscall 7 0x10000, 1) := by
  decide
theorem test_trap :
    stepped (fun t => (t.pc, t.status, t.metrics.instructionsCommitted)) (engine [0x83, 0x00, 0x03] [] odd 0x10000 []) =
      some (0x10003, .halted .trap 0 0x10000, 1) := by
  decide
/-- All-zero bytes are not an instruction (R107). -/
theorem test_zero_bytes_decode_error :
    stepped (fun t => (t.pc, t.status, t.metrics.instructionsCommitted)) (engine [0x00, 0x00, 0x00] [] odd 0x10000 []) =
      some (0x10000, .error .decodeError 0x10000 (.decode .operandKindNotValid), 0) := by
  decide

/-- The target of R100 with displacement -2^31 wraps and lies outside the code range (95_test_vectors.md). -/
theorem test_target_wraps : targetAddr 0x10007 (.pcRel 0x80000000) = 0xFFFFFFFF80010007 := by decide

/-- RAS with RAS_DEPTH = 2: A, B, C pushed leaves B, C; then C, B and nothing are popped (95_test_vectors.md). -/
theorem test_ras_overflow :
    (rasPush (rasPush (rasPush (State.initial { rasDepth := 2 } Layout.standard true) 1) 2) 3).ras = [2, 3] := by decide

/-- The counter of S3: 1, taken, taken, not taken (R310 (4)). -/
theorem test_pht_s3 : phtNext (phtNext (phtNext 1 true) true) false = 2 := by decide

/-! ## Witnesses: every statement's hypotheses are met, at the boundary values of each clause -/

/-- The result is a next state of which `p` holds. -/
def nextWith (p : State → Bool) : Result → Bool
  | .next t => p t
  | _ => false

/-- The state a result holds, or the given one. -/
def stateOf (s : State) : Result → State
  | .next t => t
  | _ => s

/-- The engine before `NOP` with nothing else set. -/
def idle : State := engine [0x80, 0x00, 0x03] [] odd 0x10000 []

/-- `idle` with a code range that starts at `lo` and ends at `hi`. -/
def ranged (lo hi : Nat) : State := { idle with layout := { idle.layout with codeBase := lo, codeLen := hi - lo } }

theorem witness_DecodeInvertsEncode : (Instr.add 15 1 (.reg8 15)).wf = true := by decide
theorem witness_DecodedBytesAreTheEncoding : decode [0x80, 0x00, 0x03, 0x77] = .ok .nop := by decide

/-- The code range ends with the instruction, ends one byte before it, and starts one byte after its first; in each the
instruction is at the pc of a running engine. -/
theorem witness_InstructionMustLieInTheCodeRange :
    Instr.nop.wf = true
      ∧ ([ranged 0x10000 0x10003, ranged 0x10000 0x10002, ranged 0x10001 0x10010].all fun s =>
          decide (s.status = .running) && s.pc == 0x10000
            && Memory.readBytes s.mem s.pc.toNat Instr.nop.length == encode .nop) = true
      ∧ 0x10000 + Instr.nop.length = (ranged 0x10000 0x10003).layout.codeEnd := by decide

theorem witness_StepRunsTheDecodedInstruction :
    (idle.status = .running ∧ decodeAt idle idle.pc = .ok .nop)
      ∧ ((ranged 0x10000 0x10002).status = .running ∧ decodeAt (ranged 0x10000 0x10002) 0x10000 = .error .truncated)
      ∧ ({ idle with status := .budgetExhausted } : State).status ≠ .running := by decide

theorem witness_OperandFormsDenote : (15 : BitVec 8).toNat < 16 ∧ (15 : BitVec 8).toNat = (15 : Reg).val := by decide

theorem witness_ArithmeticLaws :
    nextWith (fun _ => true) (exec (.add 1 1 (.reg4 1)) idle) = true
      ∧ nextWith (fun _ => true) (exec (.sub 3 1 (.imm8 1)) idle) = true
      ∧ nextWith (fun _ => true) (exec (.mul 3 1 (.imm8 1)) idle) = true
      ∧ (arithmeticDest (.cmp (.reg4 1) (.imm8 0)) = some none
        ∧ nextWith (fun _ => true) (exec (.cmp (.reg4 1) (.imm8 0)) idle) = true)
      ∧ (arithmeticDest (.mov (.reg8 2) (.imm8 0)) = some (some 2)
        ∧ nextWith (fun _ => true) (exec (.mov (.reg8 2) (.imm8 0)) idle) = true)
      ∧ [Instr.add 5 5 (.reg4 5), .sub 5 5 (.reg4 5), .mul 5 5 (.reg4 5), .div 5 5 (.reg4 5), .mod 5 5 (.reg4 5),
          .neg (.reg4 5) (.reg4 5), .mov (.reg4 5) (.reg4 5), .div 1 1 (.imm8 5), .mod 5 1 (.reg4 5),
          .neg (.reg8 5) (.reg8 5), .mov (.reg8 5) (.imm8 1)].all
          (fun i => nextWith (fun _ => true) (exec i idle)) = true := by decide

/-- Any pair of operand values stands in some state, so each row of R159 is met. -/
theorem witness_LogicAndShiftWorkedValues (a b : Word) :
    ∃ (s : State) (rs1 : Reg) (src2 : Src2), s.reg rs1 = a ∧ s.reg (regNum (.reg4 rs1)) = a ∧ src2Value s src2 = b :=
  ⟨idle.setReg 1 a, 1, .imm64 b, reg_setReg_same .., by simp [regNum], rfl⟩

/-- Targets at the first and the last byte of the code range. -/
theorem witness_JmpGoesToItsTarget :
    targetInCode idle.layout (directTarget idle.pc 7 (.abs 0x10000))
      ∧ targetInCode idle.layout (directTarget idle.pc 7 (.abs 0xFFFFF)) := by
  unfold targetInCode; decide

/-- The register zero and not zero, with targets inside and outside the code range. -/
theorem witness_RegisterJumpsTestTheRegister :
    idle.reg (regNum (.reg4 1)) = 0 ∧ targetInCode idle.layout (directTarget idle.pc 8 (.pcRel 0))
      ∧ (idle.setReg 1 1).reg (regNum (.reg8 1)) ≠ 0
      ∧ targetInCode (idle.setReg 1 1).layout (directTarget (idle.setReg 1 1).pc 8 (.pcRel 0))
      ∧ ¬ targetInCode idle.layout (directTarget idle.pc 8 (.abs 0)) := by
  unfold targetInCode; decide

/-- For each condition, flags on which it holds and flags on which it does not. -/
theorem witness_FlagJumpsTestTheFlags (c : Cond) :
    (∃ f : Flags, flagCondition c f) ∧ (∃ f : Flags, ¬ flagCondition c f)
      ∧ targetInCode idle.layout (directTarget idle.pc 7 (.pcRel 0)) := by
  refine ⟨?_, ?_, by unfold targetInCode; decide⟩
  · cases c
    case equal => exact ⟨zncv true false false false, rfl⟩
    case notEqual => exact ⟨zncv false false false false, rfl⟩
    case less => exact ⟨zncv false true false false, by simp [flagCondition, zncv]⟩
    case greaterEqual => exact ⟨zncv false true false true, rfl⟩
    case greater => exact ⟨zncv false true false true, rfl, rfl⟩
    case lessEqual => exact ⟨zncv true false false false, .inl rfl⟩
    case below => exact ⟨zncv false false true false, rfl⟩
    case aboveEqual => exact ⟨zncv false false false false, rfl⟩
    case above => exact ⟨zncv false false false false, rfl, rfl⟩
    case belowEqual => exact ⟨zncv true false false false, .inr rfl⟩
  · cases c
    case equal => exact ⟨zncv false false false false, by simp [flagCondition, zncv]⟩
    case notEqual => exact ⟨zncv true false false false, by simp [flagCondition, zncv]⟩
    case less => exact ⟨zncv false true false true, by simp [flagCondition, zncv]⟩
    case greaterEqual => exact ⟨zncv false true false false, by simp [flagCondition, zncv]⟩
    case greater => exact ⟨zncv true false false false, by simp [flagCondition, zncv]⟩
    case lessEqual => exact ⟨zncv false false false false, by simp [flagCondition, zncv]⟩
    case below => exact ⟨zncv false false false false, by simp [flagCondition, zncv]⟩
    case aboveEqual => exact ⟨zncv false false true false, by simp [flagCondition, zncv]⟩
    case above => exact ⟨zncv true false false false, by simp [flagCondition, zncv]⟩
    case belowEqual => exact ⟨zncv false false false false, by simp [flagCondition, zncv]⟩

theorem witness_ConditionsMeanTheirNamesAfterCompare :
    nextWith (fun _ => true) (exec (.cmp (.reg4 1) (.imm8 1)) idle) = true
      ∧ nextWith (fun _ => true) (exec (.sub 3 1 (.imm8 1)) idle) = true := by decide

theorem witness_CallLinksAndRetReturns :
    targetInCode idle.layout (directTarget idle.pc 7 (.pcRel 3))
      ∧ targetInCode (idle.setReg 15 0xFFFFF).layout ((idle.setReg 15 0xFFFFF).reg 15) := by
  unfold targetInCode; decide

/-- Targets one byte before and at the end of the code range, of CALL and of RET. -/
theorem witness_BadTargetIsAControlFault :
    (takenTo (.call (.abs 0xFFFF)) idle 0xFFFF ∧ ¬ targetInCode idle.layout 0xFFFF)
      ∧ (takenTo .ret (idle.setReg 15 0x100000) 0x100000 ∧ ¬ targetInCode (idle.setReg 15 0x100000).layout 0x100000) := by
  unfold targetInCode takenTo; decide

theorem witness_PcAfterAnInstruction :
    errorFree idle = true ∧ nextWith errorFree (exec (.jmp (.abs 0x10020)) idle) = true
      ∧ takenTo (.jmp (.abs 0x10020)) idle 0x10020 ∧ nextWith errorFree (exec .nop idle) = true
      ∧ ∀ target, ¬ takenTo .nop idle target :=
  ⟨by decide, by decide, by unfold takenTo; decide, by decide, fun _ h => h⟩

/-- The last accesses of each width inside the data range, which ends at 0x10000, and the first. -/
theorem witness_LoadsAndStoresAllowed :
    accessAllowed idle.layout (effAddr idle (.abs 0xFFF8)) 8 ∧ accessAllowed idle.layout (effAddr idle (.abs 0xFFFF)) 1
      ∧ accessAllowed idle.layout (effAddr idle (.abs 0xFFFE)) 2 ∧ accessAllowed idle.layout (effAddr idle (.abs 0xFFFC)) 4
      ∧ accessAllowed idle.layout (effAddr idle (.regOff 0 0)) 8 := by
  unfold accessAllowed; decide

/-- The first address past the range for each width, and a misaligned address for each width that has one; a byte access
is always aligned, so its second clause is about none. -/
theorem witness_BadAccessIsAMemoryFault :
    (∀ n ∈ [8, 1, 2, 4], ¬ (idle.layout.dataBase ≤ (effAddr idle (.abs 0x10000)).toNat
        ∧ (effAddr idle (.abs 0x10000)).toNat + n ≤ idle.layout.dataEnd))
      ∧ (∀ n ∈ [8, 2, 4], idle.layout.dataBase ≤ (effAddr idle (.abs 0x201)).toNat
        ∧ (effAddr idle (.abs 0x201)).toNat + n ≤ idle.layout.dataEnd ∧ (effAddr idle (.abs 0x201)).toNat % n ≠ 0) := by
  decide

theorem witness_MixedWidthsSeeEachOthersBytes :
    (accessAllowed idle.layout (effAddr idle (.abs 0x208)) 8 ∧ accessAllowed idle.layout (effAddr idle (.abs 0x20C)) 4
        ∧ nextWith (fun t => nextWith (fun _ => true) (exec (loadOf .b4 (.reg4 2) (.abs 0x20C)) t))
          (exec (storeOf .b8 (.reg4 1) (.abs 0x208)) idle) = true)
      ∧ ((0x200 : BitVec 32).toNat % 8 = 0 ∧ (idle.setReg 1 0x1122334455667788).layout.dataBase ≤ (0x200 : BitVec 32).toNat
        ∧ (0x200 : BitVec 32).toNat + 8 ≤ (idle.setReg 1 0x1122334455667788).layout.dataEnd
        ∧ (idle.setReg 1 0x1122334455667788).reg (regNum (.reg4 1)) = 0x1122334455667788
        ∧ nextWith (fun _ => true) (exec (.store (.reg4 1) (.abs 0x200)) (idle.setReg 1 0x1122334455667788)) = true
        ∧ (0x200 : BitVec 32).toNat + 8 ≤ 2 ^ 32) := by
  unfold accessAllowed; decide

theorem witness_StopInstructionsStop : (Instr.trap = .trap ∧ StopReason.trap = .trap) := by decide

/-- An error and a retirement. -/
theorem witness_ErrorsChangeTheStatusAlone :
    errorFree idle = true ∧ nextWith (fun t => t.status = .error .controlFault 0x10000 .control) (exec .ret idle) = true
      ∧ nextWith errorFree (exec .nop idle) = true := by decide

theorem witness_OnlyNamedDestinationsChange :
    setsFlags .nop = false ∧ nextWith (fun _ => true) (exec .nop idle) = true
      ∧ (∀ w r m, Instr.nop ≠ storeOf w r m) := by
  refine ⟨by decide, by decide, fun w r m => ?_⟩
  cases w <;> simp [storeOf]

theorem witness_StepNeverChangesCode :
    idle.layout.wf idle.cfg = true ∧ nextWith (fun _ => true) (step idle) = true := by decide

/-- A store of a byte, so that memory changes. -/
def storing : State := engine [0x63, 0x18, 0x08, 0x10, 0x00, 0x02, 0x00, 0x00] [(1, 5)] odd 0x10000 []

theorem witness_StepKeepsArchInv :
    archInv storing = true ∧ nextWith (fun t => Memory.read t.mem 0x200 = 5) (step storing) = true := by decide

/-- A program of one HALT, loaded. -/
def haltImage : Image := [(0x10000, [0x81, 0x00, 0x03])]

/-- Its layout. -/
def haltLayout : Layout := { codeBase := 0x10000, codeLen := 3, dataBase := 0, dataLen := 0x100, entry := 0x10000 }

/-- The engine that boot gives for it. -/
def booted : State :=
  match boot tiny haltImage haltLayout with
  | .ok s => s
  | .error _ => idle

theorem boot_halt : boot tiny haltImage haltLayout = .ok booted := by decide

/-- The refusal of a `load`, if it is refused. -/
def refusalOf : Except Refusal State → Option Refusal
  | .ok _ => none
  | .error r => some r

/-- U23: a second load is refused, also after a first one of an empty layout. -/
theorem test_second_load_refused :
    (match (create tiny).bind (load [] Layout.unloaded) with
      | .ok s => refusalOf (load haltImage haltLayout s)
      | .error _ => none) = some .alreadyLoaded := by decide

/-- log 23: an engine that was run and stopped before any load. -/
theorem test_load_after_run_refused :
    (match create tiny with
      | .ok s => refusalOf (load haltImage haltLayout { s with status := .budgetExhausted })
      | .error _ => none) = some .loadAfterRun := by decide

/-- The boot is accepted; one segment covers 0x10002, the last byte of the code range; none covers 0xFF, the last byte of
the data range. -/
theorem witness_BootLeavesResetValues :
    boot tiny haltImage haltLayout = .ok booted ∧ segmentCovers (0x10000, [0x81, 0x00, 0x03]) 0x10002
      ∧ (haltLayout.codeBase ≤ 0x10002 ∧ 0x10002 < haltLayout.codeEnd)
      ∧ (∀ other ∈ haltImage, segmentCovers other 0x10002 → other = (0x10000, [0x81, 0x00, 0x03]))
      ∧ (haltLayout.dataBase ≤ 0xFF ∧ 0xFF < haltLayout.dataEnd) ∧ (∀ seg ∈ haltImage, ¬ segmentCovers seg 0xFF) := by
  unfold segmentCovers; exact ⟨boot_halt, by decide, by decide, by decide, by decide, by decide⟩

/-- A stack below its depth, at its depth, and empty. -/
theorem witness_ReturnStackOperations :
    ({ idle with cfg := { tiny with rasDepth := 2 }, ras := [1] } : State).ras.length = 1
      ∧ ({ idle with cfg := { tiny with rasDepth := 2 }, ras := [1, 2] } : State).ras.length = 2
      ∧ idle.ras = [] ∧ [1, 2] = [1] ++ [2]
      ∧ (match exStep false none none none idle with
          | .ok _ => true
          | .error _ => false) = true := by decide

/-- A branch's own entry, and another branch's, at its index. -/
theorem witness_BtbUpdate :
    ({ idle with btb := [some { tag := 0x10020, target := 0x10000, last := true }] } : State).btb[(0x10020 : Word).toNat %
        idle.cfg.btbSize]? = some (some { tag := 0x10020, target := 0x10000, last := true })
      ∧ ({ tag := 0x10060, target := 0x10000, last := true } : BtbEntry).tag ≠ 0x10020 := by decide

/-- A stack that is empty and one that is not; a hit with each kind of counter, and an entry of another branch. -/
theorem witness_PredictionAtFetch :
    idle.ras = [] ∧ ({ idle with ras := [1, 2] } : State).ras = [1] ++ [2]
      ∧ (let s := { idle with btb := [some { tag := 0x10000, target := 0x10020, last := true }], pht := [2] }
         s.btb[(0x10000 : Word).toNat % s.cfg.btbSize]? = some (some { tag := 0x10000, target := 0x10020, last := true })
           ∧ s.pht[(0x10000 : Word).toNat % s.cfg.phtSize]? = some 2
           ∧ (predict (uopOf (.jmpIfLess (.abs 0x10020)) 0x10000) s).1 = 0x10020
           ∧ (predict (uopOf (.jmpIfLess (.abs 0x10020)) 0x10000) { s with pht := [1] }).1 = 0x10007
           ∧ (predict (uopOf (.jmpIfLess (.abs 0x10040)) 0x10040) s).1 = 0x10040) := by decide

/-- A conditional jump in DE that was predicted not taken, and is taken to `t`. -/
def branching (t : Target) : State :=
  { idle with
    de := some { uop := some (uopOf (.jmpIfEqual t) 0x10000), pc := 0x10000, fault := none, predNext := some 0x10007 }
    fb := [poisonEntry 0x10007 .truncated], fetchHalted := true }

theorem witness_TickKeepsPredictorOk :
    predictorOk (branching (.abs 0x10020)) = true
      ∧ nextWith (fun t => t.btb = [some { tag := 0x10000, target := 0x10020, last := true }])
          (tick (branching (.abs 0x10020))) = true := by decide

theorem witness_MispredictionFlushesAndRedirects :
    targetInCode idle.layout 0x10020 ∧ ¬ targetInCode idle.layout 0x100000 := by unfold targetInCode; decide

/-- A latch that forwards `v` to register 1. -/
def producer (v : Word) : ExLatch :=
  { uop := some (uopOf (.mov (.reg4 1) (.imm8 0)) 0x10000), pc := 0x10000, fault := none, rd := some 1, result := some v,
    flags := some odd, access := none }

/-- EM supplies; EM carries a fault and MW supplies; neither does. -/
theorem witness_YoungestProducerWins :
    ((producer 5).fault = none ∧ (producer 5).rd = some 1 ∧ (producer 5).result = some 5)
      ∧ (({ producer 5 with fault := some { kind := .controlFault, message := .control } } : ExLatch).fault ≠ none)
      ∧ (producer 6).rd ≠ some 2 := by decide

/-- The MW latch of `producer`. -/
def retiring (v : Word) : MemLatch := { toExLatch := producer v, sbAge := none }

theorem witness_OnlyWritebackWrites :
    ({ idle with mw := some (retiring 7) } : State).status = .running
      ∧ nextWith (fun t => t.reg 1 = 7 ∧ t.metrics.instructionsCommitted = 1) (tick { idle with mw := some (retiring 7) })
          = true
      ∧ nextWith (fun t => t.reg 1 = 0) (tick idle) = true := by decide

/-- An MW latch with an error, and one with HALT. -/
theorem witness_StopsAtWriteback :
    idle.status = .running
      ∧ ({ retiring 7 with fault := some { kind := .controlFault, message := .control } } : MemLatch).fault
          = some { kind := .controlFault, message := .control }
      ∧ stopReasonOf (uopOf .halt 0x10000).instr = some .halt
      ∧ nextWith (fun t => t.status = .halted .halt 0 0x10000)
          (tick { idle with mw := some { retiring 7 with uop := some (uopOf .halt 0x10000), rd := none } }) = true := by
  decide

/-- A flush with a redirect, and one with a control fault. -/
theorem witness_FlushRemovesTheYounger :
    (match exStep false none none (branching (.abs 0x10020)).de (branching (.abs 0x10020)) with
      | .ok (_, sig) => sig.flush && !sig.haltFetch
      | .error _ => false) = true
      ∧ (match exStep false none none (branching (.abs 0x20)).de (branching (.abs 0x20)) with
      | .ok (_, sig) => sig.flush && sig.haltFetch
      | .error _ => false) = true := by decide

/-- What `execute` gives for `i` at the pc of `idle`, predicted to go to `p`, seen through `f`. -/
def executed (i : Instr) (p : Word) (f : ExecOut → Bool) : Bool :=
  match execute none none { uop := some (uopOf i 0x10000), pc := 0x10000, fault := none, predNext := some p } idle with
  | .ok o => f o
  | .error _ => false

/-- A transfer that faults, a load, a store, a jump predicted wrong, one predicted right, and a NOP. -/
theorem witness_ExecuteAgreesWithExec :
    executed .ret 0 (fun o => o.latch.fault = some { kind := .controlFault, message := .control }) = true
      ∧ executed (.load (.reg4 1) (.abs 8)) 0 (fun o => o.latch.access = some (.load .b8 8)) = true
      ∧ executed (.store (.reg4 1) (.abs 8)) 0 (fun o => o.latch.access = some (.store .b8 8 0)) = true
      ∧ executed (.jmp (.abs 0x10020)) 0
          (fun o => o.latch.fault = none ∧ o.latch.access = none ∧ o.redirect = some 0x10020) = true
      ∧ executed (.jmp (.abs 0x10020)) 0x10020
          (fun o => o.latch.fault = none ∧ o.latch.access = none ∧ o.redirect = none) = true
      ∧ executed .nop 0 (fun o => o.latch.fault = none ∧ o.latch.access = none ∧ o.redirect = none) = true := by decide

theorem witness_TickKeepsPipelineLegal :
    pipelineLegal { branching (.abs 0x10020) with em := some (producer 5), mw := some (retiring 7) } = true := by decide

theorem witness_HaltedFetchHasAnErrorInFlight :
    haltedOk (branching (.abs 0x20)) = true ∧ (branching (.abs 0x20)).fetchHalted = true
      ∧ nextWith (fun t => t.fetchHalted) (tick (branching (.abs 0x20))) = true := by decide

/-- An engine with a dirty line, an entry in the store buffer that has retired, one that has not, and a load in EM whose
line is absent. -/
def busy : State :=
  { idle with
    mem := [(0x40, 9)]
    l1 := [[some { tag := 2, dirty := true, data := List.replicate 16 3, age := 1 }]]
    sb := [{ addr := 0x48, size := .b8, value := 0x11, age := 1, retired := true },
           { addr := 0x21, size := .b1, value := 0x22, age := 2, retired := false }]
    sbSeq := 2
    mw := some { toExLatch := { producer 0 with uop := some (uopOf (.storeb (.reg4 1) (.abs 0x21)) 0x10000), rd := none }
                 sbAge := some 2 }
    em := some { producer 0 with uop := some (uopOf (.loadb (.reg4 1) (.abs 0x40)) 0x10008), result := none, flags := none,
                                 access := some (.load .b1 0x40) } }

/-- `busy` with the load waiting in the last tick of its miss. -/
def waiting : State := { busy with memWaiting := true, memWait := 1 }

theorem witness_TickKeepsMicroInv :
    microInv busy = true ∧ nextWith (fun t => t.memWaiting) (tick busy) = true
      ∧ microInv waiting = true ∧ nextWith (fun t => !t.memWaiting) (tick waiting) = true := by decide

theorem witness_DrainKeepsWhatAProgramSees : microInv busy = true ∧ (drainHead true busy).sb.length = 1 := by decide

/-- A load served after its miss, one served at once, and one that fails its check. -/
theorem witness_ServedLoadDeliversTheNewestBytes :
    (microInv waiting = true ∧ (memOut waiting.em waiting).out.map (fun l => l.result) = some (some 9))
      ∧ (let s := { busy with em := some { producer 0 with access := some (.load .b8 0x48) } }
         microInv s = true ∧ (memOut s.em s).out.map (fun l => l.result) = some (some 0x11))
      ∧ (let s := { busy with em := some { producer 0 with access := some (.load .b8 0x49) } }
         microInv s = true ∧ (memOut s.em s).out.map (fun l => l.rd) = some none) := by decide

theorem witness_TickNeverWritesOutsideTheDataRange :
    microInv waiting = true ∧ nextWith (fun t => Memory.read t.mem 0x20 = 3) (tick waiting) = true
      ∧ ¬ (waiting.layout.dataBase ≤ 0x10000 ∧ 0x10000 < waiting.layout.dataEnd) := by decide

theorem witness_CommitBringsMemoryUpToDate :
    busy.status = .running ∧ microInv { busy with status := .budgetExhausted } = true
      ∧ ({ busy with status := .budgetExhausted } : State).status ≠ .running := by decide

/-- The last id and the first past it; a range that ends at MEM_SIZE and one that ends past it. -/
theorem witness_HostReadsAfterTheStop :
    ({ idle with status := .budgetExhausted } : State).status ≠ .running ∧ 15 < 16 ∧ 16 ≤ 16
      ∧ 0xFFFFE + 2 ≤ idle.cfg.memSize ∧ idle.cfg.memSize < 0xFFFFE + 3 ∧ idle.status = .running := by decide

/-- HALT stops in tick 5 (R246), so a budget of 4 cuts it off. -/
theorem witness_BudgetCutsOffExactly :
    booted.metrics.cycles = 0 ∧ booted.status = .running
      ∧ nextWith (fun t => t.status = .running ∧ nextWith (fun u => u.status ≠ .running) (tick t)) (runTicks 4 booted)
          = true := by decide

/-- Three NOPs at the pc, nothing in the latches. -/
def nops : State := engine [0x80, 0x00, 0x03, 0x80, 0x00, 0x03, 0x80, 0x00, 0x03] [] odd 0x10000 []

/-- What EX makes of a NOP. -/
def nopLatch (pc : Word) : ExLatch :=
  { uop := some (uopOf .nop pc), pc := pc, fault := none, rd := none, result := none, flags := none, access := none }

/-- The three NOPs in MW, EM and DE. -/
def filled : State :=
  { nops with
    mw := some { toExLatch := nopLatch 0x10000, sbAge := none }
    em := some (nopLatch 0x10003)
    de := some { uop := some (uopOf .nop 0x10006), pc := 0x10006, fault := none, predNext := some 0x10009 }
    pcFetch := 0x10009 }

/-- The architectural level runs the first NOP. -/
theorem step_nops : step nops = .next (retire 0x10003 nops) := by
  have h : decodeAt nops 0x10000 = .ok .nop := by decide
  show fetchAndRun exec nops = _
  unfold fetchAndRun
  rw [show nops.pc = 0x10000 from rfl, h]
  rfl
/-- And the second. -/
theorem step_nops' : step (retire 0x10003 nops) = .next (retire 0x10006 (retire 0x10003 nops)) := by
  have h : decodeAt (retire 0x10003 nops) 0x10003 = .ok .nop := by decide
  show fetchAndRun exec (retire 0x10003 nops) = _
  unfold fetchAndRun
  rw [show (retire 0x10003 nops).pc = 0x10003 from rfl, h]
  rfl

/-- A pair of coupled states in which an instruction retires in the next tick. -/
theorem witness_TickKeepsCoupling :
    coupled filled nops ∧ stepsOfTick filled = 1
      ∧ nextWith (fun t => t.mw = some { toExLatch := nopLatch 0x10003, sbAge := none }) (tick filled) = true := by
  refine ⟨⟨by decide, by decide, by decide, rfl, rfl, rfl, rfl, rfl, rfl, rfl, fun _ => rfl, fun _ => rfl, fun _ => ?_⟩,
    by decide, by decide⟩
  have h1 : afterStep nops = retire 0x10003 nops := by simp only [afterStep, step_nops]
  have h2 : afterStep (retire 0x10003 nops) = retire 0x10006 (retire 0x10003 nops) := by simp only [afterStep, step_nops']
  show _ ∧ mwCoupled _ nops filled ∧ restCoupled filled (afterStep nops)
  rw [h1]
  refine ⟨rfl, ?_, ?_⟩
  · show _ ∧ errorFree (afterStep nops) = true ∧ writesOf _ nops (afterStep nops) ∧ ∀ a, archByte (afterStep nops) a = _
    rw [h1]
    exact ⟨⟨.nop, by decide, rfl⟩, by decide, ⟨fun _ => rfl, rfl⟩, fun _ => rfl⟩
  · refine ⟨fun _ => rfl, fun _ => ⟨?_, fun _ => ?_⟩⟩
    · show _ ∧ errorFree (afterStep (retire 0x10003 nops)) = true ∧ writesOf _ _ (afterStep (retire 0x10003 nops))
        ∧ ∀ a, archByte (afterStep (retire 0x10003 nops)) a = _
      rw [h2]
      exact ⟨⟨.nop, by decide, rfl⟩, by decide, ⟨fun _ => rfl, rfl⟩, fun _ => rfl⟩
    · rw [h2]
      exact ⟨rfl, .nop, 0x10009, by decide, rfl, rfl, fun _ => by decide, rfl, rfl⟩
theorem witness_TicksRefineSteps :
    boot tiny haltImage haltLayout = .ok booted
      ∧ nextWith (fun t => t.status = .halted .halt 0 0x10000 ∧ t.metrics.instructionsCommitted = 1)
          (runTicks 5 (bootedWith [some { tag := 0x10000, target := 0x10002, last := true }] [3] [7] booted)) = true :=
  ⟨boot_halt, by decide⟩

theorem witness_PredictorChangesNoResult :
    boot tiny haltImage haltLayout = .ok booted
      ∧ nextWith (fun t => t.status ≠ .running) (runTicks 5 booted) = true
      ∧ nextWith (fun t => t.status ≠ .running) (runTicks 6 (bootedWith [none] [3] [7] booted)) = true :=
  ⟨boot_halt, by decide, by decide⟩

end Sys2Proof.Tests
end

section
/-! PROOF. Direct pc-relative targets (R100): four displacement bytes as one number, a sign-extended displacement added to
a word, and the address of the next instruction. -/

namespace Sys2Proof

theorem leNat_four_bytes (b0 b1 b2 b3 : Byte) :
    leNat [b0, b1, b2, b3] = b0.toNat + 256 * b1.toNat + 65536 * b2.toNat + 16777216 * b3.toNat := by
  simp only [leNat]; omega

/-- Four bytes fit in a 32-bit field, so reading them into it loses nothing. -/
theorem toNat_ofNat_leNat_four_bytes (b0 b1 b2 b3 : Byte) :
    (BitVec.ofNat 32 (leNat [b0, b1, b2, b3])).toNat = leNat [b0, b1, b2, b3] := by
  have hfit : leNat [b0, b1, b2, b3] < 2 ^ 32 := (leNat_lt [b0, b1, b2, b3]).trans_eq (by simp)
  rw [BitVec.toNat_ofNat, Nat.mod_eq_of_lt hfit]

theorem parseTarget_pcRel (bs : List Byte) :
    parseTarget .pcRel bs = .ok (.pcRel (BitVec.ofNat 32 (leNat bs))) := rfl

end Sys2Proof

namespace Sys2Proof.Machine

/-- Adding a sign-extended displacement to a word adds its signed value, modulo `2 ^ 64`. -/
theorem toNat_add_signExtend {w : Nat} (x : Word) (d : BitVec w) :
    ((x + d.signExtend 64).toNat : Int) = ((x.toNat : Int) + d.toInt) % 2 ^ 64 := by
  have hext : ((d.signExtend 64).toNat : Int) = d.toInt % 2 ^ 64 := by
    rw [BitVec.signExtend, BitVec.toNat_ofInt]; omega
  rw [BitVec.toNat_add]
  omega

theorem toNat_seqPc (s : State) (len : Nat) : ((seqPc s len).toNat : Int) = ((s.pc.toNat : Int) + len) % 2 ^ 64 := by
  rw [seqPc, BitVec.toNat_add, BitVec.toNat_ofNat]; omega

theorem targetAddr_pcRel (next : Word) (d : BitVec 32) : targetAddr next (.pcRel d) = next + d.signExtend 64 := rfl

theorem targetAddr_pcRel_zero (next : Word) : targetAddr next (.pcRel 0) = next := by
  have hzero : (0 : BitVec 32).signExtend 64 = 0#64 := by decide
  rw [targetAddr_pcRel, hzero, BitVec.add_zero]

/-- The target as a number: `pc + len + d`, wrapped once modulo `2 ^ 64`. -/
theorem toNat_targetAddr_pcRel (s : State) (len : Nat) (d : BitVec 32) :
    ((targetAddr (seqPc s len) (.pcRel d)).toNat : Int) = ((s.pc.toNat : Int) + len + d.toInt) % 2 ^ 64 := by
  rw [targetAddr_pcRel, toNat_add_signExtend, toNat_seqPc, Int.emod_add_emod]

/-- Settles O8: the field holds the number of its four bytes, and the target is the next instruction's address plus the
signed value of the field. -/
theorem pcRelativeTarget : Obligations.PcRelativeTarget := by
  refine ⟨fun b0 b1 b2 b3 => ⟨_, parseTarget_pcRel _, ?_⟩, toNat_targetAddr_pcRel, fun s len => ?_⟩
  · rw [toNat_ofNat_leNat_four_bytes, leNat_four_bytes]
  · rw [targetAddr_pcRel_zero, seqPc]

end Sys2Proof.Machine
end

section
/-! PROOF. The logic and shift instructions (R150 to R159): each is the ALU on the old values of its operands, followed by
the writes of `aluToReg` or `aluToFlags`. -/

namespace Sys2Proof.Machine

/-! ## The closing operations of the ALU instructions -/

/-- The destination and FLAGS get what the ALU produced, and nothing else changes (R130). -/
theorem aluToReg_spec (len : Nat) (rd : Reg) (o : AluOut) (s : State) :
    ∃ t, aluToReg len rd o s = .next t ∧ t.reg rd = o.result ∧ t.flags = o.flags
      ∧ registerEffect [rd] (seqPc s len) s t :=
  ⟨_, rfl, by simp, by simp, registerEffect_setReg_flags ..⟩

/-- FLAGS get what the ALU produced, and no register is written (R138, R158). -/
theorem aluToFlags_spec (len : Nat) (o : AluOut) (s : State) :
    ∃ t, aluToFlags len o s = .next t ∧ t.flags = o.flags ∧ registerEffect [] (seqPc s len) s t :=
  ⟨_, rfl, by simp, registerEffect_flags ..⟩

/-! ## What each logic and shift instruction computes -/

section
variable (rd rs1 : Reg) (src2 : Src2) (s : State)

theorem exec_and_eq_aluToReg : exec (.and rd rs1 src2) s =
    aluToReg (Instr.and rd rs1 src2).length rd (aluAnd (s.reg rs1) (src2Value s src2)) s := rfl

theorem exec_or_eq_aluToReg : exec (.or rd rs1 src2) s =
    aluToReg (Instr.or rd rs1 src2).length rd (aluOr (s.reg rs1) (src2Value s src2)) s := rfl

theorem exec_xor_eq_aluToReg : exec (.xor rd rs1 src2) s =
    aluToReg (Instr.xor rd rs1 src2).length rd (aluXor (s.reg rs1) (src2Value s src2)) s := rfl

theorem exec_shl_eq_aluToReg : exec (.shl rd rs1 src2) s =
    aluToReg (Instr.shl rd rs1 src2).length rd (aluShl (s.reg rs1) (src2Value s src2)) s := rfl

theorem exec_shr_eq_aluToReg : exec (.shr rd rs1 src2) s =
    aluToReg (Instr.shr rd rs1 src2).length rd (aluShr (s.reg rs1) (src2Value s src2)) s := rfl

theorem exec_sar_eq_aluToReg : exec (.sar rd rs1 src2) s =
    aluToReg (Instr.sar rd rs1 src2).length rd (aluSar (s.reg rs1) (src2Value s src2)) s := rfl

end

theorem exec_not_eq_aluToReg (rd : RegOp) (src2 : Src2) (s : State) : exec (.not rd src2) s =
    aluToReg (Instr.not rd src2).length (regNum rd) (aluNot (src2Value s src2)) s := rfl

theorem exec_test_eq_aluToFlags (rs1 : RegOp) (src2 : Src2) (s : State) : exec (.test rs1 src2) s =
    aluToFlags (Instr.test rs1 src2).length (aluAnd (s.reg (regNum rs1)) (src2Value s src2)) s := rfl

/-! ## Worked values -/

/-- A worked value of a three-operand ALU instruction, in every state and operand form, is the ALU's answer on the two
operand values. -/
theorem givesValue_of_alu {mk : Reg → Reg → Src2 → Instr} {alu : Word → Word → AluOut}
    (hexec : ∀ rd rs1 src2 s,
      exec (mk rd rs1 src2) s = aluToReg (mk rd rs1 src2).length rd (alu (s.reg rs1) (src2Value s src2)) s)
    {a b r : Word} {z n c v : Bool} (halu : alu a b = ⟨r, ⟨z, n, c, v⟩⟩) : givesValue mk a b r z n c v := by
  intro rd rs1 src2 s ha hb
  obtain ⟨t, hnext, hreg, hflags, -⟩ := aluToReg_spec (mk rd rs1 src2).length rd (alu a b) s
  rw [halu] at hreg hflags
  exact ⟨t, by rw [hexec, ha, hb, hnext], hreg, hflags⟩

/-- NOT of 0, in every state and operand form. -/
theorem exec_not_zero (rd : RegOp) (src2 : Src2) (s : State) (hb : src2Value s src2 = 0) :
    ∃ t, exec (.not rd src2) s = .next t ∧ t.reg (regNum rd) = 0xFFFFFFFFFFFFFFFF
      ∧ t.flags = { z := false, n := true, c := false, v := false } := by
  have halu : aluNot 0 = ⟨0xFFFFFFFFFFFFFFFF, ⟨false, true, false, false⟩⟩ := by decide
  obtain ⟨t, hnext, hreg, hflags, -⟩ := aluToReg_spec (Instr.not rd src2).length (regNum rd) (aluNot 0) s
  rw [halu] at hreg hflags
  exact ⟨t, by rw [exec_not_eq_aluToReg, hb, hnext], hreg, hflags⟩

/-- TEST of two words with no bit in common sets Z alone and writes no register. -/
theorem exec_test_disjoint (rs1 : RegOp) (src2 : Src2) (s : State)
    (hdisjoint : s.reg (regNum rs1) &&& src2Value s src2 = 0) :
    ∃ t, exec (.test rs1 src2) s = .next t ∧ t.flags = { z := true, n := false, c := false, v := false }
      ∧ sameRegsBut [] s t := by
  obtain ⟨t, hnext, hflags, -, hregs, -, -⟩ :=
    aluToFlags_spec (Instr.test rs1 src2).length (aluAnd (s.reg (regNum rs1)) (src2Value s src2)) s
  refine ⟨t, by rw [exec_test_eq_aluToFlags, hnext], ?_, hregs⟩
  rw [hflags, aluAnd, hdisjoint]
  rfl

/-- Settles O17: the ALU evaluated on the operands of each row of R159, which every state and operand form supplying those
operands runs. -/
theorem logicAndShiftWorkedValues : Obligations.LogicAndShiftWorkedValues := by
  refine ⟨?and, ?or, ?xor, exec_not_zero, ?shl_carry, ?shl_sign, ?shl_masked_count, ?shr_carry, ?shr_zero,
    ?sar_sign_fill, ?sar_no_carry, ?sar_carry, ?test⟩
  case and => exact givesValue_of_alu exec_and_eq_aluToReg (by decide)
  case or => exact givesValue_of_alu exec_or_eq_aluToReg (by decide)
  case xor => exact givesValue_of_alu exec_xor_eq_aluToReg (by decide)
  case shl_carry => exact givesValue_of_alu exec_shl_eq_aluToReg (by decide)
  case shl_sign => exact givesValue_of_alu exec_shl_eq_aluToReg (by decide)
  case shl_masked_count => exact givesValue_of_alu exec_shl_eq_aluToReg (by decide)
  case shr_carry => exact givesValue_of_alu exec_shr_eq_aluToReg (by decide)
  case shr_zero => exact givesValue_of_alu exec_shr_eq_aluToReg (by decide)
  case sar_sign_fill => exact givesValue_of_alu exec_sar_eq_aluToReg (by decide)
  case sar_no_carry => exact givesValue_of_alu exec_sar_eq_aluToReg (by decide)
  case sar_carry => exact givesValue_of_alu exec_sar_eq_aluToReg (by decide)
  case test =>
    intro rs1 src2 s ha hb
    exact exec_test_disjoint rs1 src2 s (by rw [ha, hb]; decide)

end Sys2Proof.Machine
end

section
/-! PROOF. The branch predictor (52_branch_predictor.md): the 2-bit counter (R293), the return-address stack (R294) and
the training of the branch target buffer (R298). -/

namespace Sys2Proof.Machine

/-! ## The 2-bit counter (R293) -/

theorem toNat_phtNext_taken (c : BitVec 2) : (phtNext c true).toNat = min 3 (c.toNat + 1) := by
  simp only [phtNext, if_true, BitVec.toNat_ofNat]
  omega

theorem toNat_phtNext_not_taken (c : BitVec 2) : (phtNext c false).toNat = c.toNat - 1 := by
  have hfit : c.toNat - 1 < 2 ^ 2 := by omega
  exact (BitVec.toNat_ofNat ..).trans (Nat.mod_eq_of_lt hfit)

/-- Settles O38: the transition as a number for every counter, and the table of the four counters evaluated. -/
theorem counterTransition : Obligations.CounterTransition :=
  ⟨fun c => ⟨toNat_phtNext_taken c, toNat_phtNext_not_taken c⟩, by decide, by decide, by decide⟩

/-! ## The return-address stack (R294) -/

theorem rasPush_ras_of_room {s : State} (v : Word) (h : s.ras.length < s.cfg.rasDepth) :
    (rasPush s v).ras = s.ras ++ [v] := by
  have hfits : ¬ (s.ras ++ [v]).length > s.cfg.rasDepth := by rw [List.length_append, List.length_singleton]; omega
  exact if_neg hfits

theorem rasPush_ras_of_full {s : State} (v : Word) (h : s.cfg.rasDepth ≤ s.ras.length) :
    (rasPush s v).ras = (s.ras ++ [v]).tail := by
  have hover : (s.ras ++ [v]).length > s.cfg.rasDepth := by rw [List.length_append, List.length_singleton]; omega
  exact (if_pos hover).trans List.drop_one

theorem rasPop_of_empty {s : State} (h : s.ras = []) : (rasPop s).1 = none ∧ (rasPop s).2.ras = [] := by
  simp [rasPop, h]

theorem rasPop_of_append {s : State} {r : List Word} {v : Word} (h : s.ras = r ++ [v]) :
    (rasPop s).1 = some v ∧ (rasPop s).2.ras = r := by
  simp [rasPop, h]

/-- The WB step leaves the stack alone: on a bubble, on a latch with an error, and on one that retires. -/
theorem wbStep_ras {mwo : Option MemLatch} {s t : State} {stop : Bool} (h : wbStep mwo s = .ok (t, stop)) :
    t.ras = s.ras := by
  cases mwo with
  | none => cases h; rfl
  | some w =>
    cases hf : w.fault with
    | none =>
      obtain ⟨_, _, _, _, ht⟩ := wbStep_retire hf h
      have hras := congrArg State.ras ht
      exact hras
    | some f =>
      simp only [wbStep, hf] at h
      cases h
      rfl

theorem memStep_ras (emo : Option ExLatch) (s : State) : (memStep emo s).1.ras = s.ras := by
  have hframe := sameOutsideMemory_memStep emo s
  simp only [sameOutsideMemory] at hframe
  simp only [hframe]

theorem exStep_ras {stalled : Bool} {emo : Option ExLatch} {mwo : Option MemLatch} {deo : Option FetchEntry}
    {s t : State} {sig : ExSignals} (h : exStep stalled emo mwo deo s = .ok (t, sig)) : t.ras = s.ras := by
  have hframe := sameOutsideEx_exStep h
  simp only [sameOutsideEx] at hframe
  simp only [hframe]

theorem idStep_ras (sig : ExSignals) (s : State) : (idStep sig s).ras = s.ras := by
  unfold idStep
  split_ifs <;> rfl

/-- Settles O39: the two outcomes of a push and of a pop, and the frame of each step before Fetch. -/
theorem returnStackOperations : Obligations.ReturnStackOperations :=
  ⟨fun _ v h => rasPush_ras_of_room v h, fun _ v h => rasPush_ras_of_full v h, fun _ h => rasPop_of_empty h,
    fun _ _ _ h => rasPop_of_append h, fun _ _ _ _ h => wbStep_ras h, memStep_ras, fun _ _ _ _ _ _ _ h => exStep_ras h,
    idStep_ras⟩

/-! ## Training the branch target buffer (R298) -/

/-- A branch hits exactly when its index holds a valid entry with its own tag (R292). -/
theorem btbHit_eq_some_iff {s : State} {pc : Word} {e : BtbEntry} :
    btbHit s pc = some e ↔ s.btb[btbIndex s pc]? = some (some e) ∧ e.tag = pc := by
  unfold btbHit
  rw [List.getD_eq_getElem?_getD]
  rcases s.btb[btbIndex s pc]? with _ | _ | held
  · simp
  · simp
  · by_cases htag : held.tag = pc
    · simp only [Option.getD_some, if_pos htag, Option.some.injEq]
      exact ⟨fun heq => ⟨heq, heq ▸ htag⟩, And.left⟩
    · simp only [Option.getD_some, if_neg htag, Option.some.injEq, reduceCtorEq, false_iff, not_and]
      exact fun heq => heq ▸ htag

theorem updateBtb_taken_btb (s : State) (pc tgt : Word) :
    (updateBtb s pc true tgt).btb = s.btb.set (btbIndex s pc) (some { tag := pc, target := tgt, last := true }) := rfl

theorem updateBtb_not_taken_of_hit {s : State} {pc : Word} {e : BtbEntry} (tgt : Word) (h : btbHit s pc = some e) :
    (updateBtb s pc false tgt).btb = s.btb.set (btbIndex s pc) (some { e with last := false }) := by
  simp [updateBtb, h]

theorem updateBtb_not_taken_of_miss {s : State} {pc : Word} (tgt : Word) (h : btbHit s pc = none) :
    updateBtb s pc false tgt = s := by
  simp [updateBtb, h]

/-- A list after one position is set, read at any position; a position past the end sets nothing. -/
theorem getElem?_set_eq_ite {α : Type} (l : List α) (i : Nat) (a : α) (k : Nat) :
    (l.set i a)[k]? = if k = i ∧ k < l.length then some a else l[k]? := by
  rw [List.getElem?_set]
  by_cases hki : k = i
  · subst hki
    by_cases hlt : k < l.length <;> simp [hlt]
  · simp [hki, Ne.symm hki]

/-- Settles O40: a taken branch sets the entry at its index, one not taken sets it on a hit, and a miss sets nothing. -/
theorem btbUpdate : Obligations.BtbUpdate := by
  intro s pc tgt
  refine ⟨fun k => ?taken, fun e hentry htag k => ?hit, fun hother => ?miss⟩
  case taken => rw [updateBtb_taken_btb, getElem?_set_eq_ite, btbIndex]
  case hit =>
    have hinside : pc.toNat % s.cfg.btbSize < s.btb.length := (List.getElem?_eq_some_iff.mp hentry).1
    have hat : (k = btbIndex s pc ∧ k < s.btb.length) ↔ k = pc.toNat % s.cfg.btbSize :=
      and_iff_left_of_imp fun hk => hk ▸ hinside
    rw [updateBtb_not_taken_of_hit tgt (btbHit_eq_some_iff.mpr ⟨hentry, htag⟩), getElem?_set_eq_ite, htag]
    simp only [hat]
  case miss =>
    have hmiss : btbHit s pc = none := by
      refine Option.eq_none_iff_forall_not_mem.mpr fun e he => ?_
      obtain ⟨hentry, htag⟩ := btbHit_eq_some_iff.mp he
      exact hother e hentry htag
    rw [updateBtb_not_taken_of_miss tgt hmiss]

end Sys2Proof.Machine
end

section
/-! PROOF. The host's reads (R383, R384): refused while the engine runs, and on a stopped engine answered from the
registers, FLAGS and main memory. -/

namespace Sys2Proof.Machine

/-! ## While the engine runs -/

theorem readRegister_of_running {s : State} (id : Nat) (h : s.status = .running) :
    readRegister id s = .error .hostCallWhileRunning := if_pos h

theorem readFlags_of_running {s : State} (h : s.status = .running) : readFlags s = .error .hostCallWhileRunning :=
  if_pos h

theorem readMemory_of_running {s : State} (addr len : Nat) (h : s.status = .running) :
    readMemory addr len s = .error .hostCallWhileRunning := if_pos h

/-! ## After the stop -/

theorem readRegister_of_lt {s : State} {id : Nat} (hid : id < 16) (h : s.status ≠ .running) :
    readRegister id s = .ok (s.reg ⟨id, hid⟩) := by
  rw [readRegister, if_neg h, dif_pos hid]

theorem readRegister_of_le {s : State} {id : Nat} (hid : 16 ≤ id) (h : s.status ≠ .running) :
    readRegister id s = .error (.noSuchRegister id) := by
  rw [readRegister, if_neg h, dif_neg hid.not_gt]

theorem readFlags_of_stopped {s : State} (h : s.status ≠ .running) : readFlags s = .ok s.flags := if_neg h

theorem readMemory_of_le {s : State} {addr len : Nat} (hin : addr + len ≤ s.cfg.memSize) (h : s.status ≠ .running) :
    readMemory addr len s = .ok (Memory.readBytes s.mem addr len) := by
  rw [readMemory, if_neg h, if_pos hin]

theorem readMemory_of_lt {s : State} {addr len : Nat} (hout : s.cfg.memSize < addr + len) (h : s.status ≠ .running) :
    readMemory addr len s = .error (.rangeOutsideMemory addr len) := by
  rw [readMemory, if_neg h, if_neg hout.not_ge]

/-- The bytes answered are those of main memory at ascending addresses; L1 and the store buffer are not asked (R384). -/
theorem readMemory_bytes {s : State} {addr len : Nat} (hin : addr + len ≤ s.cfg.memSize) (h : s.status ≠ .running) :
    ∃ bs, readMemory addr len s = .ok bs ∧ bs.length = len
      ∧ ∀ k, k < len → bs[k]? = some (Memory.read s.mem (addr + k)) := by
  refine ⟨_, readMemory_of_le hin h, Memory.length_readBytes s.mem addr len, fun k hk => ?_⟩
  rw [Memory.getElem?_readBytes, if_pos hk]

/-- Settles O56: the three reads, split on the status and on the range of the id or of the addresses. -/
theorem hostReadsAfterTheStop : Obligations.HostReadsAfterTheStop :=
  ⟨fun _ _ hid hstop => readRegister_of_lt hid hstop, fun _ _ hstop hid => readRegister_of_le hid hstop,
    fun _ hstop => readFlags_of_stopped hstop, fun _ _ _ hstop hin => readMemory_bytes hin hstop,
    fun _ _ _ hstop hout => readMemory_of_lt hout hstop,
    fun _ id addr len hrun =>
      ⟨readRegister_of_running id hrun, readFlags_of_running hrun, readMemory_of_running addr len hrun⟩⟩

end Sys2Proof.Machine
end

section
/-! PROOF. Encoding and decoding (R90 to R107): a parser of an operand accepts exactly the bytes of the operand it answers,
a row of the opcode map builds instructions with the row's opcode, and both directions of the round trip follow. -/

namespace Sys2Proof

/-! ## Register fields -/

/-- A byte with a zero low nibble is the packed form of the register its high nibble names (R97). -/
theorem reg4_byte_iff (b : Byte) (r : Reg) :
    (loNibble b = 0 ∧ regOfNat (hiNibble b) = r) ↔ b = BitVec.ofNat 8 (16 * r.val) := by
  have hb := b.isLt
  have hr := r.isLt
  simp only [loNibble, hiNibble, regOfNat, Fin.ext_iff, Fin.ofNat, ← BitVec.toNat_inj, BitVec.toNat_ofNat]
  omega

/-- The packed byte of class A3 names both registers, and is determined by them (R104). -/
theorem a3_byte_iff (b : Byte) (rd rs1 : Reg) :
    (regOfNat (hiNibble b) = rd ∧ regOfNat (loNibble b) = rs1) ↔ [b] = a3Arg rd rs1 := by
  have hb := b.isLt
  have hd := rd.isLt
  have hs := rs1.isLt
  simp only [a3Arg, List.cons.injEq, and_true, loNibble, hiNibble, regOfNat, Fin.ext_iff, Fin.ofNat,
    ← BitVec.toNat_inj, BitVec.toNat_ofNat]
  omega

/-! ## Immediate fields -/

/-- A field of `8 * n` bits and its `n` little-endian bytes determine each other (R99). -/
theorem field_bytes_iff {n w : Nat} (hwidth : w = 8 * n) {bs : List Byte} (hlen : bs.length = n) (v : BitVec w) :
    BitVec.ofNat w (leNat bs) = v ↔ bs = leBytes n v.toNat := by
  have hw : 2 ^ w = 256 ^ n := by rw [hwidth, pow_mul]; norm_num
  constructor
  · rintro rfl
    have hfit : leNat bs < 2 ^ w := hw ▸ hlen ▸ leNat_lt bs
    rw [BitVec.toNat_ofNat, Nat.mod_eq_of_lt hfit, ← hlen, leBytes_leNat]
  · rintro rfl
    rw [leNat_leBytes, ← hw, ← BitVec.toNat_inj, BitVec.toNat_ofNat, Nat.mod_mod, Nat.mod_eq_of_lt v.isLt]

/-! ## Operand parsers: each accepts exactly the bytes of what it answers -/

theorem parseReg_eq_ok_iff {k : OperandKind} {bs : List Byte} {r : RegOp} :
    parseReg k bs = .ok r ↔ k = r.kind ∧ bs = r.arg ∧ r.wf = true := by
  constructor
  · intro h
    unfold parseReg at h
    split at h
    · split_ifs at h with hz
      cases h
      exact ⟨rfl, congrArg (fun x => [x]) ((reg4_byte_iff _ _).1 ⟨hz, rfl⟩), rfl⟩
    · rename_i b
      by_cases hz : b.toNat < 16
      · rw [if_pos hz] at h
        cases h
        exact ⟨rfl, rfl, decide_eq_true hz⟩
      · rw [if_neg hz] at h
        cases h
    · cases h
  · rintro ⟨rfl, rfl, hwf⟩
    cases r with
    | reg4 r =>
      obtain ⟨h1, h2⟩ := (reg4_byte_iff _ r).2 rfl
      exact (if_pos h1).trans (congrArg (fun x => Except.ok (RegOp.reg4 x)) h2)
    | reg8 b => exact if_pos (of_decide_eq_true hwf)

theorem parseSrc2_eq_ok_iff {k : OperandKind} {bs : List Byte} {s : Src2} (hlen : bs.length = k.argBytes) :
    parseSrc2 k bs = .ok s ↔ k = s.kind ∧ bs = s.arg ∧ s.wf = true := by
  constructor
  · intro h
    unfold parseSrc2 at h
    split at h
    · split_ifs at h with hz
      cases h
      exact ⟨rfl, congrArg (fun x => [x]) ((reg4_byte_iff _ _).1 ⟨hz, rfl⟩), rfl⟩
    · rename_i b
      by_cases hz : b.toNat < 16
      · rw [if_pos hz] at h
        cases h
        exact ⟨rfl, rfl, decide_eq_true hz⟩
      · rw [if_neg hz] at h
        cases h
    · cases h
      exact ⟨rfl, (field_bytes_iff rfl hlen _).1 rfl, rfl⟩
    · cases h
      exact ⟨rfl, (field_bytes_iff rfl hlen _).1 rfl, rfl⟩
    · cases h
      exact ⟨rfl, (field_bytes_iff rfl hlen _).1 rfl, rfl⟩
    · cases h
      exact ⟨rfl, (field_bytes_iff rfl hlen _).1 rfl, rfl⟩
    · cases h
  · rintro ⟨rfl, rfl, hwf⟩
    cases s with
    | reg4 r =>
      obtain ⟨h1, h2⟩ := (reg4_byte_iff _ r).2 rfl
      exact (if_pos h1).trans (congrArg (fun x => Except.ok (Src2.reg4 x)) h2)
    | reg8 b => exact if_pos (of_decide_eq_true hwf)
    | imm8 v => exact congrArg (fun x => Except.ok (Src2.imm8 x)) ((field_bytes_iff rfl hlen v).2 rfl)
    | imm16 v => exact congrArg (fun x => Except.ok (Src2.imm16 x)) ((field_bytes_iff rfl hlen v).2 rfl)
    | imm32 v => exact congrArg (fun x => Except.ok (Src2.imm32 x)) ((field_bytes_iff rfl hlen v).2 rfl)
    | imm64 v => exact congrArg (fun x => Except.ok (Src2.imm64 x)) ((field_bytes_iff rfl hlen v).2 rfl)

theorem parseTarget_eq_ok_iff {k : OperandKind} {bs : List Byte} {t : Target} (hlen : bs.length = k.argBytes) :
    parseTarget k bs = .ok t ↔ k = t.kind ∧ bs = t.arg := by
  constructor
  · intro h
    unfold parseTarget at h
    split at h
    · cases h
      exact ⟨rfl, (field_bytes_iff rfl hlen _).1 rfl⟩
    · cases h
      exact ⟨rfl, (field_bytes_iff rfl hlen _).1 rfl⟩
    · cases h
  · rintro ⟨rfl, rfl⟩
    cases t with
    | pcRel d => exact congrArg (fun x => Except.ok (Target.pcRel x)) ((field_bytes_iff rfl hlen d).2 rfl)
    | abs a => exact congrArg (fun x => Except.ok (Target.abs x)) ((field_bytes_iff rfl hlen a).2 rfl)

theorem parseMem_eq_ok_iff {k : OperandKind} {bs : List Byte} {m : MemOp} (hlen : bs.length = k.argBytes) :
    parseMem k bs = .ok m ↔ k = m.kind ∧ bs = m.arg := by
  constructor
  · intro h
    unfold parseMem at h
    split at h
    · cases h
      exact ⟨rfl, (field_bytes_iff rfl hlen _).1 rfl⟩
    · rename_i b bs
      split_ifs at h with hz
      cases h
      have hlen' : bs.length = 4 := by simpa [OperandKind.argBytes] using hlen
      refine ⟨rfl, ?_⟩
      rw [MemOp.arg, ← (reg4_byte_iff b _).1 ⟨hz, rfl⟩, ← (field_bytes_iff rfl hlen' _).1 rfl]
    · cases h
  · rintro ⟨rfl, rfl⟩
    cases m with
    | regOff r off =>
      obtain ⟨h1, h2⟩ := (reg4_byte_iff _ r).2 rfl
      have h3 := (field_bytes_iff (n := 4) rfl (length_leBytes ..) off).2 rfl
      simp only [MemOp.kind, MemOp.arg, parseMem, h1, h2, h3, if_true]
    | abs a => exact congrArg (fun x => Except.ok (MemOp.abs x)) ((field_bytes_iff rfl hlen a).2 rfl)

/-! ## The rows of the opcode map -/

/-- The instructions a row builds, from operands of its class (R103). -/
def OpcodeRow.Builds (i : Instr) : OpcodeRow → Prop
  | .a3 mk => ∃ rd rs1 src2, i = mk rd rs1 src2
  | .a2d mk => ∃ rd src2, i = mk rd src2
  | .a2c mk => ∃ rs1 src2, i = mk rs1 src2
  | .j mk => ∃ t, i = mk t
  | .jr mk => ∃ rs1 t, i = mk rs1 t
  | .ld mk => ∃ rd m, i = mk rd m
  | .st mk => ∃ rs2 m, i = mk rs2 m
  | .n only => i = only

/-- The instruction has the given opcode, operands and check. -/
def Instr.EncodedAs (i : Instr) (op : Nat) (operand1 operand2 : OperandKind × List Byte) (wf : Bool) : Prop :=
  i.opcode = op ∧ i.operands = (operand1, operand2) ∧ i.wf = wf

/-- Whatever operands the row with opcode `op` is given, it builds an instruction with that opcode, with the operands
encoded as the class says, and well formed when they are (R103, R104, R114). -/
def OpcodeRow.Faithful (op : Nat) : OpcodeRow → Prop
  | .a3 mk => ∀ rd rs1 src2, (mk rd rs1 src2).EncodedAs op (.reg4, a3Arg rd rs1) (src2.kind, src2.arg) src2.wf
  | .a2d mk => ∀ rd src2, (mk rd src2).EncodedAs op (rd.kind, rd.arg) (src2.kind, src2.arg) (rd.wf && src2.wf)
  | .a2c mk => ∀ rs1 src2, (mk rs1 src2).EncodedAs op (rs1.kind, rs1.arg) (src2.kind, src2.arg) (rs1.wf && src2.wf)
  | .j mk => ∀ t, (mk t).EncodedAs op (t.kind, t.arg) (.none, []) true
  | .jr mk => ∀ rs1 t, (mk rs1 t).EncodedAs op (rs1.kind, rs1.arg) (t.kind, t.arg) rs1.wf
  | .ld mk => ∀ rd m, (mk rd m).EncodedAs op (rd.kind, rd.arg) (m.kind, m.arg) rd.wf
  | .st mk => ∀ rs2 m, (mk rs2 m).EncodedAs op (rs2.kind, rs2.arg) (m.kind, m.arg) rs2.wf
  | .n only => only.EncodedAs op (.none, []) (.none, []) true

/-- Every row of R105 is faithful to its opcode byte. -/
theorem faithful_of_opcodeRow {op : Nat} {row : OpcodeRow} (h : opcodeRow op = some row) : row.Faithful op := by
  unfold opcodeRow at h
  split at h
  all_goals cases h
  all_goals simp only [OpcodeRow.Faithful]
  all_goals intros
  all_goals exact ⟨rfl, rfl, rfl⟩

/-- Every instruction is built by the row of its opcode. -/
theorem opcodeRow_opcode (i : Instr) : ∃ row, opcodeRow i.opcode = some row ∧ row.Builds i := by
  cases i <;> exact ⟨_, rfl, by simp [OpcodeRow.Builds]⟩

/-! ## Kinds of a class (R103) -/

theorem RegOp.isReg_kind (r : RegOp) : r.kind.isReg = true := by cases r <;> rfl
theorem Src2.isSrc2_kind (s : Src2) : s.kind.isSrc2 = true := by cases s <;> rfl
theorem Target.isTarget_kind (t : Target) : t.kind.isTarget = true := by cases t <;> rfl
theorem MemOp.isMem_kind (m : MemOp) : m.kind.isMem = true := by cases m <;> rfl

/-- The operand bytes of an encoding are as many as the kinds take, and at most nine (R90, R94). -/
theorem length_operands (i : Instr) :
    i.operands.1.2.length = i.kind1.argBytes ∧ i.operands.2.2.length = i.kind2.argBytes
      ∧ i.kind1.argBytes + i.kind2.argBytes ≤ 9 := by
  obtain ⟨row, hrow, hbuilds⟩ := opcodeRow_opcode i
  have hfaithful := faithful_of_opcodeRow hrow
  simp only [Instr.kind1, Instr.kind2]
  cases row with
  | a3 mk =>
    obtain ⟨rd, rs1, src2, rfl⟩ := hbuilds
    rw [(hfaithful rd rs1 src2).2.1]
    exact ⟨rfl, src2.length_arg, by have := src2.argBytes_bounds; have : OperandKind.reg4.argBytes = 1 := rfl; dsimp only; omega⟩
  | a2d mk =>
    obtain ⟨rd, src2, rfl⟩ := hbuilds
    rw [(hfaithful rd src2).2.1]
    exact ⟨rd.length_arg, src2.length_arg, by have := rd.argBytes_eq; have := src2.argBytes_bounds; dsimp only; omega⟩
  | a2c mk =>
    obtain ⟨rs1, src2, rfl⟩ := hbuilds
    rw [(hfaithful rs1 src2).2.1]
    exact ⟨rs1.length_arg, src2.length_arg, by have := rs1.argBytes_eq; have := src2.argBytes_bounds; dsimp only; omega⟩
  | j mk =>
    obtain ⟨t, rfl⟩ := hbuilds
    rw [(hfaithful t).2.1]
    exact ⟨t.length_arg, rfl, by have := t.argBytes_eq; have : OperandKind.none.argBytes = 0 := rfl; dsimp only; omega⟩
  | jr mk =>
    obtain ⟨rs1, t, rfl⟩ := hbuilds
    rw [(hfaithful rs1 t).2.1]
    exact ⟨rs1.length_arg, t.length_arg, by have := rs1.argBytes_eq; have := t.argBytes_eq; dsimp only; omega⟩
  | ld mk =>
    obtain ⟨rd, m, rfl⟩ := hbuilds
    rw [(hfaithful rd m).2.1]
    exact ⟨rd.length_arg, m.length_arg, by have := rd.argBytes_eq; have := m.argBytes_bounds; dsimp only; omega⟩
  | st mk =>
    obtain ⟨rs2, m, rfl⟩ := hbuilds
    rw [(hfaithful rs2 m).2.1]
    exact ⟨rs2.length_arg, m.length_arg, by have := rs2.argBytes_eq; have := m.argBytes_bounds; dsimp only; omega⟩
  | n only =>
    cases hbuilds
    rw [hfaithful.2.1]
    exact ⟨rfl, rfl, by decide⟩

/-- Every encoding has the length of R96, 3 to 12 bytes (R90). -/
theorem encodedLength (i : Instr) : Laws.EncodedLength.Statement i := by
  obtain ⟨h1, h2, hbound⟩ := length_operands i
  exact Laws.EncodedLength.of_bounds i h1 h2 hbound

/-! ## The operands of a row (R106 steps 5, 9 and 10) -/

/-- The kinds and operand bytes of a well-formed instruction are valid for its row and parse to it. -/
theorem parseOperands_operands {i : Instr} {row : OpcodeRow} (hrow : opcodeRow i.opcode = some row)
    (hbuilds : row.Builds i) (hwf : i.wf = true) :
    row.kindsValid i.kind1 i.kind2 = true
      ∧ parseOperands i.kind1 i.kind2 i.operands.1.2 i.operands.2.2 row = .ok i := by
  have hfaithful := faithful_of_opcodeRow hrow
  simp only [Instr.kind1, Instr.kind2]
  cases row with
  | a3 mk =>
    obtain ⟨rd, rs1, src2, rfl⟩ := hbuilds
    obtain ⟨-, hops, hwf'⟩ := hfaithful rd rs1 src2
    obtain ⟨hd, hs⟩ := (a3_byte_iff _ rd rs1).2 rfl
    have hsrc := (parseSrc2_eq_ok_iff src2.length_arg).2 ⟨rfl, rfl, hwf'.symm.trans hwf⟩
    rw [hops]
    exact ⟨by simp [OpcodeRow.kindsValid, src2.isSrc2_kind], by simp only [parseOperands, a3Arg, hsrc, hd, hs]⟩
  | a2d mk =>
    obtain ⟨rd, src2, rfl⟩ := hbuilds
    obtain ⟨-, hops, hwf'⟩ := hfaithful rd src2
    obtain ⟨hw1, hw2⟩ := Bool.and_eq_true_iff.1 (hwf'.symm.trans hwf)
    have hreg := parseReg_eq_ok_iff.2 ⟨rfl, rfl, hw1⟩
    have hsrc := (parseSrc2_eq_ok_iff src2.length_arg).2 ⟨rfl, rfl, hw2⟩
    rw [hops]
    exact ⟨by simp [OpcodeRow.kindsValid, rd.isReg_kind, src2.isSrc2_kind], by simp only [parseOperands, hreg, hsrc]⟩
  | a2c mk =>
    obtain ⟨rs1, src2, rfl⟩ := hbuilds
    obtain ⟨-, hops, hwf'⟩ := hfaithful rs1 src2
    obtain ⟨hw1, hw2⟩ := Bool.and_eq_true_iff.1 (hwf'.symm.trans hwf)
    have hreg := parseReg_eq_ok_iff.2 ⟨rfl, rfl, hw1⟩
    have hsrc := (parseSrc2_eq_ok_iff src2.length_arg).2 ⟨rfl, rfl, hw2⟩
    rw [hops]
    exact ⟨by simp [OpcodeRow.kindsValid, rs1.isReg_kind, src2.isSrc2_kind], by simp only [parseOperands, hreg, hsrc]⟩
  | j mk =>
    obtain ⟨t, rfl⟩ := hbuilds
    obtain ⟨-, hops, -⟩ := hfaithful t
    have ht := (parseTarget_eq_ok_iff t.length_arg).2 ⟨rfl, rfl⟩
    rw [hops]
    exact ⟨by simp [OpcodeRow.kindsValid, t.isTarget_kind], by simp only [parseOperands, ht]⟩
  | jr mk =>
    obtain ⟨rs1, t, rfl⟩ := hbuilds
    obtain ⟨-, hops, hwf'⟩ := hfaithful rs1 t
    have hreg := parseReg_eq_ok_iff.2 ⟨rfl, rfl, hwf'.symm.trans hwf⟩
    have ht := (parseTarget_eq_ok_iff t.length_arg).2 ⟨rfl, rfl⟩
    rw [hops]
    exact ⟨by simp [OpcodeRow.kindsValid, rs1.isReg_kind, t.isTarget_kind], by simp only [parseOperands, hreg, ht]⟩
  | ld mk =>
    obtain ⟨rd, m, rfl⟩ := hbuilds
    obtain ⟨-, hops, hwf'⟩ := hfaithful rd m
    have hreg := parseReg_eq_ok_iff.2 ⟨rfl, rfl, hwf'.symm.trans hwf⟩
    have hm := (parseMem_eq_ok_iff m.length_arg).2 ⟨rfl, rfl⟩
    rw [hops]
    exact ⟨by simp [OpcodeRow.kindsValid, rd.isReg_kind, m.isMem_kind], by simp only [parseOperands, hreg, hm]⟩
  | st mk =>
    obtain ⟨rs2, m, rfl⟩ := hbuilds
    obtain ⟨-, hops, hwf'⟩ := hfaithful rs2 m
    have hreg := parseReg_eq_ok_iff.2 ⟨rfl, rfl, hwf'.symm.trans hwf⟩
    have hm := (parseMem_eq_ok_iff m.length_arg).2 ⟨rfl, rfl⟩
    rw [hops]
    exact ⟨by simp [OpcodeRow.kindsValid, rs2.isReg_kind, m.isMem_kind], by simp only [parseOperands, hreg, hm]⟩
  | n only =>
    cases hbuilds
    rw [hfaithful.2.1]
    exact ⟨rfl, rfl⟩

/-- What parses for a row is an instruction whose encoding has exactly those kinds and operand bytes, well formed. -/
theorem encodedAs_of_parseOperands {op : Nat} {row : OpcodeRow} (hfaithful : row.Faithful op) {k1 k2 : OperandKind}
    {bs1 bs2 : List Byte} (hvalid : row.kindsValid k1 k2 = true) (h1 : bs1.length = k1.argBytes)
    (h2 : bs2.length = k2.argBytes) {i : Instr} (h : parseOperands k1 k2 bs1 bs2 row = .ok i) :
    i.EncodedAs op (k1, bs1) (k2, bs2) true := by
  cases row with
  | a3 mk =>
    simp only [OpcodeRow.kindsValid, Bool.and_eq_true, beq_iff_eq] at hvalid
    obtain ⟨rfl, -⟩ := hvalid
    obtain ⟨b, rfl⟩ := List.length_eq_one_iff.1 h1
    simp only [parseOperands] at h
    cases hs : parseSrc2 k2 bs2 with
    | error e => rw [hs] at h; cases h
    | ok src2 =>
      obtain ⟨rfl, rfl, hwf⟩ := (parseSrc2_eq_ok_iff h2).1 hs
      rw [hs] at h
      cases h
      have := hfaithful (regOfNat (hiNibble b)) (regOfNat (loNibble b)) src2
      rwa [hwf, ← (a3_byte_iff b _ _).1 ⟨rfl, rfl⟩] at this
  | a2d mk =>
    simp only [parseOperands] at h
    split at h <;> cases h
    rename_i rd src2 hr hs
    obtain ⟨rfl, rfl, hw1⟩ := parseReg_eq_ok_iff.1 hr
    obtain ⟨rfl, rfl, hw2⟩ := (parseSrc2_eq_ok_iff h2).1 hs
    simpa only [hw1, hw2, Bool.and_self] using hfaithful rd src2
  | a2c mk =>
    simp only [parseOperands] at h
    split at h <;> cases h
    rename_i rs1 src2 hr hs
    obtain ⟨rfl, rfl, hw1⟩ := parseReg_eq_ok_iff.1 hr
    obtain ⟨rfl, rfl, hw2⟩ := (parseSrc2_eq_ok_iff h2).1 hs
    simpa only [hw1, hw2, Bool.and_self] using hfaithful rs1 src2
  | j mk =>
    simp only [OpcodeRow.kindsValid, Bool.and_eq_true, beq_iff_eq] at hvalid
    obtain ⟨-, rfl⟩ := hvalid
    obtain rfl := List.length_eq_zero_iff.1 h2
    simp only [parseOperands] at h
    cases ht : parseTarget k1 bs1 with
    | error e => rw [ht] at h; cases h
    | ok t =>
      obtain ⟨rfl, rfl⟩ := (parseTarget_eq_ok_iff h1).1 ht
      rw [ht] at h
      cases h
      exact hfaithful t
  | jr mk =>
    simp only [parseOperands] at h
    split at h <;> cases h
    rename_i rs1 t hr ht
    obtain ⟨rfl, rfl, hw⟩ := parseReg_eq_ok_iff.1 hr
    obtain ⟨rfl, rfl⟩ := (parseTarget_eq_ok_iff h2).1 ht
    simpa only [hw] using hfaithful rs1 t
  | ld mk =>
    simp only [parseOperands] at h
    split at h <;> cases h
    rename_i rd m hr hm
    obtain ⟨rfl, rfl, hw⟩ := parseReg_eq_ok_iff.1 hr
    obtain ⟨rfl, rfl⟩ := (parseMem_eq_ok_iff h2).1 hm
    simpa only [hw] using hfaithful rd m
  | st mk =>
    simp only [parseOperands] at h
    split at h <;> cases h
    rename_i rs2 m hr hm
    obtain ⟨rfl, rfl, hw⟩ := parseReg_eq_ok_iff.1 hr
    obtain ⟨rfl, rfl⟩ := (parseMem_eq_ok_iff h2).1 hm
    simpa only [hw] using hfaithful rs2 m
  | n only =>
    simp only [OpcodeRow.kindsValid, Bool.and_eq_true, beq_iff_eq] at hvalid
    obtain ⟨rfl, rfl⟩ := hvalid
    obtain rfl := List.length_eq_zero_iff.1 h1
    obtain rfl := List.length_eq_zero_iff.1 h2
    cases h
    exact hfaithful

/-! ## The round trip -/

theorem toNat_byte_of_lt {n : Nat} (h : n < 256) : (BitVec.ofNat 8 n).toNat = n := by
  rw [BitVec.toNat_ofNat]; omega

theorem opcode_lt (i : Instr) : i.opcode < 256 := by cases i <;> simp [Instr.opcode]

/-- The format byte names both kinds (R93). -/
theorem kindOfNibble_format (k1 k2 : OperandKind) :
    kindOfNibble (hiNibble (BitVec.ofNat 8 (16 * k1.nibble + k2.nibble))) = some k1
      ∧ kindOfNibble (loNibble (BitVec.ofNat 8 (16 * k1.nibble + k2.nibble))) = some k2 := by
  have h1 := nibble_lt k1
  have h2 := nibble_lt k2
  rw [hiNibble, loNibble, toNat_byte_of_lt (by omega), show (16 * k1.nibble + k2.nibble) / 16 = k1.nibble by omega,
    show (16 * k1.nibble + k2.nibble) % 16 = k2.nibble by omega]
  exact ⟨kindOfNibble_nibble k1, kindOfNibble_nibble k2⟩

theorem length_lt (i : Instr) : i.length < 128 := by
  have := (encodedLength i).2.2
  omega

/-- The header of an encoding passes every check of the decoder up to the length of what follows it (R106). -/
theorem decode_header {i : Instr} {row : OpcodeRow} (hrow : opcodeRow i.opcode = some row)
    (hvalid : row.kindsValid i.kind1 i.kind2 = true) (args : List Byte) :
    decode (BitVec.ofNat 8 i.opcode :: BitVec.ofNat 8 (16 * i.kind1.nibble + i.kind2.nibble)
        :: BitVec.ofNat 8 i.length :: args)
      = if args.length < i.kind1.argBytes + i.kind2.argBytes then .error .truncated
        else parseOperands i.kind1 i.kind2 (args.take i.kind1.argBytes)
          ((args.drop i.kind1.argBytes).take i.kind2.argBytes) row := by
  obtain ⟨hk1, hk2⟩ := kindOfNibble_format i.kind1 i.kind2
  have hop := toNat_byte_of_lt (opcode_lt i)
  have hlt := length_lt i
  have hsize := toNat_byte_of_lt (n := i.length) (by omega)
  simp only [decode, hop, hrow, hk1, hk2, hvalid, if_true, decodeArgs, hsize]
  rw [if_neg (by omega), if_neg (by simp [Instr.length])]

/-- Settles O1: the header passes, and the operand bytes parse to the instruction. -/
theorem decodeInvertsEncode : Obligations.DecodeInvertsEncode := by
  intro i rest hwf
  obtain ⟨row, hrow, hbuilds⟩ := opcodeRow_opcode i
  obtain ⟨hvalid, hparse⟩ := parseOperands_operands hrow hbuilds hwf
  obtain ⟨h1, h2, -⟩ := length_operands i
  rw [encode, List.cons_append, List.cons_append, List.cons_append, decode_header hrow hvalid, if_neg (by simp; omega),
    List.append_assoc, ← h1, List.take_left, List.drop_left, ← h2, List.take_left]
  exact hparse

/-- Bytes that decode pass every check of R106, in its order. -/
theorem decode_ok_checks {bs : List Byte} {i : Instr} (h : decode bs = .ok i) :
    ∃ opcode format size args row k1 k2, bs = opcode :: format :: size :: args ∧ opcodeRow opcode.toNat = some row
      ∧ kindOfNibble (hiNibble format) = some k1 ∧ kindOfNibble (loNibble format) = some k2
      ∧ row.kindsValid k1 k2 = true ∧ size.toNat = 3 + k1.argBytes + k2.argBytes
      ∧ k1.argBytes + k2.argBytes ≤ args.length
      ∧ parseOperands k1 k2 (args.take k1.argBytes) ((args.drop k1.argBytes).take k2.argBytes) row = .ok i := by
  unfold decode at h
  split at h
  · rename_i opcode format size args
    split at h
    · cases h
    · rename_i row hrow
      split at h
      · rename_i k1 k2 hk1 hk2
        split_ifs at h with hvalid
        unfold decodeArgs at h
        split_ifs at h with hext hsize hlen
        exact ⟨opcode, format, size, args, row, k1, k2, rfl, hrow, hk1, hk2, hvalid, by simpa using hsize,
          Nat.le_of_not_lt hlen, h⟩
      · cases h
  · cases h

/-- Settles O2: what passes every check is the header of the instruction the operands parse to, then its operand
bytes. -/
theorem decodedBytesAreTheEncoding : Obligations.DecodedBytesAreTheEncoding := by
  intro bs i h
  obtain ⟨opcode, format, size, args, row, k1, k2, rfl, hrow, hk1, hk2, hvalid, hsize, hlen, hparse⟩ := decode_ok_checks h
  obtain ⟨hop, hops, hwf⟩ := encodedAs_of_parseOperands (faithful_of_opcodeRow hrow) hvalid
    (List.length_take_of_le (by omega)) (List.length_take_of_le (by rw [List.length_drop]; omega)) hparse
  have hkind1 : i.kind1 = k1 := by rw [Instr.kind1, hops]
  have hkind2 : i.kind2 = k2 := by rw [Instr.kind2, hops]
  have hformat : BitVec.ofNat 8 (16 * k1.nibble + k2.nibble) = format := by
    have hf := format.isLt
    rw [nibble_of_kindOfNibble hk1, nibble_of_kindOfNibble hk2, hiNibble, loNibble, Nat.div_add_mod, BitVec.ofNat_toNat,
      BitVec.setWidth_eq]
  have hlength : BitVec.ofNat 8 i.length = size := by
    rw [Instr.length, hkind1, hkind2, ← hsize, BitVec.ofNat_toNat, BitVec.setWidth_eq]
  refine ⟨hwf, (args.drop k1.argBytes).drop k2.argBytes, ?_⟩
  rw [encode, hop, hkind1, hkind2, hformat, hlength, hops, BitVec.ofNat_toNat, BitVec.setWidth_eq]
  simp only [List.cons_append, List.append_assoc, List.take_append_drop]

/-! ## Outside the opcode map (R105, R107) -/

theorem parseReg_ne_unknownOpcode (k : OperandKind) (bs : List Byte) : parseReg k bs ≠ .error .unknownOpcode := by
  unfold parseReg; split <;> try split_ifs
  all_goals simp

theorem parseSrc2_ne_unknownOpcode (k : OperandKind) (bs : List Byte) : parseSrc2 k bs ≠ .error .unknownOpcode := by
  unfold parseSrc2; split <;> try split_ifs
  all_goals simp

theorem parseTarget_ne_unknownOpcode (k : OperandKind) (bs : List Byte) : parseTarget k bs ≠ .error .unknownOpcode := by
  unfold parseTarget; split <;> simp

theorem parseMem_ne_unknownOpcode (k : OperandKind) (bs : List Byte) : parseMem k bs ≠ .error .unknownOpcode := by
  unfold parseMem; split <;> try split_ifs
  all_goals simp

/-- No check after the opcode's names the opcode. -/
theorem parseOperands_ne_unknownOpcode (k1 k2 : OperandKind) (bs1 bs2 : List Byte) (row : OpcodeRow) :
    parseOperands k1 k2 bs1 bs2 row ≠ .error .unknownOpcode := by
  have hr := parseReg_ne_unknownOpcode k1 bs1
  have hs := parseSrc2_ne_unknownOpcode k2 bs2
  have ht1 := parseTarget_ne_unknownOpcode k1 bs1
  have ht2 := parseTarget_ne_unknownOpcode k2 bs2
  have hm := parseMem_ne_unknownOpcode k2 bs2
  cases row <;> simp only [parseOperands]
  case n => simp
  case a3 => split <;> [split; skip] <;> simp_all
  all_goals split <;> simp_all

theorem opcodeRow_eq_none_iff (op : Nat) : opcodeRow op = none ↔
    ¬ (op ≤ 0x07 ∨ (0x20 ≤ op ∧ op ≤ 0x27) ∨ (0x40 ≤ op ∧ op ≤ 0x4C) ∨ (0x50 ≤ op ∧ op ≤ 0x51)
      ∨ (0x60 ≤ op ∧ op ≤ 0x67) ∨ (0x80 ≤ op ∧ op ≤ 0x83)) := by
  unfold opcodeRow
  split
  case h_44 =>
    simp only [imp_false, true_iff] at *
    omega
  all_goals simp

/-- Settles O3: the opcode is refused by name exactly when no row has it, and no later check gives that name. -/
theorem opcodesOutsideTheMapAreRefused : Obligations.OpcodesOutsideTheMapAreRefused := by
  intro op f z args
  rw [← opcodeRow_eq_none_iff]
  simp only [decode]
  cases hrow : opcodeRow op.toNat with
  | none => simp
  | some row =>
    simp only [reduceCtorEq, iff_false]
    split
    · split_ifs
      · unfold decodeArgs
        split_ifs
        · simp
        · simp
        · simp
        · exact parseOperands_ne_unknownOpcode _ _ _ _ row
      · simp
    · simp

/-- Settles O4: each word evaluated. -/
theorem sampleWordsDecode : Obligations.SampleWordsDecode := by
  refine ⟨?_, ?_, ?_, ?_, ?_, ?_, ?_, ?_⟩ <;> decide

end Sys2Proof

namespace Sys2Proof.Machine

/-! ## The code range (R61, R106 steps 1 and 8) -/

theorem Memory.take_readBytes (m : Memory) (a n k : Nat) :
    (Memory.readBytes m a n).take k = Memory.readBytes m a (min k n) := by
  apply List.ext_getElem?
  intro i
  simp only [List.getElem?_take, Memory.getElem?_readBytes, lt_min_iff]
  by_cases h : i < k <;> simp [h]

/-- The start of an encoding, cut off before its end, is truncated (R106 step 8). -/
theorem decode_take_encode {i : Instr} (hwf : i.wf = true) {n : Nat} (hn : n < i.length) :
    decode ((encode i).take n) = .error .truncated := by
  obtain ⟨row, hrow, hbuilds⟩ := opcodeRow_opcode i
  obtain ⟨hvalid, -⟩ := parseOperands_operands hrow hbuilds hwf
  rcases n with _ | _ | _ | n
  · rfl
  · rfl
  · rfl
  · rw [encode, List.take_succ_cons, List.take_succ_cons, List.take_succ_cons, decode_header hrow hvalid, if_pos]
    rw [List.length_take]
    unfold Instr.length at hn
    omega

/-- What the decoder sees of an encoding in memory is all of it, or a start that ends with the code range. -/
theorem decodeAt_of_encode {s : State} {a : Word} {i : Instr} (hwf : i.wf = true)
    (hmem : Memory.readBytes s.mem a.toNat i.length = encode i) :
    decodeAt s a = if s.layout.codeBase ≤ a.toNat ∧ a.toNat + i.length ≤ s.layout.codeEnd then .ok i
      else .error .truncated := by
  obtain ⟨-, hmin, hmax⟩ := encodedLength i
  by_cases hbase : s.layout.codeBase ≤ a.toNat
  · rw [decodeAt, if_neg (by omega), codeWindow]
    generalize hn : min maxInstrBytes (s.layout.codeEnd - a.toNat) = n
    have hmaxInstr : maxInstrBytes = 12 := rfl
    by_cases hend : a.toNat + i.length ≤ s.layout.codeEnd
    · rw [if_pos ⟨hbase, hend⟩]
      have hwhole : (Memory.readBytes s.mem a.toNat n).take i.length = encode i := by
        rw [Memory.take_readBytes, Nat.min_eq_left (by omega), hmem]
      rw [← List.take_append_drop i.length (Memory.readBytes s.mem a.toNat n), hwhole]
      exact decodeInvertsEncode i _ hwf
    · rw [if_neg (fun h => hend h.2)]
      have hcut : n < i.length := by omega
      rw [← Nat.min_eq_left hcut.le, ← Memory.take_readBytes, hmem]
      exact decode_take_encode hwf hcut
  · rw [decodeAt, if_pos (by omega), if_neg (fun h => hbase h.1)]

/-! ## The step (R4, R27) -/

theorem step_of_decode {s : State} {i : Instr} (hrun : s.status = .running) (h : decodeAt s s.pc = .ok i) :
    step s = exec i s := by
  simp only [step, hrun, fetchAndRun, h]

theorem step_of_decodeError {s : State} {c : DecodeCause} (hrun : s.status = .running) (h : decodeAt s s.pc = .error c) :
    step s = .next (stoppedWith .decodeError (.decode c) s) := by
  simp only [step, hrun, fetchAndRun, h]
  rfl

theorem step_of_stopped {s : State} (h : s.status ≠ .running) : step s = .next s := by
  unfold step
  split
  · contradiction
  · rfl

theorem tick_of_stopped {s : State} (h : s.status ≠ .running) : tick s = .next s := by
  unfold tick
  split
  · contradiction
  · rfl

/-- Settles O6: the three cases of a step. -/
theorem stepRunsTheDecodedInstruction : Obligations.StepRunsTheDecodedInstruction :=
  ⟨fun _ _ hrun h => step_of_decode hrun h, fun _ _ hrun h => step_of_decodeError hrun h,
    fun _ h => ⟨step_of_stopped h, tick_of_stopped h⟩⟩

/-- Settles O5: an encoding in memory decodes exactly where it lies in the code range, and the step follows the decode. -/
theorem instructionMustLieInTheCodeRange : Obligations.InstructionMustLieInTheCodeRange := by
  refine ⟨fun s a i hwf hmem => decodeAt_of_encode hwf hmem, fun s i hrun hwf hmem => ?_⟩
  have hdecode := decodeAt_of_encode hwf hmem
  split_ifs at hdecode ⊢
  · exact step_of_decode hrun hdecode
  · exact step_of_decodeError hrun hdecode

/-! ## Operands (R97 to R102, R200) -/

theorem regOfNat_of_lt {n : Nat} (h : n < 16) : (regOfNat n).val = n := Nat.mod_eq_of_lt h

theorem toNat_setWidth_of_le {w : Nat} (h : w ≤ 64) (v : BitVec w) : (v.setWidth 64).toNat = v.toNat := by
  rw [BitVec.toNat_setWidth, Nat.mod_eq_of_lt (v.isLt.trans_le (Nat.pow_le_pow_right (by decide) h))]

theorem src2Value_reg8 (s : State) {b : BitVec 8} {r : Reg} (h : b.toNat = r.val) : src2Value s (.reg8 b) = s.reg r := by
  have hreg : regOfNat b.toNat = r := Fin.ext ((regOfNat_of_lt (h ▸ r.isLt)).trans h)
  simp only [src2Value, hreg]

/-- Settles O7: registers by number, immediates and absolute addresses by zero extension, offsets by sign extension. -/
theorem operandFormsDenote : Obligations.OperandFormsDenote :=
  ⟨fun _ h => regOfNat_of_lt h, fun _ => rfl, fun _ a => toNat_setWidth_of_le (by decide) a,
    fun s _ _ h => ⟨src2Value_reg8 s h, rfl⟩, fun _ v => toNat_setWidth_of_le (by decide) v,
    fun _ v => toNat_setWidth_of_le (by decide) v, fun _ v => toNat_setWidth_of_le (by decide) v, fun _ _ => rfl,
    fun _ a => toNat_setWidth_of_le (by decide) a, fun s base off => toNat_add_signExtend (s.reg base) off⟩

end Sys2Proof.Machine
end

section
/-! PROOF. The arithmetic, logic and shift instructions (R130 to R158): what the ALU computes, as ring operations, order
and bits of 64-bit words, and through `aluToReg` and `aluToFlags` the whole effect of each instruction. -/

namespace Sys2Proof.Machine

/-! ## What the ALU computes -/

/-- The signed value fits in 64 bits, as the V flag has it. -/
def signedOverflow (x : Int) : Bool := !decide (-2 ^ 63 ≤ x ∧ x < 2 ^ 63)

theorem aluAdd_eq (a b : Word) : aluAdd a b = aluOut (a + b) (decide (2 ^ 64 ≤ a.toNat + b.toNat))
    (signedOverflow (a.toInt + b.toInt)) := by
  rw [signedOverflow, ← addOverflow_eq]
  simp only [aluAdd, ge_iff_le, BitVec.ofNat_add, BitVec.ofNat_toNat, BitVec.setWidth_eq]

theorem aluSub_eq (a b : Word) : aluSub a b = aluOut (a - b) (decide (a.toNat < b.toNat))
    (signedOverflow (a.toInt - b.toInt)) := by
  simp only [aluSub, ofInt_sub_toNat, subOverflow_eq, signedOverflow]

theorem aluMul_eq (a b : Word) : aluMul a b = aluOut (a * b) (decide (2 ^ 64 ≤ a.toNat * b.toNat))
    (signedOverflow (a.toInt * b.toInt)) := by
  have hv : (decide (a.toInt * b.toInt < -2 ^ 63) || decide (a.toInt * b.toInt ≥ 2 ^ 63))
      = signedOverflow (a.toInt * b.toInt) := by
    generalize a.toInt * b.toInt = x
    rw [signedOverflow, Bool.eq_iff_iff]
    simp only [Bool.or_eq_true, decide_eq_true_eq, Bool.not_eq_true', decide_eq_false_iff_not]
    omega
  simp only [aluMul, hv, ge_iff_le, BitVec.ofNat_mul, BitVec.ofNat_toNat, BitVec.setWidth_eq]

theorem mul_eq_ofInt (a b : Word) : a * b = BitVec.ofInt 64 (a.toInt * b.toInt) := by
  rw [BitVec.ofInt_mul, BitVec.ofInt_toInt, BitVec.ofInt_toInt]

theorem aluNeg_eq (b : Word) : aluNeg b = aluOut (-b) (decide (0 < b.toNat)) (signedOverflow (-b.toInt)) := by
  have hr : BitVec.ofInt 64 (0 - (b.toNat : Int)) = -b := by
    exact (ofInt_sub_toNat 0 b).trans (zero_sub b)
  have hc : (b != 0) = decide (0 < b.toNat) := by
    rw [Bool.eq_iff_iff, bne_iff_ne, decide_eq_true_eq, Nat.pos_iff_ne_zero, Ne, Ne, ← BitVec.toNat_inj]
    rfl
  have hv : (b == BitVec.ofNat 64 (2 ^ 63)) = signedOverflow (-b.toInt) := by
    have hb := b.isLt
    rw [signedOverflow, Bool.eq_iff_iff, beq_iff_eq, ← BitVec.toNat_inj, BitVec.toInt_eq_toNat_cond]
    simp only [Bool.not_eq_true', decide_eq_false_iff_not, BitVec.toNat_ofNat]
    split_ifs <;> omega
  rw [aluNeg, hr, hc, hv]

/-- The flags Z and N of a result that stands for a natural number below `2 ^ 64`. -/
theorem aluOut_flags_of_toNat {r : Word} {q : Nat} (h : r.toNat = q) (c v : Bool) :
    (aluOut r c v).flags = { z := q == 0, n := decide (2 ^ 63 ≤ q), c := c, v := v } := by
  have hz : (r == 0) = (q == 0) := by
    rw [Bool.eq_iff_iff, beq_iff_eq, beq_iff_eq, ← h, ← BitVec.toNat_inj]
    rfl
  simp only [aluOut, hz, BitVec.msb_eq_decide, h]

theorem toNat_aluDiv (a b : Word) : (aluDiv a b).result.toNat = a.toNat / b.toNat := by
  have ha := a.isLt
  have hq := Nat.div_le_self a.toNat b.toNat
  simp only [aluDiv, aluOut]
  split_ifs with h
  · simp [h]
  · rw [BitVec.toNat_ofNat, Nat.mod_eq_of_lt (by omega)]

theorem toNat_aluMod (a b : Word) : (aluMod a b).result.toNat = if b = 0 then 0 else a.toNat % b.toNat := by
  have ha := a.isLt
  have hr : a.toNat - b.toNat * (a.toNat / b.toNat) = a.toNat % b.toNat := by
    have := Nat.div_add_mod a.toNat b.toNat
    omega
  have hle := Nat.mod_le a.toNat b.toNat
  simp only [aluMod, aluOut]
  split_ifs
  · rfl
  · rw [hr, BitVec.toNat_ofNat, Nat.mod_eq_of_lt (by omega)]

theorem sub_beq_zero (a b : Word) : (a - b == 0) = (a == b) := by
  rw [Bool.eq_iff_iff, beq_iff_eq, beq_iff_eq]
  exact sub_eq_zero

theorem neg_beq_zero (b : Word) : (-b == 0) = (b == 0) := by
  rw [Bool.eq_iff_iff, beq_iff_eq, beq_iff_eq]
  exact neg_eq_zero

/-! ## The effect of an arithmetic instruction with a destination -/

theorem exec_mov (rd : RegOp) (src2 : Src2) (s : State) :
    exec (.mov rd src2) s
      = .next (retire (seqPc s (Instr.mov rd src2).length) (s.setReg (regNum rd) (src2Value s src2))) := rfl

/-- Settles O9: the sum, its carry and its signed overflow. -/
theorem addResultFlagsFrame : Obligations.AddResultFlagsFrame := by
  intro rd rs1 src2 s a b
  obtain ⟨t, hnext, hreg, hflags, heffect⟩ := aluToReg_spec (Instr.add rd rs1 src2).length rd (aluAdd a b) s
  rw [aluAdd_eq] at hreg hflags
  exact ⟨t, hnext, hreg, hflags, heffect⟩

/-- Settles O10: the difference, its borrow and its signed overflow; CMP is SUB without the write. -/
theorem subAndCmpResultFlagsFrame : Obligations.SubAndCmpResultFlagsFrame := by
  constructor
  · intro rd rs1 src2 s a b
    obtain ⟨t, hnext, hreg, hflags, heffect⟩ := aluToReg_spec (Instr.sub rd rs1 src2).length rd (aluSub a b) s
    rw [aluSub_eq] at hreg hflags
    rw [aluOut, sub_beq_zero] at hflags
    exact ⟨t, hnext, hreg, hflags, heffect⟩
  · intro rs1 src2 s a b
    obtain ⟨t, hnext, hflags, heffect⟩ := aluToFlags_spec (Instr.cmp rs1 src2).length (aluSub a b) s
    rw [aluSub_eq, aluOut, sub_beq_zero] at hflags
    exact ⟨t, hnext, hflags, heffect⟩

/-- Settles O11: the product, its unsigned and its signed overflow. -/
theorem mulResultFlagsFrame : Obligations.MulResultFlagsFrame := by
  intro rd rs1 src2 s a b
  obtain ⟨t, hnext, hreg, hflags, heffect⟩ := aluToReg_spec (Instr.mul rd rs1 src2).length rd (aluMul a b) s
  rw [aluMul_eq] at hreg hflags
  exact ⟨t, hnext, hreg, hreg.trans (mul_eq_ofInt a b), hflags, heffect⟩

/-- Settles O12: quotient and remainder as natural numbers, with the flags those numbers give. -/
theorem divAndModResultFlagsFrame : Obligations.DivAndModResultFlagsFrame := by
  constructor
  · intro rd rs1 src2 s q
    obtain ⟨t, hnext, hreg, hflags, heffect⟩ :=
      aluToReg_spec (Instr.div rd rs1 src2).length rd (aluDiv (s.reg rs1) (src2Value s src2)) s
    have hq := toNat_aluDiv (s.reg rs1) (src2Value s src2)
    exact ⟨t, hnext, hreg ▸ hq, hflags.trans (aluOut_flags_of_toNat hq false false), heffect⟩
  · intro rd rs1 src2 s r
    obtain ⟨t, hnext, hreg, hflags, heffect⟩ :=
      aluToReg_spec (Instr.mod rd rs1 src2).length rd (aluMod (s.reg rs1) (src2Value s src2)) s
    have hr := toNat_aluMod (s.reg rs1) (src2Value s src2)
    exact ⟨t, hnext, hreg ▸ hr, hflags.trans (aluOut_flags_of_toNat hr false false), heffect⟩

/-- Settles O13: the negation with the flags of a subtraction from 0, and the copy. -/
theorem negAndMovResultFlagsFrame : Obligations.NegAndMovResultFlagsFrame := by
  constructor
  · intro rd src2 s b
    obtain ⟨t, hnext, hreg, hflags, heffect⟩ := aluToReg_spec (Instr.neg rd src2).length (regNum rd) (aluNeg b) s
    rw [aluNeg_eq] at hreg hflags
    rw [aluOut, neg_beq_zero] at hflags
    exact ⟨t, hnext, hreg, hflags, heffect⟩
  · intro rd src2 s
    exact ⟨_, exec_mov rd src2 s, by simp, rfl, registerEffect_setReg ..⟩

/-! ## The laws of R139 -/

theorem next_inj {s t : State} (h : (Host.Outcome.next s : Result) = .next t) : s = t := by
  cases h
  rfl

/-- The flags that the ALU leaves do not depend on the flags before, as no operand is read from them. -/
theorem src2Value_setFlags (s : State) (f : Flags) (src2 : Src2) : src2Value (s.setFlags f) src2 = src2Value s src2 := by
  cases src2 <;> rfl

theorem emod_add_word (a b : Word) : ((a + b).toNat : Int) = ((a.toNat : Int) + b.toNat) % 2 ^ 64 := by
  rw [BitVec.toNat_add]; omega

theorem emod_sub_word (a b : Word) : ((a - b).toNat : Int) = ((a.toNat : Int) - b.toNat) % 2 ^ 64 := by
  have ha := a.isLt
  have hb := b.isLt
  rw [BitVec.toNat_sub]; omega

theorem emod_mul_word (a b : Word) : ((a * b).toNat : Int) = ((a.toNat : Int) * b.toNat) % 2 ^ 64 := by
  rw [BitVec.toNat_mul]; norm_cast

/-- N differs from V exactly when the first operand is below the second, signed. -/
theorem sub_n_ne_v_iff (a b : Word) : (a - b).msb ≠ signedOverflow (a.toInt - b.toInt) ↔ a.toInt < b.toInt := by
  have ha := a.isLt
  have hb := b.isLt
  simp only [signedOverflow, BitVec.msb_eq_decide, BitVec.toInt_eq_toNat_cond, BitVec.toNat_sub]
  grind

/-- An arithmetic instruction changes at most its destination and FLAGS, and goes on to the next instruction. -/
theorem arithmetic_effect {i : Instr} {d : Option Reg} {s t : State} (hd : arithmeticDest i = some d)
    (h : exec i s = .next t) : registerEffect d.toList (s.pc + BitVec.ofNat 64 i.length) s t := by
  cases i <;> cases hd <;> cases h
  case cmp => exact registerEffect_flags ..
  case mov => exact registerEffect_setReg ..
  all_goals exact registerEffect_setReg_flags ..

/-- All arithmetic instructions but MOV write all four flags, from operands alone. -/
theorem arithmetic_flags {i : Instr} {d : Option Reg} (hd : arithmeticDest i = some d) (hmov : ∀ rd src2, i ≠ .mov rd src2)
    (s : State) : ∃ fl, ∀ f, ∃ u, exec i (s.setFlags f) = .next u ∧ u.flags = fl := by
  have hsrc := src2Value_setFlags s
  cases i <;> cases hd
  case mov rd src2 => exact absurd rfl (hmov rd src2)
  all_goals
    apply Exists.intro
    refine fun f => ⟨_, rfl, ?_⟩
    simp only [retire_flags, setFlags_flags, reg_setFlags, hsrc]
    rfl

section
variable {rd rs1 : Reg} {src2 : Src2} {s t : State}

theorem add_result (h : exec (.add rd rs1 src2) s = .next t) : t.reg rd = s.reg rs1 + src2Value s src2 := by
  obtain ⟨u, hnext, hreg, -⟩ := addResultFlagsFrame rd rs1 src2 s
  exact next_inj (hnext.symm.trans h) ▸ hreg

theorem sub_result (h : exec (.sub rd rs1 src2) s = .next t) : t.reg rd = s.reg rs1 - src2Value s src2 := by
  obtain ⟨u, hnext, hreg, -⟩ := subAndCmpResultFlagsFrame.1 rd rs1 src2 s
  exact next_inj (hnext.symm.trans h) ▸ hreg

theorem mul_result (h : exec (.mul rd rs1 src2) s = .next t) : t.reg rd = s.reg rs1 * src2Value s src2 := by
  obtain ⟨u, hnext, hreg, -⟩ := mulResultFlagsFrame rd rs1 src2 s
  exact next_inj (hnext.symm.trans h) ▸ hreg

theorem div_result (h : exec (.div rd rs1 src2) s = .next t) :
    (t.reg rd).toNat = (s.reg rs1).toNat / (src2Value s src2).toNat := by
  obtain ⟨u, hnext, hreg, -⟩ := divAndModResultFlagsFrame.1 rd rs1 src2 s
  exact next_inj (hnext.symm.trans h) ▸ hreg

theorem mod_result (h : exec (.mod rd rs1 src2) s = .next t) :
    (t.reg rd).toNat = if src2Value s src2 = 0 then 0 else (s.reg rs1).toNat % (src2Value s src2).toNat := by
  obtain ⟨u, hnext, hreg, -⟩ := divAndModResultFlagsFrame.2 rd rs1 src2 s
  exact next_inj (hnext.symm.trans h) ▸ hreg

theorem neg_result {rd : RegOp} (h : exec (.neg rd src2) s = .next t) : t.reg (regNum rd) = -src2Value s src2 := by
  obtain ⟨u, hnext, hreg, -⟩ := negAndMovResultFlagsFrame.1 rd src2 s
  exact next_inj (hnext.symm.trans h) ▸ hreg

theorem mov_result {rd : RegOp} (h : exec (.mov rd src2) s = .next t) :
    t.reg (regNum rd) = src2Value s src2 ∧ t.flags = s.flags := by
  obtain ⟨u, hnext, hreg, hflags, -⟩ := negAndMovResultFlagsFrame.2 rd src2 s
  exact next_inj (hnext.symm.trans h) ▸ ⟨hreg, hflags⟩

/-- The flags of CMP and SUB (R132, R138). -/
def compareFlags (a b : Word) : Flags :=
  { z := a == b, n := (a - b).msb, c := decide (a.toNat < b.toNat), v := signedOverflow (a.toInt - b.toInt) }

theorem sub_flags (h : exec (.sub rd rs1 src2) s = .next t) : t.flags = compareFlags (s.reg rs1) (src2Value s src2) := by
  obtain ⟨u, hnext, -, hflags, -⟩ := subAndCmpResultFlagsFrame.1 rd rs1 src2 s
  exact next_inj (hnext.symm.trans h) ▸ hflags

theorem cmp_flags {rs1 : RegOp} (h : exec (.cmp rs1 src2) s = .next t) :
    t.flags = compareFlags (s.reg (regNum rs1)) (src2Value s src2) := by
  obtain ⟨u, hnext, hflags, -⟩ := subAndCmpResultFlagsFrame.2 rs1 src2 s
  exact next_inj (hnext.symm.trans h) ▸ hflags

end

/-- Where both sources are the destination, the results are those of the old value (R139). -/
theorem results_on_one_register (r : Reg) (s t : State) :
    (exec (.add r r (.reg4 r)) s = .next t → t.reg r = s.reg r + s.reg r)
      ∧ (exec (.sub r r (.reg4 r)) s = .next t → t.reg r = 0)
      ∧ (exec (.mul r r (.reg4 r)) s = .next t → t.reg r = s.reg r * s.reg r)
      ∧ (exec (.div r r (.reg4 r)) s = .next t → t.reg r = if s.reg r = 0 then 0 else 1)
      ∧ (exec (.mod r r (.reg4 r)) s = .next t → t.reg r = 0)
      ∧ (exec (.neg (.reg4 r) (.reg4 r)) s = .next t → t.reg r = -s.reg r)
      ∧ (exec (.mov (.reg4 r) (.reg4 r)) s = .next t → t.reg r = s.reg r) := by
  refine ⟨add_result, fun h => (sub_result h).trans (sub_self _), mul_result, fun h => ?div, fun h => ?mod, neg_result,
    fun h => (mov_result h).1⟩
  case div =>
    have hq := div_result h
    apply BitVec.eq_of_toNat_eq
    rw [hq]
    split_ifs with hz
    · simp [hz]
    · exact Nat.div_self (Nat.pos_of_ne_zero fun h0 => hz (BitVec.eq_of_toNat_eq h0))
  case mod =>
    have hr := mod_result h
    apply BitVec.eq_of_toNat_eq
    rw [hr]
    split_ifs
    · rfl
    · exact Nat.mod_self _

/-- Settles O14: the results as ring operations, the flags of SUB as its operands' order, and the frame of each
instruction. -/
theorem arithmeticLaws : Obligations.ArithmeticLaws := by
  refine ⟨fun rd rs1 src2 s t => ⟨fun h => ?_, fun h => ?_, fun h => ?_⟩, fun rd rs1 src2 s t h => ?order,
    fun rd rs1 src2 s i hi => ?divMod, fun i d s t hd h => ?frame, results_on_one_register,
    fun rd rs1 src2 s t => ⟨div_result, mod_result⟩, fun rd src2 s t => ⟨neg_result, fun h => (mov_result h).1⟩⟩
  · rw [add_result h, emod_add_word]
  · rw [sub_result h, emod_sub_word]
  · rw [mul_result h, emod_mul_word]
  case order =>
    rw [sub_flags h]
    exact ⟨beq_iff_eq, decide_eq_true_iff, sub_n_ne_v_iff _ _⟩
  case divMod =>
    rcases hi with rfl | rfl
    · exact ⟨_, rfl, registerEffect_setReg_flags ..⟩
    · exact ⟨_, rfl, registerEffect_setReg_flags ..⟩
  case frame =>
    obtain ⟨⟨hpc, -, -⟩, hregs, hmem, -⟩ := arithmetic_effect hd h
    refine ⟨fun hmov f => ?_, ?_, hmem, hregs, hpc⟩
    · obtain ⟨fl, hfl⟩ := arithmetic_flags hd hmov s
      obtain ⟨v, hv, hvfl⟩ := hfl s.flags
      obtain ⟨u, hu, hufl⟩ := hfl f
      have hvt : v = t := next_inj (hv.symm.trans h)
      exact ⟨u, hu, hufl.trans (hvt ▸ hvfl.symm)⟩
    · rintro rd src2 rfl
      exact (mov_result h).2

/-- Settles O21: each condition read off the flags of SUB is the relation of the operands. -/
theorem conditionsMeanTheirNamesAfterCompare : Obligations.ConditionsMeanTheirNamesAfterCompare := by
  have hmeaning : ∀ (c : Cond) (a b : Word), flagCondition c (compareFlags a b) ↔ relationHolds c a b := by
    intro c a b
    have hz : (compareFlags a b).z = true ↔ a = b := beq_iff_eq
    have hc : (compareFlags a b).c = true ↔ a.toNat < b.toNat := decide_eq_true_iff
    have hnv : (compareFlags a b).n ≠ (compareFlags a b).v ↔ a.toInt < b.toInt := sub_n_ne_v_iff a b
    have hnat : a = b ↔ a.toNat = b.toNat := BitVec.toNat_inj.symm
    have hint : a = b ↔ a.toInt = b.toInt := BitVec.toInt_inj.symm
    cases c <;> simp only [flagCondition, relationHolds, ← Bool.not_eq_true, hz, hc]
    case less => exact hnv
    case greaterEqual => rw [← not_iff_not]; simpa using hnv
    case greater =>
      have : (compareFlags a b).n = (compareFlags a b).v ↔ ¬ a.toInt < b.toInt := by rw [← hnv, not_not]
      rw [this, hint]; omega
    case lessEqual => rw [hnv, hint]; omega
    case above => rw [hnat]; omega
    case belowEqual => rw [hnat]; omega
    case aboveEqual => omega
  intro c s t
  exact ⟨fun rs1 src2 h => cmp_flags h ▸ hmeaning c _ _, fun rd rs1 src2 h => sub_flags h ▸ hmeaning c _ _⟩

/-! ## Logic (R151 to R154, R158) -/

/-- The flags of a logic result (R150). -/
theorem aluOut_flags (r : Word) (c : Bool) :
    (aluOut r c false).flags = { z := r == 0, n := r.getLsbD 63, c := c, v := false } := by
  simp only [aluOut, BitVec.msb_eq_getLsbD_last]

theorem aluNot_eq (b : Word) : aluNot b = aluOut (~~~b) false false := by
  have hr : BitVec.ofNat 64 (2 ^ 64 - 1 - b.toNat) = ~~~b := by
    have hb := b.isLt
    rw [← BitVec.toNat_inj, BitVec.toNat_not, BitVec.toNat_ofNat]
    omega
  rw [aluNot, hr]

/-- A logic instruction with a destination: the result bit by bit, the flags of the result, and nothing else. -/
theorem logic_spec {i : Instr} {rd : Reg} {r : Word} {s : State}
    (hexec : exec i s = aluToReg i.length rd (aluOut r false false) s) :
    ∃ t, exec i s = .next t ∧ t.reg rd = r
      ∧ t.flags = { z := t.reg rd == 0, n := (t.reg rd).getLsbD 63, c := false, v := false }
      ∧ registerEffect [rd] (s.pc + BitVec.ofNat 64 i.length) s t := by
  obtain ⟨t, hnext, hreg, hflags, heffect⟩ := aluToReg_spec i.length rd (aluOut r false false) s
  refine ⟨t, hexec.trans hnext, hreg, ?_, heffect⟩
  rw [hflags, aluOut_flags, show t.reg rd = r from hreg]

/-- Settles O15: each result bit by bit, with the flags of the result. -/
theorem bitwiseResultFlagsFrame : Obligations.BitwiseResultFlagsFrame := by
  refine ⟨fun rd rs1 src2 s => ⟨?and, ?or, ?xor⟩, fun rd src2 s => ?not, ?test⟩
  case and =>
    obtain ⟨t, hnext, hreg, hrest⟩ := logic_spec (exec_and_eq_aluToReg rd rs1 src2 s)
    exact ⟨t, hnext, fun k => by rw [hreg, BitVec.getLsbD_and], hrest⟩
  case or =>
    obtain ⟨t, hnext, hreg, hrest⟩ := logic_spec (exec_or_eq_aluToReg rd rs1 src2 s)
    exact ⟨t, hnext, fun k => by rw [hreg, BitVec.getLsbD_or], hrest⟩
  case xor =>
    obtain ⟨t, hnext, hreg, hrest⟩ := logic_spec (exec_xor_eq_aluToReg rd rs1 src2 s)
    exact ⟨t, hnext, fun k => by rw [hreg, BitVec.getLsbD_xor], hrest⟩
  case not =>
    obtain ⟨t, hnext, hreg, hrest⟩ := logic_spec ((exec_not_eq_aluToReg rd src2 s).trans (by rw [aluNot_eq]))
    exact ⟨t, hnext, fun k hk => by rw [hreg, BitVec.getLsbD_not]; simp [hk], hrest⟩
  case test =>
    intro rs1 src2 s r
    obtain ⟨t, hnext, hflags, heffect⟩ := aluToFlags_spec (Instr.test rs1 src2).length (aluAnd (s.reg (regNum rs1)) (src2Value s src2)) s
    exact ⟨t, hnext, hflags.trans (aluOut_flags _ _), heffect⟩

/-! ## Shifts (R155 to R157) -/

theorem shl_result (a : Word) (n : Nat) : BitVec.ofNat 64 (a.toNat * 2 ^ n) = a <<< n := by
  rw [← BitVec.toNat_inj, BitVec.toNat_ofNat, BitVec.toNat_shiftLeft, Nat.shiftLeft_eq]

theorem shr_result (a : Word) (n : Nat) : BitVec.ofNat 64 (a.toNat / 2 ^ n) = a >>> n := by
  have hle := Nat.div_le_self a.toNat (2 ^ n)
  rw [← BitVec.toNat_inj, BitVec.toNat_ofNat, BitVec.toNat_ushiftRight, Nat.shiftRight_eq_div_pow,
    Nat.mod_eq_of_lt (hle.trans_lt a.isLt)]

theorem sar_result (a : Word) (n : Nat) : BitVec.ofInt 64 (a.toInt / (2 : Int) ^ n) = a.sshiftRight n := by
  rw [BitVec.sshiftRight, Int.shiftRight_eq_div_pow]
  norm_cast

/-- The carry of a shift: the last bit shifted out, 0 when the amount is 0. -/
theorem shift_carry (n : Nat) (bit : Bool) : (decide (n > 0) && bit) = if n = 0 then false else bit := by
  cases n <;> simp

/-- A shift: its result, the flags of the result with the last bit shifted out as C, and nothing else. -/
theorem shift_spec {i : Instr} {rd : Reg} {r : Word} {n : Nat} {bit : Bool} {s : State}
    (hexec : exec i s = aluToReg i.length rd (aluOut r (decide (n > 0) && bit) false) s) :
    ∃ t, exec i s = .next t ∧ t.reg rd = r
      ∧ t.flags = { z := t.reg rd == 0, n := (t.reg rd).msb, c := if n = 0 then false else bit, v := false }
      ∧ registerEffect [rd] (s.pc + BitVec.ofNat 64 i.length) s t := by
  obtain ⟨t, hnext, hreg, hflags, heffect⟩ := aluToReg_spec i.length rd (aluOut r (decide (n > 0) && bit) false) s
  refine ⟨t, hexec.trans hnext, hreg, ?_, heffect⟩
  rw [hflags, show t.reg rd = r from hreg, ← shift_carry]
  rfl

/-- Settles O16: the three shifts by the masked count. -/
theorem shiftResultFlagsFrame : Obligations.ShiftResultFlagsFrame := by
  intro rd rs1 src2 s a n
  refine ⟨shift_spec ?shl, shift_spec ?shr, shift_spec ?sar⟩
  case shl => rw [← shl_result]; exact exec_shl_eq_aluToReg rd rs1 src2 s
  case shr => rw [← shr_result]; exact exec_shr_eq_aluToReg rd rs1 src2 s
  case sar => rw [← sar_result]; exact exec_sar_eq_aluToReg rd rs1 src2 s

end Sys2Proof.Machine
end

section
/-! PROOF. What an instruction does by the class of work it is (R249), once for all instructions: its micro-operation, its
meaning, and the four ways it can end. The statements over all instructions, and those of control flow, follow. -/

namespace Sys2Proof.Machine

/-! ## Instructions by class of work -/

/-- An instruction of the given class: what its micro-operation is, and what the architectural level does with it. -/
def ExecutesAs (i : Instr) : Work → Prop
  | .alu3 f => ∃ rd rs1 src2, (∀ pc, uopOf i pc = uopA3 i pc rd rs1 src2)
      ∧ ∀ s, exec i s = aluToReg i.length rd (f (s.reg rs1) (src2Value s src2)) s
  | .alu2 f => ∃ rd src2, (∀ pc, uopOf i pc = uopA2D i pc rd src2)
      ∧ ∀ s, exec i s = aluToReg i.length (regNum rd) (f (src2Value s src2)) s
  | .move => ∃ rd src2, i = .mov rd src2
  | .compare f => ∃ rs1 src2, (∀ pc, uopOf i pc = uopA2C i pc rs1 src2)
      ∧ ∀ s, exec i s = aluToFlags i.length (f (s.reg (regNum rs1)) (src2Value s src2)) s
  | .load w => ∃ rd m, i = loadOf w rd m
  | .store w => ∃ rs2 m, i = storeOf w rs2 m
  | .jump => ∃ t, i = .jmp t
  | .call => ∃ t, i = .call t
  | .ret => i = .ret
  | .ifZero => ∃ rs1 t, i = .jmpIfZero rs1 t
  | .ifNotZero => ∃ rs1 t, i = .jmpIfNotZero rs1 t
  | .ifFlags c => ∃ t, i = flagJump c t
  | .nothing => i = .nop ∨ ∃ r, stopReasonOf i = some r ∧ ∀ s, exec i s = .next (stopEngine r i.length s)

theorem executesAs (i : Instr) : ExecutesAs i (workOf i) := by
  cases i
  case nop => exact .inl rfl
  case halt => exact .inr ⟨_, rfl, fun _ => rfl⟩
  case syscall => exact .inr ⟨_, rfl, fun _ => rfl⟩
  case trap => exact .inr ⟨_, rfl, fun _ => rfl⟩
  case ret => exact rfl
  case mov => exact ⟨_, _, rfl⟩
  case jmp => exact ⟨_, rfl⟩
  case call => exact ⟨_, rfl⟩
  case jmpIfZero => exact ⟨_, _, rfl⟩
  case jmpIfNotZero => exact ⟨_, _, rfl⟩
  case neg => exact ⟨_, _, fun _ => rfl, fun _ => rfl⟩
  case not => exact ⟨_, _, fun _ => rfl, fun _ => rfl⟩
  case cmp => exact ⟨_, _, fun _ => rfl, fun _ => rfl⟩
  case test => exact ⟨_, _, fun _ => rfl, fun _ => rfl⟩
  case load | store | loadb | storeb | loadh | storeh | loadw | storew => exact ⟨_, _, rfl⟩
  case add | sub | mul | div | mod | and | or | xor | shl | shr | sar => exact ⟨_, _, _, fun _ => rfl, fun _ => rfl⟩
  all_goals exact ⟨_, rfl⟩

/-- The class transfers control (R171 to R185). -/
def Work.isTransfer : Work → Bool
  | .jump | .call | .ret | .ifZero | .ifNotZero | .ifFlags _ => true
  | _ => false

/-- The class sets the flags (R24). -/
def Work.setsFlags : Work → Bool
  | .alu3 _ | .alu2 _ | .compare _ => true
  | _ => false

theorem not_takenTo {i : Instr} (h : (workOf i).isTransfer = false) (s : State) (target : Word) : ¬ takenTo i s target := by
  cases i <;> first | exact id | cases h

theorem setsFlags_eq (i : Instr) : setsFlags i = (workOf i).setsFlags := by cases i <;> rfl

theorem exec_loadOf (w : Width) (rd : RegOp) (m : MemOp) (s : State) :
    exec (loadOf w rd m) s = .next (loadTo w (regNum rd) (effAddr s m) (loadOf w rd m).length s) := by cases w <;> rfl

theorem exec_storeOf (w : Width) (rs2 : RegOp) (m : MemOp) (s : State) :
    exec (storeOf w rs2 m) s = .next (storeFrom w (s.reg (regNum rs2)) (effAddr s m) (storeOf w rs2 m).length s) := by
  cases w <;> rfl

theorem uopOf_loadOf (w : Width) (rd : RegOp) (m : MemOp) (pc : Word) :
    uopOf (loadOf w rd m) pc = uopLD (loadOf w rd m) pc rd m := by cases w <;> rfl

theorem uopOf_storeOf (w : Width) (rs2 : RegOp) (m : MemOp) (pc : Word) :
    uopOf (storeOf w rs2 m) pc = uopST (storeOf w rs2 m) pc rs2 m := by cases w <;> rfl

theorem uopOf_flagJump (c : Cond) (t : Target) (pc : Word) :
    uopOf (flagJump c t) pc = uopJ (flagJump c t) pc t := by cases c <;> rfl

theorem length_flagJump (c : Cond) (t : Target) : (flagJump c t).length = 7 := by cases c <;> cases t <;> rfl
theorem length_jmp (t : Target) : (Instr.jmp t).length = 7 := by cases t <;> rfl
theorem length_call (t : Target) : (Instr.call t).length = 7 := by cases t <;> rfl
theorem length_jmpIfZero (r : RegOp) (t : Target) : (Instr.jmpIfZero r t).length = 8 := by cases r <;> cases t <;> rfl
theorem length_jmpIfNotZero (r : RegOp) (t : Target) : (Instr.jmpIfNotZero r t).length = 8 := by
  cases r <;> cases t <;> rfl

/-! ## What the jumps answer -/

theorem exec_jmp (t : Target) (s : State) : exec (.jmp t) s = jumpTo true t 7 s :=
  congrArg (fun len => jumpTo true t len s) (length_jmp t)

theorem exec_jmpIfZero (r : RegOp) (t : Target) (s : State) :
    exec (.jmpIfZero r t) s = jumpTo (s.reg (regNum r) == 0) t 8 s :=
  congrArg (fun len => jumpTo (s.reg (regNum r) == 0) t len s) (length_jmpIfZero r t)

theorem exec_jmpIfNotZero (r : RegOp) (t : Target) (s : State) :
    exec (.jmpIfNotZero r t) s = jumpTo (s.reg (regNum r) != 0) t 8 s :=
  congrArg (fun len => jumpTo (s.reg (regNum r) != 0) t len s) (length_jmpIfNotZero r t)

/-- A jump that is not taken goes on to the next instruction. -/
theorem jumpTo_not_taken (t : Target) (len : Nat) (s : State) :
    jumpTo false t len s = .next (retire (s.pc + BitVec.ofNat 64 len) s) := rfl

theorem exec_call_inside {t : Target} {s : State} (h : targetInCode s.layout (directTarget s.pc 7 t)) :
    exec (.call t) s = .next (retire (directTarget s.pc 7 t) (s.setReg linkReg (seqPc s 7))) := by
  have hin := (inCode_iff _ _).2 h
  simp only [exec, execCall, length_call, targetAddr_seqPc, hin, if_true]

theorem exec_call_outside {t : Target} {s : State} (h : ¬ targetInCode s.layout (directTarget s.pc 7 t)) :
    exec (.call t) s = .next (stoppedWith .controlFault .control s) := by
  rw [← inCode_iff] at h
  simp only [exec, execCall, length_call, targetAddr_seqPc, h]
  rfl

theorem exec_ret_inside {s : State} (h : targetInCode s.layout (s.reg linkReg)) :
    exec .ret s = .next (retire (s.reg linkReg) s) := by
  have hin := (inCode_iff _ _).2 h
  simp [exec, execRet, transfer, hin]

theorem exec_ret_outside {s : State} (h : ¬ targetInCode s.layout (s.reg linkReg)) :
    exec .ret s = .next (stoppedWith .controlFault .control s) := by
  rw [← inCode_iff] at h
  simp only [exec, execRet, transfer, h]
  rfl

/-! ## The statements of control flow -/

/-- A taken jump to a target in the code range: nothing but the pc and the count changes. -/
theorem jumpTo_effect {t : Target} {len : Nat} {s : State} (h : targetInCode s.layout (directTarget s.pc len t)) :
    ∃ u, jumpTo true t len s = .next u ∧ u.flags = s.flags ∧ registerEffect [] (directTarget s.pc len t) s u :=
  ⟨_, jumpTo_inside h, rfl, registerEffect_retire ..⟩

theorem jumpTo_not_taken_effect (t : Target) (len : Nat) (s : State) :
    ∃ u, jumpTo false t len s = .next u ∧ u.flags = s.flags ∧ registerEffect [] (s.pc + BitVec.ofNat 64 len) s u :=
  ⟨_, jumpTo_not_taken t len s, rfl, registerEffect_retire ..⟩

/-- Settles O18: JMP is a jump always taken. -/
theorem jmpGoesToItsTarget : Obligations.JmpGoesToItsTarget := by
  intro t s h
  rw [exec_jmp]
  exact jumpTo_effect h

/-- Settles O19: each register jump is taken or not as the register is zero or not. -/
theorem registerJumpsTestTheRegister : Obligations.RegisterJumpsTestTheRegister := by
  intro r t s
  rw [exec_jmpIfZero, exec_jmpIfNotZero]
  refine ⟨fun hz hin => ?_, fun hz => ?_, fun hz hin => ?_, fun hz => ?_⟩
  · rw [beq_iff_eq.2 hz]; exact jumpTo_effect hin
  · rw [beq_eq_false_iff_ne.2 hz]; exact jumpTo_not_taken_effect t 8 s
  · rw [bne_iff_ne.2 hz]; exact jumpTo_effect hin
  · rw [bne_eq_false_iff_eq.2 hz]; exact jumpTo_not_taken_effect t 8 s

/-- Settles O20: each flag jump is taken exactly when its condition holds. -/
theorem flagJumpsTestTheFlags : Obligations.FlagJumpsTestTheFlags := by
  intro c t s
  rw [exec_flagJump, ← condHolds_iff]
  refine ⟨fun hc hin => ?_, fun hc => ?_⟩
  · rw [hc]; exact jumpTo_effect hin
  · rw [Bool.eq_false_iff.2 hc]; exact jumpTo_not_taken_effect t 7 s

/-- Settles O22: CALL links and jumps, RET jumps to the link. -/
theorem callLinksAndRetReturns : Obligations.CallLinksAndRetReturns :=
  ⟨fun _ _ h => ⟨_, exec_call_inside h, by simp [linkReg, seqPc], rfl, registerEffect_setReg ..⟩,
    fun _ h => ⟨_, exec_ret_inside h, rfl, registerEffect_retire ..⟩⟩

/-! ## Taken transfers by class -/

/-- How a class decides whether a transfer is taken in a state, and where it goes. -/
theorem takenTo_flagJump (c : Cond) (t : Target) (s : State) (target : Word) :
    takenTo (flagJump c t) s target ↔ flagCondition c s.flags ∧ target = directTarget s.pc 7 t := by
  cases c <;> exact Iff.rfl

/-- Settles O23: by the class of the transfer. -/
theorem badTargetIsAControlFault : Obligations.BadTargetIsAControlFault := by
  intro i s target htaken hbad
  have hclass := executesAs i
  cases hw : workOf i <;> rw [hw] at hclass
  case jump =>
    obtain ⟨t, rfl⟩ := hclass
    obtain rfl : target = directTarget s.pc 7 t := htaken
    exact (exec_jmp t s).trans (jumpTo_outside hbad)
  case call =>
    obtain ⟨t, rfl⟩ := hclass
    obtain rfl : target = directTarget s.pc 7 t := htaken
    exact exec_call_outside hbad
  case ret =>
    obtain rfl : i = .ret := hclass
    obtain rfl : target = s.reg linkReg := htaken
    exact exec_ret_outside hbad
  case ifZero =>
    obtain ⟨r, t, rfl⟩ := hclass
    obtain ⟨hz, rfl⟩ : s.reg (regNum r) = 0 ∧ target = directTarget s.pc 8 t := htaken
    rw [exec_jmpIfZero, beq_iff_eq.2 hz]
    exact jumpTo_outside hbad
  case ifNotZero =>
    obtain ⟨r, t, rfl⟩ := hclass
    obtain ⟨hz, rfl⟩ : s.reg (regNum r) ≠ 0 ∧ target = directTarget s.pc 8 t := htaken
    rw [exec_jmpIfNotZero, bne_iff_ne.2 hz]
    exact jumpTo_outside hbad
  case ifFlags c =>
    obtain ⟨t, rfl⟩ := hclass
    obtain ⟨hc, rfl⟩ := (takenTo_flagJump c t s target).1 htaken
    rw [exec_flagJump, (condHolds_iff c s.flags).2 hc]
    exact jumpTo_outside hbad
  all_goals exact absurd htaken (not_takenTo (by rw [hw]; rfl) s target)

/-! ## The four ways an instruction ends -/

/-- `s` with one register, or none, and the flags, or not, written. -/
def State.writes (rd : Option Reg) (v : Word) (fl : Option Flags) (s : State) : State :=
  { s with
    regs := match rd with
      | some r => s.regs.set r v
      | none => s.regs
    flags := fl.getD s.flags }

theorem reg_writes_of_ne {rd : Option Reg} {r : Reg} (h : r ∉ rd.toList) (v : Word) (fl : Option Flags) (s : State) :
    (s.writes rd v fl).reg r = s.reg r := by
  cases rd with
  | none => rfl
  | some q => exact reg_setReg_of_ne s v (fun e => h (by simp [e]))

/-- Where the pc goes (R23, R170): the target of a taken transfer, else the next instruction. -/
def goesTo (i : Instr) (s : State) (next : Word) : Prop :=
  (∀ target, takenTo i s target → next = target)
    ∧ ((∀ target, ¬ takenTo i s target) → next = s.pc + BitVec.ofNat 64 i.length)

/-- How an instruction ends: it retires with its register and flag writes; it retires and stops the engine; it retires with
the bytes of a store; or it raises an error. -/
inductive Ends (i : Instr) (s : State) : State → Prop
  | writes {v : Word} {fl : Option Flags} {next : Word} (hfl : setsFlags i = false → fl = none) (hnext : goesTo i s next) :
      Ends i s (retire next (s.writes (uopOf i s.pc).rd v fl))
  | stops {r : StopReason} (hr : stopReasonOf i = some r) (hwork : workOf i = .nothing) :
      Ends i s (stopEngine r i.length s)
  | stores {w : Width} {rs2 : RegOp} {m : MemOp} (hi : i = storeOf w rs2 m)
      (hallowed : accessAllowed s.layout (effAddr s m) w.bytes) :
      Ends i s (retire (seqPc s i.length) (memWrite s (effAddr s m) w (s.reg (regNum rs2))))
  | raises (kind : ErrorKind) (message : Message) : Ends i s (stoppedWith kind message s)

/-- An instruction that is no transfer goes to the next one. -/
theorem goesTo_next {i : Instr} (h : (workOf i).isTransfer = false) (s : State) : goesTo i s (seqPc s i.length) :=
  ⟨fun _ ht => absurd ht (not_takenTo h s _), fun _ => rfl⟩

/-- A transfer taken to one target goes there. -/
theorem goesTo_target {i : Instr} {s : State} {target : Word} (h : ∀ x, takenTo i s x ↔ x = target) :
    goesTo i s target :=
  ⟨fun _ ht => ((h _).1 ht).symm, fun hno => absurd ((h target).2 rfl) (hno target)⟩

/-- A jump ends by going on, or with a control fault. -/
theorem jumpTo_ends {i : Instr} {taken : Bool} {t : Target} {len : Nat} {s : State}
    (hexec : exec i s = jumpTo taken t len s) (hlen : i.length = len) (hrd : (uopOf i s.pc).rd = none)
    (htaken : ∀ target, takenTo i s target ↔ taken = true ∧ target = directTarget s.pc len t) :
    ∃ u, exec i s = .next u ∧ Ends i s u := by
  have hretire : ∀ next, goesTo i s next → Ends i s (retire next s) := by
    intro next hnext
    have h := Ends.writes (i := i) (s := s) (v := 0) (fl := none) (fun _ => rfl) hnext
    rwa [hrd] at h
  rw [hexec]
  cases taken with
  | false =>
    exact ⟨_, jumpTo_not_taken t len s, hretire _ ⟨fun _ h => absurd ((htaken _).1 h).1 Bool.false_ne_true,
      fun _ => by rw [hlen]⟩⟩
  | true =>
    by_cases hin : targetInCode s.layout (directTarget s.pc len t)
    · exact ⟨_, jumpTo_inside hin, hretire _ (goesTo_target fun x => by simp [htaken])⟩
    · exact ⟨_, jumpTo_outside hin, .raises ..⟩

/-- A load retires with its register, or raises a memory fault. -/
theorem load_ends (w : Width) (rd : RegOp) (m : MemOp) (s : State) : ∃ t, exec (loadOf w rd m) s = .next t
    ∧ Ends (loadOf w rd m) s t := by
  refine ⟨_, exec_loadOf w rd m s, ?_⟩
  cases hc : accessCheck s.layout (effAddr s m) w.bytes with
  | some c =>
    rw [loadTo_of_refused hc]
    exact .raises ..
  | none =>
    rw [loadTo_of_allowed ((accessCheck_eq_none_iff _ _ _).1 hc)]
    have h := Ends.writes (i := loadOf w rd m) (s := s) (v := memRead s (effAddr s m) w) (fl := none) (fun _ => rfl)
      (goesTo_next (by cases w <;> rfl) s)
    rwa [uopOf_loadOf] at h

/-- A store retires with its bytes, or raises a memory fault. -/
theorem store_ends (w : Width) (rs2 : RegOp) (m : MemOp) (s : State) : ∃ t, exec (storeOf w rs2 m) s = .next t
    ∧ Ends (storeOf w rs2 m) s t := by
  refine ⟨_, exec_storeOf w rs2 m s, ?_⟩
  cases hc : accessCheck s.layout (effAddr s m) w.bytes with
  | some c =>
    rw [storeFrom_of_refused hc]
    exact .raises ..
  | none =>
    have hallowed := (accessCheck_eq_none_iff _ _ _).1 hc
    rw [storeFrom_of_allowed hallowed]
    exact .stores rfl hallowed

/-- Every instruction answers a next state, and that is one of the four ends. -/
theorem exec_ends (i : Instr) (s : State) : ∃ t, exec i s = .next t ∧ Ends i s t := by
  have hclass := executesAs i
  cases hw : workOf i <;> rw [hw] at hclass
  case alu3 f =>
    obtain ⟨rd, rs1, src2, huop, hexec⟩ := hclass
    have hset : setsFlags i = true := by rw [setsFlags_eq, hw]; rfl
    have h := Ends.writes (i := i) (s := s) (v := (f (s.reg rs1) (src2Value s src2)).result)
      (fl := some (f (s.reg rs1) (src2Value s src2)).flags) (by simp [hset]) (goesTo_next (by rw [hw]; rfl) s)
    rw [huop] at h
    exact ⟨_, hexec s, h⟩
  case alu2 f =>
    obtain ⟨rd, src2, huop, hexec⟩ := hclass
    have hset : setsFlags i = true := by rw [setsFlags_eq, hw]; rfl
    have h := Ends.writes (i := i) (s := s) (v := (f (src2Value s src2)).result)
      (fl := some (f (src2Value s src2)).flags) (by simp [hset]) (goesTo_next (by rw [hw]; rfl) s)
    rw [huop] at h
    exact ⟨_, hexec s, h⟩
  case compare f =>
    obtain ⟨rs1, src2, huop, hexec⟩ := hclass
    have hset : setsFlags i = true := by rw [setsFlags_eq, hw]; rfl
    have h := Ends.writes (i := i) (s := s) (v := 0)
      (fl := some (f (s.reg (regNum rs1)) (src2Value s src2)).flags) (by simp [hset]) (goesTo_next (by rw [hw]; rfl) s)
    rw [huop] at h
    exact ⟨_, hexec s, h⟩
  case move =>
    obtain ⟨rd, src2, rfl⟩ := hclass
    exact ⟨_, exec_mov rd src2 s, .writes (v := src2Value s src2) (fl := none) (fun _ => rfl) (goesTo_next rfl s)⟩
  case load w =>
    obtain ⟨rd, m, rfl⟩ := hclass
    exact load_ends w rd m s
  case store w =>
    obtain ⟨rs2, m, rfl⟩ := hclass
    exact store_ends w rs2 m s
  case jump =>
    obtain ⟨t, rfl⟩ := hclass
    exact jumpTo_ends (exec_jmp t s) (length_jmp t) rfl fun x => by simp [takenTo]
  case call =>
    obtain ⟨t, rfl⟩ := hclass
    by_cases hin : targetInCode s.layout (directTarget s.pc 7 t)
    · exact ⟨_, exec_call_inside hin, .writes (v := seqPc s 7) (fl := none) (fun _ => rfl) (goesTo_target fun _ => Iff.rfl)⟩
    · exact ⟨_, exec_call_outside hin, .raises ..⟩
  case ret =>
    obtain rfl : i = .ret := hclass
    by_cases hin : targetInCode s.layout (s.reg linkReg)
    · exact ⟨_, exec_ret_inside hin, .writes (v := 0) (fl := none) (fun _ => rfl) (goesTo_target fun _ => Iff.rfl)⟩
    · exact ⟨_, exec_ret_outside hin, .raises ..⟩
  case ifZero =>
    obtain ⟨r, t, rfl⟩ := hclass
    exact jumpTo_ends (exec_jmpIfZero r t s) (length_jmpIfZero r t) rfl fun x => by simp [takenTo]
  case ifNotZero =>
    obtain ⟨r, t, rfl⟩ := hclass
    exact jumpTo_ends (exec_jmpIfNotZero r t s) (length_jmpIfNotZero r t) rfl fun x => by simp [takenTo]
  case ifFlags c =>
    obtain ⟨t, rfl⟩ := hclass
    exact jumpTo_ends (exec_flagJump c t s) (length_flagJump c t) (by rw [uopOf_flagJump]; rfl)
      fun x => by rw [takenTo_flagJump, condHolds_iff]
  case nothing =>
    obtain rfl | ⟨r, hr, hexec⟩ := hclass
    · exact ⟨_, rfl, .writes (v := 0) (fl := none) (fun _ => rfl) (goesTo_next rfl s)⟩
    · exact ⟨_, hexec s, .stops hr hw⟩

theorem ends_of_exec {i : Instr} {s t : State} (h : exec i s = .next t) : Ends i s t := by
  obtain ⟨u, hu, hends⟩ := exec_ends i s
  exact next_inj (hu.symm.trans h) ▸ hends

/-- Settles O31: each of the four ends is a next state. -/
theorem everyInstructionAnswersNext : Obligations.EveryInstructionAnswersNext := fun i s =>
  let ⟨t, h, _⟩ := exec_ends i s
  ⟨t, h⟩

/-- Settles O24: a retiring instruction goes where its transfer says; an error is excluded. -/
theorem pcAfterAnInstruction : Obligations.PcAfterAnInstruction := by
  intro i s t _ h hfree
  cases ends_of_exec h with
  | writes _ hnext => exact hnext
  | stops hr hwork => exact goesTo_next (by rw [hwork]; rfl) s
  | stores hi hallowed =>
    subst hi
    exact goesTo_next (by rename_i w _ _; cases w <;> rfl) s
  | raises => cases hfree

/-- Settles O32: an error is `stoppedWith`; every other end counts the instruction. -/
theorem errorsChangeTheStatusAlone : Obligations.ErrorsChangeTheStatusAlone := by
  intro i s t hfree h
  have hrunning : ∀ k pc m, s.status ≠ .error k pc m := by
    intro k pc m hs
    simp [errorFree, hs] at hfree
  cases ends_of_exec h with
  | writes => exact ⟨fun k pc m hs => absurd hs (hrunning k pc m), fun _ => rfl⟩
  | stops => exact ⟨fun k pc m hs => Status.noConfusion hs, fun _ => rfl⟩
  | stores => exact ⟨fun k pc m hs => absurd ((memWrite_status ..).symm.trans hs) (hrunning k pc m), fun _ => by simp⟩
  | raises kind message =>
    refine ⟨fun k pc m hs => ?_, fun hf => Bool.noConfusion hf⟩
    cases hs
    exact ⟨rfl, rfl⟩

theorem sameMemory_of_eq {s t : State} (hcfg : t.cfg = s.cfg) (hmem : t.mem = s.mem) (hl1 : t.l1 = s.l1) (hsb : t.sb = s.sb) :
    sameMemory s t := by
  refine ⟨fun a => ?_, fun a => by rw [hmem], hmem, hl1, hsb⟩
  simp only [archByte, lookupLine, hcfg, hmem, hl1, hsb]

/-- Settles O33: by the four ends. -/
theorem onlyNamedDestinationsChange : Obligations.OnlyNamedDestinationsChange := by
  intro i s t h
  cases ends_of_exec h with
  | writes hfl _ =>
    refine ⟨fun r hr => (reg_retire ..).trans (reg_writes_of_ne hr ..), fun hno => ?_, ?_, rfl, fun _ => sameMemory_of_eq rfl rfl rfl rfl, .rfl⟩
    · rw [hfl hno]; rfl
    · simp [sameMachine, State.writes]
  | stops =>
    exact ⟨fun _ _ => rfl, fun _ => rfl, by simp [sameMachine], rfl, fun _ => sameMemory_of_eq rfl rfl rfl rfl, .rfl⟩
  | stores hi _ =>
    refine ⟨fun r _ => by simp, fun _ => by simp, by simp [sameMachine], by simp [Metrics.commit],
      fun hno => absurd hi (hno _ _ _), sameBuffers_archWriteBytes ..⟩
  | raises =>
    exact ⟨fun _ _ => rfl, fun _ => rfl, by simp [sameMachine, stoppedWith], rfl,
      fun _ => sameMemory_of_eq rfl rfl rfl rfl, .rfl⟩

/-! ## NOP and the stopping instructions (44_misc.md) -/

/-- Settles O29: NOP is a retirement. -/
theorem nopOnlyRetires : Obligations.NopOnlyRetires := fun s => ⟨_, rfl, rfl, registerEffect_retire (s.pc + 3) s⟩

/-- Settles O30: the three are one operation with three reasons. -/
theorem stopInstructionsStop : Obligations.StopInstructionsStop := by
  intro i r s hi
  have hexec : exec i s = .next (stopEngine r 3 s) := by
    rcases hi with ⟨rfl, rfl⟩ | ⟨rfl, rfl⟩ | ⟨rfl, rfl⟩ <;> rfl
  exact ⟨_, hexec, rfl, rfl, rfl, rfl, fun _ _ => rfl, sameMemory_of_eq rfl rfl rfl rfl, by simp [sameMachine]⟩

end Sys2Proof.Machine
end

section
/-! PROOF. Loads and stores at the architectural level (R63 to R69, R200 to R209), and what a step leaves of memory
(R28, R60 to R62, R76). -/

namespace Sys2Proof.Machine

/-! ## Words as bytes -/

theorem leNat_archBytes (s : State) (a n : Nat) :
    leNat (archBytes s a n) = ∑ k ∈ Finset.range n, (archByte s (a + k)).toNat * 256 ^ k := by
  induction n generalizing a with
  | zero => rfl
  | succ n ih =>
    rw [archBytes, leNat, ih, Finset.sum_range_succ', Finset.mul_sum, Nat.add_comm]
    congr 1
    · refine Finset.sum_congr rfl fun k _ => ?_
      rw [pow_succ', show a + 1 + k = a + (k + 1) by omega, Nat.mul_left_comm]
    · simp

/-- Up to eight bytes fit in a word. -/
theorem toNat_wordOfBytes {bs : List Byte} (h : bs.length ≤ 8) : (wordOfBytes bs).toNat = leNat bs := by
  have hfit : leNat bs < 2 ^ 64 := calc
    leNat bs < 256 ^ bs.length := leNat_lt bs
    _ ≤ 256 ^ 8 := Nat.pow_le_pow_right (by decide) h
    _ = 2 ^ 64 := by norm_num
  rw [wordOfBytes, BitVec.toNat_ofNat, Nat.mod_eq_of_lt hfit]

theorem toNat_memRead (s : State) (ea : Word) (w : Width) : (memRead s ea w).toNat = bytesValue s ea.toNat w.bytes := by
  rw [memRead, toNat_wordOfBytes (by simpa using w.bytes_le), leNat_archBytes, bytesValue]

/-- Byte `k` of a value read is the byte a program sees at `ea + k`. -/
theorem wordByte_memRead (s : State) (ea : Word) {w : Width} {k : Nat} (hk : k < w.bytes) :
    wordByte (memRead s ea w) k = archByte s (ea.toNat + k) := by
  rw [memRead, wordByte_wordOfBytes _ (by simpa using w.bytes_le), List.getD_eq_getElem?_getD, getElem?_archBytes,
    if_pos hk]
  rfl

/-! ## Loads and stores at an allowed address -/

theorem exec_loadOf_of_allowed {w : Width} {m : MemOp} {s : State} (h : accessAllowed s.layout (effAddr s m) w.bytes)
    (rd : RegOp) : exec (loadOf w rd m) s
      = .next (retire (seqPc s (loadOf w rd m).length) (s.setReg (regNum rd) (memRead s (effAddr s m) w))) := by
  rw [exec_loadOf, loadTo_of_allowed h]

theorem exec_storeOf_of_allowed {w : Width} {m : MemOp} {s : State} (h : accessAllowed s.layout (effAddr s m) w.bytes)
    (rs2 : RegOp) : exec (storeOf w rs2 m) s
      = .next (retire (seqPc s (storeOf w rs2 m).length) (memWrite s (effAddr s m) w (s.reg (regNum rs2)))) := by
  rw [exec_storeOf, storeFrom_of_allowed h]

theorem loadOf_loadsBytes (w : Width) (rd : RegOp) (m : MemOp) (s : State) :
    loadsBytes (loadOf w rd m) rd m w.bytes s := by
  intro h
  refine ⟨_, exec_loadOf_of_allowed h rd, ?_, rfl, registerEffect_setReg ..⟩
  rw [reg_retire, reg_setReg_same, toNat_memRead]

/-- Settles O25: the four widths of one load. -/
theorem loadsDeliverTheBytes : Obligations.LoadsDeliverTheBytes := fun rd m s =>
  ⟨loadOf_loadsBytes .b8 rd m s, loadOf_loadsBytes .b1 rd m s, loadOf_loadsBytes .b2 rd m s, loadOf_loadsBytes .b4 rd m s⟩

theorem sameRegsBut_memWrite (s : State) (ea : Word) (w : Width) (v next : Word) :
    sameRegsBut [] s (retire next (memWrite s ea w v)) := fun r _ => by simp

/-- What a program sees does not depend on pc and count. -/
theorem archByte_retire (next : Word) (s : State) (a : Nat) : archByte (retire next s) a = archByte s a := rfl

theorem storeOf_storesBytes (w : Width) (rs2 : RegOp) (m : MemOp) (s : State) :
    storesBytes (storeOf w rs2 m) rs2 m w.bytes s := by
  intro h
  refine ⟨_, exec_storeOf_of_allowed h rs2, fun k hk => ?_, fun a ha => ?_, by simp, sameRegsBut_memWrite _ _ _ _ _, ?_, ?_⟩
  · rw [archByte_retire, archByte_memWrite, if_pos ⟨by omega, by omega⟩, Nat.add_sub_cancel_left, wordByte_eq_extract]
  · rw [archByte_retire, archByte_memWrite, if_neg ha]
  · simp [sameMachine]
  · exact ⟨rfl, by simp, by simp [Metrics.commit]⟩

/-- Settles O26: the four widths of one store. -/
theorem storesWriteTheBytes : Obligations.StoresWriteTheBytes := fun rs2 m s =>
  ⟨storeOf_storesBytes .b8 rs2 m s, storeOf_storesBytes .b1 rs2 m s, storeOf_storesBytes .b2 rs2 m s,
    storeOf_storesBytes .b4 rs2 m s⟩

/-! ## Refused accesses (R68) -/

theorem accessCheck_of_range {l : Layout} {ea : Word} {n : Nat} (h : ¬ (l.dataBase ≤ ea.toNat ∧ ea.toNat + n ≤ l.dataEnd)) :
    accessCheck l ea n = some .range := if_pos h

theorem accessCheck_of_alignment {l : Layout} {ea : Word} {n : Nat} (hin : l.dataBase ≤ ea.toNat ∧ ea.toNat + n ≤ l.dataEnd)
    (h : ea.toNat % n ≠ 0) : accessCheck l ea n = some .alignment := by
  rw [accessCheck, if_neg (not_not_intro hin), if_pos h]

/-- What stops on every failing check, with that check in the message, faults as R68 says. -/
theorem faultsOnAccess_of {i : Instr} {m : MemOp} {n : Nat} {s : State}
    (h : ∀ c, accessCheck s.layout (effAddr s m) n = some c →
      exec i s = .next (stoppedWith .memoryFault (.memory c (effAddr s m)) s)) : faultsOnAccess i m n s :=
  ⟨fun hrange => h _ (accessCheck_of_range hrange), fun hin halign => h _ (accessCheck_of_alignment hin halign)⟩

theorem loadOf_faults (w : Width) (rd : RegOp) (m : MemOp) (s : State) : faultsOnAccess (loadOf w rd m) m w.bytes s :=
  faultsOnAccess_of fun _ hc => by rw [exec_loadOf, loadTo_of_refused hc]; rfl

theorem storeOf_faults (w : Width) (rs2 : RegOp) (m : MemOp) (s : State) : faultsOnAccess (storeOf w rs2 m) m w.bytes s :=
  faultsOnAccess_of fun _ hc => by rw [exec_storeOf, storeFrom_of_refused hc]; rfl

/-- Settles O27: the four widths of a load and of a store. -/
theorem badAccessIsAMemoryFault : Obligations.BadAccessIsAMemoryFault := fun r m s =>
  ⟨loadOf_faults .b8 r m s, loadOf_faults .b1 r m s, loadOf_faults .b2 r m s, loadOf_faults .b4 r m s,
    storeOf_faults .b8 r m s, storeOf_faults .b1 r m s, storeOf_faults .b2 r m s, storeOf_faults .b4 r m s⟩

/-! ## Mixed widths (R64) -/

/-- A load of any width after a store of any width, byte by byte. -/
theorem load_after_store {ws wl : Width} {rs rd : RegOp} {ms ml : MemOp} {s t u : State}
    (hs : accessAllowed s.layout (effAddr s ms) ws.bytes) (hl : accessAllowed t.layout (effAddr t ml) wl.bytes)
    (hstore : exec (storeOf ws rs ms) s = .next t) (hload : exec (loadOf wl rd ml) t = .next u) {k : Nat} (hk : k < wl.bytes) :
    wordByte (u.reg (regNum rd)) k =
      if (effAddr s ms).toNat ≤ (effAddr t ml).toNat + k ∧ (effAddr t ml).toNat + k < (effAddr s ms).toNat + ws.bytes then
        wordByte (s.reg (regNum rs)) ((effAddr t ml).toNat + k - (effAddr s ms).toNat)
      else archByte s ((effAddr t ml).toNat + k) := by
  obtain rfl := next_inj ((exec_loadOf_of_allowed hl rd).symm.trans hload)
  rw [reg_retire, reg_setReg_same, wordByte_memRead t _ hk]
  have ht := next_inj ((exec_storeOf_of_allowed hs rs).symm.trans hstore)
  generalize (effAddr t ml).toNat + k = a
  rw [← ht, archByte_retire, archByte_memWrite]

/-- A value of `w` bytes is determined by those bytes. -/
theorem toNat_eq_of_bytesValue {s : State} {ea : Nat} {w : Width} {v : Word} {x : Nat} (hv : v.toNat = bytesValue s ea w.bytes)
    (h : bytesValue s ea w.bytes = x) : v = BitVec.ofNat 64 x := by
  rw [← BitVec.toNat_inj, BitVec.toNat_ofNat, ← h, ← hv, Nat.mod_eq_of_lt v.isLt]

/-- A load at an absolute address behind a store of a known doubleword delivers the bytes of that word. -/
theorem load_of_stored_word {a b : BitVec 32} {rs rd : RegOp} {s t : State} {wl : Width} {off : Nat}
    (halign : a.toNat % 8 = 0) (hbase : s.layout.dataBase ≤ a.toNat) (hend : a.toNat + 8 ≤ s.layout.dataEnd)
    (hstore : exec (.store rs (.abs a)) s = .next t) (hb : b.toNat = a.toNat + off) (hoff : off + wl.bytes ≤ 8)
    (hwidth : off % wl.bytes = 0) :
    ∃ u, exec (loadOf wl rd (.abs b)) t = .next u ∧ (u.reg (regNum rd)).toNat
      = ∑ k ∈ Finset.range wl.bytes, (wordByte (s.reg (regNum rs)) (off + k)).toNat * 256 ^ k := by
  have ha := toNat_setWidth_of_le (by decide) a
  have hb' := toNat_setWidth_of_le (by decide) b
  have hs : accessAllowed s.layout (effAddr s (.abs a)) Width.b8.bytes := by
    refine ⟨?_, ?_, ?_⟩ <;> simp only [effAddr, ha, Width.bytes] <;> omega
  have ht := next_inj ((exec_storeOf_of_allowed (w := .b8) hs rs).symm.trans hstore)
  have hlayout : t.layout = s.layout := by rw [← ht]; simp
  have hl : accessAllowed t.layout (effAddr t (.abs b)) wl.bytes := by
    refine ⟨?_, ?_, ?_⟩ <;> simp only [effAddr, hb', hlayout, hb]
    · omega
    · omega
    · have hdvd : wl.bytes ∣ 8 := by cases wl <;> decide
      have hdvd' : wl.bytes ∣ a.toNat := hdvd.trans (Nat.dvd_of_mod_eq_zero halign)
      exact Nat.mod_eq_zero_of_dvd (hdvd'.add (Nat.dvd_of_mod_eq_zero hwidth))
  refine ⟨_, exec_loadOf_of_allowed hl rd, ?_⟩
  rw [reg_retire, reg_setReg_same, toNat_memRead, bytesValue]
  refine Finset.sum_congr rfl fun k hk => ?_
  have hk' := Finset.mem_range.1 hk
  have hsize : Width.b8.bytes = 8 := rfl
  rw [← ht, archByte_retire, archByte_memWrite]
  simp only [effAddr, ha, hb', hb]
  rw [if_pos (by omega), show a.toNat + off + k - a.toNat = off + k by omega]

theorem toNat_add_of_fits {a : BitVec 32} {k : Nat} (hk : k < 8) (h : a.toNat + 8 ≤ 2 ^ 32) :
    (a + BitVec.ofNat 32 k).toNat = a.toNat + k := by
  rw [BitVec.toNat_add, BitVec.toNat_ofNat]
  omega

/-- Settles O28: the general rule byte by byte, and the worked case summed from its bytes. -/
theorem mixedWidthsSeeEachOthersBytes : Obligations.MixedWidthsSeeEachOthersBytes := by
  constructor
  · intro ws wl rs rd ms ml s t u hs hl hstore hload k hk a
    simp only [← wordByte_eq_extract]
    exact load_after_store hs hl hstore hload hk
  · intro a rs rd s t halign hbase hend hval hstore hfit
    refine ⟨?_, ?_, ?_⟩
    · obtain ⟨u, hu, hv⟩ := load_of_stored_word (rd := rd) (wl := .b1) (off := 0) halign hbase hend hstore rfl (by decide)
        (by decide)
      exact ⟨u, hu, BitVec.eq_of_toNat_eq (hv.trans (by rw [hval]; decide))⟩
    · obtain ⟨u, hu, hv⟩ := load_of_stored_word (rd := rd) (wl := .b2) (off := 2) halign hbase hend hstore
        (toNat_add_of_fits (by decide) hfit) (by decide) (by decide)
      exact ⟨u, hu, BitVec.eq_of_toNat_eq (hv.trans (by rw [hval]; decide))⟩
    · obtain ⟨u, hu, hv⟩ := load_of_stored_word (rd := rd) (wl := .b4) (off := 4) halign hbase hend hstore
        (toNat_add_of_fits (by decide) hfit) (by decide) (by decide)
      exact ⟨u, hu, BitVec.eq_of_toNat_eq (hv.trans (by rw [hval]; decide))⟩

/-! ## Code and the decoder -/

/-- The layout keeps code and data apart (R61). -/
theorem not_data_of_code {c : Config} {l : Layout} (h : l.wf c = true) {a : Nat} (hbase : l.codeBase ≤ a)
    (hend : a < l.codeEnd) : ¬ (l.dataBase ≤ a ∧ a < l.dataEnd) := by
  simp only [Layout.wf, Bool.and_eq_true, Bool.or_eq_true, decide_eq_true_eq, beq_iff_eq] at h
  unfold Layout.codeEnd Layout.dataEnd at *
  omega

/-- The decoder reads nothing but the code range (R106, R248). -/
theorem decodeAt_congr {s t : State} (hlayout : t.layout = s.layout)
    (hcode : ∀ a, s.layout.codeBase ≤ a → a < s.layout.codeEnd → Memory.read t.mem a = Memory.read s.mem a) (a : Word) :
    decodeAt t a = decodeAt s a := by
  have hwindow : s.layout.codeBase ≤ a.toNat →
      codeWindow s.layout t.mem a.toNat = codeWindow s.layout s.mem a.toNat := by
    intro hbase
    apply List.ext_getElem?
    intro k
    simp only [codeWindow, Memory.getElem?_readBytes]
    split_ifs with hk
    · rw [hcode _ (by omega) (by omega)]
    · rfl
  unfold decodeAt
  rw [hlayout]
  split_ifs with hbase
  · rfl
  · rw [hwindow (by omega)]

/-- Main memory after an instruction: changed by an allowed store alone, in the bytes of the store. -/
theorem exec_mem {i : Instr} {s t : State} (h : exec i s = .next t) : t.layout = s.layout ∧ t.cfg = s.cfg ∧
    (t.mem = s.mem ∨ ∃ (ea : Word) (w : Width) (v : Word), accessAllowed s.layout ea w.bytes ∧ t.mem = (memWrite s ea w v).mem) := by
  cases ends_of_exec h with
  | writes => exact ⟨rfl, rfl, .inl rfl⟩
  | stops => exact ⟨rfl, rfl, .inl rfl⟩
  | stores _ hallowed => exact ⟨by simp, by simp, .inr ⟨_, _, _, hallowed, rfl⟩⟩
  | raises => exact ⟨rfl, rfl, .inl rfl⟩

/-- A step is an instruction, a decode error, or nothing on a stopped engine. -/
theorem step_cases {s t : State} (h : step s = .next t) :
    (∃ i, s.status = .running ∧ decodeAt s s.pc = .ok i ∧ exec i s = .next t)
      ∨ (∃ c, s.status = .running ∧ decodeAt s s.pc = .error c ∧ t = stoppedWith .decodeError (.decode c) s)
      ∨ (s.status ≠ .running ∧ t = s) := by
  by_cases hrun : s.status = .running
  · cases hd : decodeAt s s.pc with
    | ok i => exact .inl ⟨i, hrun, rfl, (step_of_decode hrun hd).symm.trans h⟩
    | error c => exact .inr (.inl ⟨c, hrun, rfl, next_inj (h.symm.trans (step_of_decodeError hrun hd))⟩)
  · exact .inr (.inr ⟨hrun, next_inj (h.symm.trans (step_of_stopped hrun))⟩)

/-- Main memory after a step. -/
theorem step_mem {s t : State} (h : step s = .next t) : t.layout = s.layout ∧ t.cfg = s.cfg ∧
    (t.mem = s.mem ∨ ∃ (ea : Word) (w : Width) (v : Word), accessAllowed s.layout ea w.bytes ∧ t.mem = (memWrite s ea w v).mem) := by
  obtain ⟨i, -, -, hexec⟩ | ⟨c, -, -, rfl⟩ | ⟨-, rfl⟩ := step_cases h
  · exact exec_mem hexec
  · exact ⟨rfl, rfl, .inl rfl⟩
  · exact ⟨rfl, rfl, .inl rfl⟩

theorem read_step_of_not_data {s t : State} (h : step s = .next t) {a : Nat}
    (ha : ¬ (s.layout.dataBase ≤ a ∧ a < s.layout.dataEnd)) : Memory.read t.mem a = Memory.read s.mem a := by
  obtain ⟨-, -, hmem | ⟨ea, w, v, ⟨hbase, hend, -⟩, hmem⟩⟩ := step_mem h
  · rw [hmem]
  · rw [hmem, read_memWrite, if_neg (by omega)]

/-- Settles O34: a step writes inside the data range alone, and the decoder reads the code range alone. -/
theorem stepNeverChangesCode : Obligations.StepNeverChangesCode := by
  intro s t hwf h
  have hcode : ∀ a, s.layout.codeBase ≤ a → a < s.layout.codeEnd → Memory.read t.mem a = Memory.read s.mem a :=
    fun a hbase hend => read_step_of_not_data h (not_data_of_code hwf hbase hend)
  exact ⟨hcode, decodeAt_congr (step_mem h).1 hcode⟩

/-! ## Addresses listed in memory -/

theorem Memory.mem_erase {m : Memory} {a : Nat} {c : Host.Cell} (h : c ∈ Memory.erase m a) : c ∈ m := by
  induction m with
  | nil => exact h
  | cons x m ih =>
    simp only [Memory.erase] at h
    split_ifs at h
    · exact List.mem_cons_of_mem _ (ih h)
    · rcases List.mem_cons.1 h with rfl | h
      · exact List.mem_cons_self
      · exact List.mem_cons_of_mem _ (ih h)

theorem Memory.mem_insert {m : Memory} {a : Nat} {v : Byte} {c : Host.Cell} (h : c ∈ Memory.insert m a v) :
    c.1 = a ∨ c ∈ m := by
  induction m with
  | nil => simp [Memory.insert] at h; simp [h]
  | cons x m ih =>
    simp only [Memory.insert] at h
    split_ifs at h <;> simp only [List.mem_cons] at h ⊢
    · rcases h with h | h
      · exact .inr (.inl h)
      · exact (ih h).imp_right .inr
    · rcases h with h | h
      · exact .inl (by rw [h])
      · exact .inr (.inr h)
    · rcases h with h | h | h
      · exact .inl (by rw [h])
      · exact .inr (.inl h)
      · exact .inr (.inr h)

/-- Writing bytes lists no address outside them. -/
theorem Memory.mem_writeBytes {m : Memory} {a : Nat} {bs : List Byte} {c : Host.Cell}
    (h : c ∈ Memory.writeBytes m a bs) : (a ≤ c.1 ∧ c.1 < a + bs.length) ∨ c ∈ m := by
  induction bs generalizing m a with
  | nil => exact .inr h
  | cons b bs ih =>
    rw [List.length_cons]
    rcases ih h with h | h
    · exact .inl (by omega)
    · unfold Memory.write at h
      split_ifs at h
      · exact .inr (Memory.mem_erase h)
      · exact (Memory.mem_insert h).imp_left fun e => by omega

theorem mem_archWriteBytes (s : State) (a : Nat) (bs : List Byte) :
    (archWriteBytes s a bs).mem = Memory.writeBytes s.mem a bs := by
  induction bs generalizing s a with
  | nil => rfl
  | cons b bs ih => simp [archWriteBytes, ih, Memory.writeBytes]

/-- Settles O35: a store keeps the canonical form and, inside the data range, the size; the ranges do not move. -/
theorem stepKeepsArchInv : Obligations.StepKeepsArchInv := by
  intro s t hinv h
  simp only [archInv, memInside, Bool.and_eq_true, List.all_eq_true, decide_eq_true_eq] at hinv ⊢
  obtain ⟨⟨hwf, hinside⟩, hlayoutWf⟩ := hinv
  obtain ⟨hlayout, hcfg, hmem | ⟨ea, w, v, ⟨hbase, hend, -⟩, hmem⟩⟩ := step_mem h
  · rw [hlayout, hcfg, hmem]
    exact ⟨⟨hwf, hinside⟩, hlayoutWf⟩
  · rw [hlayout, hcfg, hmem]
    refine ⟨⟨wf_memWrite hwf ea w v, fun c hc => ?_⟩, hlayoutWf⟩
    rw [memWrite, mem_archWriteBytes] at hc
    rcases Memory.mem_writeBytes hc with hc | hc
    · rw [wordBytes, length_leBytes] at hc
      simp only [Layout.wf, Bool.and_eq_true, decide_eq_true_eq] at hlayoutWf
      omega
    · exact hinside c hc

end Sys2Proof.Machine
end

section
/-! PROOF. Reset and boot (R46, R380, R381, R400): the state that `create` and `load` leave, and the invariants it meets. -/

namespace Sys2Proof.Machine

/-! ## Placing an image (R381) -/

theorem Memory.wf_placeImage {m : Memory} (h : m.wf) (image : Image) : (placeImage m image).wf := by
  induction image generalizing m with
  | nil => exact h
  | cons seg rest ih => exact ih (Memory.wf_writeBytes h seg.1 seg.2)

theorem read_placeImage_of_not_covered {image : Image} {a : Nat} (h : ∀ seg ∈ image, ¬ segmentCovers seg a) (m : Memory) :
    Memory.read (placeImage m image) a = Memory.read m a := by
  induction image generalizing m with
  | nil => rfl
  | cons seg rest ih =>
    rw [placeImage, ih (fun other hother => h other (List.mem_cons_of_mem _ hother)), Memory.read_writeBytes,
      if_neg (show ¬ (seg.1 ≤ a ∧ a < seg.1 + seg.2.length) from h seg List.mem_cons_self)]

/-- A byte that one segment alone covers holds that segment's byte. -/
theorem read_placeImage_of_covered {image : Image} {seg : Nat × List Byte} {a : Nat} (hseg : seg ∈ image)
    (hcovers : segmentCovers seg a) (honly : ∀ other ∈ image, segmentCovers other a → other = seg) (m : Memory) :
    some (Memory.read (placeImage m image) a) = seg.2[a - seg.1]? := by
  induction image generalizing m with
  | nil => cases hseg
  | cons first rest ih =>
    rw [placeImage]
    by_cases hrest : ∃ other ∈ rest, segmentCovers other a
    · obtain ⟨other, hother, hc⟩ := hrest
      obtain rfl := honly other (List.mem_cons_of_mem _ hother) hc
      exact ih hother (fun x hx => honly x (List.mem_cons_of_mem _ hx)) _
    · have hfirst : seg = first := (List.mem_cons.1 hseg).resolve_right fun hin => hrest ⟨seg, hin, hcovers⟩
      subst hfirst
      have hlt : a - seg.1 < seg.2.length := by have := hcovers.1; have := hcovers.2; omega
      rw [read_placeImage_of_not_covered (fun other hother hc => hrest ⟨other, hother, hc⟩), Memory.read_writeBytes,
        if_pos (show seg.1 ≤ a ∧ a < seg.1 + seg.2.length from hcovers), List.getD_eq_getElem?_getD, List.getElem?_eq_getElem hlt]
      rfl

/-! ## The state after boot -/

/-- The state that `create` and `load` leave. -/
def bootState (c : Config) (image : Image) (l : Layout) : State :=
  { State.initial c l true with mem := placeImage [] image }

/-- What `boot` accepts, and what it answers. -/
theorem boot_ok {c : Config} {image : Image} {l : Layout} {s : State} (h : boot c image l = .ok s) :
    c.wf = true ∧ l.wf c = true ∧ s = bootState c image l := by
  unfold boot create at h
  by_cases hc : c.wf = true
  · rw [if_pos hc] at h
    simp only [load] at h
    split_ifs at h with h1 h2 h3 h4
    cases h
    exact ⟨hc, h3, rfl⟩
  · rw [if_neg hc] at h
    cases h

theorem load_of_loaded {s : State} (h : s.loaded = true) (image : Image) (l : Layout) :
    load image l s = .error .alreadyLoaded := if_pos h

theorem reg_initial (c : Config) (l : Layout) (b : Bool) (r : Reg) : (State.initial c l b).reg r = 0 := by
  simp [State.initial, reg_eq_getElem]

/-- Settles O37: the initial state of the configuration, with the image placed. -/
theorem bootLeavesResetValues : Obligations.BootLeavesResetValues := by
  intro c image l s h
  obtain ⟨-, -, rfl⟩ := boot_ok h
  refine ⟨reg_initial c l true, rfl, rfl, rfl, rfl, rfl, rfl, rfl, rfl, rfl, rfl, List.length_replicate,
    fun _ => List.eq_of_mem_replicate, List.length_replicate, fun _ => List.eq_of_mem_replicate, rfl,
    List.length_replicate, fun ways hways => ?l1, rfl, rfl, rfl, rfl, rfl, rfl,
    fun a _ _ hnone => read_placeImage_of_not_covered hnone [],
    fun seg a _ hseg hcovers honly => read_placeImage_of_covered hseg hcovers honly [],
    fun image' l' => load_of_loaded rfl image' l'⟩
  case l1 =>
    obtain rfl := List.eq_of_mem_replicate hways
    exact ⟨List.length_replicate, fun _ => List.eq_of_mem_replicate⟩

/-! ## The invariants after boot -/

section
variable {c : Config} (hc : c.wf = true) (l : Layout) (b : Bool) {m : Memory} (hm : m.wf = true)

theorem mem_zipIdx_replicate {α : Type} {n k : Nat} {x : α} {p : α × Nat} (h : p ∈ (List.replicate n x).zipIdx k) : p.1 = x :=
  List.eq_of_mem_replicate (List.fst_mem_of_mem_zipIdx h)

/-- The invariants of cache, store buffer and miss wait hold where all three are empty. -/
theorem microInv_initial (hc : c.wf = true) (hm : m.wf = true) :
    microInv { State.initial c l b with mem := m } = true := by
  have hgeometry : geometryOk { State.initial c l b with mem := m } = true := by
    simp only [geometryOk, State.initial, List.length_replicate, beq_self_eq_true, Bool.true_and, List.all_eq_true]
    intro ways hways
    obtain rfl := List.eq_of_mem_replicate hways
    simp
  have hcache : cacheOk { State.initial c l b with mem := m } = true := by
    simp only [cacheOk, State.initial, List.all_eq_true]
    intro p hp
    rw [mem_zipIdx_replicate hp]
    simp [validTags]
  simp only [microInv, hgeometry, hcache]
  simp [hc, hm, State.initial, sbOk, waitOk]

theorem pipelineLegal_initial : pipelineLegal { State.initial c l b with mem := m } = true := rfl

theorem predictorOk_initial : predictorOk { State.initial c l b with mem := m } = true := by
  simp only [predictorOk, State.initial, List.length_replicate, beq_self_eq_true, Bool.true_and, List.length_nil,
    Nat.zero_le, decide_true, List.all_eq_true]
  intro p hp
  rw [mem_zipIdx_replicate hp]
  rfl

theorem haltedOk_initial : haltedOk { State.initial c l b with mem := m } = true := rfl

end

/-- A fresh engine is coupled to itself, whatever the predictor holds: nothing is in flight and fetch is at the pc. -/
theorem coupled_initial {c : Config} (hc : c.wf = true) {l : Layout} (hl : l.wf c = true) (b : Bool) {m : Memory}
    (hm : m.wf = true) (btb : List (Option BtbEntry)) (pht : List (BitVec 2)) (ras : List Word) :
    coupled (bootedWith btb pht ras { State.initial c l b with mem := m }) { State.initial c l b with mem := m } :=
  ⟨microInv_initial l b hc hm, pipelineLegal_initial (c := c) (m := m) l b, hl, rfl, rfl, rfl, rfl, rfl, rfl, rfl, fun _ => rfl, fun _ => rfl,
    fun _ _ => ⟨rfl, rfl⟩⟩

/-- Settles O36: the invariants of a fresh engine, for the default configuration and the layout of log 2. -/
theorem resetMeetsTheInvariants : Obligations.ResetMeetsTheInvariants := by
  have hc : Config.wf {} = true := by decide
  have hl : Layout.standard.wf {} = true := by decide
  exact ⟨by decide, microInv_initial _ true hc rfl, pipelineLegal_initial _ true (m := []), predictorOk_initial _ true (m := []),
    haltedOk_initial _ true (m := []), coupled_initial hc hl true rfl _ _ _⟩

end Sys2Proof.Machine
end

section
/-! PROOF. The predictor at Fetch and at resolution (R290 to R301, R310), and operand resolution (R272, R280). -/

namespace Sys2Proof.Machine

/-! ## What Fetch predicts (R295, R296, R301) -/

/-- Flags on which a condition holds. -/
def holdingFlags : Cond → Flags
  | .equal | .lessEqual | .belowEqual => { z := true, n := false, c := false, v := false }
  | .less => { z := false, n := true, c := false, v := false }
  | .below => { z := false, n := false, c := true, v := false }
  | .notEqual | .greaterEqual | .greater | .aboveEqual | .above => { z := false, n := false, c := false, v := false }

theorem flagCondition_holdingFlags (c : Cond) : flagCondition c (holdingFlags c) := by
  rw [← condHolds_iff]
  cases c <;> rfl

/-- Every instruction of a transfer class is taken in some state. -/
theorem exists_takenTo {i : Instr} (h : (workOf i).isTransfer = true) : ∃ s target, takenTo i s target := by
  have hclass := executesAs i
  cases hw : workOf i <;> rw [hw] at hclass h
  case jump =>
    obtain ⟨t, rfl⟩ := hclass
    exact ⟨State.reset, _, rfl⟩
  case call =>
    obtain ⟨t, rfl⟩ := hclass
    exact ⟨State.reset, _, rfl⟩
  case ret =>
    obtain rfl : i = .ret := hclass
    exact ⟨State.reset, _, rfl⟩
  case ifZero =>
    obtain ⟨r, t, rfl⟩ := hclass
    exact ⟨State.reset, _, reg_initial .., rfl⟩
  case ifNotZero =>
    obtain ⟨r, t, rfl⟩ := hclass
    exact ⟨State.reset.setReg (regNum r) 1, _, by rw [reg_setReg_same]; decide, rfl⟩
  case ifFlags c =>
    obtain ⟨t, rfl⟩ := hclass
    exact ⟨State.reset.setFlags (holdingFlags c), _, (takenTo_flagJump c t _ _).2 ⟨flagCondition_holdingFlags c, rfl⟩⟩
  all_goals cases h

theorem workOf_flagJump (c : Cond) (t : Target) : workOf (flagJump c t) = .ifFlags c := by cases c <;> rfl

/-- Any class but a transfer is predicted to go on to the next instruction (R301). -/
theorem predict_of_not_transfer {i : Instr} (h : (workOf i).isTransfer = false) (p : Word) (s : State) :
    predict (uopOf i p) s = (p + BitVec.ofNat 64 i.length, s) := by
  simp only [predict, uopOf_instr, uopOf_pc, uopOf_len]
  cases hw : workOf i <;> rw [hw] at h
  all_goals cases h

/-- A conditional jump to a decoded target (R296). -/
theorem predict_conditional {i : Instr} {p target : Word} (hcond : isConditional (workOf i) = true)
    (htarget : (uopOf i p).target = some target) (s : State) :
    predict (uopOf i p) s = (predictConditional s p target (p + BitVec.ofNat 64 i.length), s) := by
  simp only [predict, uopOf_instr, uopOf_pc, uopOf_len, htarget, Option.getD_some]
  cases hw : workOf i <;> rw [hw] at hcond
  all_goals cases hcond

theorem targetAddr_eq_directTarget (p : Word) (len : Nat) (t : Target) :
    targetAddr (p + BitVec.ofNat 64 len) t = directTarget p len t := by cases t <;> rfl

theorem predictConditional_of_hit {s : State} {pc target seq : Word} {e : BtbEntry} (h : btbHit s pc = some e) :
    predictConditional s pc target seq = if phtTaken (phtAt s pc) then e.target else seq := by
  simp only [predictConditional, h]

theorem predictConditional_of_miss {s : State} {pc target seq : Word} (h : btbHit s pc = none) :
    predictConditional s pc target seq = if target.toNat ≤ pc.toNat then target else seq := by
  simp only [predictConditional, h]

theorem btbHit_eq_none_of {s : State} {pc : Word}
    (h : ∀ e : BtbEntry, s.btb[pc.toNat % s.cfg.btbSize]? = some (some e) → e.tag ≠ pc) : btbHit s pc = none := by
  refine Option.eq_none_iff_forall_not_mem.mpr fun e he => ?_
  obtain ⟨hentry, htag⟩ := btbHit_eq_some_iff.mp he
  exact h e hentry htag

/-- The target of a conditional jump is decoded into its micro-operation. -/
theorem target_of_conditional {i : Instr} {t : Target}
    (h : (∃ c, i = flagJump c t) ∨ ∃ r, i = .jmpIfZero r t ∨ i = .jmpIfNotZero r t) (p : Word) :
    isConditional (workOf i) = true ∧ (uopOf i p).target = some (directTarget p i.length t) := by
  obtain ⟨c, rfl⟩ | ⟨r, rfl | rfl⟩ := h
  · rw [workOf_flagJump, uopOf_flagJump, ← targetAddr_eq_directTarget]
    exact ⟨rfl, rfl⟩
  · rw [← targetAddr_eq_directTarget]
    exact ⟨rfl, rfl⟩
  · rw [← targetAddr_eq_directTarget]
    exact ⟨rfl, rfl⟩

/-- Settles O41: by class; the conditional jumps by what their index of the BTB holds. -/
theorem predictionAtFetch : Obligations.PredictionAtFetch := by
  intro i p s seq given
  refine ⟨?jmp, ?call, ?ret, fun t hi => ?conditional, fun hnever => ?other⟩
  case jmp =>
    rintro t rfl
    have htarget := targetAddr_eq_directTarget p (Instr.jmp t).length t
    rw [length_jmp] at htarget
    exact Prod.ext ((congrArg (fun n => targetAddr (p + BitVec.ofNat 64 n) t) (length_jmp t)).trans htarget) rfl
  case call =>
    rintro t rfl
    have htarget := targetAddr_eq_directTarget p (Instr.call t).length t
    rw [length_call] at htarget
    exact Prod.ext ((congrArg (fun n => targetAddr (p + BitVec.ofNat 64 n) t) (length_call t)).trans htarget)
      (congrArg (fun n => rasPush s (p + BitVec.ofNat 64 n)) (length_call t))
  case ret =>
    rintro rfl
    refine ⟨fun hempty => ?_, fun r v hr => ?_⟩
    · obtain ⟨h1, h2⟩ := rasPop_of_empty hempty
      exact ⟨congrArg (fun x => Option.getD x seq) h1, h2⟩
    · obtain ⟨h1, h2⟩ := rasPop_of_append hr
      exact ⟨congrArg (fun x => Option.getD x seq) h1, h2⟩
  case conditional =>
    obtain ⟨hcond, htarget⟩ := target_of_conditional hi p
    have hgiven : given = _ := predict_conditional hcond htarget s
    rw [hgiven]
    refine ⟨rfl, fun e c he htag hc => ?_, fun hother => predictConditional_of_miss (btbHit_eq_none_of hother)⟩
    have hphtAt : phtAt s p = c := by
      rw [phtAt, phtIndex, List.getD_eq_getElem?_getD, hc]
      rfl
    refine (predictConditional_of_hit (btbHit_eq_some_iff.2 ⟨he, htag⟩)).trans ?_
    simp only [hphtAt, phtTaken, decide_eq_true_eq, ge_iff_le]
    rfl
  case other =>
    refine predict_of_not_transfer (Bool.eq_false_iff.2 fun htransfer => ?_) p s
    obtain ⟨u, target, htaken⟩ := exists_takenTo htransfer
    exact hnever u target htaken

/-! ## Resolution (R297) -/

section
variable (e : FetchEntry) (u : Uop) (taken : Bool) (tgt : Word) (link : Option Word) (s : State)

/-- The state in which the predictor has been trained with a resolved transfer. -/
def trained : State := trainPredictor (isConditional (workOf u.instr)) e.pc taken tgt s

/-- The address that follows a resolved transfer. -/
def resolvedNext : Word := if taken then tgt else e.pc + BitVec.ofNat 64 u.len

/-- What a transfer leaves in EM when it raises no fault. -/
def linkLatch : ExLatch := { freshLatch e with rd := link.map (fun _ => linkReg), result := link }

theorem layout_trained : (trained e u taken tgt s).layout = s.layout := (sameOutsideEx_train _ _ _ _ s).2.1

theorem resolveTransfer_of_fault (htaken : taken = true) (hbad : ¬ targetInCode s.layout tgt) :
    resolveTransfer e u taken tgt link s = { latch := faultLatch (freshLatch e) .controlFault .control
                                             state := trained e u taken tgt s
                                             flush := true, redirect := none, haltFetch := true } := by
  subst htaken
  have hin : inCode (trained e u true tgt s).layout tgt = false := by
    rw [layout_trained, Bool.eq_false_iff]
    exact fun h => hbad ((inCode_iff _ _).1 h)
  have hguard : (true && !inCode (trained e u true tgt s).layout tgt) = true := by rw [hin]; rfl
  exact if_pos hguard

theorem resolveTransfer_of_ok (hok : taken = false ∨ targetInCode s.layout tgt) :
    resolveTransfer e u taken tgt link s =
      if e.predNext = some (resolvedNext e u taken tgt) then
        ExecOut.plain (linkLatch e link) (countCorrect (trained e u taken tgt s))
      else { latch := linkLatch e link, state := countMispredicted (trained e u taken tgt s), flush := true
             redirect := some (resolvedNext e u taken tgt), haltFetch := false } := by
  have hgood : ¬ (taken && !inCode (trained e u taken tgt s).layout tgt) = true := by
    rw [layout_trained]
    rcases hok with rfl | hin
    · simp
    · simp [(inCode_iff _ _).2 hin]
  exact if_neg hgood

end

/-- Settles O43: the two outcomes without a fault, and the fault. -/
theorem mispredictionFlushesAndRedirects : Obligations.MispredictionFlushesAndRedirects := by
  intro e u taken tgt link s o actual
  refine ⟨fun hok => ?_, fun htaken hbad => ?_⟩
  · have ho : o = _ := resolveTransfer_of_ok e u taken tgt link s hok
    rw [ho]
    split_ifs with hpred
    · exact ⟨rfl, rfl, ⟨fun h => Bool.noConfusion h, fun h => absurd hpred h⟩, fun h => Bool.noConfusion h, rfl⟩
    · exact ⟨rfl, rfl, ⟨fun _ => hpred, fun _ => rfl⟩, fun _ => rfl, rfl⟩
  · have ho : o = _ := resolveTransfer_of_fault e u taken tgt link s htaken hbad
    rw [ho]
    exact ⟨rfl, rfl, rfl, rfl⟩

end Sys2Proof.Machine
end

section
/-! PROOF. The steps of a tick, one inversion lemma each: what WB, MEM and EX can do (R234 to R236, R249), and what they
leave alone. The statements about single stages and the predictor's tables follow. -/

namespace Sys2Proof.Machine

/-! ## What the steps after WB leave of the architectural state -/

/-- The architectural state outside memory, and the count of retired instructions and of ticks, are the same. -/
def sameArch (s t : State) : Prop :=
  t.cfg = s.cfg ∧ t.layout = s.layout ∧ t.regs = s.regs ∧ t.flags = s.flags ∧ t.pc = s.pc ∧ t.status = s.status
    ∧ t.metrics.instructionsCommitted = s.metrics.instructionsCommitted ∧ t.metrics.cycles = s.metrics.cycles

theorem sameArch.trans {s t u : State} (h : sameArch s t) (k : sameArch t u) : sameArch s u := by
  simp only [sameArch] at *
  simp only [h, k, and_self]

theorem sameOutsideMemory.sameArch {s t : State} (h : sameOutsideMemory s t) : sameArch s t := by
  simp only [sameOutsideMemory] at h
  simp only [Machine.sameArch, h, and_self]

theorem sameOutsideEx.sameArch {s t : State} (h : sameOutsideEx s t) : sameArch s t := by
  simp only [sameOutsideEx] at h
  simp only [Machine.sameArch, h, and_self]

theorem sameOutsideFetch.sameArch {s t : State} (h : sameOutsideFetch s t) : sameArch s t := by
  simp only [sameOutsideFetch] at h
  simp only [Machine.sameArch, h, and_self]

/-- The four steps after WB leave the architectural state outside memory alone. -/
theorem sameArch_rest {stalled : Bool} {emo emo' : Option ExLatch} {mwo : Option MemLatch} {deo : Option FetchEntry}
    {s s2 : State} {sig : ExSignals} (h : exStep stalled emo' mwo deo (memStep emo s).1 = .ok (s2, sig)) :
    sameArch s (ifStep sig (idStep sig s2)) :=
  (((sameOutsideMemory_memStep emo s).sameArch.trans (sameOutsideEx_exStep h).sameArch).trans
    (sameOutsideFetch_idStep sig s2).sameArch).trans (sameOutsideFetch_ifStep sig _).sameArch

/-! ## The WB step (R234) -/

/-- What the retirement of the instruction in a latch leaves (R234), the stop of the engine aside. -/
def wbRetired (w : MemLatch) (s : State) : State :=
  { s with
    regs := match w.rd, w.result with
      | some r, some v => s.regs.set r v
      | _, _ => s.regs
    flags := w.flags.getD s.flags
    pc := nextUnretired s
    metrics := s.metrics.commit
    sb := match w.sbAge with
      | some age => markRetired s.sb age
      | none => s.sb }

/-- The stop that follows the retirement of HALT, SYSCALL and TRAP (R366). -/
def wbStopped (w : MemLatch) (r : StopReason) (s : State) : State :=
  { wbRetired w s with status := .halted r ((wbRetired w s).reg exitReg) w.pc }

/-- The latch names a register only with a value for it. -/
def hasValue (l : ExLatch) : Prop := l.rd.isSome = true → l.result.isSome = true

/-- What the WB step does with a latch that carries no error. -/
theorem wbStep_eq {w : MemLatch} {u : Uop} (hf : w.fault = none) (hu : w.uop = some u) (hv : hasValue w.toExLatch) (s : State) :
    wbStep (some w) s = .ok (match stopReasonOf u.instr with
      | some r => (wbStopped w r s, true)
      | none => (wbRetired w s, false)) := by
  have hwb : ∃ s1, writeBack w.toExLatch s = .ok s1 ∧ retire (nextUnretired s) (retireStore w (writeFlags w.toExLatch s1))
      = wbRetired w s := by
    unfold hasValue at hv
    cases hrd : w.rd <;> cases hres : w.result
    case some.none => simp [hrd, hres] at hv
    all_goals
      refine ⟨_, by simp only [writeBack, hrd, hres]; rfl, ?_⟩
      cases hfl : w.flags <;> cases hsb : w.sbAge <;>
        simp only [writeFlags, retireStore, wbRetired, hrd, hres, hfl, hsb, retire, State.setReg, State.setFlags,
          Option.getD_none, Option.getD_some]
  obtain ⟨s1, h1, h2⟩ := hwb
  simp only [wbStep, hf, hu, h1, h2, stopAt]
  cases stopReasonOf u.instr <;> rfl

/-- A WB step that meets no error in its latch: a bubble, or a retirement. -/
theorem wbStep_ok_cases {mwo : Option MemLatch} (hf : ∀ w, mwo = some w → w.fault = none) {s t : State} {stop : Bool}
    (h : wbStep mwo s = .ok (t, stop)) :
    (mwo = none ∧ t = s ∧ stop = false) ∨ ∃ w u, mwo = some w ∧ w.uop = some u ∧ hasValue w.toExLatch
      ∧ ((stop = true ∧ ∃ r, stopReasonOf u.instr = some r ∧ t = wbStopped w r s)
        ∨ (stop = false ∧ stopReasonOf u.instr = none ∧ t = wbRetired w s)) := by
  cases mwo with
  | none =>
    cases h
    exact .inl ⟨rfl, rfl, rfl⟩
  | some w =>
    obtain ⟨u, hu, -, hv, -⟩ := wbStep_retire (hf w rfl) h
    rw [wbStep_eq (hf w rfl) hu hv] at h
    refine .inr ⟨w, u, rfl, hu, hv, ?_⟩
    cases hr : stopReasonOf u.instr with
    | some r =>
      rw [hr] at h
      cases h
      exact .inl ⟨rfl, r, rfl, rfl⟩
    | none =>
      rw [hr] at h
      cases h
      exact .inr ⟨rfl, rfl, rfl⟩

/-! ## The cases of a tick -/

/-- The tick as R231 has it, with the WB step's outcome named: an error; a stop; or all steps, after a bubble or a
retirement in WB. -/
theorem tick_ok_cases {s t : State} (hr : s.status = .running) (h : tick s = .next t) :
    (∃ w f, s.mw = some w ∧ w.fault = some f
        ∧ t = { s with status := .error f.kind w.pc f.message
                       metrics := { s.metrics with cycles := s.metrics.cycles + 1 } })
      ∨ (∃ w u r, s.mw = some w ∧ w.fault = none ∧ w.uop = some u ∧ hasValue w.toExLatch ∧ stopReasonOf u.instr = some r
        ∧ t = wbStopped w r (countCycle s))
      ∨ ∃ s1 s2 sig, ((s.mw = none ∧ s1 = countCycle s) ∨ ∃ w u, s.mw = some w ∧ w.fault = none ∧ w.uop = some u
            ∧ hasValue w.toExLatch ∧ stopReasonOf u.instr = none ∧ s1 = wbRetired w (countCycle s))
        ∧ exStep (memStep s.em s1).2 s.em s.mw s.de (memStep s.em s1).1 = .ok (s2, sig)
        ∧ t = ifStep sig (idStep sig s2) := by
  obtain herr | ⟨w, hw, hf, hstep⟩ | ⟨s1, s2, sig, hwb, hnofault, hex, ht⟩ := tick_cases hr h
  · exact .inl herr
  · have hnofault : ∀ w', s.mw = some w' → w'.fault = none := by
      intro w' hw'
      obtain rfl := Option.some.inj (hw.symm.trans hw')
      exact hf
    obtain ⟨hnone, -⟩ | ⟨w', u, hw', hu, hv, ⟨-, r, hr, ht⟩ | ⟨hfalse, -⟩⟩ := wbStep_ok_cases hnofault hstep
    · rw [hw] at hnone
      cases hnone
    · exact .inr (.inl ⟨w', u, r, hw', hnofault w' hw', hu, hv, hr, ht⟩)
    · cases hfalse
  · refine .inr (.inr ⟨s1, s2, sig, ?_, hex, ht⟩)
    obtain ⟨hnone, hs, -⟩ | ⟨w', u, hw', hu, hv, ⟨htrue, -⟩ | ⟨-, hr, ht⟩⟩ := wbStep_ok_cases hnofault hwb
    · exact .inl ⟨hnone, hs⟩
    · cases htrue
    · exact .inr ⟨w', u, hw', hnofault w' hw', hu, hv, hr, ht⟩

/-- A register that a retirement changes is the latch's, with the latch's value. -/
theorem reg_wbRetired {w : MemLatch} (hv : hasValue w.toExLatch) (s : State) (r : Reg) :
    (wbRetired w s).reg r = if w.rd = some r then w.result.getD 0 else s.reg r := by
  unfold hasValue at hv
  cases hrd : w.rd with
  | none => simp [wbRetired, State.reg, hrd]
  | some q =>
    obtain ⟨v, hres⟩ := Option.isSome_iff_exists.1 (hv (by simp [hrd]))
    have hset : (wbRetired w s).reg r = (s.setReg q v).reg r := by simp [wbRetired, State.reg, hrd, hres, State.setReg]
    rw [hset]
    by_cases hq : q = r
    · subst hq
      simp [hres]
    · simp [hq]

/-- A change of a register by a retirement, read backwards. -/
theorem reg_wbRetired_of_ne {w : MemLatch} (hv : hasValue w.toExLatch) {s : State} {r : Reg}
    (h : (wbRetired w s).reg r ≠ s.reg r) : w.rd = some r ∧ w.result = some ((wbRetired w s).reg r) := by
  have hreg := reg_wbRetired hv s r
  unfold hasValue at hv
  by_cases hrd : w.rd = some r
  · obtain ⟨v, hres⟩ := Option.isSome_iff_exists.1 (hv (by simp [hrd]))
    rw [if_pos hrd, hres] at hreg
    exact ⟨hrd, by rw [hreg, hres]; rfl⟩
  · rw [if_neg hrd] at hreg
    exact absurd hreg h

theorem flags_wbRetired_of_ne {w : MemLatch} {s : State} (h : (wbRetired w s).flags ≠ s.flags) :
    w.flags = some (wbRetired w s).flags := by
  have hfl : (wbRetired w s).flags = w.flags.getD s.flags := rfl
  rw [hfl] at h ⊢
  cases hw : w.flags with
  | none => rw [hw] at h; exact absurd rfl h
  | some f => rfl

/-- Settles O45: a register or flag that changes has changed in the retirement; the other steps leave them alone. -/
theorem onlyWritebackWrites : Obligations.OnlyWritebackWrites := by
  intro s t hrun h
  obtain ⟨w, f, hw, hf, rfl⟩ | ⟨w, u, r, hw, hf, hu, hv, hr, rfl⟩ | ⟨s1, s2, sig, hwb, hex, rfl⟩ := tick_ok_cases hrun h
  · exact ⟨fun r h => absurd rfl h, fun h => absurd rfl h, by simp [hw, hf], rfl⟩
  · refine ⟨fun r h => ?_, fun h => ⟨w, hw, hf, flags_wbRetired_of_ne h⟩, by simp [hw, hf]; rfl, rfl⟩
    obtain ⟨hrd, hres⟩ := reg_wbRetired_of_ne hv h
    exact ⟨w, hw, hf, hrd, hres⟩
  · obtain ⟨-, -, hregs, hflags, -, -, hcommitted, hcycles⟩ := sameArch_rest hex
    have hreg : ∀ r, (ifStep sig (idStep sig s2)).reg r = s1.reg r := fun r => congrArg (fun v => v.get r) hregs
    obtain ⟨hw, rfl⟩ | ⟨w, u, hw, hf, hu, hv, -, rfl⟩ := hwb
    · exact ⟨fun r h => absurd (hreg r) h, fun h => absurd hflags h, by rw [hcommitted, hw]; rfl, hcycles⟩
    · refine ⟨fun r h => ?_, fun h => ?_, by rw [hcommitted, hw]; simp [hf]; rfl, hcycles⟩
      · rw [hreg] at h ⊢
        obtain ⟨hrd, hres⟩ := reg_wbRetired_of_ne hv h
        exact ⟨w, hw, hf, hrd, hres⟩
      · rw [hflags] at h ⊢
        exact ⟨w, hw, hf, flags_wbRetired_of_ne h⟩

theorem length_markRetired (sb : List SbEntry) (age : Nat) : (markRetired sb age).length = sb.length :=
  List.length_map ..

/-- Settles O46: an error ends the tick in WB, and so does a stop, after its retirement. -/
theorem stopsAtWriteback : Obligations.StopsAtWriteback := by
  refine ⟨fun s w f hrun hw hf => ?_, fun s t w u r hrun hw hf hu hr h => ?_⟩
  · have hwb : wbStep s.mw (countCycle s) = .ok ({ countCycle s with status := .error f.kind w.pc f.message }, true) := by
      rw [hw]
      simp only [wbStep, hf]
    simp only [tick, hrun, runningTick, hwb]
    rfl
  · obtain ⟨w', f, hw', hf', -⟩ | ⟨w', u', r', hw', -, hu', -, hr', rfl⟩ | ⟨s1, s2, sig, hwb, -⟩ := tick_ok_cases hrun h
    · obtain rfl := Option.some.inj (hw.symm.trans hw')
      rw [hf] at hf'
      cases hf'
    · obtain rfl := Option.some.inj (hw.symm.trans hw')
      obtain rfl := Option.some.inj (hu.symm.trans hu')
      obtain rfl := Option.some.inj (hr.symm.trans hr')
      refine ⟨rfl, rfl, rfl, rfl, rfl, rfl, rfl, rfl, rfl, ?_⟩
      simp only [wbStopped, wbRetired]
      cases w.sbAge with
      | none => rfl
      | some age => exact length_markRetired ..
    · obtain ⟨hnone, -⟩ | ⟨w', u', hw', -, hu', -, hr', -⟩ := hwb
      · rw [hw] at hnone
        cases hnone
      · obtain rfl := Option.some.inj (hw.symm.trans hw')
        obtain rfl := Option.some.inj (hu.symm.trans hu')
        rw [hr] at hr'
        cases hr'

/-! ## The EX step (R236) -/

/-- What the EX step can do: nothing behind a MEM stall; a bubble; an error moves on; a load-use stall; or the instruction
in DE executes. -/
theorem exStep_cases {stalled : Bool} {emo : Option ExLatch} {mwo : Option MemLatch} {deo : Option FetchEntry}
    {s t : State} {sig : ExSignals} (h : exStep stalled emo mwo deo s = .ok (t, sig)) :
    (stalled = true ∧ t = s ∧ sig = ExSignals.quiet)
      ∨ (stalled = false ∧ deo = none ∧ t = { s with em := none } ∧ sig = { ExSignals.quiet with deConsumed := true })
      ∨ (stalled = false ∧ ∃ e, deo = some e ∧ e.fault.isSome = true ∧ t = { s with em := some (carryFault e) }
        ∧ sig = { ExSignals.quiet with deConsumed := true })
      ∨ (stalled = false ∧ ∃ e, deo = some e ∧ e.fault = none ∧ loadUse emo e = true
        ∧ t = countLoadUse { s with em := none } ∧ sig = { ExSignals.quiet with loadUse := true })
      ∨ (stalled = false ∧ ∃ e o, deo = some e ∧ e.fault = none ∧ loadUse emo e = false ∧ execute emo mwo e s = .ok o
        ∧ t = { o.state with em := some o.latch }
        ∧ sig = { ExSignals.quiet with
            deConsumed := true, flush := o.flush, redirect := o.redirect, haltFetch := o.haltFetch }) := by
  unfold exStep at h
  split_ifs at h with hst
  · cases h
    exact .inl ⟨hst, rfl, rfl⟩
  · have hst' : stalled = false := Bool.eq_false_iff.2 hst
    refine .inr ?_
    split at h
    · cases h
      exact .inl ⟨hst', rfl, rfl, rfl⟩
    · rename_i e
      refine .inr ?_
      split_ifs at h with hfault huse
      · cases h
        exact .inl ⟨hst', e, rfl, hfault, rfl, rfl⟩
      · cases h
        exact .inr (.inl ⟨hst', e, rfl, by simpa using hfault, huse, rfl, rfl⟩)
      · split at h
        · cases h
        · rename_i o ho
          cases h
          exact .inr (.inr ⟨hst', e, o, rfl, by simpa using hfault, Bool.eq_false_iff.2 huse, ho, rfl, rfl⟩)

/-- What `Execute` hands on, whatever the class: the instruction in its latch; without an error, a value for every register
named but a load's, and a redirect with every flush; with one, no register, a flush and halted fetch (R363). -/
def ExecOut.Sound (e : FetchEntry) (o : ExecOut) : Prop :=
  o.latch.uop = e.uop ∧ o.latch.pc = e.pc
    ∧ ((o.latch.fault = none ∧ o.haltFetch = false ∧ (o.flush = true ↔ o.redirect.isSome = true)
        ∧ (o.latch.rd.isSome = true → o.latch.result.isSome = true ∨ isLoad o.latch = true)
        ∧ (o.latch.access.isSome = true → o.flush = false))
      ∨ (o.latch.fault.isSome = true ∧ o.latch.rd = none ∧ o.flush = true ∧ o.haltFetch = true))

theorem resolveTransfer_sound (e : FetchEntry) (u : Uop) (taken : Bool) (tgt : Word) (link : Option Word) (s : State) :
    (resolveTransfer e u taken tgt link s).Sound e := by
  have hlink : (linkLatch e link).rd.isSome = true → (linkLatch e link).result.isSome = true := by simp [linkLatch]
  by_cases hok : taken = false ∨ targetInCode s.layout tgt
  · rw [resolveTransfer_of_ok e u taken tgt link s hok]
    split_ifs
    · exact ⟨rfl, rfl, .inl ⟨rfl, rfl, Iff.rfl, fun h => .inl (hlink h), fun h => Bool.noConfusion h⟩⟩
    · exact ⟨rfl, rfl, .inl ⟨rfl, rfl, Iff.rfl, fun h => .inl (hlink h), fun h => Bool.noConfusion h⟩⟩
  · push Not at hok
    rw [resolveTransfer_of_fault e u taken tgt link s (Bool.not_eq_false _ ▸ hok.1) hok.2]
    exact ⟨rfl, rfl, .inr ⟨rfl, rfl, rfl, rfl⟩⟩

theorem executeWork_sound {emo : Option ExLatch} {mwo : Option MemLatch} {e : FetchEntry} {u : Uop} {a b : Option Word}
    {s : State} {o : ExecOut} (h : executeWork emo mwo e u a b s = .ok o) : o.Sound e := by
  unfold executeWork at h
  split at h
  case h_5 | h_6 =>
    split at h
    · cases h
      exact ⟨rfl, rfl, .inl ⟨rfl, rfl, Iff.rfl, by simp [isLoad, ExecOut.plain, freshLatch], fun _ => rfl⟩⟩
    · cases h
  case h_7 | h_8 | h_9 | h_10 | h_11 | h_12 =>
    cases h
    exact resolveTransfer_sound ..
  case h_14 => cases h
  all_goals
    cases h
    exact ⟨rfl, rfl, .inl ⟨rfl, rfl, Iff.rfl, by simp [ExecOut.plain, freshLatch], fun _ => rfl⟩⟩

theorem execute_sound {emo : Option ExLatch} {mwo : Option MemLatch} {e : FetchEntry} {s : State} {o : ExecOut}
    (h : execute emo mwo e s = .ok o) : o.Sound e := by
  unfold execute at h
  split at h
  · cases h
  · split at h
    · cases h
    · split at h
      · cases h
      · exact executeWork_sound h

/-! ## ID and IF behind a flush (R237, R238) -/

theorem idStep_of_flush {sig : ExSignals} (h : sig.flush = true) (s : State) : idStep sig s = { s with fb := [], de := none } :=
  if_pos h

theorem ifStep_of_halt {sig : ExSignals} (hflush : sig.flush = true) (hhalt : sig.haltFetch = true) (s : State) :
    ifStep sig s = { s with fetchHalted := true } := by
  simp only [ifStep, hflush, hhalt, if_true]

theorem ifStep_of_redirect {sig : ExSignals} {n : Word} (hflush : sig.flush = true) (hhalt : sig.haltFetch = false)
    (hn : sig.redirect = some n) (s : State) : ifStep sig s = { s with pcFetch := n, fetchHalted := false } := by
  simp [ifStep, hflush, hhalt, hn]

/-- Settles O47: a flush is raised by an execution alone, which has consumed DE. -/
theorem flushRemovesTheYounger : Obligations.FlushRemovesTheYounger := by
  intro stalled emo mwo deo s s2 sig h hflush t
  obtain ⟨-, -, rfl⟩ | ⟨-, -, -, rfl⟩ | ⟨-, e, -, -, -, rfl⟩ | ⟨-, e, -, -, -, -, rfl⟩ | ⟨hst, e, o, hde, hf, -, ho, hs2, hsig⟩ :=
    exStep_cases h
  case inr.inr.inr.inr =>
    obtain ⟨huop, hpc, hout⟩ := execute_sound ho
    have huse : sig.loadUse = false := by rw [hsig]; rfl
    have hlatch : s2.em = some o.latch := by rw [hs2]
    have hin : ∃ e l, deo = some e ∧ e.fault = none ∧ s2.em = some l ∧ l.pc = e.pc ∧ l.uop = e.uop :=
      ⟨e, o.latch, hde, hf, hlatch, hpc, huop⟩
    obtain ⟨-, hhalt, hred, -⟩ | ⟨-, -, -, hhalt⟩ := hout
    · have hhalt' : sig.haltFetch = false := by rw [hsig]; exact hhalt
      obtain ⟨n, hn⟩ := Option.isSome_iff_exists.1 (hred.1 (by rw [hsig] at hflush; exact hflush))
      have hn' : sig.redirect = some n := by rw [hsig]; exact hn
      have ht : t = _ := (congrArg (ifStep sig) (idStep_of_flush hflush s2)).trans (ifStep_of_redirect hflush hhalt' hn' _)
      rw [ht]
      exact ⟨hst, huse, rfl, rfl, rfl, hin, fun h => by simp [hhalt'] at h, fun _ => ⟨rfl, hn'.symm⟩⟩
    · have hhalt' : sig.haltFetch = true := by rw [hsig]; exact hhalt
      have ht : t = _ := (congrArg (ifStep sig) (idStep_of_flush hflush s2)).trans (ifStep_of_halt hflush hhalt' _)
      rw [ht]
      exact ⟨hst, huse, rfl, rfl, rfl, hin, fun _ => rfl, fun h => by simp [hhalt'] at h⟩
  all_goals cases hflush

/-! ## Operand resolution (R272, R280) -/

theorem resolve_of_em {l : ExLatch} {r : Reg} {v : Word} (h : forwardsReg l r = true) (hv : l.result = some v)
    (mwo : Option MemLatch) (s : State) : resolve (some l) mwo r s = .ok (v, countForward s) := by
  simp only [resolve, h, if_true, forwardedReg, hv]

theorem resolve_of_not_em {emo : Option ExLatch} {r : Reg} (h : ∀ l, emo = some l → forwardsReg l r = false)
    (mwo : Option MemLatch) (s : State) : resolve emo mwo r s = resolveFromMw mwo r s := by
  cases emo with
  | none => rfl
  | some l => simp [resolve, h l rfl]

theorem resolveFromMw_of_mw {w : MemLatch} {r : Reg} {v : Word} (h : forwardsReg w.toExLatch r = true)
    (hv : w.result = some v) (s : State) : resolveFromMw (some w) r s = .ok (v, countForward s) := by
  simp only [resolveFromMw, h, if_true, forwardedReg, hv]

theorem resolveFromMw_of_not_mw {mwo : Option MemLatch} {r : Reg} (h : ∀ w, mwo = some w → forwardsReg w.toExLatch r = false)
    (s : State) : resolveFromMw mwo r s = .ok (s.reg r, s) := by
  cases mwo with
  | none => rfl
  | some w => simp [resolveFromMw, h w rfl]

theorem forwardsReg_iff (l : ExLatch) (r : Reg) : forwardsReg l r = true ↔ l.fault = none ∧ l.rd = some r := by
  simp [forwardsReg]

theorem forwardsReg_eq_false {l : ExLatch} {r : Reg} (h : l.fault = none → l.rd ≠ some r) : forwardsReg l r = false :=
  Bool.eq_false_iff.2 fun hf => h ((forwardsReg_iff l r).1 hf).1 ((forwardsReg_iff l r).1 hf).2

/-- Settles O44: EM first, then MW, then the register file. -/
theorem youngestProducerWins : Obligations.YoungestProducerWins := by
  intro em mw r s
  refine ⟨?_, fun hem => ⟨?_, fun hmw => ?_⟩⟩
  · rintro l v rfl hf hrd hv
    exact ⟨_, resolve_of_em ((forwardsReg_iff l r).2 ⟨hf, hrd⟩) hv mw s, rfl, rfl⟩
  · rintro w v rfl hf hrd hv
    rw [resolve_of_not_em fun l hl => forwardsReg_eq_false (hem l hl)]
    exact ⟨_, resolveFromMw_of_mw ((forwardsReg_iff w.toExLatch r).2 ⟨hf, hrd⟩) hv s, rfl, rfl⟩
  · rw [resolve_of_not_em fun l hl => forwardsReg_eq_false (hem l hl)]
    exact resolveFromMw_of_not_mw (fun w hw => forwardsReg_eq_false (hmw w hw)) s

/-! ## The predictor's tables over a tick (R310) -/

/-- A valid BTB entry stands at the index of its tag (R310). -/
def btbIndexed (s : State) : Prop := ∀ (k : Nat) (e : BtbEntry), s.btb[k]? = some (some e) → e.tag.toNat % s.cfg.btbSize = k

theorem predictorOk_iff (s : State) : predictorOk s = true ↔
    s.pht.length = s.cfg.phtSize ∧ s.btb.length = s.cfg.btbSize ∧ s.ras.length ≤ s.cfg.rasDepth ∧ btbIndexed s := by
  have hindexed : (s.btb.zipIdx.all fun p => p.1.all fun e => e.tag.toNat % s.cfg.btbSize == p.2) = true ↔ btbIndexed s := by
    rw [List.all_eq_true]
    constructor
    · intro h k e he
      have := h (some e, k) (List.mem_zipIdx_iff_getElem?.2 he)
      simpa using this
    · rintro h ⟨_ | e, k⟩ hp
      · rfl
      · simpa using h k e (List.mem_zipIdx_iff_getElem?.1 hp)
  simp only [predictorOk, Bool.and_eq_true, hindexed, beq_iff_eq, decide_eq_true_eq, and_assoc]

theorem predictorOk_congr {s t : State} (hcfg : t.cfg = s.cfg) (hbtb : t.btb = s.btb) (hpht : t.pht = s.pht)
    (hras : t.ras = s.ras) (h : predictorOk s = true) : predictorOk t = true := by
  simpa only [predictorOk, hcfg, hbtb, hpht, hras] using h

/-- A set of the entry at the index of its tag keeps the table indexed. -/
theorem btbIndexed_set {s t : State} {e : BtbEntry} (hcfg : t.cfg = s.cfg)
    (hbtb : t.btb = s.btb.set (btbIndex s e.tag) (some e)) (h : btbIndexed s) : btbIndexed t := by
  intro k x hx
  rw [hbtb, getElem?_set_eq_ite] at hx
  rw [hcfg]
  split_ifs at hx with hk
  · cases hx
    exact hk.1.symm
  · exact h k x hx

theorem predictorOk_updateBtb {s : State} (pc : Word) (taken : Bool) (tgt : Word) (h : predictorOk s = true) :
    predictorOk (updateBtb s pc taken tgt) = true := by
  obtain ⟨hpht, hbtb, hras, hindexed⟩ := (predictorOk_iff s).1 h
  rw [predictorOk_iff]
  cases taken with
  | true =>
    exact ⟨hpht, (List.length_set ..).trans hbtb, hras,
      btbIndexed_set (s := s) (e := { tag := pc, target := tgt, last := true }) rfl rfl hindexed⟩
  | false =>
    cases hhit : btbHit s pc with
    | none =>
      rw [updateBtb_not_taken_of_miss tgt hhit]
      exact ⟨hpht, hbtb, hras, hindexed⟩
    | some e =>
      obtain ⟨-, rfl⟩ := btbHit_eq_some_iff.1 hhit
      have hset := updateBtb_not_taken_of_hit tgt hhit
      have hframe : (updateBtb s e.tag false tgt).cfg = s.cfg ∧ (updateBtb s e.tag false tgt).pht = s.pht
          ∧ (updateBtb s e.tag false tgt).ras = s.ras := by simp [updateBtb, hhit]
      obtain ⟨hc, hp, hr⟩ := hframe
      rw [hc, hp, hr, hset]
      exact ⟨hpht, (List.length_set ..).trans hbtb, hras,
        btbIndexed_set (e := { e with last := false }) hc hset hindexed⟩

theorem predictorOk_train {s : State} (c : Bool) (pc : Word) (taken : Bool) (tgt : Word) (h : predictorOk s = true) :
    predictorOk (trainPredictor c pc taken tgt s) = true := by
  cases c with
  | false => exact h
  | true =>
    refine predictorOk_updateBtb pc taken tgt ?_
    obtain ⟨hpht, hrest⟩ := (predictorOk_iff s).1 h
    exact (predictorOk_iff _).2 ⟨(List.length_modify ..).trans hpht, hrest⟩

theorem predictorOk_resolveTransfer {s : State} (e : FetchEntry) (u : Uop) (taken : Bool) (tgt : Word) (link : Option Word)
    (h : predictorOk s = true) : predictorOk (resolveTransfer e u taken tgt link s).state = true := by
  have ht := predictorOk_train (isConditional (workOf u.instr)) e.pc taken tgt h
  unfold resolveTransfer
  simp only
  split_ifs <;> exact ht

theorem predictorOk_countForward {s t : State} (ht : t = s ∨ t = countForward s) (h : predictorOk s = true) :
    predictorOk t = true := by
  rcases ht with rfl | rfl <;> exact h

theorem predictorOk_executeWork {emo : Option ExLatch} {mwo : Option MemLatch} {e : FetchEntry} {u : Uop} {a b : Option Word}
    {s : State} {o : ExecOut} (ho : executeWork emo mwo e u a b s = .ok o) (h : predictorOk s = true) :
    predictorOk o.state = true := by
  unfold executeWork at ho
  split at ho
  case h_5 | h_6 =>
    split at ho
    · cases ho
      exact h
    · cases ho
  case h_7 | h_8 | h_9 | h_10 | h_11 =>
    cases ho
    exact predictorOk_resolveTransfer _ _ _ _ _ h
  case h_12 =>
    cases ho
    exact predictorOk_resolveTransfer _ _ _ _ _ (predictorOk_countForward (resolveFlags_cases emo mwo s) h)
  case h_14 => cases ho
  all_goals
    cases ho
    exact h

theorem predictorOk_exStep {stalled : Bool} {emo : Option ExLatch} {mwo : Option MemLatch} {deo : Option FetchEntry}
    {s t : State} {sig : ExSignals} (hex : exStep stalled emo mwo deo s = .ok (t, sig)) (h : predictorOk s = true) :
    predictorOk t = true := by
  obtain ⟨-, rfl, -⟩ | ⟨-, -, rfl, -⟩ | ⟨-, e, -, -, rfl, -⟩ | ⟨-, e, -, -, -, rfl, -⟩ | ⟨-, e, o, -, -, -, ho, rfl, -⟩ :=
    exStep_cases hex
  case inr.inr.inr.inr =>
    unfold execute at ho
    split at ho
    · cases ho
    · split at ho
      · cases ho
      · rename_i h1
        split at ho
        · cases ho
        · rename_i h2
          exact predictorOk_executeWork ho
            (predictorOk_countForward (resolveOpt_ok_cases h2) (predictorOk_countForward (resolveOpt_ok_cases h1) h))
  all_goals exact h

/-- Prediction keeps the stack within its depth. -/
theorem predictorOk_predict {s : State} (u : Uop) (h : predictorOk s = true) : predictorOk (predict u s).2 = true := by
  obtain ⟨hpht, hbtb, hras, hindexed⟩ := (predictorOk_iff s).1 h
  rcases predict_state u s with hs | ⟨v, hs⟩ | hs <;> rw [hs]
  · exact h
  · rw [predictorOk_iff]
    refine ⟨hpht, hbtb, ?_, hindexed⟩
    simp only [rasPush]
    split_ifs <;> simp at * <;> omega
  · rw [predictorOk_iff]
    refine ⟨hpht, hbtb, ?_, hindexed⟩
    simp only [rasPop, List.length_dropLast]
    omega

theorem predictorOk_ifStep {s : State} (sig : ExSignals) (h : predictorOk s = true) : predictorOk (ifStep sig s) = true := by
  unfold ifStep fetchOne
  split_ifs
  · exact h
  · exact h
  · exact h
  · split
    · exact h
    · exact predictorOk_predict _ h

theorem predictorOk_idStep {s : State} (sig : ExSignals) (h : predictorOk s = true) : predictorOk (idStep sig s) = true := by
  unfold idStep
  split_ifs <;> exact h

/-- Settles O42: EX trains the tables, Fetch moves the stack, and each keeps them well formed. -/
theorem tickKeepsPredictorOk : Obligations.TickKeepsPredictorOk := by
  intro s t hs h
  by_cases hrun : s.status = .running
  · obtain ⟨w, f, hw, hf, rfl⟩ | ⟨w, u, r, hw, hf, hu, hv, hr, rfl⟩ | ⟨s1, s2, sig, hwb, hex, rfl⟩ := tick_ok_cases hrun h
    · exact hs
    · exact hs
    · have h1 : predictorOk s1 = true := by
        obtain ⟨-, rfl⟩ | ⟨w, u, -, -, -, -, -, rfl⟩ := hwb
        · exact hs
        · exact hs
      have hframe := sameOutsideMemory_memStep s.em s1
      simp only [sameOutsideMemory] at hframe
      have h2 : predictorOk (memStep s.em s1).1 = true :=
        predictorOk_congr (by simp only [hframe]) (by simp only [hframe]) (by simp only [hframe]) (by simp only [hframe]) h1
      exact predictorOk_ifStep sig (predictorOk_idStep sig (predictorOk_exStep hex h2))
  · rw [← next_inj ((tick_of_stopped hrun).symm.trans h)]
    exact hs

end Sys2Proof.Machine
end

section
/-! PROOF. The EX step against the architectural level (R245, R249): with operands that read as an architectural state's, it
computes what that state's instruction does. -/

namespace Sys2Proof.Machine

/-! ## Operands that read as an architectural state's -/

/-- The sources of the instruction `i`, as EX resolves them, are the registers and flags of the architectural state `u`. -/
structure ReadsAs (emo : Option ExLatch) (mwo : Option MemLatch) (i : Instr) (u s : State) : Prop where
  regs : ∀ r, (uopOf i u.pc).rs1 = some r ∨ (uopOf i u.pc).rs2 = some r → ∀ s', s'.regs = s.regs →
    ∃ s'', resolve emo mwo r s' = .ok (u.reg r, s'')
  flags : ∀ s', s'.flags = s.flags → isConditional (workOf i) = true → (resolveFlags emo mwo s').1 = u.flags
  layout : s.layout = u.layout

theorem resolveOpt_reads {emo : Option ExLatch} {mwo : Option MemLatch} {u s s' : State} {ro : Option Reg}
    (h : ∀ r, ro = some r → ∀ s', s'.regs = s.regs → ∃ s'', resolve emo mwo r s' = .ok (u.reg r, s''))
    (hs' : s'.regs = s.regs) : ∃ s'', resolveOpt emo mwo ro s' = .ok (ro.map u.reg, s'') ∧ sameOutsideEx s' s'' := by
  cases ro with
  | none => exact ⟨s', rfl, .rfl⟩
  | some r =>
    obtain ⟨s'', hr⟩ := h r rfl s' hs'
    exact ⟨s'', by simp only [resolveOpt, hr, Option.map_some],
      sameOutsideEx_countForward (resolve_ok_cases hr)⟩

/-- With operands that read as `u`'s, EX runs the work of the class on the registers of `u`. -/
theorem execute_reads {emo : Option ExLatch} {mwo : Option MemLatch} {i : Instr} {u s : State} {e : FetchEntry}
    (hreads : ReadsAs emo mwo i u s) (he : e.uop = some (uopOf i u.pc)) :
    ∃ s', sameOutsideEx s s' ∧ execute emo mwo e s = executeWork emo mwo e (uopOf i u.pc) ((uopOf i u.pc).rs1.map u.reg)
      (((uopOf i u.pc).rs2.map u.reg).or (uopOf i u.pc).imm) s' := by
  obtain ⟨s1, h1, hs1⟩ := resolveOpt_reads (fun r hr => hreads.regs r (.inl hr)) (rfl : s.regs = s.regs)
  have hregs : s1.regs = s.regs := by
    simp only [sameOutsideEx] at hs1
    simp only [hs1]
  obtain ⟨s2, h2, hs2⟩ := resolveOpt_reads (fun r hr => hreads.regs r (.inr hr)) hregs
  exact ⟨s2, hs1.trans hs2, by simp only [execute, he, h1, h2]⟩

/-! ## Agreement with the architectural level -/

/-- What EX makes of the instruction `i` is what the architectural level does with it in `u`: the same instruction in the
latch, the same error, the same register and flag writes and next pc, the same access. `predNext` is what Fetch has
predicted. -/
def AgreesWithExec (i : Instr) (u : State) (predNext : Option Word) (o : ExecOut) : Prop :=
  o.latch.uop = some (uopOf i u.pc) ∧ o.latch.pc = u.pc
    ∧ (∀ f, o.latch.fault = some f → exec i u = .next (stoppedWith f.kind f.message u))
    ∧ (o.latch.fault = none → o.latch.access = none → ∃ t, exec i u = .next t ∧ sameMemory u t
        ∧ (errorFree u = true → errorFree t = true)
        ∧ (∀ r, t.reg r = if o.latch.rd = some r then o.latch.result.getD 0 else u.reg r)
        ∧ t.flags = o.latch.flags.getD u.flags ∧ (∀ n, o.redirect = some n → t.pc = n)
        ∧ (o.redirect = none → predNext = some t.pc
          ∨ ((∀ x target, ¬ takenTo i x target) ∧ t.pc = u.pc + BitVec.ofNat 64 i.length)))
    ∧ (∀ w ea, o.latch.access = some (.load w ea) → (∀ x target, ¬ takenTo i x target)
        ∧ ∃ r, o.latch.rd = some r ∧ o.latch.flags = none ∧ exec i u = .next (loadTo w r ea i.length u))
    ∧ (∀ w ea d, o.latch.access = some (.store w ea d) → (∀ x target, ¬ takenTo i x target)
        ∧ o.latch.rd = none ∧ o.latch.flags = none ∧ exec i u = .next (storeFrom w d ea i.length u))

theorem reg_writes (rd : Option Reg) (v : Word) (fl : Option Flags) (s : State) (r : Reg) :
    (s.writes rd v fl).reg r = if rd = some r then v else s.reg r := by
  by_cases h : rd = some r
  · subst h
    rw [if_pos rfl]
    exact reg_setReg_same s r v
  · rw [if_neg h]
    exact reg_writes_of_ne (by simpa [eq_comm] using h) v fl s

/-- Retiring with register and flag writes touches no memory. -/
theorem sameMemory_retire_writes (next : Word) (rd : Option Reg) (v : Word) (fl : Option Flags) (s : State) :
    sameMemory s (retire next (s.writes rd v fl)) := sameMemory_of_eq rfl rfl rfl rfl

section
variable {i : Instr} {u s' : State} {e : FetchEntry}

/-- An instruction that writes registers and flags and goes on. -/
theorem agrees_of_writes {rd : Option Reg} {v : Word} {res : Option Word} {fl : Option Flags}
    (he : e.uop = some (uopOf i u.pc)) (hpc : e.pc = u.pc) (hno : ∀ x target, ¬ takenTo i x target)
    (hres : ∀ r, rd = some r → res = some v)
    (hexec : exec i u = .next (retire (seqPc u i.length) (u.writes rd v fl))) :
    AgreesWithExec i u e.predNext (.plain { freshLatch e with result := res, flags := fl, rd := rd } s') := by
  refine ⟨he, hpc, fun f hf => (by cases hf), fun _ _ => ⟨_, hexec, sameMemory_retire_writes .., id, fun r => ?_, rfl,
    fun n hn => (by cases hn), fun _ => .inr ⟨hno, rfl⟩⟩, fun w ea h => (by cases h),
    fun w ea d h => by cases h⟩
  rw [reg_retire, reg_writes]
  by_cases h : rd = some r
  · simp only [ExecOut.plain, h, if_true, hres r h, Option.getD_some]
  · simp only [ExecOut.plain, h, if_false]

/-- A resolved transfer: on the architectural level it goes to the resolved address with the link written, or faults. -/
theorem agrees_of_transfer {taken : Bool} {tgt : Word} {link : Option Word} (he : e.uop = some (uopOf i u.pc))
    (hpc : e.pc = u.pc) (hlayout : s'.layout = u.layout)
    (hok : taken = false ∨ targetInCode u.layout tgt → exec i u
      = .next (retire (if taken then tgt else seqPc u i.length) (u.writes (link.map fun _ => linkReg) (link.getD 0) none)))
    (hbad : taken = true → ¬ targetInCode u.layout tgt → exec i u = .next (stoppedWith .controlFault .control u)) :
    AgreesWithExec i u e.predNext (resolveTransfer e (uopOf i u.pc) taken tgt link s') := by
  by_cases h : taken = false ∨ targetInCode u.layout tgt
  · have hnext : resolvedNext e (uopOf i u.pc) taken tgt = if taken then tgt else seqPc u i.length := by
      rw [resolvedNext, hpc, uopOf_len]
      rfl
    have hregs : ∀ r, (retire (if taken then tgt else seqPc u i.length)
          (u.writes (link.map fun _ => linkReg) (link.getD 0) none)).reg r
        = if (linkLatch e link).rd = some r then (linkLatch e link).result.getD 0 else u.reg r := by
      intro r
      rw [reg_retire, reg_writes]
      rfl
    rw [resolveTransfer_of_ok e _ taken tgt link s' (hlayout ▸ h)]
    split_ifs with hpred
    · refine ⟨he, hpc, fun f hf => (by cases hf), fun _ _ => ⟨_, hok h, sameMemory_retire_writes .., id, hregs, rfl,
        fun n hn => (by cases hn), fun _ => .inl ?_⟩, fun w ea h => (by cases h),
        fun w ea d h => by cases h⟩
      rw [hpred, hnext]
      rfl
    · refine ⟨he, hpc, fun f hf => (by cases hf), fun _ _ => ⟨_, hok h, sameMemory_retire_writes .., id, hregs, rfl,
        fun n hn => ?_, fun hn => (by cases hn)⟩, fun w ea h => (by cases h),
        fun w ea d h => by cases h⟩
      rw [← hnext]
      exact Option.some.inj hn
  · push Not at h
    have htaken : taken = true := by simpa using h.1
    rw [resolveTransfer_of_fault e _ taken tgt link s' htaken (hlayout ▸ h.2)]
    refine ⟨he, hpc, fun f hf => ?_, fun hf => (by cases hf), fun w ea h => (by cases h),
      fun w ea d h => by cases h⟩
    cases hf
    exact hbad htaken h.2

/-- A direct jump, whatever decides whether it is taken. -/
theorem agrees_of_jump {taken : Bool} {t : Target} {len : Nat} (he : e.uop = some (uopOf i u.pc)) (hpc : e.pc = u.pc)
    (hlayout : s'.layout = u.layout) (hlen : i.length = len) (hexec : exec i u = jumpTo taken t len u) :
    AgreesWithExec i u e.predNext (resolveTransfer e (uopOf i u.pc) taken (directTarget u.pc len t) none s') := by
  refine agrees_of_transfer he hpc hlayout (fun h => ?_) (fun htaken hbad => ?_)
  · rw [hexec, hlen]
    cases taken with
    | false => rfl
    | true => exact jumpTo_inside (h.resolve_left (by simp))
  · rw [hexec, htaken]
    exact jumpTo_outside hbad

end

theorem src2_operand (u : State) (src2 : Src2) : ((src2Reg src2).map u.reg).or (src2Imm src2) = some (src2Value u src2) := by
  cases src2 <;> rfl

/-- The effective address in EX is that of the architectural level (R200, R249). -/
theorem exEffAddr_eq {uop : Uop} {m : MemOp} (hoff : uop.off = memOff m) (habs : uop.absaddr = memAbs m) (u : State) :
    exEffAddr uop ((memBase m).map u.reg) = some (effAddr u m) := by
  cases m <;> simp only [exEffAddr, hoff, habs] <;> rfl

theorem workOf_loadOf (w : Width) (rd : RegOp) (m : MemOp) : workOf (loadOf w rd m) = .load w := by cases w <;> rfl
theorem workOf_storeOf (w : Width) (rs2 : RegOp) (m : MemOp) : workOf (storeOf w rs2 m) = .store w := by cases w <;> rfl

theorem target_uopJ (i : Instr) (pc : Word) (t : Target) : (uopJ i pc t).target = some (directTarget pc i.length t) :=
  congrArg some (targetAddr_eq_directTarget pc i.length t)

/-- With operands that read as `u`'s, EX executes, and agrees with the architectural level at `u`. -/
theorem execute_agrees {emo : Option ExLatch} {mwo : Option MemLatch} {i : Instr} {u s : State} {e : FetchEntry}
    (hreads : ReadsAs emo mwo i u s) (he : e.uop = some (uopOf i u.pc)) (hpc : e.pc = u.pc) :
    ∃ o, execute emo mwo e s = .ok o ∧ AgreesWithExec i u e.predNext o := by
  obtain ⟨s', hs', hexecute⟩ := execute_reads hreads he
  have hlayout : s'.layout = u.layout := hs'.2.1.trans hreads.layout
  have hclass := executesAs i
  have hno := fun h x target => not_takenTo (i := i) h x target
  rw [hexecute]
  unfold executeWork
  rw [uopOf_instr]
  clear hexecute
  cases hw : workOf i <;> rw [hw] at hclass hno
  case alu3 f =>
    obtain ⟨rd, rs1, src2, huop, hexec⟩ := hclass
    simp only [huop, uopA3, Option.map_some, src2_operand]
    exact ⟨_, rfl, agrees_of_writes he hpc (hno rfl) (fun _ _ => rfl) (hexec u)⟩
  case alu2 f =>
    obtain ⟨rd, src2, huop, hexec⟩ := hclass
    simp only [huop, uopA2D, src2_operand]
    exact ⟨_, rfl, agrees_of_writes he hpc (hno rfl) (fun _ _ => rfl) (hexec u)⟩
  case move =>
    obtain ⟨rd, src2, rfl⟩ := hclass
    simp only [uopOf, uopA2D, src2_operand]
    exact ⟨_, rfl, agrees_of_writes he hpc (hno rfl) (fun _ _ => rfl) (exec_mov rd src2 u)⟩
  case compare f =>
    obtain ⟨rs1, src2, huop, hexec⟩ := hclass
    simp only [huop, uopA2C, Option.map_some, src2_operand]
    exact ⟨_, rfl, agrees_of_writes (v := 0) he hpc (hno rfl) (fun _ h => (by cases h)) (hexec u)⟩
  case load w =>
    obtain ⟨rd, m, rfl⟩ := hclass
    have hea := exEffAddr_eq (uop := uopLD (loadOf w rd m) u.pc rd m) (m := m) rfl rfl u
    simp only [uopOf_loadOf] at he ⊢
    rw [show (uopLD (loadOf w rd m) u.pc rd m).rs1 = memBase m from rfl, hea]
    refine ⟨_, rfl, by rw [uopOf_loadOf]; exact he, hpc, fun f hf => (by cases hf), fun _ h => (by cases h),
      fun w' ea h => ?_, fun w' ea d h => by cases h⟩
    cases h
    exact ⟨hno rfl, regNum rd, rfl, rfl, exec_loadOf w rd m u⟩
  case store w =>
    obtain ⟨rs2, m, rfl⟩ := hclass
    have hea := exEffAddr_eq (uop := uopST (storeOf w rs2 m) u.pc rs2 m) (m := m) rfl rfl u
    simp only [uopOf_storeOf] at he ⊢
    have hrs1 : (uopST (storeOf w rs2 m) u.pc rs2 m).rs1 = memBase m := rfl
    have hrs2 : (uopST (storeOf w rs2 m) u.pc rs2 m).rs2 = some (regNum rs2) := rfl
    simp only [hrs1, hrs2, Option.map_some, Option.some_or, hea]
    refine ⟨_, rfl, by rw [uopOf_storeOf]; exact he, hpc, fun f hf => (by cases hf), fun _ h => (by cases h),
      fun w' ea h => (by cases h), fun w' ea d h => ?_⟩
    cases h
    exact ⟨hno rfl, rfl, rfl, exec_storeOf w rs2 m u⟩
  case jump =>
    obtain ⟨t, rfl⟩ := hclass
    have htarget : (uopOf (.jmp t) u.pc).target = some (directTarget u.pc 7 t) := length_jmp t ▸ target_uopJ _ _ t
    rw [htarget]
    exact ⟨_, rfl, agrees_of_jump he hpc hlayout (length_jmp t) (exec_jmp t u)⟩
  case call =>
    obtain ⟨t, rfl⟩ := hclass
    have htarget : (uopOf (.call t) u.pc).target = some (directTarget u.pc 7 t) := length_call t ▸ target_uopJ _ _ t
    have hlink : e.pc + BitVec.ofNat 64 (uopOf (.call t) u.pc).len = seqPc u 7 := by rw [hpc, uopOf_len, length_call]; rfl
    rw [htarget]
    refine ⟨_, rfl, agrees_of_transfer he hpc hlayout (fun h => ?_) (fun _ => exec_call_outside)⟩
    rw [hlink]
    exact exec_call_inside (h.resolve_left (by simp))
  case ret =>
    obtain rfl : i = .ret := hclass
    exact ⟨_, rfl, agrees_of_transfer he hpc hlayout (fun h => exec_ret_inside (h.resolve_left (by simp)))
      (fun _ => exec_ret_outside)⟩
  case ifZero =>
    obtain ⟨r, t, rfl⟩ := hclass
    have htarget : (uopOf (.jmpIfZero r t) u.pc).target = some (directTarget u.pc 8 t) :=
      length_jmpIfZero r t ▸ target_uopJ _ _ t
    rw [htarget]
    exact ⟨_, rfl, agrees_of_jump he hpc hlayout (length_jmpIfZero r t) (exec_jmpIfZero r t u)⟩
  case ifNotZero =>
    obtain ⟨r, t, rfl⟩ := hclass
    have htarget : (uopOf (.jmpIfNotZero r t) u.pc).target = some (directTarget u.pc 8 t) :=
      length_jmpIfNotZero r t ▸ target_uopJ _ _ t
    rw [htarget]
    exact ⟨_, rfl, agrees_of_jump he hpc hlayout (length_jmpIfNotZero r t) (exec_jmpIfNotZero r t u)⟩
  case ifFlags c =>
    obtain ⟨t, rfl⟩ := hclass
    have htarget : (uopOf (flagJump c t) u.pc).target = some (directTarget u.pc 7 t) := by
      rw [uopOf_flagJump, target_uopJ, length_flagJump]
    have hflags : (resolveFlags emo mwo s').1 = u.flags := by
      refine hreads.flags s' ?_ (by rw [hw]; rfl)
      simp only [sameOutsideEx] at hs'
      simp only [hs']
    have hlayout' : (resolveFlags emo mwo s').2.layout = u.layout :=
      (sameOutsideEx_countForward (resolveFlags_cases emo mwo s')).2.1.trans hlayout
    rw [htarget]
    refine ⟨_, rfl, ?_⟩
    rw [hflags]
    exact agrees_of_jump he hpc hlayout' (length_flagJump c t) (exec_flagJump c t u)
  case nothing =>
    refine ⟨_, rfl, ?_⟩
    obtain rfl | ⟨r, -, hexec⟩ := hclass
    · exact agrees_of_writes (rd := none) (v := 0) (res := none) (fl := none) he hpc (hno rfl) (fun _ h => (by cases h)) rfl
    · exact ⟨he, hpc, fun f hf => (by cases hf), fun _ _ => ⟨_, hexec u, sameMemory_of_eq rfl rfl rfl rfl,
        fun _ => rfl, fun _ => rfl, rfl, fun n hn => (by cases hn), fun _ => .inr ⟨hno rfl, rfl⟩⟩,
        fun w ea h => (by cases h), fun w ea d h => by cases h⟩

/-- With nothing in EM and MW the operands are the register file's. -/
theorem readsAs_self (i : Instr) (s : State) : ReadsAs none none i s s where
  regs r _ s' hs' := ⟨s', by simp only [resolve, resolveFromMw, State.reg, hs']⟩
  flags _ hs' _ := hs'
  layout := rfl

/-- Settles O48: EX agrees with the architectural level, read off a state with nothing in EM and MW. -/
theorem executeAgreesWithExec : Obligations.ExecuteAgreesWithExec := by
  intro i p s e
  obtain ⟨o, ho, huop, hpc, hfault, hplain, hload, hstore⟩ :=
    execute_agrees (e := e) (readsAs_self i s) rfl rfl
  refine ⟨o, ho, huop, hpc, hfault, fun hf ha => ?_, fun w ea h => (hload w ea h).2, fun w ea d h => (hstore w ea d h).2⟩
  obtain ⟨t, hexec, hmem, herr, hregs, hflags, hredirect, hnext⟩ := hplain hf ha
  exact ⟨t, hexec, hmem, herr, hregs, hflags, hredirect, fun h => (hnext h).imp_left fun hp => (Option.some.inj hp).symm⟩

end Sys2Proof.Machine
end

section
/-! PROOF. Legal pipeline states (R280, R360), halted fetch (R242) and the cycle budget (R233). -/

namespace Sys2Proof.Machine

/-! ## What the cache operations leave of MW, the miss wait and the push counter -/

/-- MW, the miss-wait state and the push counter are the same. -/
def sameWaiting (s t : State) : Prop :=
  t.mw = s.mw ∧ t.memWaiting = s.memWaiting ∧ t.memWait = s.memWait ∧ t.sbSeq = s.sbSeq

theorem sameWaiting.rfl {s : State} : sameWaiting s s := ⟨Eq.refl _, Eq.refl _, Eq.refl _, Eq.refl _⟩

theorem sameWaiting.trans {s t u : State} (h : sameWaiting s t) (k : sameWaiting t u) : sameWaiting s u := by
  simp only [sameWaiting] at *
  simp only [h, k, and_self]

theorem sameWaiting_writeLine (s : State) (si w a : Nat) (bs : List Byte) : sameWaiting s (writeLine s si w a bs) := by
  unfold writeLine
  split <;> exact .rfl

theorem sameWaiting_markDirty (s : State) (si w : Nat) : sameWaiting s (markDirty s si w) := by
  unfold markDirty
  split <;> exact .rfl

theorem sameWaiting_writeBackVictim (s : State) (si w : Nat) : sameWaiting s (writeBackVictim s si w) := by
  unfold writeBackVictim
  split
  · split_ifs <;> exact .rfl
  · exact .rfl

theorem sameWaiting_install (s : State) (a : Nat) : sameWaiting s (install s a).1 :=
  (sameWaiting_writeBackVictim s (setIndex s.cfg a) (victimWay (s.l1.getD (setIndex s.cfg a) []))).trans .rfl

theorem sameWaiting_bringLine (c : Bool) (s : State) (a : Nat) : sameWaiting s (bringLine c s a).1 := by
  unfold bringLine
  split
  · exact sameWaiting_install _ a
  · exact .rfl

theorem sameWaiting_storeInLine (s : State) (si w a : Nat) (bs : List Byte) : sameWaiting s (storeInLine s si w a bs) := by
  unfold storeInLine
  split_ifs
  · exact (sameWaiting_writeLine s si w a bs).trans (sameWaiting_markDirty _ si w)
  · exact (sameWaiting_writeLine s si w a bs).trans .rfl

theorem sameWaiting_drainEntry (c : Bool) (s : State) (e : SbEntry) : sameWaiting s (drainEntry c s e) :=
  (sameWaiting_bringLine c s _).trans (sameWaiting_storeInLine _ _ _ _ _)

theorem sameWaiting_drainHead (c : Bool) (s : State) : sameWaiting s (drainHead c s) := by
  unfold drainHead
  split
  · exact .rfl
  · split_ifs
    · exact sameWaiting.trans (t := { s with sb := _ }) .rfl (sameWaiting_drainEntry c _ _)
    · exact .rfl

/-! ## The MEM step (R235) -/

/-- What the MEM step puts into MW. -/
theorem mw_memStep (emo : Option ExLatch) (s : State) :
    (memStep emo s).1.mw = (memOut emo s).out.map fun l => { toExLatch := l, sbAge := (memOut emo s).sbAge } := by
  simp only [memStep]
  split_ifs
  · rfl
  · exact (sameWaiting_drainHead true _).1

theorem em_memStep (emo : Option ExLatch) (s : State) : (memStep emo s).1.em = s.em := by
  have h := sameOutsideMemory_memStep emo s
  simp only [sameOutsideMemory] at h
  simp only [h]

theorem front_memStep (emo : Option ExLatch) (s : State) : (memStep emo s).1.fb = s.fb ∧ (memStep emo s).1.de = s.de
    ∧ (memStep emo s).1.fetchHalted = s.fetchHalted := by
  have h := sameOutsideMemory_memStep emo s
  simp only [sameOutsideMemory] at h
  simp only [h, and_self]

/-- The latch carries an access of `w` bytes at `ea`. -/
def accesses (m : ExLatch) (w : Width) (ea : Word) : Prop :=
  m.access = some (.load w ea) ∨ ∃ d, m.access = some (.store w ea d)

/-- What the MEM step does with a latch (R235): it passes an error or an instruction without an access, continues a miss,
refuses an access, or serves a load or a store. -/
inductive MemCase (m : ExLatch) (s : State) : MemOut → Prop
  | pass (h : m.fault.isSome = true ∨ m.access = none) :
      MemCase m s { state := s, out := some m, sbAge := none, portBusy := false }
  | wait {w : Width} {ea : Word} (hf : m.fault = none) (ha : accesses m w ea) (hwait : s.memWaiting = true) :
      MemCase m s (memWaitTick s m ea w.bytes)
  | refuse {w : Width} {ea : Word} {c : AccessCheck} (hf : m.fault = none) (ha : accesses m w ea)
      (hwait : s.memWaiting = false) (hc : accessCheck s.layout ea w.bytes = some c) :
      MemCase m s { state := s, out := some (faultLatch m .memoryFault (.memory c ea)), sbAge := none, portBusy := false }
  | load {w : Width} {ea : Word} (hf : m.fault = none) (ha : m.access = some (.load w ea))
      (hwait : s.memWaiting = false) (hc : accessAllowed s.layout ea w.bytes) : MemCase m s (memLoad s m ea w.bytes)
  | store {w : Width} {ea d : Word} (hf : m.fault = none) (ha : m.access = some (.store w ea d))
      (hwait : s.memWaiting = false) (hc : accessAllowed s.layout ea w.bytes) : MemCase m s (memStore s m w ea d)

theorem memOut_case (m : ExLatch) (s : State) : MemCase m s (memOut (some m) s) := by
  cases hf : m.fault with
  | some f =>
    have h : memOut (some m) s = { state := s, out := some m, sbAge := none, portBusy := false } := by
      simp only [memOut, hf]
    rw [h]
    exact .pass (.inl (by rw [hf]; rfl))
  | none =>
    cases ha : m.access with
    | none =>
      have h : memOut (some m) s = { state := s, out := some m, sbAge := none, portBusy := false } := by
        simp only [memOut, hf, ha]
      rw [h]
      exact .pass (.inr ha)
    | some a =>
      have h : memOut (some m) s = memAccess s m a := by simp only [memOut, hf, ha]
      rw [h]
      cases a with
      | load w ea =>
        simp only [memAccess]
        split_ifs with hw
        · exact .wait hf (.inl ha) hw
        · have hw' : s.memWaiting = false := Bool.eq_false_iff.2 hw
          split
          · rename_i hc
            exact .refuse hf (.inl ha) hw' hc
          · rename_i hc
            exact .load hf ha hw' ((accessCheck_eq_none_iff _ _ _).1 hc)
      | store w ea d =>
        simp only [memAccess]
        split_ifs with hw
        · exact .wait hf (.inr ⟨d, ha⟩) hw
        · have hw' : s.memWaiting = false := Bool.eq_false_iff.2 hw
          split
          · rename_i hc
            exact .refuse hf (.inr ⟨d, ha⟩) hw' hc
          · rename_i hc
            exact .store hf ha hw' ((accessCheck_eq_none_iff _ _ _).1 hc)

/-- A miss in progress delivers a value, or nothing yet. -/
theorem memWaitTick_out {m l : ExLatch} {s : State} {ea : Word} {n : Nat} (h : (memWaitTick s m ea n).out = some l) :
    ∃ v, l = { m with result := some v } := by
  unfold memWaitTick at h
  simp only at h
  split_ifs at h <;> cases h
  exact ⟨_, rfl⟩

/-- A load served delivers a value. -/
theorem memLoad_out {m l : ExLatch} {s : State} {ea : Word} {n : Nat} (h : (memLoad s m ea n).out = some l) :
    ∃ v, l = { m with result := some v } := by
  unfold memLoad at h
  simp only at h
  split at h
  · split_ifs at h <;> cases h
    exact ⟨_, rfl⟩
  · split at h
    · cases h
      exact ⟨_, rfl⟩
    · split_ifs at h <;> cases h
      exact ⟨_, rfl⟩

/-- A store pushed passes on as it is. -/
theorem memStore_out {m l : ExLatch} {s : State} {w : Width} {ea d : Word} (h : (memStore s m w ea d).out = some l) :
    l = m := by
  unfold memStore at h
  split_ifs at h <;> cases h
  rfl

/-- What MEM hands on of a latch: the latch itself, unless it is a load without an error; the latch with a value; or the
latch with a memory fault. -/
theorem memOut_out {m l : ExLatch} {s : State} (h : (memOut (some m) s).out = some l) :
    (l = m ∧ (m.fault = none → isLoad m = false)) ∨ (m.fault = none ∧ ∃ v, l = { m with result := some v })
      ∨ (m.fault = none ∧ ∃ kind message, l = faultLatch m kind message) := by
  have hcase := memOut_case m s
  generalize memOut (some m) s = o at h hcase
  cases hcase with
  | pass hpass =>
    cases h
    refine .inl ⟨rfl, fun hf => ?_⟩
    have ha := hpass.resolve_left (by simp [hf])
    simp only [isLoad, ha]
  | wait hf => exact .inr (.inl ⟨hf, memWaitTick_out h⟩)
  | refuse hf =>
    cases h
    exact .inr (.inr ⟨hf, _, _, rfl⟩)
  | load hf => exact .inr (.inl ⟨hf, memLoad_out h⟩)
  | store hf ha =>
    obtain rfl := memStore_out h
    exact .inl ⟨rfl, fun _ => by simp only [isLoad, ha]⟩

/-! ## Legal latches -/

theorem latchLegal_of_fault {l : ExLatch} (hf : l.fault.isSome = true) : latchLegal l = l.rd.isNone := by
  obtain ⟨f, hf⟩ := Option.isSome_iff_exists.1 hf
  simp only [latchLegal, hf]

/-- A legal latch without an error holds the micro-operation of its pc. -/
theorem uop_of_latchLegal {l : ExLatch} (h : latchLegal l = true) (hf : l.fault = none) :
    ∃ i, l.uop = some (uopOf i l.pc) := by
  unfold latchLegal at h
  rw [hf] at h
  cases hu : l.uop with
  | none => rw [hu] at h; cases h
  | some u =>
    rw [hu] at h
    exact ⟨u.instr, congrArg some (beq_iff_eq.1 h)⟩

theorem latchLegal_of_uop {l : ExLatch} {i : Instr} (hf : l.fault = none) (hu : l.uop = some (uopOf i l.pc)) :
    latchLegal l = true := by
  simp only [latchLegal, hf, hu, uopOf_instr, beq_self_eq_true]

theorem mwLegal_iff (l : ExLatch) : mwLegal l = true ↔ latchLegal l = true ∧ hasValue l := by
  simp only [mwLegal, hasValue, Bool.and_eq_true, Bool.or_eq_true, Option.isNone_iff_eq_none]
  cases l.rd <;> simp

theorem emLegal_iff (l : ExLatch) : emLegal l = true ↔
    latchLegal l = true ∧ (l.rd.isSome = true → l.result.isSome = true ∨ isLoad l = true) := by
  simp only [emLegal, Bool.and_eq_true, Bool.or_eq_true, Option.isNone_iff_eq_none]
  cases l.rd <;> simp

/-- What MEM hands on of a legal latch is legal in MW. -/
theorem mwLegal_memOut {m l : ExLatch} {s : State} (hm : emLegal m = true) (h : (memOut (some m) s).out = some l) :
    mwLegal l = true := by
  obtain ⟨hlegal, hvalue⟩ := (emLegal_iff m).1 hm
  rw [mwLegal_iff]
  obtain ⟨rfl, hload⟩ | ⟨hf, v, rfl⟩ | ⟨hf, kind, message, rfl⟩ := memOut_out h
  · refine ⟨hlegal, fun hrd => (hvalue hrd).resolve_right fun hl => ?_⟩
    cases hf : l.fault with
    | none => rw [hload hf] at hl; cases hl
    | some f =>
      rw [latchLegal_of_fault (by rw [hf]; rfl), Option.isNone_iff_eq_none] at hlegal
      rw [hlegal] at hrd
      cases hrd
  · obtain ⟨i, hu⟩ := uop_of_latchLegal hlegal hf
    exact ⟨latchLegal_of_uop (i := i) hf hu, fun _ => rfl⟩
  · exact ⟨rfl, fun hrd => Bool.noConfusion hrd⟩

/-- A legal entry without an error is the decoded instruction at its address, with a prediction. -/
theorem uop_of_entryLegal {e : FetchEntry} (h : entryLegal e = true) (hf : e.fault = none) :
    ∃ i, e.uop = some (uopOf i e.pc) := by
  unfold entryLegal at h
  rw [hf] at h
  cases hu : e.uop with
  | none => rw [hu] at h; cases h
  | some u =>
    rw [hu] at h
    exact ⟨u.instr, congrArg some (beq_iff_eq.1 (Bool.and_eq_true_iff.1 h).1)⟩

/-! ## A legal pipeline executes -/

/-- The value `Resolve` gives, where it gives one. -/
def resolvedValue (emo : Option ExLatch) (mwo : Option MemLatch) (s : State) (r : Reg) : Word :=
  match resolve emo mwo r s with
  | .ok p => p.1
  | .error _ => 0

/-- A register of which every latch that forwards it has a value is resolved, to the same value over the same registers. -/
theorem resolve_eq_resolvedValue {emo : Option ExLatch} {mwo : Option MemLatch} {r : Reg} {s s' : State}
    (hem : ∀ l, emo = some l → forwardsReg l r = true → l.result.isSome = true)
    (hmw : ∀ w, mwo = some w → forwardsReg w.toExLatch r = true → w.result.isSome = true) (hs : s'.regs = s.regs) :
    ∃ s'', resolve emo mwo r s' = .ok (resolvedValue emo mwo s r, s'') := by
  unfold resolvedValue
  by_cases hforward : ∃ l, emo = some l ∧ forwardsReg l r = true
  · obtain ⟨l, rfl, hl⟩ := hforward
    obtain ⟨v, hv⟩ := Option.isSome_iff_exists.1 (hem l rfl hl)
    rw [resolve_of_em hl hv, resolve_of_em hl hv]
    exact ⟨_, rfl⟩
  · have hnot : ∀ l, emo = some l → forwardsReg l r = false :=
      fun l hl => Bool.eq_false_iff.2 fun h => hforward ⟨l, hl, h⟩
    rw [resolve_of_not_em hnot, resolve_of_not_em hnot]
    by_cases hforward' : ∃ w, mwo = some w ∧ forwardsReg w.toExLatch r = true
    · obtain ⟨w, rfl, hw⟩ := hforward'
      obtain ⟨v, hv⟩ := Option.isSome_iff_exists.1 (hmw w rfl hw)
      rw [resolveFromMw_of_mw hw hv, resolveFromMw_of_mw hw hv]
      exact ⟨_, rfl⟩
    · have hnot' : ∀ w, mwo = some w → forwardsReg w.toExLatch r = false :=
        fun w hw => Bool.eq_false_iff.2 fun h => hforward' ⟨w, hw, h⟩
      rw [resolveFromMw_of_not_mw hnot', resolveFromMw_of_not_mw hnot']
      exact ⟨s', by rw [State.reg, State.reg, hs]⟩

theorem resolveFlags_congr {s s' : State} (emo : Option ExLatch) (mwo : Option MemLatch) (h : s'.flags = s.flags) :
    (resolveFlags emo mwo s').1 = (resolveFlags emo mwo s).1 := by
  unfold resolveFlags
  split
  · rfl
  · rfl
  · exact h

/-- An architectural state whose registers and flags are what EX resolves. -/
def resolvedState (emo : Option ExLatch) (mwo : Option MemLatch) (pc : Word) (s : State) : State :=
  { s with
    pc := pc
    regs := Vector.ofFn fun r => resolvedValue emo mwo s r
    flags := (resolveFlags emo mwo s).1 }

theorem reg_resolvedState (emo : Option ExLatch) (mwo : Option MemLatch) (pc : Word) (s : State) (r : Reg) :
    (resolvedState emo mwo pc s).reg r = resolvedValue emo mwo s r := by
  simp [resolvedState, reg_eq_getElem]

/-- A source that no load in EM is about to write has its value in every latch that forwards it. -/
theorem em_forwards_value {l : ExLatch} {r : Reg} (hl : emLegal l = true) (hpending : loadPending (some l) (some r) = false)
    (hforward : forwardsReg l r = true) : l.result.isSome = true := by
  obtain ⟨-, hvalue⟩ := (emLegal_iff l).1 hl
  refine (hvalue (by rw [((forwardsReg_iff l r).1 hforward).2]; rfl)).resolve_right fun hload => ?_
  unfold isLoad at hload
  unfold loadPending at hpending
  split at hload
  · rename_i ha
    simp only [ha, hforward] at hpending
    cases hpending
  · cases hload

/-- Behind legal latches, and with no load-use hazard, the instruction in DE executes (R280). -/
theorem execute_ok {emo : Option ExLatch} {mwo : Option MemLatch} {e : FetchEntry} (hem : emo.all emLegal = true)
    (hmw : mwo.all (fun w => mwLegal w.toExLatch) = true) (he : entryLegal e = true) (hf : e.fault = none)
    (huse : loadUse emo e = false) (s : State) : ∃ o, execute emo mwo e s = .ok o := by
  obtain ⟨i, hu⟩ := uop_of_entryLegal he hf
  simp only [loadUse, hu, Bool.or_eq_false_iff] at huse
  have hreads : ReadsAs emo mwo i (resolvedState emo mwo e.pc s) s := by
    refine ⟨fun r hr s' hs' => ?_, fun s' hs' _ => resolveFlags_congr emo mwo hs', rfl⟩
    rw [reg_resolvedState]
    refine resolve_eq_resolvedValue ?_ ?_ hs'
    · rintro l rfl hforward
      refine em_forwards_value hem ?_ hforward
      rcases hr with hr | hr
      · rw [← hr]; exact huse.1
      · rw [← hr]; exact huse.2
    · rintro w rfl hforward
      exact ((mwLegal_iff w.toExLatch).1 hmw).2 (by rw [((forwardsReg_iff w.toExLatch r).1 hforward).2]; rfl)
  obtain ⟨o, ho, -⟩ := execute_agrees hreads hu rfl
  exact ⟨o, ho⟩

/-- What an execution leaves in EM is legal. -/
theorem emLegal_execute {emo : Option ExLatch} {mwo : Option MemLatch} {e : FetchEntry} {s : State} {o : ExecOut}
    (he : entryLegal e = true) (hf : e.fault = none) (h : execute emo mwo e s = .ok o) : emLegal o.latch = true := by
  obtain ⟨i, hu⟩ := uop_of_entryLegal he hf
  obtain ⟨huop, hpc, ⟨hf', -, -, hvalue, -⟩ | ⟨hf', hrd, -, -⟩⟩ := execute_sound h
  · exact (emLegal_iff _).2 ⟨latchLegal_of_uop (i := i) hf' (by rw [huop, hu, hpc]), hvalue⟩
  · refine (emLegal_iff _).2 ⟨?_, fun h => by rw [hrd] at h; cases h⟩
    rw [latchLegal_of_fault hf', hrd]
    rfl

/-- EX keeps EM legal. -/
theorem emLegal_exStep {stalled : Bool} {emo : Option ExLatch} {mwo : Option MemLatch} {deo : Option FetchEntry}
    {s t : State} {sig : ExSignals} (hem : s.em.all emLegal = true) (hde : deo.all entryLegal = true)
    (h : exStep stalled emo mwo deo s = .ok (t, sig)) : t.em.all emLegal = true := by
  obtain ⟨-, rfl, -⟩ | ⟨-, -, rfl, -⟩ | ⟨-, e, -, hf, rfl, -⟩ | ⟨-, e, -, -, -, rfl, -⟩ | ⟨-, e, o, rfl, hf, -, ho, rfl, -⟩ :=
    exStep_cases h
  · exact hem
  · rfl
  · refine (emLegal_iff _).2 ⟨?_, fun h => Bool.noConfusion h⟩
    rw [latchLegal_of_fault hf]
    rfl
  · rfl
  · exact emLegal_execute hde hf ho

/-- Behind legal latches EX does not fault. -/
theorem exStep_ok {stalled : Bool} {emo : Option ExLatch} {mwo : Option MemLatch} {deo : Option FetchEntry}
    (hem : emo.all emLegal = true) (hmw : mwo.all (fun w => mwLegal w.toExLatch) = true) (hde : deo.all entryLegal = true)
    (s : State) : ∃ p, exStep stalled emo mwo deo s = .ok p := by
  unfold exStep
  split_ifs
  · exact ⟨_, rfl⟩
  · cases deo with
    | none => exact ⟨_, rfl⟩
    | some e =>
      simp only
      split_ifs with hf huse
      · exact ⟨_, rfl⟩
      · exact ⟨_, rfl⟩
      · obtain ⟨o, ho⟩ := execute_ok hem hmw hde (by simpa using hf) (Bool.eq_false_iff.2 huse) s
        simp only [ho]
        exact ⟨_, rfl⟩

/-- A legal latch in MW retires, stops the engine, or ends the tick with its error. -/
theorem wbStep_ok {mwo : Option MemLatch} (hmw : mwo.all (fun w => mwLegal w.toExLatch) = true) (s : State) :
    ∃ p, wbStep mwo s = .ok p := by
  cases mwo with
  | none => exact ⟨_, rfl⟩
  | some w =>
    obtain ⟨hlegal, hvalue⟩ := (mwLegal_iff w.toExLatch).1 hmw
    cases hf : w.fault with
    | some f =>
      simp only [wbStep, hf]
      exact ⟨_, rfl⟩
    | none =>
      obtain ⟨i, hu⟩ := uop_of_latchLegal hlegal hf
      exact ⟨_, wbStep_eq hf hu hvalue s⟩

theorem pipelineLegal_iff (s : State) : pipelineLegal s = true ↔ s.fb.all entryLegal = true ∧ s.de.all entryLegal = true
    ∧ s.em.all emLegal = true ∧ s.mw.all (fun w => mwLegal w.toExLatch) = true := by
  simp only [pipelineLegal, Bool.and_eq_true, and_assoc]

/-- From a legal state a tick answers a next state. -/
theorem tick_ok {s : State} (h : pipelineLegal s = true) : ∃ t, tick s = .next t := by
  obtain ⟨-, hde, hem, hmw⟩ := (pipelineLegal_iff s).1 h
  by_cases hrun : s.status = .running
  · simp only [tick, hrun, runningTick]
    obtain ⟨⟨s1, stop⟩, hwb⟩ := wbStep_ok hmw (countCycle s)
    rw [hwb]
    cases stop with
    | true => exact ⟨_, rfl⟩
    | false =>
      obtain ⟨⟨s2, sig⟩, hex⟩ := exStep_ok (stalled := (memStep s.em s1).2) hem hmw hde (memStep s.em s1).1
      simp only [tickRest, hex]
      exact ⟨_, rfl⟩
  · exact ⟨s, tick_of_stopped hrun⟩

/-! ## The front of the pipeline -/

/-- What ID does with FB and DE (R237). -/
theorem idStep_cases (sig : ExSignals) (s : State) :
    (sig.flush = true ∧ idStep sig s = { s with fb := [], de := none })
      ∨ (sig.flush = false ∧ sig.deConsumed = true ∧ idStep sig s = { s with de := s.fb.head?, fb := s.fb.drop 1 })
      ∨ (sig.flush = false ∧ sig.deConsumed = false ∧ idStep sig s = s) := by
  cases hf : sig.flush <;> cases hd : sig.deConsumed <;> simp [idStep, hf, hd]

/-- What one fetch appends: a poison entry, which halts fetch, or the decoded instruction with its prediction. -/
theorem fetchOne_cases (s : State) :
    (∃ c, decodeAt s s.pcFetch = .error c
        ∧ fetchOne s = { s with fb := s.fb ++ [poisonEntry s.pcFetch c], fetchHalted := true })
      ∨ ∃ i, decodeAt s s.pcFetch = .ok i ∧ fetchOne s = { (predict (uopOf i s.pcFetch) s).2 with
          fb := s.fb ++ [{ uop := some (uopOf i s.pcFetch), pc := s.pcFetch, fault := none
                           predNext := some (predict (uopOf i s.pcFetch) s).1 }]
          pcFetch := (predict (uopOf i s.pcFetch) s).1 } := by
  unfold fetchOne
  split
  · rename_i c h
    exact .inl ⟨c, h, rfl⟩
  · rename_i i h
    exact .inr ⟨i, h, rfl⟩

/-- What IF does (R238): a halt, a redirect, nothing, or one fetch. -/
theorem ifStep_cases (sig : ExSignals) (s : State) :
    (sig.flush = true ∧ sig.haltFetch = true ∧ ifStep sig s = { s with fetchHalted := true })
      ∨ (sig.flush = true ∧ sig.haltFetch = false
        ∧ ifStep sig s = { s with pcFetch := sig.redirect.getD s.pcFetch, fetchHalted := false })
      ∨ (sig.flush = false ∧ ifStep sig s = s)
      ∨ (sig.flush = false ∧ s.fetchHalted = false ∧ ifStep sig s = fetchOne s) := by
  unfold ifStep
  cases hf : sig.flush
  · by_cases h : (sig.loadUse || s.fetchHalted || decide (s.fb.length ≥ s.cfg.fetchBufCap)) = true
    · simp [h]
    · simp only [Bool.or_eq_true, not_or, Bool.not_eq_true] at h
      simp [h]
  · cases hh : sig.haltFetch <;> simp

theorem entryLegal_fetched (i : Instr) (pc n : Word) :
    entryLegal { uop := some (uopOf i pc), pc := pc, fault := none, predNext := some n } = true := by
  simp [entryLegal]

/-- IF appends legal entries alone and leaves DE. -/
theorem entryLegal_ifStep {s : State} (sig : ExSignals) (hfb : s.fb.all entryLegal = true) :
    (ifStep sig s).fb.all entryLegal = true ∧ (ifStep sig s).de = s.de := by
  obtain ⟨-, -, h⟩ | ⟨-, -, h⟩ | ⟨-, h⟩ | ⟨-, -, h⟩ := ifStep_cases sig s
  · rw [h]; exact ⟨hfb, rfl⟩
  · rw [h]; exact ⟨hfb, rfl⟩
  · rw [h]; exact ⟨hfb, rfl⟩
  · rw [h]
    obtain ⟨c, -, hfetch⟩ | ⟨i, -, hfetch⟩ := fetchOne_cases s
    · rw [hfetch]
      exact ⟨by rw [List.all_append, hfb]; rfl, rfl⟩
    · rw [hfetch]
      refine ⟨?_, (sameOutsideFetch_predict _ s).2.2.1⟩
      rw [List.all_append, hfb]
      simp [entryLegal_fetched]

/-- ID moves entries from FB to DE alone. -/
theorem entryLegal_idStep {s : State} (sig : ExSignals) (hfb : s.fb.all entryLegal = true) (hde : s.de.all entryLegal = true) :
    (idStep sig s).fb.all entryLegal = true ∧ (idStep sig s).de.all entryLegal = true := by
  obtain ⟨-, h⟩ | ⟨-, -, h⟩ | ⟨-, -, h⟩ := idStep_cases sig s
  · rw [h]; exact ⟨rfl, rfl⟩
  · rw [h]
    cases hs : s.fb with
    | nil => exact ⟨rfl, rfl⟩
    | cons e rest =>
      rw [hs, List.all_cons, Bool.and_eq_true] at hfb
      exact ⟨hfb.2, hfb.1⟩
  · rw [h]; exact ⟨hfb, hde⟩

/-- What the retirement or bubble in WB leaves of the latches behind it. -/
theorem latches_after_wb {s s1 : State} (h : (s.mw = none ∧ s1 = countCycle s) ∨ ∃ w u, s.mw = some w ∧ w.fault = none
    ∧ w.uop = some u ∧ hasValue w.toExLatch ∧ stopReasonOf u.instr = none ∧ s1 = wbRetired w (countCycle s)) :
    s1.fb = s.fb ∧ s1.de = s.de ∧ s1.em = s.em ∧ s1.fetchHalted = s.fetchHalted ∧ s1.pcFetch = s.pcFetch := by
  obtain ⟨-, rfl⟩ | ⟨w, u, -, -, -, -, -, rfl⟩ := h <;> exact ⟨rfl, rfl, rfl, rfl, rfl⟩

/-- What the steps from MEM to EX leave of FB, DE and fetch. -/
theorem front_exStep {stalled : Bool} {emo emo' : Option ExLatch} {mwo : Option MemLatch} {deo : Option FetchEntry}
    {s1 s2 : State} {sig : ExSignals} (h : exStep stalled emo' mwo deo (memStep emo s1).1 = .ok (s2, sig)) :
    s2.fb = s1.fb ∧ s2.de = s1.de ∧ s2.fetchHalted = s1.fetchHalted ∧ s2.mw = (memStep emo s1).1.mw := by
  have hex := sameOutsideEx_exStep h
  obtain ⟨h1, h2, h3⟩ := front_memStep emo s1
  simp only [sameOutsideEx] at hex
  simp only [hex, h1, h2, h3, and_self]

/-- A tick keeps every latch legal. -/
theorem pipelineLegal_tick {s t : State} (hs : pipelineLegal s = true) (h : tick s = .next t) : pipelineLegal t = true := by
  by_cases hrun : s.status = .running
  · obtain ⟨w, f, hw, hf, rfl⟩ | ⟨w, u, r, hw, hf, hu, hv, hr, rfl⟩ | ⟨s1, s2, sig, hwb, hex, rfl⟩ := tick_ok_cases hrun h
    · exact hs
    · exact hs
    · obtain ⟨hfb, hde, hem, hmw⟩ := (pipelineLegal_iff s).1 hs
      obtain ⟨hfb1, hde1, hem1, -⟩ := latches_after_wb hwb
      obtain ⟨hfb2, hde2, -, hmw2⟩ := front_exStep hex
      have hem2 : s2.em.all emLegal = true := emLegal_exStep (by rw [em_memStep, hem1]; exact hem) hde hex
      obtain ⟨hfb3, hde3⟩ := entryLegal_idStep (s := s2) sig (by rw [hfb2, hfb1]; exact hfb) (by rw [hde2, hde1]; exact hde)
      obtain ⟨hfb4, hde4⟩ := entryLegal_ifStep sig hfb3
      have hid := sameOutsideFetch_idStep sig s2
      have hif := sameOutsideFetch_ifStep sig (idStep sig s2)
      simp only [sameOutsideFetch] at hid hif
      rw [pipelineLegal_iff]
      refine ⟨hfb4, by rw [hde4]; exact hde3, by simpa only [hif, hid] using hem2, ?_⟩
      have hmw3 : (ifStep sig (idStep sig s2)).mw = (memStep s.em s1).1.mw := by simp only [hif, hid, hmw2]
      rw [hmw3, mw_memStep]
      cases hm : s.em with
      | none => rfl
      | some m =>
        rw [hm] at hem
        cases hout : (memOut (some m) s1).out with
        | none => rfl
        | some l => exact mwLegal_memOut hem hout
  · rw [← next_inj ((tick_of_stopped hrun).symm.trans h)]
    exact hs

/-- Settles O49: no stage faults behind legal latches, and each hands on legal ones. -/
theorem tickKeepsPipelineLegal : Obligations.TickKeepsPipelineLegal := fun _ hs =>
  let ⟨t, h⟩ := tick_ok hs
  ⟨t, h, pipelineLegal_tick hs h⟩

/-! ## Halted fetch (R242) -/

theorem errorInFlight_iff (s : State) : errorInFlight s = true ↔ (∃ e ∈ s.fb, e.fault.isSome = true)
    ∨ (∃ e, s.de = some e ∧ e.fault.isSome = true) ∨ (∃ l, s.em = some l ∧ l.fault.isSome = true)
    ∨ ∃ w, s.mw = some w ∧ w.fault.isSome = true := by
  simp only [errorInFlight, Bool.or_eq_true, List.any_eq_true, Option.any_eq_true, or_assoc]

theorem haltedOk_iff (s : State) : haltedOk s = true ↔ (s.fetchHalted = true → errorInFlight s = true) := by
  simp only [haltedOk, Bool.or_eq_true, Bool.not_eq_true']
  cases s.fetchHalted <;> simp

/-- An error in EM passes MEM. -/
theorem memOut_of_fault {m : ExLatch} (hf : m.fault.isSome = true) (s : State) :
    memOut (some m) s = { state := s, out := some m, sbAge := none, portBusy := false } := by
  obtain ⟨f, hf⟩ := Option.isSome_iff_exists.1 hf
  simp only [memOut, hf]

/-- An error in flight before EX, ID and IF of a tick without an error in MW is in flight after them, unless a flush that
does not halt fetch removes it. -/
theorem errorInFlight_rest {s s1 s2 : State} {sig : ExSignals} (hlatches : s1.fb = s.fb ∧ s1.de = s.de ∧ s1.em = s.em)
    (hmw : ∀ w, s.mw = some w → w.fault = none)
    (hex : exStep (memStep s.em s1).2 s.em s.mw s.de (memStep s.em s1).1 = .ok (s2, sig)) (h : errorInFlight s = true)
    (hflush : sig.flush = false) : errorInFlight (ifStep sig (idStep sig s2)) = true := by
  obtain ⟨hfb1, hde1, hem1⟩ := hlatches
  obtain ⟨hfb2, hde2, -, hmw2⟩ := front_exStep hex
  have hif := sameOutsideFetch_ifStep sig (idStep sig s2)
  have hid := sameOutsideFetch_idStep sig s2
  simp only [sameOutsideFetch] at hif hid
  have hem3 : (ifStep sig (idStep sig s2)).em = s2.em := by simp only [hif, hid]
  have hmw3 : (ifStep sig (idStep sig s2)).mw = (memStep s.em s1).1.mw := by simp only [hif, hid, hmw2]
  have hkeep : ∀ e, (e ∈ (idStep sig s2).fb ∨ (idStep sig s2).de = some e) → e.fault.isSome = true →
      errorInFlight (ifStep sig (idStep sig s2)) = true := by
    intro e he hfault
    have hde4 : (ifStep sig (idStep sig s2)).de = (idStep sig s2).de := by
      obtain ⟨hfl, -⟩ | ⟨hfl, -⟩ | ⟨-, h⟩ | ⟨-, -, h⟩ := ifStep_cases sig (idStep sig s2)
      · rw [hflush] at hfl; cases hfl
      · rw [hflush] at hfl; cases hfl
      · rw [h]
      · rw [h]
        obtain ⟨c, -, hfetch⟩ | ⟨i, -, hfetch⟩ := fetchOne_cases (idStep sig s2)
        · rw [hfetch]
        · rw [hfetch]; exact (sameOutsideFetch_predict _ _).2.2.1
    have hfb4 : ∀ x ∈ (idStep sig s2).fb, x ∈ (ifStep sig (idStep sig s2)).fb := by
      obtain ⟨hfl, -⟩ | ⟨hfl, -⟩ | ⟨-, h⟩ | ⟨-, -, h⟩ := ifStep_cases sig (idStep sig s2)
      · rw [hflush] at hfl; cases hfl
      · rw [hflush] at hfl; cases hfl
      · rw [h]; exact fun _ => id
      · rw [h]
        obtain ⟨c, -, hfetch⟩ | ⟨i, -, hfetch⟩ := fetchOne_cases (idStep sig s2)
        · rw [hfetch]; exact fun _ hx => List.mem_append_left _ hx
        · rw [hfetch]; exact fun _ hx => List.mem_append_left _ hx
    rw [errorInFlight_iff]
    rcases he with he | he
    · exact .inl ⟨e, hfb4 e he, hfault⟩
    · exact .inr (.inl ⟨e, hde4.trans he, hfault⟩)
  rcases (errorInFlight_iff s).1 h with ⟨e, he, hfault⟩ | ⟨e, he, hfault⟩ | ⟨l, hl, hfault⟩ | ⟨w, hw, hfault⟩
  · refine hkeep e ?_ hfault
    obtain ⟨hfl, -⟩ | ⟨-, -, h⟩ | ⟨-, -, h⟩ := idStep_cases sig s2
    · rw [hflush] at hfl; cases hfl
    · rw [h, hfb2, hfb1]
      cases hs : s.fb with
      | nil => rw [hs] at he; cases he
      | cons x rest =>
        rw [hs] at he
        rcases List.mem_cons.1 he with rfl | he
        · exact .inr rfl
        · exact .inl he
    · rw [h, hfb2, hfb1]
      exact .inl he
  · obtain ⟨-, -, rfl⟩ | ⟨-, hnone, -, -⟩ | ⟨-, e', he', -, rfl, -⟩ | ⟨-, e', he', hf', -⟩ | ⟨-, e', o, he', hf', -⟩ :=
      exStep_cases hex
    · exact hkeep e (.inr (hde2.trans (hde1.trans he))) hfault
    · rw [he] at hnone; cases hnone
    · obtain rfl := Option.some.inj (he.symm.trans he')
      exact (errorInFlight_iff _).2 (.inr (.inr (.inl ⟨_, hem3, hfault⟩)))
    · obtain rfl := Option.some.inj (he.symm.trans he')
      rw [hf'] at hfault; cases hfault
    · obtain rfl := Option.some.inj (he.symm.trans he')
      rw [hf'] at hfault; cases hfault
  · refine (errorInFlight_iff _).2 (.inr (.inr (.inr ⟨_, hmw3.trans (by rw [mw_memStep, hl, memOut_of_fault hfault]; rfl), hfault⟩)))
  · rw [hmw w hw] at hfault; cases hfault

/-- A flush that halts fetch has put an error into EM. -/
theorem errorInFlight_of_haltFetch {stalled : Bool} {emo : Option ExLatch} {mwo : Option MemLatch}
    {deo : Option FetchEntry} {s s2 : State} {sig : ExSignals} (hex : exStep stalled emo mwo deo s = .ok (s2, sig))
    (hhalt : sig.haltFetch = true) : ∃ l, s2.em = some l ∧ l.fault.isSome = true := by
  obtain ⟨-, -, rfl⟩ | ⟨-, -, -, rfl⟩ | ⟨-, e, -, -, -, rfl⟩ | ⟨-, e, -, -, -, -, rfl⟩ | ⟨-, e, o, -, -, -, ho, rfl, rfl⟩ :=
    exStep_cases hex
  case inr.inr.inr.inr =>
    obtain ⟨-, -, ⟨-, hno, -⟩ | ⟨hf, -⟩⟩ := execute_sound ho
    · exact absurd (hhalt.symm.trans hno) (by simp)
    · exact ⟨_, rfl, hf⟩
  all_goals cases hhalt

/-- Settles O50: fetch is halted by a poison entry or by a control fault, and the error travels on until it stops the engine
or a flush starts fetch again. -/
theorem haltedFetchHasAnErrorInFlight : Obligations.HaltedFetchHasAnErrorInFlight := by
  intro s t hs h
  by_cases hrun : s.status = .running
  · obtain ⟨w, f, hw, hf, rfl⟩ | ⟨w, u, r, hw, hf, hu, hv, hr, rfl⟩ | ⟨s1, s2, sig, hwb, hex, rfl⟩ := tick_ok_cases hrun h
    · exact hs
    · exact hs
    · obtain ⟨hfb1, hde1, hem1, hhalt1, -⟩ := latches_after_wb hwb
      obtain ⟨-, -, hhalt2, -⟩ := front_exStep hex
      have hmw : ∀ w, s.mw = some w → w.fault = none := by
        intro w hw
        obtain ⟨hnone, -⟩ | ⟨w', u, hw', hf, -⟩ := hwb
        · rw [hw] at hnone; cases hnone
        · exact Option.some.inj (hw.symm.trans hw') ▸ hf
      have hhalt3 : (idStep sig s2).fetchHalted = s.fetchHalted := by
        obtain ⟨-, h⟩ | ⟨-, -, h⟩ | ⟨-, -, h⟩ := idStep_cases sig s2 <;> rw [h] <;> exact hhalt2.trans hhalt1
      have hem4 : (ifStep sig (idStep sig s2)).em = s2.em := by
        have hif := sameOutsideFetch_ifStep sig (idStep sig s2)
        have hid := sameOutsideFetch_idStep sig s2
        simp only [sameOutsideFetch] at hif hid
        simp only [hif, hid]
      rw [haltedOk_iff] at hs ⊢
      intro hhalted
      obtain ⟨-, hhalt, -⟩ | ⟨-, -, h⟩ | ⟨hfl, h⟩ | ⟨hfl, -, h⟩ := ifStep_cases sig (idStep sig s2)
      · obtain ⟨l, hl, hfault⟩ := errorInFlight_of_haltFetch hex hhalt
        exact (errorInFlight_iff _).2 (.inr (.inr (.inl ⟨l, hem4.trans hl, hfault⟩)))
      · rw [h] at hhalted; cases hhalted
      · rw [h, hhalt3] at hhalted
        exact errorInFlight_rest ⟨hfb1, hde1, hem1⟩ hmw hex (hs hhalted) hfl
      · rw [h] at hhalted ⊢
        obtain ⟨c, -, hfetch⟩ | ⟨i, -, hfetch⟩ := fetchOne_cases (idStep sig s2)
        · rw [hfetch]
          exact (errorInFlight_iff _).2 (.inl ⟨poisonEntry (idStep sig s2).pcFetch c, List.mem_append_right _ List.mem_cons_self, rfl⟩)
        · rw [← h]
          refine errorInFlight_rest ⟨hfb1, hde1, hem1⟩ hmw hex (hs ?_) hfl
          rw [hfetch] at hhalted
          exact hhalt3.symm.trans ((sameOutsideFetch_predict _ _).2.2.2.symm.trans hhalted)
  · rw [← next_inj ((tick_of_stopped hrun).symm.trans h)]
    exact hs

/-! ## The cycle budget (R233) -/

/-- A tick of a running engine is counted. -/
theorem cycles_tick {s t : State} (hrun : s.status = .running) (h : tick s = .next t) :
    t.metrics.cycles = s.metrics.cycles + 1 := (onlyWritebackWrites s t hrun h).2.2.2

/-- Ticks that leave the engine running all start with it running, and each is counted. -/
theorem running_of_runTicks {n : Nat} {s t : State} (h : runTicks n s = .next t) (ht : t.status = .running) :
    s.status = .running ∧ t.metrics.cycles = s.metrics.cycles + n := by
  induction n generalizing s with
  | zero =>
    obtain rfl := next_inj h
    exact ⟨ht, rfl⟩
  | succ n ih =>
    simp only [runTicks] at h
    split at h
    · rename_i s1 h1
      obtain ⟨hs1, hcycles⟩ := ih h
      by_cases hrun : s.status = .running
      · exact ⟨hrun, by rw [hcycles, cycles_tick hrun h1]; omega⟩
      · rw [next_inj ((tick_of_stopped hrun).symm.trans h1)] at hrun
        exact absurd hs1 hrun
    · cases h
    · cases h

theorem runLoop_of_stopped {s : State} (h : s.status ≠ .running) (b : Option Nat) (fuel : Nat) :
    runLoop b fuel s = .next s := by
  cases fuel with
  | zero => rfl
  | succ fuel => simp only [runLoop, h, ne_eq, not_false_eq_true, if_true]

theorem runLoop_tick {s t : State} {b : Option Nat} (hrun : s.status = .running) (hbudget : overBudget b s = false)
    (h : tick s = .next t) (fuel : Nat) : runLoop b (fuel + 1) s = runLoop b fuel t := by
  simp [runLoop, hrun, hbudget, h]

theorem runLoop_overBudget {s : State} {b : Option Nat} (hrun : s.status = .running) (hbudget : overBudget b s = true)
    (fuel : Nat) : runLoop b (fuel + 1) s = .next { s with status := .budgetExhausted } := by
  simp [runLoop, hrun, hbudget]

/-- A loop whose budget the ticks do not reach makes them all. -/
theorem runLoop_runTicks {n : Nat} {s t : State} {b : Option Nat} (h : runTicks n s = .next t) (ht : t.status = .running)
    (hbudget : ∀ x : State, x.metrics.cycles < t.metrics.cycles → overBudget b x = false) (fuel : Nat) :
    runLoop b (n + fuel) s = runLoop b fuel t := by
  induction n generalizing s with
  | zero =>
    obtain rfl := next_inj h
    rw [Nat.zero_add]
  | succ n ih =>
    obtain ⟨hrun, hcycles⟩ := running_of_runTicks h ht
    simp only [runTicks] at h
    split at h
    · rename_i s1 h1
      rw [show n + 1 + fuel = n + fuel + 1 by omega, runLoop_tick hrun (hbudget s (by omega)) h1]
      exact ih h
    · cases h
    · cases h

theorem reopen_of_running {s : State} (h : s.status = .running) : reopen s = s := by
  simp only [reopen, h]

/-- Settles O57: the loop makes the ticks within the budget, then the last one, or stops before it. -/
theorem budgetCutsOffExactly : Obligations.BudgetCutsOffExactly := by
  intro s t u n fuel hzero hrun hticks ht htick hu hfuel
  obtain ⟨-, hcycles⟩ := running_of_runTicks hticks ht
  have htn : t.metrics.cycles = n := by omega
  obtain ⟨k, rfl⟩ : ∃ k, fuel = n + (k + 1) := ⟨fuel - n - 1, by omega⟩
  have hrunLoop : ∀ b, (∀ x : State, x.metrics.cycles < t.metrics.cycles → overBudget b x = false) →
      run b (n + (k + 1)) s = runLoop b (k + 1) t := by
    intro b hb
    rw [run, reopen_of_running hrun]
    exact runLoop_runTicks hticks ht hb (k + 1)
  have hcompletes : ∀ b, (∀ x : State, x.metrics.cycles ≤ n → overBudget b x = false) →
      run b (n + (k + 1)) s = .next u := by
    intro b hb
    rw [hrunLoop b fun x hx => hb x (by omega), runLoop_tick ht (hb t (by omega)) htick, runLoop_of_stopped hu]
  refine ⟨hcompletes _ fun x hx => ?_, hcompletes none fun _ _ => rfl, ?_, htn, by rw [cycles_tick ht htick, htn]⟩
  · exact decide_eq_false (by omega)
  · rw [hrunLoop (some n) fun x hx => decide_eq_false (by omega), runLoop_overBudget ht (show overBudget (some n) t = true from decide_eq_true (by omega))]

end Sys2Proof.Machine
end

section
/-! PROOF. The L1 data cache (R320 to R326): lines by set and way, the byte a program sees below the store buffer, and what
each cache operation leaves of it. -/

namespace Sys2Proof.Machine

/-! ## Geometry (R320) -/

theorem lineSize_pos {c : Config} (h : c.wf = true) : 0 < c.lineSize := by
  simp only [Config.wf, Bool.and_eq_true, Bool.or_eq_true, decide_eq_true_eq, beq_iff_eq] at h
  omega

theorem numSets_pos {c : Config} (h : c.wf = true) : 0 < c.numSets := by
  simp only [Config.wf, Bool.and_eq_true, decide_eq_true_eq, beq_iff_eq] at h
  obtain ⟨⟨⟨-, hsets⟩, -⟩, -⟩ := h
  rw [hsets]
  exact Nat.two_pow_pos _

theorem ways_pos {c : Config} (h : c.wf = true) : 0 < c.ways := by
  simp only [Config.wf, Bool.and_eq_true, decide_eq_true_eq] at h
  omega

/-- Lines are as long as a multiple of every access (R320). -/
theorem bytes_dvd_lineSize {c : Config} (h : c.wf = true) (w : Width) : w.bytes ∣ c.lineSize := by
  simp only [Config.wf, Bool.and_eq_true, Bool.or_eq_true, decide_eq_true_eq, beq_iff_eq] at h
  obtain ⟨⟨⟨⟨-, hline⟩, -⟩, -⟩, -⟩ := h
  rcases hline with (hline | hline) | hline <;> rw [hline] <;> cases w <;> decide

theorem setIndex_lt {c : Config} (h : c.wf = true) (a : Nat) : setIndex c a < c.numSets := Nat.mod_lt _ (numSets_pos h)

theorem lineOffset_lt {c : Config} (h : c.wf = true) (a : Nat) : lineOffset c a < c.lineSize := Nat.mod_lt _ (lineSize_pos h)

/-- `a` is an address of the line with tag `t` in set `si`. -/
def inLine (c : Config) (si t a : Nat) : Prop := setIndex c a = si ∧ tagOf c a = t

theorem inLine_self (c : Config) (a : Nat) : inLine c (setIndex c a) (tagOf c a) a := ⟨rfl, rfl⟩

/-- Set and tag of an address give the number of its line. -/
theorem lineNumber_of_inLine {c : Config} {si t a : Nat} (h : inLine c si t a) : lineNumber c a = t * c.numSets + si := by
  obtain ⟨rfl, rfl⟩ := h
  rw [Nat.mul_comm]
  exact (Nat.div_add_mod _ _).symm

theorem inLine_of_lineNumber {c : Config} {si t a : Nat} (hsi : si < c.numSets) (h : lineNumber c a = t * c.numSets + si) :
    inLine c si t a := by
  constructor
  · rw [setIndex, h, Nat.mul_comm, Nat.mul_add_mod, Nat.mod_eq_of_lt hsi]
  · rw [tagOf, h, Nat.mul_comm, Nat.mul_add_div (by omega), Nat.div_eq_of_lt hsi, Nat.add_zero]

/-- An address is the base of its line and its offset in it. -/
theorem lineBase_add_lineOffset {c : Config} {si t a : Nat} (h : inLine c si t a) : lineBase c si t + lineOffset c a = a := by
  rw [lineBase, ← lineNumber_of_inLine h, Nat.mul_comm]
  exact Nat.div_add_mod _ _

/-- The addresses of a line are those from its base on, LINE_SIZE of them. -/
theorem inLine_iff {c : Config} (hc : c.wf = true) {si : Nat} (hsi : si < c.numSets) (t a : Nat) :
    inLine c si t a ↔ lineBase c si t ≤ a ∧ a < lineBase c si t + c.lineSize := by
  constructor
  · intro h
    have hbase := lineBase_add_lineOffset h
    have hoff := lineOffset_lt hc a
    omega
  · rintro ⟨hle, hlt⟩
    obtain ⟨k, rfl⟩ := Nat.exists_eq_add_of_le hle
    refine inLine_of_lineNumber hsi ?_
    rw [lineNumber, lineBase, Nat.mul_comm, Nat.mul_add_div (lineSize_pos hc), Nat.div_eq_of_lt (by omega), Nat.add_zero]

theorem lineOffset_lineBase_add {c : Config} {si t k : Nat} (hk : k < c.lineSize) : lineOffset c (lineBase c si t + k) = k := by
  rw [lineOffset, lineBase, Nat.mul_comm, Nat.mul_add_mod, Nat.mod_eq_of_lt hk]

theorem inLine_lineBase_add {c : Config} (hc : c.wf = true) {si k : Nat} (hsi : si < c.numSets) (t : Nat)
    (hk : k < c.lineSize) : inLine c si t (lineBase c si t + k) :=
  (inLine_iff hc hsi t _).2 ⟨by omega, by omega⟩

/-- The bytes of an aligned access lie in one line, one after the other. -/
theorem inLine_of_access {c : Config} (hc : c.wf = true) {a k : Nat} {w : Width} (halign : a % w.bytes = 0)
    (hk : k < w.bytes) : inLine c (setIndex c a) (tagOf c a) (a + k) ∧ lineOffset c (a + k) = lineOffset c a + k := by
  have hoff := lineOffset_lt hc a
  have hfits : lineOffset c a + k < c.lineSize := by
    obtain ⟨q, hq⟩ := bytes_dvd_lineSize hc w
    have hmul : lineOffset c a % w.bytes = 0 := by rw [lineOffset, Nat.mod_mod_of_dvd _ ⟨q, hq⟩, halign]
    obtain ⟨p, hp⟩ := Nat.dvd_of_mod_eq_zero hmul
    have hpq : p < q := by
      rw [hp, hq] at hoff
      exact Nat.lt_of_mul_lt_mul_left hoff
    calc lineOffset c a + k < w.bytes * p + w.bytes := by omega
      _ = w.bytes * (p + 1) := by ring
      _ ≤ w.bytes * q := Nat.mul_le_mul_left _ hpq
      _ = c.lineSize := hq.symm
  have hbase := lineBase_add_lineOffset (inLine_self c a)
  have hsum : a + k = lineBase c (setIndex c a) (tagOf c a) + (lineOffset c a + k) := by omega
  constructor
  · rw [hsum]
    exact inLine_lineBase_add hc (setIndex_lt hc a) _ hfits
  · rw [hsum, lineOffset_lineBase_add hfits]

/-! ## Lines by set and way -/

theorem lineAt_eq_some_iff {s : State} {si w : Nat} {l : Line} :
    lineAt s si w = some l ↔ ∃ ways, s.l1[si]? = some ways ∧ ways[w]? = some (some l) := by
  simp only [lineAt, List.getD_eq_getElem?_getD]
  cases hset : s.l1[si]? with
  | none => simp
  | some ways =>
    simp only [Option.getD_some, Option.some.injEq, exists_eq_left']
    cases ways[w]? with
    | none => simp
    | some x => simp

/-- Sets are looked up as `modify` has them. -/
theorem getD_modify {α : Type} (xs : List (List α)) (i : Nat) (f : List α → List α) (hf : f [] = []) (j : Nat) :
    (xs.modify i f).getD j [] = if i = j then f (xs.getD j []) else xs.getD j [] := by
  simp only [List.getD_eq_getElem?_getD, List.getElem?_modify]
  by_cases hij : i = j
  · simp only [hij, if_true]
    cases xs[j]? <;> simp [hf]
  · simp only [hij, if_false, id_map']

/-- A line put into a way is the line of that way, and every other way is as it was. -/
theorem lineAt_setLine {s : State} {si w : Nat} (hw : w < (s.l1.getD si []).length) (l : Line) (si' w' : Nat) :
    lineAt (setLine s si w l) si' w' = if si = si' ∧ w = w' then some l else lineAt s si' w' := by
  simp only [lineAt, setLine, getD_modify s.l1 si (fun ways => ways.set w (some l)) rfl]
  by_cases hsi : si = si'
  · subst hsi
    simp only [if_true, true_and, List.getD_eq_getElem?_getD (i := w'), List.getElem?_set]
    by_cases hww : w = w'
    · subst hww
      simp only [if_true, hw]
      rfl
    · simp only [hww, if_false]
  · simp only [hsi, if_false, false_and]

/-- What a line holds, its age aside. -/
def Line.contents (l : Line) : Nat × Bool × List Byte := (l.tag, l.dirty, l.data)

/-- `Touch` changes ages alone (R323). -/
theorem contents_touch (s : State) (si w si' w' : Nat) :
    (lineAt (touch s si w) si' w').map Line.contents = (lineAt s si' w').map Line.contents := by
  simp only [lineAt, touch, getD_modify s.l1 si (fun ways => touchWays ways w) rfl]
  by_cases hsi : si = si'
  · simp only [hsi, if_true, touchWays, List.getD_eq_getElem?_getD (i := w'), List.getElem?_mapIdx]
    rcases (s.l1.getD si' [])[w']? with _ | _ | l <;> rfl
  · simp only [hsi, if_false]

theorem length_set_touch (s : State) (si w si' : Nat) : ((touch s si w).l1.getD si' []).length = (s.l1.getD si' []).length := by
  simp only [touch, getD_modify s.l1 si (fun ways => touchWays ways w) rfl]
  split_ifs <;> simp [touchWays]

theorem length_set_setLine (s : State) (si w : Nat) (l : Line) (si' : Nat) :
    ((setLine s si w l).l1.getD si' []).length = (s.l1.getD si' []).length := by
  simp only [setLine, getD_modify s.l1 si (fun ways => ways.set w (some l)) rfl]
  split_ifs <;> simp

/-! ## The invariant of the cache (R336 (1) to (3)) -/

/-- The address lies in the data range (R61). -/
def inData (l : Layout) (a : Nat) : Prop := l.dataBase ≤ a ∧ a < l.dataEnd

/-- A line of set `si` against M: LINE_SIZE bytes, dirty in write-back mode alone, and equal to M but where it is dirty and
in the data range (R321, R324, R336 (2), (3)). -/
structure LineOk (s : State) (si : Nat) (l : Line) : Prop where
  length : l.data.length = s.cfg.lineSize
  writeBack : l.dirty = true → s.cfg.writeBack = true
  byte : ∀ a, inLine s.cfg si l.tag a →
    l.data[lineOffset s.cfg a]? = some (Memory.read s.mem a) ∨ (l.dirty = true ∧ inData s.layout a)

/-- NUM_SETS sets of WAYS ways, each tag once in a set, each line as M has it (R336 (1) to (3)). -/
structure CacheOk (s : State) : Prop where
  sets : s.l1.length = s.cfg.numSets
  ways : ∀ si, si < s.cfg.numSets → (s.l1.getD si []).length = s.cfg.ways
  unique : ∀ si w w' l l', lineAt s si w = some l → lineAt s si w' = some l' → l.tag = l'.tag → w = w'
  line : ∀ si w l, lineAt s si w = some l → LineOk s si l

theorem set_lt_of_lineAt {s : State} (h : CacheOk s) {si w : Nat} {l : Line} (hl : lineAt s si w = some l) :
    si < s.cfg.numSets := by
  obtain ⟨ways, hset, -⟩ := lineAt_eq_some_iff.1 hl
  rw [← h.sets]
  exact (List.getElem?_eq_some_iff.1 hset).1

theorem way_lt_of_lineAt {s : State} {si w : Nat} {l : Line} (hl : lineAt s si w = some l) : w < (s.l1.getD si []).length := by
  obtain ⟨ways, hset, hway⟩ := lineAt_eq_some_iff.1 hl
  rw [List.getD_eq_getElem?_getD, hset]
  exact (List.getElem?_eq_some_iff.1 hway).1

/-- The tags of a set, each once. -/
theorem nodup_validTags_iff (ways : List (Option Line)) : (validTags ways).Nodup ↔
    ∀ (w w' : Nat) (l l' : Line), ways[w]? = some (some l) → ways[w']? = some (some l') → l.tag = l'.tag → w = w' := by
  unfold validTags List.Nodup
  rw [List.pairwise_filterMap, List.pairwise_iff_getElem]
  constructor
  · intro h w w' l l' hl hl' htag
    obtain ⟨hw, hlw⟩ := List.getElem?_eq_some_iff.1 hl
    obtain ⟨hw', hlw'⟩ := List.getElem?_eq_some_iff.1 hl'
    rcases Nat.lt_trichotomy w w' with hlt | heq | hgt
    · exact absurd htag (h w w' hw hw' hlt l.tag (by rw [hlw]; rfl) l'.tag (by rw [hlw']; rfl))
    · exact heq
    · exact absurd htag.symm (h w' w hw' hw hgt l'.tag (by rw [hlw']; rfl) l.tag (by rw [hlw]; rfl))
  · intro h w w' hw hw' hlt t ht t' ht' htag
    obtain ⟨l, hl, rfl⟩ := Option.map_eq_some_iff.1 ht
    obtain ⟨l', hl', rfl⟩ := Option.map_eq_some_iff.1 ht'
    have := h w w' l l' (by rw [List.getElem?_eq_getElem hw, hl]) (by rw [List.getElem?_eq_getElem hw', hl']) htag
    omega

/-- Coherence, address by address. -/
theorem lineCoherent_iff {s : State} (hc : s.cfg.wf = true) {si : Nat} (hsi : si < s.cfg.numSets) (l : Line)
    (hlen : l.data.length = s.cfg.lineSize) : lineCoherent s si l = true ↔ LineOk s si l := by
  have hbytes : (∀ a, inLine s.cfg si l.tag a →
        l.data[lineOffset s.cfg a]? = some (Memory.read s.mem a) ∨ (l.dirty = true ∧ inData s.layout a)) ↔
      ∀ k, k < s.cfg.lineSize → l.data[k]? = some (Memory.read s.mem (lineBase s.cfg si l.tag + k))
        ∨ (l.dirty = true ∧ inData s.layout (lineBase s.cfg si l.tag + k)) := by
    constructor
    · intro h k hk
      have := h _ (inLine_lineBase_add hc hsi l.tag hk)
      rwa [lineOffset_lineBase_add hk] at this
    · intro h a ha
      have := h _ (lineOffset_lt hc a)
      rwa [lineBase_add_lineOffset ha] at this
  have hok : LineOk s si l ↔ (l.dirty = true → s.cfg.writeBack = true)
      ∧ ∀ k, k < s.cfg.lineSize → l.data[k]? = some (Memory.read s.mem (lineBase s.cfg si l.tag + k))
        ∨ (l.dirty = true ∧ inData s.layout (lineBase s.cfg si l.tag + k)) :=
    ⟨fun h => ⟨h.writeBack, hbytes.1 h.byte⟩, fun h => ⟨hlen, h.1, hbytes.2 h.2⟩⟩
  rw [hok, lineCoherent]
  split_ifs with hd
  · rw [Bool.and_eq_true]
    refine and_congr (by simp [hd]) ?_
    simp only [List.all_eq_true, Bool.or_eq_true, Bool.and_eq_true, decide_eq_true_eq, beq_iff_eq, hd, true_and]
    constructor
    · intro h k hk
      have hk' : k < l.data.length := by omega
      have hmem : (l.data[k], lineBase s.cfg si l.tag + k) ∈ l.data.zipIdx (lineBase s.cfg si l.tag) :=
        List.mem_zipIdx_iff_le_and_getElem?_sub.2 ⟨by simp, by simp⟩
      rcases h _ hmem with hdata | hread
      · exact .inr hdata
      · exact .inl (by rw [List.getElem?_eq_getElem hk']; exact congrArg some hread)
    · rintro h ⟨b, i⟩ hmem
      obtain ⟨hle, hget⟩ := List.mem_zipIdx_iff_le_and_getElem?_sub.1 hmem
      simp only at hle hget ⊢
      have hlt := (List.getElem?_eq_some_iff.1 hget).1
      rcases h (i - lineBase s.cfg si l.tag) (by omega) with hread | hdata
      · rw [hget, Nat.add_sub_cancel' hle] at hread
        exact .inr (Option.some.inj hread)
      · rw [Nat.add_sub_cancel' hle] at hdata
        exact .inl hdata
  · simp only [hd, Bool.false_eq_true, false_and, or_false, false_implies, true_and, beq_iff_eq]
    constructor
    · intro h k hk
      rw [h, Memory.getElem?_readBytes, if_pos hk]
    · intro h
      apply List.ext_getElem?
      intro k
      rw [Memory.getElem?_readBytes]
      split_ifs with hk
      · exact h k hk
      · exact List.getElem?_eq_none (by omega)

/-- The invariant as the model's checks have it. -/
theorem cacheOk_iff {s : State} (hc : s.cfg.wf = true) : (geometryOk s = true ∧ cacheOk s = true) ↔ CacheOk s := by
  have hset : ∀ si ways, s.l1[si]? = some ways → s.l1.getD si [] = ways := by
    intro si ways h
    rw [List.getD_eq_getElem?_getD, h]
    rfl
  constructor
  · rintro ⟨hgeo, hcache⟩
    simp only [geometryOk, Bool.and_eq_true, beq_iff_eq, List.all_eq_true] at hgeo
    simp only [cacheOk, Bool.and_eq_true, decide_eq_true_eq, List.all_eq_true] at hcache
    obtain ⟨hsets, hways⟩ := hgeo
    refine ⟨hsets, fun si hsi => ?_, fun si w w' l l' hl hl' => ?_, fun si w l hl => ?_⟩
    · obtain ⟨ways, hget⟩ : ∃ ways, s.l1[si]? = some ways := ⟨_, List.getElem?_eq_getElem (hsets ▸ hsi)⟩
      rw [hset si ways hget]
      exact (hways ways (List.mem_of_getElem? hget)).1
    · obtain ⟨ways, hget, hw⟩ := lineAt_eq_some_iff.1 hl
      obtain ⟨ways', hget', hw'⟩ := lineAt_eq_some_iff.1 hl'
      obtain rfl := Option.some.inj (hget.symm.trans hget')
      exact (nodup_validTags_iff ways).1 (hcache (ways, si) (List.mem_zipIdx_iff_getElem?.2 hget)).1 w w' l l' hw hw'
    · obtain ⟨ways, hget, hw⟩ := lineAt_eq_some_iff.1 hl
      have hsi : si < s.cfg.numSets := hsets ▸ (List.getElem?_eq_some_iff.1 hget).1
      have hlen : l.data.length = s.cfg.lineSize := by
        simpa using (hways ways (List.mem_of_getElem? hget)).2 _ (List.mem_of_getElem? hw)
      have hcoh := (hcache (ways, si) (List.mem_zipIdx_iff_getElem?.2 hget)).2 _ (List.mem_of_getElem? hw)
      exact (lineCoherent_iff hc hsi l hlen).1 (by simpa using hcoh)
  · intro h
    simp only [geometryOk, cacheOk, Bool.and_eq_true, beq_iff_eq, List.all_eq_true, decide_eq_true_eq]
    refine ⟨⟨h.sets, fun ways hmem => ?_⟩, fun p hmem => ?_⟩
    · obtain ⟨si, hget⟩ := List.mem_iff_getElem?.1 hmem
      refine ⟨?_, fun l hl => ?_⟩
      · rw [← hset si ways hget]
        exact h.ways si (h.sets ▸ (List.getElem?_eq_some_iff.1 hget).1)
      · obtain ⟨w, hw⟩ := List.mem_iff_getElem?.1 hl
        cases l with
        | none => rfl
        | some l => simpa using (h.line si w l (lineAt_eq_some_iff.2 ⟨ways, hget, hw⟩)).length
    · obtain ⟨ways, si⟩ := p
      have hget := List.mem_zipIdx_iff_getElem?.1 hmem
      refine ⟨(nodup_validTags_iff ways).2 fun w w' l l' hw hw' =>
        h.unique si w w' l l' (lineAt_eq_some_iff.2 ⟨ways, hget, hw⟩) (lineAt_eq_some_iff.2 ⟨ways, hget, hw'⟩), fun l hl => ?_⟩
      obtain ⟨w, hw⟩ := List.mem_iff_getElem?.1 hl
      cases l with
      | none => rfl
      | some l =>
        have hline := lineAt_eq_some_iff.2 ⟨ways, hget, hw⟩
        have hok := h.line si w l hline
        exact (lineCoherent_iff hc (set_lt_of_lineAt h hline) l hok.length).2 hok

end Sys2Proof.Machine
end

section
/-! PROOF. What the cache operations do to the bytes a program sees below the store buffer (R322 to R326, R330, R332). -/

namespace Sys2Proof.Machine

/-! ## Lookup (R322) -/

/-- Way `w` of the set of `a` holds the line of `a`. -/
def holdsLine (s : State) (a w : Nat) : Prop := ∃ l, lineAt s (setIndex s.cfg a) w = some l ∧ l.tag = tagOf s.cfg a

theorem hasTag_iff (t : Nat) (x : Option Line) : hasTag t x = true ↔ ∃ l, x = some l ∧ l.tag = t := by
  cases x <;> simp [hasTag]

theorem lineAt_of_getElem? {s : State} {si w : Nat} {x : Option Line} (h : (s.l1.getD si [])[w]? = some x) :
    lineAt s si w = x := by
  rw [lineAt, List.getD_eq_getElem?_getD (i := w), h]
  rfl

theorem getElem?_of_lineAt {s : State} {si w : Nat} {l : Line} (h : lineAt s si w = some l) :
    (s.l1.getD si [])[w]? = some (some l) := by
  obtain ⟨ways, hset, hw⟩ := lineAt_eq_some_iff.1 h
  rw [List.getD_eq_getElem?_getD (i := si), hset]
  exact hw

theorem holdsLine_of_lookupWay {s : State} {a w : Nat} (h : lookupWay s a = some w) : holdsLine s a w := by
  obtain ⟨hw, htag, -⟩ := List.findIdx?_eq_some_iff_getElem.1 h
  obtain ⟨l, hl, ht⟩ := (hasTag_iff _ _).1 htag
  exact ⟨l, lineAt_of_getElem? (by rw [List.getElem?_eq_getElem hw, hl]), ht⟩

theorem lookupWay_eq_none_iff {s : State} {a : Nat} :
    lookupWay s a = none ↔ ∀ w l, lineAt s (setIndex s.cfg a) w = some l → l.tag ≠ tagOf s.cfg a := by
  rw [lookupWay, List.findIdx?_eq_none_iff]
  constructor
  · intro h w l hl htag
    have := h _ (List.mem_of_getElem? (getElem?_of_lineAt hl))
    rw [(hasTag_iff _ _).2 ⟨l, rfl, htag⟩] at this
    cases this
  · intro h x hx
    obtain ⟨w, hw⟩ := List.mem_iff_getElem?.1 hx
    rw [Bool.eq_false_iff, Ne, hasTag_iff]
    rintro ⟨l, rfl, htag⟩
    exact h w l (lineAt_of_getElem? hw) htag

theorem lookupLine_of_lineAt {s : State} (h : CacheOk s) {a w : Nat} {l : Line} (hl : lineAt s (setIndex s.cfg a) w = some l)
    (htag : l.tag = tagOf s.cfg a) : lookupLine s a = some l := by
  unfold lookupLine
  cases hfind : (s.l1.getD (setIndex s.cfg a) []).find? (hasTag (tagOf s.cfg a)) with
  | none =>
    have := List.find?_eq_none.1 hfind _ (List.mem_of_getElem? (getElem?_of_lineAt hl))
    exact absurd ((hasTag_iff _ _).2 ⟨l, rfl, htag⟩) this
  | some x =>
    obtain ⟨l', rfl, htag'⟩ := (hasTag_iff _ _).1 (List.find?_some hfind)
    obtain ⟨w', hw'⟩ := List.mem_iff_getElem?.1 (List.mem_of_find?_eq_some hfind)
    have hl' := lineAt_of_getElem? hw'
    obtain rfl := h.unique _ w w' l l' hl hl' (htag.trans htag'.symm)
    exact hl'.symm.trans hl

theorem lookupLine_of_absent {s : State} {a : Nat} (h : lookupWay s a = none) : lookupLine s a = none := by
  have hfind : (s.l1.getD (setIndex s.cfg a) []).find? (hasTag (tagOf s.cfg a)) = none := by
    rw [List.find?_eq_none]
    intro x hx
    rw [List.findIdx?_eq_none_iff.1 h x hx]
    exact Bool.false_ne_true
  rw [lookupLine, hfind]

/-! ## The byte below the store buffer -/

/-- The byte at `a` that a program sees where the store buffer holds none: of the line that holds it, else of M. -/
def belowByte (s : State) (a : Nat) : Byte := (cachedByte s a).getD (Memory.read s.mem a)

/-- A line that holds an address holds its byte. -/
theorem belowByte_of_lineAt {s : State} (hc : s.cfg.wf = true) (h : CacheOk s) {a si w : Nat} {l : Line}
    (hl : lineAt s si w = some l) (ha : inLine s.cfg si l.tag a) : l.data[lineOffset s.cfg a]? = some (belowByte s a) := by
  obtain ⟨rfl, htag⟩ := ha
  have hlt : lineOffset s.cfg a < l.data.length := by
    rw [(h.line _ _ _ hl).length]
    exact lineOffset_lt hc a
  rw [belowByte, cachedByte, lookupLine_of_lineAt h hl htag.symm, Option.bind_some, List.getElem?_eq_getElem hlt]
  rfl

/-- Where no line holds an address, M does. -/
theorem belowByte_of_absent {s : State} {a : Nat} (h : lookupWay s a = none) : belowByte s a = Memory.read s.mem a := by
  rw [belowByte, cachedByte, lookupLine_of_absent h]
  rfl

/-- The line of an address is in some way, or in none. -/
theorem line_cases (s : State) (a : Nat) :
    (∃ w l, lineAt s (setIndex s.cfg a) w = some l ∧ l.tag = tagOf s.cfg a) ∨ lookupWay s a = none := by
  cases h : lookupWay s a with
  | none => exact .inr rfl
  | some w =>
    obtain ⟨l, hl, htag⟩ := holdsLine_of_lookupWay h
    exact .inl ⟨w, l, hl, htag⟩

/-! ## Moving bytes between cache and M -/

/-- `t` is `s` after cache and M have changed such that the bytes below the store buffer are `b`: the invariant holds, M is
canonical if it was and unchanged outside the data range, no valid way has become invalid. -/
structure CacheMove (s t : State) (b : Nat → Byte) : Prop where
  cfg : t.cfg = s.cfg
  layout : t.layout = s.layout
  sb : t.sb = s.sb
  ok : CacheOk t
  mem_wf : s.mem.wf = true → t.mem.wf = true
  below : ∀ a, belowByte t a = b a
  outside : ∀ a, ¬ inData s.layout a → Memory.read t.mem a = Memory.read s.mem a
  valid : ∀ si w, (lineAt s si w).isSome = true → (lineAt t si w).isSome = true

theorem CacheMove.trans {s t u : State} {b c : Nat → Byte} (h : CacheMove s t b) (k : CacheMove t u c) : CacheMove s u c where
  cfg := k.cfg.trans h.cfg
  layout := k.layout.trans h.layout
  sb := k.sb.trans h.sb
  ok := k.ok
  mem_wf := fun hm => k.mem_wf (h.mem_wf hm)
  below := k.below
  outside := fun a ha => (k.outside a (by rwa [h.layout])).trans (h.outside a ha)
  valid := fun si w hl => k.valid si w (h.valid si w hl)

/-- After a move that keeps the bytes, the next one keeps them too. -/
theorem CacheMove.then_keep {s t u : State} {b : Nat → Byte} (h : CacheMove s t b) (k : CacheMove t u (belowByte t)) :
    CacheMove s u b :=
  { h.trans k with below := fun a => (k.below a).trans (h.below a) }

/-- Lines that hold the same, over the same M, are as coherent and give the same bytes. -/
theorem cacheMove_of_contents {s t : State} (hc : s.cfg.wf = true) (h : CacheOk s) (hcfg : t.cfg = s.cfg) (hlayout : t.layout = s.layout)
    (hsb : t.sb = s.sb) (hmem : t.mem = s.mem) (hsets : t.l1.length = s.l1.length)
    (hways : ∀ si, (t.l1.getD si []).length = (s.l1.getD si []).length)
    (hlines : ∀ si w, (lineAt t si w).map Line.contents = (lineAt s si w).map Line.contents) :
    CacheMove s t (belowByte s) := by
  have hback : ∀ {si w l}, lineAt t si w = some l →
      ∃ l', lineAt s si w = some l' ∧ l'.tag = l.tag ∧ l'.dirty = l.dirty ∧ l'.data = l.data := by
    intro si w l hl
    have := hlines si w
    rw [hl, Option.map_some, eq_comm, Option.map_eq_some_iff] at this
    obtain ⟨l', hl', heq⟩ := this
    simp only [Line.contents, Prod.mk.injEq] at heq
    exact ⟨l', hl', heq⟩
  have hok : CacheOk t := by
    refine ⟨by rw [hsets, hcfg, h.sets], fun si hsi => by rw [hways, hcfg]; exact h.ways si (hcfg ▸ hsi), ?_, ?_⟩
    · intro si w w' l l' hl hl' htag
      obtain ⟨k, hk, hkt, -⟩ := hback hl
      obtain ⟨k', hk', hkt', -⟩ := hback hl'
      exact h.unique si w w' k k' hk hk' (by rw [hkt, hkt', htag])
    · intro si w l hl
      obtain ⟨k, hk, hkt, hkd, hkb⟩ := hback hl
      have hline := h.line si w k hk
      refine ⟨by rw [← hkb, hcfg, hline.length], by rw [← hkd, hcfg]; exact hline.writeBack, ?_⟩
      rw [hcfg, hmem, hlayout, ← hkt, ← hkd, ← hkb]
      exact hline.byte
  refine ⟨hcfg, hlayout, hsb, hok, fun hm => by rw [hmem]; exact hm, fun a => ?_, fun a _ => by rw [hmem], ?_⟩
  · rcases line_cases t a with ⟨w, l, hl, htag⟩ | habsent
    · obtain ⟨k, hk, hkt, -, hkb⟩ := hback hl
      have h1 := belowByte_of_lineAt (hcfg ▸ hc) hok hl (a := a) ⟨rfl, htag.symm⟩
      have h2 := belowByte_of_lineAt hc h hk (a := a) ⟨by rw [← hcfg], by rw [← hcfg, hkt, htag]⟩
      rw [hcfg, ← hkb, h2] at h1
      exact (Option.some.inj h1).symm
    · rw [belowByte_of_absent habsent, hmem, belowByte_of_absent]
      rw [lookupWay_eq_none_iff] at habsent ⊢
      intro w l hl htag
      have := hlines (setIndex s.cfg a) w
      rw [hl, Option.map_some, Option.map_eq_some_iff] at this
      obtain ⟨l', hl', heq⟩ := this
      simp only [Line.contents, Prod.mk.injEq] at heq
      exact habsent w l' (by rw [hcfg]; exact hl') (by rw [heq.1, htag, hcfg])
  · intro si w hl
    have := congrArg Option.isSome (hlines si w)
    rw [Option.isSome_map, Option.isSome_map] at this
    rw [this, hl]

/-- Counters and the miss wait are not seen by the cache. -/
theorem cacheMove_of_same {s t : State} (hc : s.cfg.wf = true) (h : CacheOk s) (hcfg : t.cfg = s.cfg)
    (hlayout : t.layout = s.layout) (hsb : t.sb = s.sb) (hmem : t.mem = s.mem) (hl1 : t.l1 = s.l1) :
    CacheMove s t (belowByte s) :=
  cacheMove_of_contents hc h hcfg hlayout hsb hmem (by rw [hl1]) (fun _ => by rw [hl1]) (fun _ _ => by rw [lineAt, lineAt, hl1])

theorem cacheMove_touch {s : State} (hc : s.cfg.wf = true) (h : CacheOk s) (si w : Nat) :
    CacheMove s (touch s si w) (belowByte s) :=
  cacheMove_of_contents hc h rfl rfl rfl rfl (List.length_modify ..) (length_set_touch s si w) (contents_touch s si w)

theorem holdsLine_touch {s : State} {a w : Nat} (si w' : Nat) (h : holdsLine s a w) : holdsLine (touch s si w') a w := by
  obtain ⟨l, hl, htag⟩ := h
  have := contents_touch s si w' (setIndex s.cfg a) w
  rw [hl, Option.map_some, Option.map_eq_some_iff] at this
  obtain ⟨l', hl', heq⟩ := this
  simp only [Line.contents, Prod.mk.injEq] at heq
  exact ⟨l', hl', heq.1.trans htag⟩

/-! ## Replacing one line -/

/-- The lines of `t` are those of `s` but for `l` in way `w` of set `si`, whose tag is nowhere else in the set, and M is the
same outside that line. -/
structure Replaces (s t : State) (si w : Nat) (l : Line) : Prop where
  cfg : t.cfg = s.cfg
  layout : t.layout = s.layout
  sets : t.l1.length = s.l1.length
  ways : ∀ si', (t.l1.getD si' []).length = (s.l1.getD si' []).length
  lines : ∀ si' w', lineAt t si' w' = if si = si' ∧ w = w' then some l else lineAt s si' w'
  tag : ∀ w' l', w' ≠ w → lineAt s si w' = some l' → l'.tag ≠ l.tag
  mem : ∀ a, ¬ inLine s.cfg si l.tag a → Memory.read t.mem a = Memory.read s.mem a

theorem Replaces.cacheOk {s t : State} {si w : Nat} {l : Line} (hr : Replaces s t si w l) (h : CacheOk s)
    (hline : LineOk t si l) : CacheOk t := by
  have hcases : ∀ {si' w' l'}, lineAt t si' w' = some l' →
      (si' = si ∧ w' = w ∧ l' = l) ∨ (lineAt s si' w' = some l' ∧ ¬ (si = si' ∧ w = w')) := by
    intro si' w' l' hl'
    rw [hr.lines] at hl'
    split_ifs at hl' with hsame
    · exact .inl ⟨hsame.1.symm, hsame.2.symm, (Option.some.inj hl').symm⟩
    · exact .inr ⟨hl', hsame⟩
  refine ⟨by rw [hr.sets, hr.cfg, h.sets], fun si' hsi => by rw [hr.ways, hr.cfg]; exact h.ways si' (hr.cfg ▸ hsi), ?_, ?_⟩
  · intro si' w1 w2 l1 l2 h1 h2 htag
    obtain ⟨rfl, rfl, rfl⟩ | ⟨h1, hne1⟩ := hcases h1
    · obtain ⟨-, rfl, -⟩ | ⟨h2, hne2⟩ := hcases h2
      · rfl
      · exact absurd htag.symm (hr.tag w2 l2 (fun he => hne2 ⟨rfl, he.symm⟩) h2)
    · obtain ⟨rfl, rfl, rfl⟩ | ⟨h2, -⟩ := hcases h2
      · exact absurd htag (hr.tag w1 l1 (fun he => hne1 ⟨rfl, he.symm⟩) h1)
      · exact h.unique si' w1 w2 l1 l2 h1 h2 htag
  · intro si' w' l' hl'
    obtain ⟨rfl, rfl, rfl⟩ | ⟨hl', hne⟩ := hcases hl'
    · exact hline
    · have hold := h.line si' w' l' hl'
      refine ⟨by rw [hr.cfg, hold.length], by rw [hr.cfg]; exact hold.writeBack, fun a ha => ?_⟩
      rw [hr.cfg] at ha
      rw [hr.cfg, hr.layout, hr.mem]
      · exact hold.byte a ha
      · rintro ⟨hsi, htag⟩
        obtain ⟨hsi', htag'⟩ := ha
        obtain rfl : si' = si := hsi'.symm.trans hsi
        exact hr.tag w' l' (fun he => hne ⟨rfl, he.symm⟩) hl' (htag'.symm.trans htag)

/-- A byte neither of the new line nor of the one it replaces is as before. -/
theorem Replaces.below {s t : State} {si w : Nat} {l : Line} (hr : Replaces s t si w l) (hc : s.cfg.wf = true) (h : CacheOk s)
    (ht : CacheOk t) {a : Nat} (hnew : ¬ inLine s.cfg si l.tag a)
    (hold : ∀ l', lineAt s si w = some l' → ¬ inLine s.cfg si l'.tag a) : belowByte t a = belowByte s a := by
  rcases line_cases s a with ⟨w', l', hl', htag⟩ | habsent
  · have hin : inLine s.cfg (setIndex s.cfg a) l'.tag a := ⟨rfl, htag.symm⟩
    have hl : lineAt t (setIndex s.cfg a) w' = some l' := by
      rw [hr.lines, if_neg, hl']
      rintro ⟨rfl, rfl⟩
      exact hold l' hl' hin
    have h1 := belowByte_of_lineAt (hr.cfg ▸ hc) ht hl (a := a) (by rw [hr.cfg]; exact hin)
    rw [hr.cfg, belowByte_of_lineAt hc h hl' hin] at h1
    exact (Option.some.inj h1).symm
  · rw [belowByte_of_absent habsent, belowByte_of_absent, hr.mem a hnew]
    rw [lookupWay_eq_none_iff] at habsent ⊢
    intro w' l' hl' htag
    rw [hr.lines, hr.cfg] at hl'
    rw [hr.cfg] at htag
    split_ifs at hl' with hsame
    · obtain rfl := Option.some.inj hl'
      exact hnew ⟨hsame.1.symm, htag.symm⟩
    · exact habsent w' l' hl' htag

theorem Replaces.valid {s t : State} {si w : Nat} {l : Line} (hr : Replaces s t si w l) (si' w' : Nat)
    (h : (lineAt s si' w').isSome = true) : (lineAt t si' w').isSome = true := by
  rw [hr.lines]
  split_ifs
  · rfl
  · exact h

/-! ## Writing a line back, and installing one (R324) -/

/-- Bytes written over the range of a line. -/
theorem read_writeBytes_line {c : Config} (hc : c.wf = true) {si : Nat} (hsi : si < c.numSets) {l : Line}
    (hlen : l.data.length = c.lineSize) (m : Memory) (a : Nat) :
    (inLine c si l.tag a → l.data[lineOffset c a]? = some (Memory.read (Memory.writeBytes m (lineBase c si l.tag) l.data) a))
      ∧ (¬ inLine c si l.tag a →
        Memory.read (Memory.writeBytes m (lineBase c si l.tag) l.data) a = Memory.read m a) := by
  rw [Memory.read_writeBytes, hlen]
  constructor
  · intro ha
    rw [if_pos ((inLine_iff hc hsi l.tag a).1 ha)]
    have hbase := lineBase_add_lineOffset ha
    rw [show a - lineBase c si l.tag = lineOffset c a by omega, List.getD_eq_getElem?_getD,
      List.getElem?_eq_getElem (hlen ▸ lineOffset_lt hc a)]
    rfl
  · intro ha
    rw [if_neg fun h => ha ((inLine_iff hc hsi l.tag a).2 h)]

/-- M holds every byte of the line in a way, if there is one. -/
def flushed (s : State) (si w : Nat) : Prop :=
  ∀ l, lineAt s si w = some l → ∀ a, inLine s.cfg si l.tag a → l.data[lineOffset s.cfg a]? = some (Memory.read s.mem a)

/-- The state whose M has taken the bytes of a line. -/
def lineWrittenBack (s : State) (si : Nat) (l : Line) : State :=
  { s with mem := Memory.writeBytes s.mem (lineBase s.cfg si l.tag) l.data }

theorem cacheMove_lineWrittenBack {s : State} (hc : s.cfg.wf = true) (h : CacheOk s) {si w : Nat} {l : Line}
    (hl : lineAt s si w = some l) : CacheMove s (lineWrittenBack s si l) (belowByte s) := by
  have hline := h.line si w l hl
  have hread := read_writeBytes_line hc (set_lt_of_lineAt h hl) hline.length s.mem
  have hok : CacheOk (lineWrittenBack s si l) := by
    refine ⟨h.sets, h.ways, h.unique, fun si' w' l' hl' => ?_⟩
    have hline' := h.line si' w' l' hl'
    refine ⟨hline'.length, hline'.writeBack, fun a ha => ?_⟩
    by_cases hin : inLine s.cfg si l.tag a
    · obtain rfl : si' = si := ha.1.symm.trans hin.1
      obtain rfl := h.unique si' w w' l l' hl hl' (hin.2.symm.trans ha.2)
      obtain rfl := Option.some.inj (hl.symm.trans hl')
      exact .inl ((hread a).1 hin)
    · have := hline'.byte a ha
      rwa [← (hread a).2 hin] at this
  refine ⟨rfl, rfl, rfl, hok, fun hm => Memory.wf_writeBytes hm _ _, fun a => ?_, fun a ha => ?_, fun _ _ => id⟩
  · rcases line_cases s a with ⟨w', l', hl', htag⟩ | habsent
    · have h1 := belowByte_of_lineAt (s := lineWrittenBack s si l) hc hok (a := a) hl' ⟨rfl, htag.symm⟩
      exact Option.some.inj (h1.symm.trans (belowByte_of_lineAt hc h hl' ⟨rfl, htag.symm⟩))
    · rw [belowByte_of_absent habsent, belowByte_of_absent (s := lineWrittenBack s si l) habsent]
      refine (hread a).2 ?_
      rintro ⟨rfl, htag⟩
      exact lookupWay_eq_none_iff.1 habsent w l hl htag.symm
  · by_cases hin : inLine s.cfg si l.tag a
    · have hold := (hline.byte a hin).resolve_right fun hdirty => ha hdirty.2
      exact Option.some.inj (((hread a).1 hin).symm.trans hold)
    · exact (hread a).2 hin

/-- Writing the victim back moves no byte, and leaves M with every byte of the victim. -/
theorem cacheMove_writeBackVictim {s : State} (hc : s.cfg.wf = true) (h : CacheOk s) (si w : Nat) :
    CacheMove s (writeBackVictim s si w) (belowByte s) ∧ flushed (writeBackVictim s si w) si w
      ∧ (writeBackVictim s si w).l1 = s.l1 := by
  have hsame := cacheMove_of_same hc h (t := s) rfl rfl rfl rfl rfl
  unfold writeBackVictim
  split
  · rename_i l hl
    split_ifs with hd
    · refine ⟨cacheMove_lineWrittenBack hc h hl, fun l' hl' a ha => ?_, rfl⟩
      obtain rfl := Option.some.inj (hl.symm.trans hl')
      exact (read_writeBytes_line hc (set_lt_of_lineAt h hl) (h.line si w l hl).length s.mem a).1 ha
    · refine ⟨hsame, fun l' hl' a ha => ?_, rfl⟩
      obtain rfl := Option.some.inj (hl.symm.trans hl')
      exact ((h.line si w l hl).byte a ha).resolve_right fun hdirty => hd hdirty.1
  · rename_i hnone
    refine ⟨hsame, fun l hl => ?_, rfl⟩
    rw [hnone] at hl
    cases hl

theorem replaces_setLine {s : State} {si w : Nat} {l : Line} (hw : w < (s.l1.getD si []).length)
    (htag : ∀ w' l', w' ≠ w → lineAt s si w' = some l' → l'.tag ≠ l.tag) : Replaces s (setLine s si w l) si w l :=
  ⟨rfl, rfl, List.length_modify .., length_set_setLine s si w l, lineAt_setLine hw l, htag, fun _ _ => rfl⟩

/-- A line read from M replaces one of which M holds every byte. -/
theorem cacheMove_setLine {s : State} (hc : s.cfg.wf = true) (h : CacheOk s) {si w : Nat} {l : Line}
    (hw : w < (s.l1.getD si []).length) (hflushed : flushed s si w)
    (habsent : ∀ w' l', lineAt s si w' = some l' → l'.tag ≠ l.tag) (hclean : l.dirty = false)
    (hlen : l.data.length = s.cfg.lineSize)
    (hdata : ∀ a, inLine s.cfg si l.tag a → l.data[lineOffset s.cfg a]? = some (Memory.read s.mem a)) :
    CacheMove s (setLine s si w l) (belowByte s) := by
  have hr := replaces_setLine (l := l) hw fun w' l' _ => habsent w' l'
  have hok : CacheOk (setLine s si w l) :=
    hr.cacheOk h ⟨hlen, (fun hd => by rw [hclean] at hd; cases hd), fun a ha => .inl (hdata a ha)⟩
  have hnew : lineAt (setLine s si w l) si w = some l := by rw [hr.lines, if_pos ⟨rfl, rfl⟩]
  refine ⟨rfl, rfl, rfl, hok, id, fun a => ?_, fun _ _ => rfl, hr.valid⟩
  by_cases hin : inLine s.cfg si l.tag a
  · have habs : lookupWay s a = none := by
      rw [lookupWay_eq_none_iff, hin.1, hin.2]
      exact habsent
    rw [belowByte_of_absent habs]
    exact Option.some.inj ((belowByte_of_lineAt (s := setLine s si w l) hc hok hnew hin).symm.trans (hdata a hin))
  by_cases hold : ∃ l', lineAt s si w = some l' ∧ inLine s.cfg si l'.tag a
  · obtain ⟨l', hl', hin'⟩ := hold
    have habs : lookupWay (setLine s si w l) a = none := by
      rw [lookupWay_eq_none_iff]
      intro w2 l2 hl2 htag2
      replace htag2 : l2.tag = tagOf s.cfg a := htag2
      replace hl2 : lineAt (setLine s si w l) (setIndex s.cfg a) w2 = some l2 := hl2
      rw [hr.lines, hin'.1] at hl2
      split_ifs at hl2 with hsame
      · obtain rfl := Option.some.inj hl2
        exact hin ⟨hin'.1, htag2.symm⟩
      · exact hsame ⟨rfl, h.unique si w w2 l' l2 hl' hl2 (by rw [htag2, ← hin'.2])⟩
    rw [belowByte_of_absent habs]
    exact Option.some.inj ((hflushed l' hl' a hin').symm.trans (belowByte_of_lineAt hc h hl' hin'))
  · exact hr.below hc h hok hin fun l' hl' hin' => hold ⟨l', hl', hin'⟩

theorem victimWay_lt {ways : List (Option Line)} (h : 0 < ways.length) : victimWay ways < ways.length := by
  unfold victimWay
  split
  · rename_i w hw
    exact (List.findIdx?_eq_some_iff_getElem.1 hw).1
  · split
    · rename_i w hw
      exact (List.findIdx?_eq_some_iff_getElem.1 hw).1
    · exact h

/-- The line `Install` brings in (R324). -/
def freshLine (c : Config) (m : Memory) (a : Nat) : Line :=
  { tag := tagOf c a, dirty := false, age := 0, data := Memory.readBytes m (lineNumber c a * c.lineSize) c.lineSize }

/-- `Install` in two steps: the victim is written back, and the line takes its way. -/
theorem install_eq (s : State) (a : Nat) {w : Nat} (hw : victimWay (s.l1.getD (setIndex s.cfg a) []) = w) : install s a =
    (touch (setLine (writeBackVictim s (setIndex s.cfg a) w) (setIndex s.cfg a) w
      (freshLine s.cfg (writeBackVictim s (setIndex s.cfg a) w).mem a)) (setIndex s.cfg a) w, w) := by
  rw [← hw]
  rfl

theorem getElem?_freshLine {c : Config} (hc : c.wf = true) {a x : Nat} (hx : inLine c (setIndex c a) (tagOf c a) x)
    (m : Memory) : (freshLine c m a).data[lineOffset c x]? = some (Memory.read m x) := by
  have hbase : lineNumber c a * c.lineSize = lineBase c (setIndex c a) (tagOf c a) := by
    rw [lineBase, lineNumber_of_inLine (inLine_self c a)]
  rw [freshLine, Memory.getElem?_readBytes, if_pos (lineOffset_lt hc x), hbase, lineBase_add_lineOffset hx]

/-- `Install` moves no byte and leaves the line in the way it answers (R324). -/
theorem cacheMove_install {s : State} (hc : s.cfg.wf = true) (h : CacheOk s) {a : Nat} (habsent : lookupWay s a = none) :
    CacheMove s (install s a).1 (belowByte s) ∧ holdsLine (install s a).1 a (install s a).2 := by
  generalize hw : victimWay (s.l1.getD (setIndex s.cfg a) []) = w
  obtain ⟨hmove, hflushed, hl1⟩ := cacheMove_writeBackVictim hc h (setIndex s.cfg a) w
  have hcfg := hmove.cfg
  rw [install_eq s a hw]
  generalize writeBackVictim s (setIndex s.cfg a) w = s1 at *
  have hc1 : s1.cfg.wf = true := hcfg ▸ hc
  have hwlt : w < (s1.l1.getD (setIndex s.cfg a) []).length := by
    rw [← hw, hl1]
    refine victimWay_lt ?_
    rw [h.ways _ (setIndex_lt hc a)]
    exact ways_pos hc
  have habs : ∀ w' l', lineAt s1 (setIndex s.cfg a) w' = some l' → l'.tag ≠ (freshLine s.cfg s1.mem a).tag := by
    intro w' l' hl'
    rw [lineAt, hl1] at hl'
    exact lookupWay_eq_none_iff.1 habsent w' l' hl'
  have hset := cacheMove_setLine hc1 hmove.ok hwlt hflushed habs rfl (by rw [hcfg]; exact Memory.length_readBytes ..)
    (by rw [hcfg]; exact fun x hx => getElem?_freshLine hc hx s1.mem)
  refine ⟨(hmove.then_keep hset).then_keep (cacheMove_touch (s := setLine s1 _ w _) hc1 hset.ok _ w), ?_⟩
  refine holdsLine_touch _ _ ⟨freshLine s.cfg s1.mem a, ?_, ?_⟩
  · rw [hset.cfg, hcfg, lineAt_setLine hwlt, if_pos ⟨rfl, rfl⟩]
  · rw [hset.cfg, hcfg]
    rfl

end Sys2Proof.Machine
end

section
/-! PROOF. The store buffer's drain (R330 to R334) and what MEM serves (R235, R325, R326, R333). -/

namespace Sys2Proof.Machine

/-! ## Bytes in a line (R332) -/

theorem length_patchData (data : List Byte) (o : Nat) (bs : List Byte) : (patchData data o bs).length = data.length := by
  induction bs generalizing data o with
  | nil => rfl
  | cons b bs ih => rw [patchData, ih, List.length_set]

/-- Replaced bytes are those given, from the offset on; the others stay. -/
theorem getElem?_patchData (data : List Byte) (o : Nat) (bs : List Byte) (k : Nat) :
    (patchData data o bs)[k]? = if o ≤ k ∧ k < o + bs.length ∧ k < data.length then bs[k - o]? else data[k]? := by
  induction bs generalizing data o with
  | nil => rw [patchData, if_neg (by simp only [List.length_nil]; omega)]
  | cons b bs ih =>
    rw [patchData, ih, List.length_set, List.length_cons, List.getElem?_set]
    rcases Nat.lt_trichotomy k o with hlt | rfl | hgt
    · rw [if_neg (by omega), if_neg (by omega), if_neg (by omega)]
    · rw [if_neg (by omega), if_pos rfl]
      by_cases hk : k < data.length
      · rw [if_pos hk, if_pos (by omega), Nat.sub_self, List.getElem?_cons_zero]
      · rw [if_neg hk, if_neg (by omega), List.getElem?_eq_none (by omega)]
    · rw [if_neg (by omega : ¬ o = k), show k - o = k - (o + 1) + 1 by omega, List.getElem?_cons_succ]
      by_cases hk : k < o + 1 + bs.length ∧ k < data.length
      · rw [if_pos (by omega), if_pos (by omega)]
      · rw [if_neg (by omega), if_neg (by omega)]

/-- Offsets in one line differ as the addresses do. -/
theorem lineOffset_of_inLine {c : Config} {a x : Nat} (h : inLine c (setIndex c a) (tagOf c a) x) :
    a + lineOffset c x = x + lineOffset c a := by
  have h1 := lineBase_add_lineOffset h
  have h2 := lineBase_add_lineOffset (inLine_self c a)
  omega

/-- The line a drained value leaves (R332). -/
def storedLine (s : State) (l : Line) (a : Nat) (bs : List Byte) : Line :=
  { l with data := patchData l.data (lineOffset s.cfg a) bs, dirty := l.dirty || s.cfg.writeBack }

theorem replaces_storeInLine {s : State} (h : CacheOk s) {a si w : Nat} {l : Line} {bs : List Byte}
    (hl : lineAt s si w = some l) (hbytes : ∀ x, a ≤ x → x < a + bs.length → inLine s.cfg si l.tag x) :
    Replaces s (storeInLine s si w a bs) si w (storedLine s l a bs)
      ∧ (storeInLine s si w a bs).mem = (if s.cfg.writeBack then s.mem else Memory.writeBytes s.mem a bs)
      ∧ (storeInLine s si w a bs).sb = s.sb := by
  have hw := way_lt_of_lineAt hl
  have htag : ∀ (l2 : Line), l2.tag = l.tag → ∀ w' l', w' ≠ w → lineAt s si w' = some l' → l'.tag ≠ l2.tag :=
    fun l2 hl2 w' l' hne hl' heq => hne (h.unique si w' w l' l hl' hl (heq.trans hl2))
  unfold storeInLine storedLine
  simp only [writeLine, hl]
  cases hwb : s.cfg.writeBack with
  | true =>
    simp only [if_true, markDirty, lineAt_setLine hw, and_self, Bool.or_true]
    refine ⟨?_, rfl, rfl⟩
    have hfirst := replaces_setLine (l := { l with data := patchData l.data (lineOffset s.cfg a) bs }) hw (htag _ rfl)
    have hsecond := lineAt_setLine (s := setLine s si w { l with data := patchData l.data (lineOffset s.cfg a) bs })
      (by rw [length_set_setLine]; exact hw) { l with data := patchData l.data (lineOffset s.cfg a) bs, dirty := true }
    refine ⟨rfl, rfl, by simp [setLine], fun si' => by rw [length_set_setLine, length_set_setLine], fun si' w' => ?_,
      htag _ rfl, fun _ _ => rfl⟩
    rw [hsecond, hfirst.lines]
    split_ifs <;> rfl
  | false =>
    simp only [Bool.false_eq_true, if_false, Bool.or_false]
    have hfirst := replaces_setLine (l := { l with data := patchData l.data (lineOffset s.cfg a) bs }) hw (htag _ rfl)
    refine ⟨⟨rfl, rfl, hfirst.sets, hfirst.ways, hfirst.lines, hfirst.tag, fun x hx => ?_⟩, trivial, rfl⟩
    show Memory.read (Memory.writeBytes s.mem a bs) x = _
    rw [Memory.read_writeBytes, if_neg]
    rintro ⟨hle, hlt⟩
    exact hx (hbytes x hle hlt)

/-- An aligned value of the data range enters the line that holds its address: its bytes are seen, and no other byte
changes (R332). -/
theorem cacheMove_storeInLine {s : State} (hc : s.cfg.wf = true) (h : CacheOk s) {a w : Nat} {n : Width} {bs : List Byte}
    (hholds : holdsLine s a w) (hlen : bs.length = n.bytes) (halign : a % n.bytes = 0)
    (hdata : ∀ k, k < n.bytes → inData s.layout (a + k)) :
    CacheMove s (storeInLine s (setIndex s.cfg a) w a bs)
      (fun x => if a ≤ x ∧ x < a + n.bytes then bs.getD (x - a) 0 else belowByte s x) := by
  obtain ⟨l, hl, htag⟩ := hholds
  have hin : ∀ x, a ≤ x → x < a + bs.length → inLine s.cfg (setIndex s.cfg a) l.tag x := by
    intro x hle hlt
    obtain ⟨k, rfl⟩ := Nat.exists_eq_add_of_le hle
    rw [htag]
    exact (inLine_of_access hc halign (by omega)).1
  obtain ⟨hr, hmem, hsb⟩ := replaces_storeInLine h hl hin
  have hlOk := h.line _ _ _ hl
  generalize ht : storeInLine s (setIndex s.cfg a) w a bs = t at *
  have hread : ∀ x, Memory.read t.mem x =
      if s.cfg.writeBack = false ∧ a ≤ x ∧ x < a + bs.length then bs.getD (x - a) 0 else Memory.read s.mem x := by
    intro x
    rw [hmem]
    cases hwb : s.cfg.writeBack with
    | true => simp
    | false =>
      simp only [Bool.false_eq_true, if_false, true_and]
      exact Memory.read_writeBytes ..
  have hnewbyte : ∀ x, inLine s.cfg (setIndex s.cfg a) l.tag x → (storedLine s l a bs).data[lineOffset s.cfg x]? =
      if a ≤ x ∧ x < a + bs.length then some (bs.getD (x - a) 0) else l.data[lineOffset s.cfg x]? := by
    intro x hx
    have hoff := lineOffset_of_inLine (a := a) (by rw [← htag]; exact hx)
    have hlt := lineOffset_lt hc x
    rw [storedLine, getElem?_patchData, hlOk.length]
    by_cases hx' : a ≤ x ∧ x < a + bs.length
    · rw [if_pos (by omega), if_pos hx', show lineOffset s.cfg x - lineOffset s.cfg a = x - a by omega,
        List.getD_eq_getElem?_getD, List.getElem?_eq_getElem (by omega)]
      rfl
    · rw [if_neg (by omega), if_neg hx']
  have hok : CacheOk t := by
    refine hr.cacheOk h ⟨?_, fun hdirty => ?_, fun x hx => ?_⟩
    · rw [storedLine, length_patchData, hr.cfg, hlOk.length]
    · rw [hr.cfg]
      rcases Bool.or_eq_true_iff.1 hdirty with hd | hd
      · exact hlOk.writeBack hd
      · exact hd
    · rw [hr.cfg] at hx ⊢
      rw [hr.layout, hnewbyte x hx, hread]
      by_cases hx' : a ≤ x ∧ x < a + bs.length
      · rw [if_pos hx']
        cases hwb : s.cfg.writeBack with
        | true =>
          refine .inr ⟨by simp [storedLine, hwb], ?_⟩
          have := hdata (x - a) (by omega)
          rwa [Nat.add_sub_cancel' hx'.1] at this
        | false => exact .inl (by rw [if_pos ⟨rfl, hx'⟩])
      · rw [if_neg hx', if_neg fun hw => hx' hw.2]
        exact (hlOk.byte x hx).imp_right fun hd => ⟨by simp [storedLine, hd.1], hd.2⟩
  refine ⟨hr.cfg, hr.layout, hsb, hok, fun hm => ?_, fun x => ?_, fun x hx => ?_, hr.valid⟩
  · rw [hmem]
    split_ifs
    · exact hm
    · exact Memory.wf_writeBytes hm _ _
  · rw [← hlen]
    by_cases hx : inLine s.cfg (setIndex s.cfg a) l.tag x
    · have hnew : lineAt t (setIndex s.cfg a) w = some (storedLine s l a bs) := by rw [hr.lines, if_pos ⟨rfl, rfl⟩]
      have hbelow := belowByte_of_lineAt (hr.cfg ▸ hc) hok hnew (a := x) (by rw [hr.cfg]; exact hx)
      rw [hr.cfg, hnewbyte x hx, belowByte_of_lineAt hc h hl hx] at hbelow
      rw [← Option.some.inj ((apply_ite some ..).trans hbelow)]
    · rw [if_neg fun hx' => hx (hin x hx'.1 hx'.2)]
      refine hr.below hc h hok hx fun l' hl' => ?_
      obtain rfl := Option.some.inj (hl.symm.trans hl')
      exact hx
  · rw [hread, if_neg]
    rintro ⟨-, hle, hlt⟩
    have := hdata (x - a) (by omega)
    rw [Nat.add_sub_cancel' hle] at this
    exact hx this

/-! ## The drain (R330) -/

/-- Bringing the line of an address in moves no byte (R330). -/
theorem cacheMove_bringLine {s : State} (hc : s.cfg.wf = true) (h : CacheOk s) (count : Bool) (a : Nat) :
    CacheMove s (bringLine count s a).1 (belowByte s) ∧ holdsLine (bringLine count s a).1 a (bringLine count s a).2 := by
  have hcounted : ∀ hit, CacheMove s { s with metrics := countDrain count hit s.metrics } (belowByte s) :=
    fun hit => cacheMove_of_same hc h rfl rfl rfl rfl rfl
  cases hlookup : lookupWay s a with
  | none =>
    simp only [bringLine, hlookup]
    obtain ⟨hmove, hholds⟩ := cacheMove_install (s := { s with metrics := countDrain count false s.metrics }) hc
      (hcounted false).ok hlookup
    exact ⟨(hcounted false).then_keep hmove, hholds⟩
  | some w =>
    simp only [bringLine, hlookup]
    refine ⟨(hcounted true).then_keep (cacheMove_touch (s := { s with metrics := countDrain count true s.metrics }) hc
      (hcounted true).ok _ w), holdsLine_touch _ w ?_⟩
    exact holdsLine_of_lookupWay hlookup

theorem inData_of_allowed {l : Layout} {ea : Word} {n : Nat} (h : accessAllowed l ea n) {k : Nat} (hk : k < n) :
    inData l (ea.toNat + k) := by
  obtain ⟨hbase, hend, -⟩ := h
  exact ⟨by omega, by omega⟩

/-- The bytes below the store buffer, once an entry has been drained. -/
def drainedByte (s : State) (e : SbEntry) (x : Nat) : Byte :=
  if e.covers x then wordByte e.value (x - e.addr.toNat) else belowByte s x

/-- A drained entry is seen below the store buffer from then on (R330, R332). -/
theorem cacheMove_drainEntry {s : State} (hc : s.cfg.wf = true) (h : CacheOk s) {e : SbEntry}
    (hallowed : accessAllowed s.layout e.addr e.size.bytes) (count : Bool) :
    CacheMove s (drainEntry count s e) (drainedByte s e) := by
  obtain ⟨hmove, hholds⟩ := cacheMove_bringLine hc h count e.addr.toNat
  have hstore := cacheMove_storeInLine (n := e.size) (hmove.cfg ▸ hc) hmove.ok hholds
    (bs := wordBytes e.value e.size.bytes) (length_leBytes _ _) hallowed.2.2
    (fun k hk => by rw [hmove.layout]; exact inData_of_allowed hallowed hk)
  rw [hmove.cfg] at hstore
  refine { hmove.trans hstore with below := fun x => (hstore.below x).trans ?_ }
  unfold drainedByte
  by_cases hx : e.covers x = true
  · have hx' := (covers_iff e x).1 hx
    rw [if_pos hx, if_pos hx']
    exact getD_leBytes _ (by omega)
  · rw [if_neg hx, if_neg fun hx' => hx ((covers_iff e x).2 hx'), hmove.below]

/-- The youngest store-buffer entry that covers a byte gives it; else the byte below the buffer (R70). -/
theorem archByte_eq_below (s : State) (x : Nat) : archByte s x =
    match s.sb.reverse.find? (fun e => e.covers x) with
    | some e => wordByte e.value (x - e.addr.toNat)
    | none => belowByte s x := archByte_eq s x

/-- Two states with one store buffer and the same bytes below it show a program the same. -/
theorem archByte_congr {s t : State} (hsb : t.sb = s.sb) {x : Nat} (hbelow : belowByte t x = belowByte s x) :
    archByte t x = archByte s x := by
  rw [archByte_eq_below, archByte_eq_below, hsb, hbelow]

/-- Every entry of the store buffer is of an access the check allowed (R328). -/
def entriesAllowed (s : State) : Prop := ∀ e ∈ s.sb, accessAllowed s.layout e.addr e.size.bytes

/-- `DrainHead` does nothing, or moves the retired head of the buffer below it (R330). -/
theorem drainHead_cases {s : State} (hc : s.cfg.wf = true) (h : CacheOk s) (hentries : entriesAllowed s) (count : Bool) :
    (drainHead count s = s ∧ ∀ e rest, s.sb = e :: rest → e.retired = false)
      ∨ ∃ e rest, s.sb = e :: rest ∧ e.retired = true
        ∧ CacheMove { s with sb := rest } (drainHead count s) (drainedByte s e) := by
  cases hsb : s.sb with
  | nil => exact .inl ⟨by rw [drainHead, hsb], fun e rest h => by cases h⟩
  | cons e rest =>
    simp only [drainHead, hsb]
    split_ifs with hret
    · refine .inr ⟨e, rest, rfl, hret, ?_⟩
      have hok : CacheOk { s with sb := rest } :=
        ⟨h.sets, h.ways, h.unique,
          fun si w l hl => ⟨(h.line si w l hl).length, (h.line si w l hl).writeBack, (h.line si w l hl).byte⟩⟩
      exact cacheMove_drainEntry (s := { s with sb := rest }) hc hok
        (hentries e (hsb ▸ List.mem_cons_self)) count
    · refine .inl ⟨rfl, fun e' rest' heq => ?_⟩
      obtain ⟨rfl, -⟩ := List.cons.inj heq
      exact Bool.eq_false_iff.2 hret

/-- A drained entry is seen as if it were still the oldest of the buffer, whatever younger entries there are. -/
theorem archByte_drained {s t : State} {e : SbEntry} {rest : List SbEntry}
    (hmove : CacheMove { s with sb := rest } t (drainedByte s e)) (younger : List SbEntry) (x : Nat) :
    archByte { t with sb := younger } x = archByte { s with sb := e :: younger } x := by
  have hbelow : belowByte { t with sb := younger } x = drainedByte s e x := hmove.below x
  rw [archByte_eq_below, archByte_eq_below, hbelow, List.reverse_cons, List.find?_append]
  cases younger.reverse.find? (fun e => e.covers x) with
  | some e' => rfl
  | none =>
    unfold drainedByte
    by_cases hx : e.covers x = true
    · simp [hx]
    · simp [hx]
      rfl

/-- A drain changes no byte a program sees. -/
theorem archByte_drainHead {s : State} (hc : s.cfg.wf = true) (h : CacheOk s) (hentries : entriesAllowed s) (count : Bool)
    (x : Nat) : archByte (drainHead count s) x = archByte s x := by
  obtain ⟨heq, -⟩ | ⟨e, rest, hsb, -, hmove⟩ := drainHead_cases hc h hentries count
  · rw [heq]
  · have hdrained := archByte_drained hmove rest x
    rw [← hsb] at hdrained
    rw [← hdrained]
    exact archByte_congr (s := { drainHead count s with sb := rest }) hmove.sb rfl

/-- So it does without the entries that have not retired. -/
theorem archByte_dropUnretired_drainHead {s : State} (hc : s.cfg.wf = true) (h : CacheOk s) (hentries : entriesAllowed s)
    (count : Bool) (x : Nat) : archByte (dropUnretired (drainHead count s)) x = archByte (dropUnretired s) x := by
  obtain ⟨heq, -⟩ | ⟨e, rest, hsb, hret, hmove⟩ := drainHead_cases hc h hentries count
  · rw [heq]
  · have hdrained := archByte_drained hmove (rest.filter fun e => e.retired) x
    simp only [dropUnretired, hsb, hmove.sb, List.filter_cons, hret, if_true]
    exact hdrained

/-! ## The invariant, property by property (R327, R336) -/

theorem sbEntryOk_iff (s : State) (e : SbEntry) : sbEntryOk s e = true ↔
    accessAllowed s.layout e.addr e.size.bytes ∧ e.value.toNat < 256 ^ e.size.bytes ∧ e.age ≤ s.sbSeq := by
  rw [sbEntryOk, Bool.and_eq_true, Bool.and_eq_true, Option.isNone_iff_eq_none, accessCheck_eq_none_iff, decide_eq_true_eq,
    decide_eq_true_eq, and_assoc]

/-- What the steps of a tick rely on between WB and the end of MEM: the invariant but for who owns the entries that have
not retired. -/
structure MemOk (s : State) : Prop where
  cfg : s.cfg.wf = true
  mem : s.mem.wf = true
  cache : CacheOk s
  cap : s.sb.length ≤ s.cfg.sbCap
  ages : s.sb.Pairwise fun e f => e.age < f.age
  entries : ∀ e ∈ s.sb, sbEntryOk s e = true
  wait : waitOk s = true

theorem MemOk.allowed {s : State} (h : MemOk s) : entriesAllowed s := fun e he => ((sbEntryOk_iff s e).1 (h.entries e he)).1

theorem microInv_iff (s : State) : microInv s = true ↔
    MemOk s ∧ (∀ e ∈ s.sb.dropLast, e.retired = true) ∧ ∀ e ∈ s.sb, sbOwned s e = true := by
  simp only [microInv, sbOk, Bool.and_eq_true, decide_eq_true_eq, List.all_eq_true]
  constructor
  · rintro ⟨⟨⟨⟨⟨hcfg, hmem⟩, hgeo⟩, hcache⟩, ⟨⟨⟨hcap, hages⟩, hentries⟩, hretired⟩, howned⟩, hwait⟩
    exact ⟨⟨hcfg, hmem, (cacheOk_iff hcfg).1 ⟨hgeo, hcache⟩, hcap, hages, hentries, hwait⟩, hretired, howned⟩
  · rintro ⟨⟨hcfg, hmem, hcache, hcap, hages, hentries, hwait⟩, hretired, howned⟩
    obtain ⟨hgeo, hcache⟩ := (cacheOk_iff hcfg).2 hcache
    exact ⟨⟨⟨⟨⟨hcfg, hmem⟩, hgeo⟩, hcache⟩, ⟨⟨⟨hcap, hages⟩, hentries⟩, hretired⟩, howned⟩, hwait⟩

/-- Settles O52: the drained entry is the oldest, so what covers a byte before it covers it after. -/
theorem drainKeepsWhatAProgramSees : Obligations.DrainKeepsWhatAProgramSees := by
  intro count s hs a
  obtain ⟨hok, -⟩ := (microInv_iff s).1 hs
  exact archByte_drainHead hok.cfg hok.cache hok.allowed count a

end Sys2Proof.Machine
end

section
/-! PROOF. The memory system over a tick (R234, R235, R326 to R329, R336): what MEM serves, and the invariants of cache,
store buffer and miss wait. -/

namespace Sys2Proof.Machine

/-! ## The search of the store buffer (R333) -/

theorem covers_of_coversAll {e : SbEntry} {ea n k : Nat} (h : e.coversAll ea n = true) (hk : k < n) :
    e.covers (ea + k) = true := by
  simp only [SbEntry.coversAll, Bool.and_eq_true, decide_eq_true_eq] at h
  rw [covers_iff]
  have hstop : e.stop = e.addr.toNat + e.size.bytes := rfl
  omega

theorem overlaps_of_covers {e : SbEntry} {ea n k : Nat} (h : e.covers (ea + k) = true) (hk : k < n) :
    e.overlaps ea n = true := by
  rw [covers_iff] at h
  have hstop : e.stop = e.addr.toNat + e.size.bytes := rfl
  rw [SbEntry.overlaps, Bool.and_eq_true, decide_eq_true_eq, decide_eq_true_eq]
  omega

/-- The first element with a property is the first with a stronger one, if it has that. -/
theorem find?_of_find? {α : Type} {p q : α → Bool} {l : List α} {x : α} (hp : l.find? p = some x) (hq : q x = true)
    (hpq : ∀ y, q y = true → p y = true) : l.find? q = some x := by
  induction l with
  | nil => cases hp
  | cons y l ih =>
    rw [List.find?_cons] at hp ⊢
    cases hy : p y with
    | true =>
      rw [hy] at hp
      obtain rfl := Option.some.inj hp
      rw [hq]
    | false =>
      rw [hy] at hp
      have hqy : q y = false := Bool.eq_false_iff.2 fun h => by rw [hpq y h] at hy; cases hy
      rw [hqy]
      exact ih hp

/-- Where no entry overlaps an access, its bytes are those below the buffer. -/
theorem archByte_of_sbSearch_none {s : State} {ea n k : Nat} (h : sbSearch s ea n = none) (hk : k < n) :
    archByte s (ea + k) = belowByte s (ea + k) := by
  have hnone : s.sb.reverse.find? (fun e => e.covers (ea + k)) = none := by
    rw [List.find?_eq_none]
    intro e he hcovers
    exact List.find?_eq_none.1 h e he (overlaps_of_covers hcovers hk)
  rw [archByte_eq_below, hnone]

/-- The youngest entry that overlaps an access, if it covers it, holds its bytes. -/
theorem archByte_of_sbSearch {s : State} {ea n k : Nat} {e : SbEntry} (h : sbSearch s ea n = some e)
    (hall : e.coversAll ea n = true) (hk : k < n) : archByte s (ea + k) = wordByte e.value (ea + k - e.addr.toNat) := by
  rw [archByte_eq_below, find?_of_find? h (covers_of_coversAll hall hk) fun y hy => overlaps_of_covers hy hk]

/-! ## The value of a load (R325, R333) -/

/-- Bytes that are those a program sees are what a load reads. -/
theorem wordOfBytes_eq_memRead {s : State} {ea : Word} {w : Width} {bs : List Byte} (hlen : bs.length = w.bytes)
    (hbytes : ∀ k, k < w.bytes → bs[k]? = some (archByte s (ea.toNat + k))) : wordOfBytes bs = memRead s ea w := by
  rw [memRead]
  congr 1
  apply List.ext_getElem?
  intro k
  rw [getElem?_archBytes]
  split_ifs with hk
  · exact hbytes k hk
  · exact List.getElem?_eq_none (by omega)

/-- An entry that covers a load supplies its value. -/
theorem forward_eq_memRead {s : State} {ea : Word} {w : Width} {e : SbEntry} (h : sbSearch s ea.toNat w.bytes = some e)
    (hall : e.coversAll ea.toNat w.bytes = true) : e.forward ea.toNat w.bytes = memRead s ea w := by
  rw [SbEntry.forward, ← leNat_leBytes]
  refine wordOfBytes_eq_memRead (length_leBytes _ _) fun k hk => ?_
  have hle : e.addr.toNat ≤ ea.toNat := by
    simp only [SbEntry.coversAll, Bool.and_eq_true, decide_eq_true_eq] at hall
    exact hall.1
  rw [getElem?_leBytes, if_pos hk, archByte_of_sbSearch h hall hk, wordByte, Nat.div_div_eq_div_mul, ← pow_add,
    show ea.toNat - e.addr.toNat + k = ea.toNat + k - e.addr.toNat by omega]

/-- The line of an access no entry overlaps supplies its value. -/
theorem readLine_eq_memRead {s : State} (hc : s.cfg.wf = true) (h : CacheOk s) {ea : Word} {w : Width} {way : Nat}
    (halign : ea.toNat % w.bytes = 0) (hholds : holdsLine s ea.toNat way) (hsearch : sbSearch s ea.toNat w.bytes = none) :
    readLine s (setIndex s.cfg ea.toNat) way ea.toNat w.bytes = memRead s ea w := by
  obtain ⟨l, hl, htag⟩ := hholds
  have hbyte : ∀ k, k < w.bytes →
      l.data[lineOffset s.cfg ea.toNat + k]? = some (archByte s (ea.toNat + k)) := by
    intro k hk
    obtain ⟨hin, hoff⟩ := inLine_of_access hc halign hk
    rw [archByte_of_sbSearch_none hsearch hk, ← hoff]
    exact belowByte_of_lineAt hc h hl (by rw [htag]; exact hin)
  simp only [readLine, hl]
  refine wordOfBytes_eq_memRead ?_ fun k hk => ?_
  · obtain ⟨hlt, -⟩ := List.getElem?_eq_some_iff.1 (hbyte (w.bytes - 1) (by have := w.bytes_pos; omega))
    have := w.bytes_pos
    rw [List.length_take, List.length_drop]
    omega
  · rw [List.getElem?_take_of_lt hk, List.getElem?_drop]
    exact hbyte k hk

theorem memRead_congr {s t : State} (h : ∀ a, archByte t a = archByte s a) (ea : Word) (w : Width) :
    memRead t ea w = memRead s ea w := by
  unfold memRead
  congr 1
  apply List.ext_getElem?
  intro k
  rw [getElem?_archBytes, getElem?_archBytes, h]

theorem CacheMove.archByte {s t : State} (h : CacheMove s t (belowByte s)) (a : Nat) :
    Machine.archByte t a = Machine.archByte s a := archByte_congr h.sb (h.below a)

theorem CacheMove.sbSearch {s t : State} {b : Nat → Byte} (h : CacheMove s t b) (ea n : Nat) :
    Machine.sbSearch t ea n = Machine.sbSearch s ea n := by rw [Machine.sbSearch, Machine.sbSearch, h.sb]

/-! ## What MEM does to the memory system (R235) -/

/-- What an access to the cache needs: its check passed, and no entry overlaps it. -/
def unbuffered (s : State) (ea : Word) (w : Width) : Prop :=
  accessAllowed s.layout ea w.bytes ∧ sbSearch s ea.toNat w.bytes = none

theorem memInstall_spec {s : State} (hc : s.cfg.wf = true) (h : CacheOk s) {ea : Word} {w : Width} (hun : unbuffered s ea w)
    (habsent : lookupWay s ea.toNat = none) (m : ExLatch) :
    CacheMove s (memInstall s m ea w.bytes).state (belowByte s)
      ∧ (memInstall s m ea w.bytes).out = some { m with result := some (memRead s ea w) } := by
  obtain ⟨hmove, hholds⟩ := cacheMove_install hc h habsent
  refine ⟨hmove, ?_⟩
  have hread := readLine_eq_memRead (hmove.cfg ▸ hc) hmove.ok hun.1.2.2 hholds ((hmove.sbSearch _ _).trans hun.2)
  rw [hmove.cfg, memRead_congr hmove.archByte] at hread
  simp only [memInstall, memLoadOut, hread]

/-- The miss wait, and what a waiting load in EM needs (R326, R336 (6)). -/
theorem waitOk_iff (s : State) : waitOk s = true ↔ (s.memWaiting = true → ∃ m w ea, s.em = some m ∧ m.fault = none
    ∧ m.access = some (.load w ea) ∧ unbuffered s ea w ∧ lookupWay s ea.toNat = none ∧ 1 ≤ s.memWait
    ∧ s.memWait ≤ s.cfg.missPenalty) := by
  have hload : ∀ m, waitingLoadOk s m = true ↔ ∃ w ea, m.fault = none ∧ m.access = some (.load w ea) ∧ unbuffered s ea w
      ∧ lookupWay s ea.toNat = none := by
    intro m
    unfold waitingLoadOk unbuffered
    split
    · rename_i w ea hf ha
      simp only [Bool.and_eq_true, Option.isNone_iff_eq_none, accessCheck_eq_none_iff, hf, ha, true_and, Option.some.injEq,
        MemAccess.load.injEq]
      constructor
      · rintro ⟨⟨h1, h2⟩, h3⟩
        exact ⟨w, ea, ⟨rfl, rfl⟩, ⟨h1, h3⟩, h2⟩
      · rintro ⟨w, ea, ⟨rfl, rfl⟩, ⟨h1, h3⟩, h2⟩
        exact ⟨⟨h1, h2⟩, h3⟩
    · rename_i hne
      simp only [Bool.false_eq_true, false_iff]
      rintro ⟨w, ea, hf, ha, -⟩
      exact hne w ea hf ha
  simp only [waitOk, Bool.or_eq_true, Bool.not_eq_true', Bool.and_eq_true, Option.any_eq_true, decide_eq_true_eq, hload]
  constructor
  · rintro (h | ⟨⟨⟨m, hm, w, ea, hf, ha, hun, hl⟩, h1⟩, h2⟩) hw
    · rw [h] at hw
      cases hw
    · exact ⟨m, w, ea, hm, hf, ha, hun, hl, h1, h2⟩
  · intro h
    cases hw : s.memWaiting with
    | false => exact .inl rfl
    | true =>
      obtain ⟨m, w, ea, hm, hf, ha, hun, hl, h1, h2⟩ := h hw
      exact .inr ⟨⟨⟨m, hm, w, ea, hf, ha, hun, hl⟩, h1⟩, h2⟩

theorem waitOk_of_not_waiting {s : State} (h : s.memWaiting = false) : waitOk s = true :=
  (waitOk_iff s).2 fun hw => by rw [h] at hw; cases hw

/-- The entry a store pushes (R328). -/
def pushedEntry (s : State) (w : Width) (ea d : Word) : SbEntry :=
  { addr := ea, size := w, value := BitVec.ofNat 64 (d.toNat % 256 ^ w.bytes), age := s.sbSeq + 1, retired := false }

/-- What MEM leaves of the memory system: no byte a program sees has changed, and a load that waits keeps the port busy and
hands nothing on; or a store has been pushed. -/
inductive MemEffect (s : State) (emo : Option ExLatch) (o : MemOut) : Prop
  | quiet (move : CacheMove s o.state (belowByte s)) (seq : o.state.sbSeq = s.sbSeq) (age : o.sbAge = none)
      (waiting : o.state.memWaiting = true → o.out = none ∧ o.portBusy = true ∧ waitOk o.state = true) : MemEffect s emo o
  | push {m : ExLatch} {w : Width} {ea d : Word} (latch : emo = some m) (fault : m.fault = none) (access : m.access = some (.store w ea d))
      (idle : s.memWaiting = false) (allowed : accessAllowed s.layout ea w.bytes) (room : s.sb.length < s.cfg.sbCap)
      (age : o.sbAge = some (s.sbSeq + 1)) (out : o.out = some m) (free : o.portBusy = false)
      (state : o.state = { s with sbSeq := s.sbSeq + 1, sb := s.sb ++ [pushedEntry s w ea d] }) : MemEffect s emo o

/-- The value MEM hands on for a load, if it hands on one. -/
def ServesLoad (s : State) (m : ExLatch) (ea : Word) (w : Width) (o : MemOut) : Prop :=
  ∀ l, o.out = some l → l = { m with result := some (memRead s ea w) }

theorem memLoad_spec {s : State} (h : MemOk s) (hwait : s.memWaiting = false) {m : ExLatch} (hm : s.em = some m)
    (hf : m.fault = none) {ea : Word} {w : Width} (ha : m.access = some (.load w ea))
    (hallowed : accessAllowed s.layout ea w.bytes) :
    MemEffect s (some m) (memLoad s m ea w.bytes) ∧ ServesLoad s m ea w (memLoad s m ea w.bytes) := by
  have hsame : ∀ t : State, t.cfg = s.cfg → t.layout = s.layout → t.sb = s.sb → t.mem = s.mem → t.l1 = s.l1 →
      CacheMove s t (belowByte s) := fun t => cacheMove_of_same h.cfg h.cache
  unfold memLoad
  cases hsearch : sbSearch s ea.toNat w.bytes with
  | some e =>
    simp only
    split_ifs with hall
    · refine ⟨.quiet (hsame _ rfl rfl rfl rfl rfl) rfl rfl fun hw => ?_, fun l hl => ?_⟩
      · exact absurd (hwait.symm.trans hw) (by decide)
      · rw [← forward_eq_memRead hsearch hall]
        exact (Option.some.inj hl).symm
    · exact ⟨.quiet (hsame _ rfl rfl rfl rfl rfl) rfl rfl fun hw => absurd (hwait.symm.trans hw) (by decide),
        fun l hl => by cases hl⟩
  | none =>
    cases hlookup : lookupWay s ea.toNat with
    | some way =>
      simp only
      have htouch := cacheMove_touch (s := countLoadHit s) h.cfg (hsame (countLoadHit s) rfl rfl rfl rfl rfl).ok
        (setIndex s.cfg ea.toNat) way
      have hmove : CacheMove s (touch (countLoadHit s) (setIndex s.cfg ea.toNat) way) (belowByte s) :=
        (hsame (countLoadHit s) rfl rfl rfl rfl rfl).then_keep htouch
      refine ⟨.quiet hmove rfl rfl fun hw => absurd (hwait.symm.trans hw) (by decide), fun l hl => ?_⟩
      have hread := readLine_eq_memRead (s := touch (countLoadHit s) (setIndex s.cfg ea.toNat) way) h.cfg hmove.ok hallowed.2.2
        (holdsLine_touch (s := countLoadHit s) _ way (holdsLine_of_lookupWay hlookup)) hsearch
      rw [← memRead_congr hmove.archByte, ← hread]
      exact (Option.some.inj hl).symm
    | none =>
      simp only
      split_ifs with hpenalty
      · have hcount := hsame (countLoadMiss s) rfl rfl rfl rfl rfl
        obtain ⟨hmove, hout⟩ := memInstall_spec (s := countLoadMiss s) h.cfg hcount.ok ⟨hallowed, hsearch⟩ hlookup m
        have hwaiting := sameWaiting_install (countLoadMiss s) ea.toNat
        refine ⟨.quiet (hcount.then_keep hmove) hwaiting.2.2.2 rfl fun hw => ?_, fun l hl => ?_⟩
        · exact absurd (hwait.symm.trans (hwaiting.2.1.symm.trans hw)) (by decide)
        · rw [← memRead_congr hcount.archByte]
          exact (Option.some.inj (hout.symm.trans hl)).symm
      · refine ⟨.quiet (hsame _ rfl rfl rfl rfl rfl) rfl rfl fun _ => ⟨rfl, rfl, ?_⟩, fun l hl => by cases hl⟩
        exact (waitOk_iff _).2 fun _ => ⟨m, w, ea, hm, hf, ha, ⟨hallowed, hsearch⟩, hlookup, Nat.pos_of_ne_zero hpenalty,
          Nat.le_refl _⟩

theorem memWaitTick_spec {s : State} (h : MemOk s) {m : ExLatch} (hm : s.em = some m)
    (hf : m.fault = none) {ea : Word} {w : Width} (ha : m.access = some (.load w ea)) (hun : unbuffered s ea w)
    (habsent : lookupWay s ea.toNat = none) (hle : s.memWait ≤ s.cfg.missPenalty) :
    MemEffect s (some m) (memWaitTick s m ea w.bytes) ∧ ServesLoad s m ea w (memWaitTick s m ea w.bytes) := by
  unfold memWaitTick
  simp only
  split_ifs with hzero
  · have hstart : CacheMove s { s with memWait := s.memWait - 1, memWaiting := false } (belowByte s) :=
      cacheMove_of_same h.cfg h.cache rfl rfl rfl rfl rfl
    obtain ⟨hmove, hout⟩ := memInstall_spec (s := { s with memWait := s.memWait - 1, memWaiting := false }) h.cfg hstart.ok
      hun habsent m
    have hwaiting := sameWaiting_install { s with memWait := s.memWait - 1, memWaiting := false } ea.toNat
    refine ⟨.quiet (hstart.then_keep hmove) hwaiting.2.2.2 rfl fun hw => ?_, fun l hl => ?_⟩
    · exact Bool.noConfusion (hwaiting.2.1.symm.trans hw)
    · rw [← memRead_congr hstart.archByte]
      exact (Option.some.inj (hout.symm.trans hl)).symm
  · refine ⟨.quiet (cacheMove_of_same h.cfg h.cache rfl rfl rfl rfl rfl) rfl rfl fun _ => ⟨rfl, rfl, ?_⟩,
      fun l hl => by cases hl⟩
    refine (waitOk_iff _).2 fun _ => ⟨m, w, ea, hm, hf, ha, hun, habsent, Nat.pos_of_ne_zero hzero, ?_⟩
    exact (Nat.sub_le _ _).trans hle

/-- What MEM does with the latch in EM: what it leaves of the memory system, and the value of a load it serves. -/
theorem memOut_spec {s : State} (h : MemOk s) {m : ExLatch} (hm : s.em = some m) :
    MemEffect s (some m) (memOut (some m) s) ∧ ∀ (w : Width) (ea : Word), m.fault = none → m.access = some (.load w ea) →
      (accessAllowed s.layout ea w.bytes ∧ ServesLoad s m ea w (memOut (some m) s))
        ∨ ∃ c, accessCheck s.layout ea w.bytes = some c
          ∧ (memOut (some m) s).out = some (faultLatch m .memoryFault (.memory c ea)) := by
  have hsame := cacheMove_of_same (t := s) h.cfg h.cache rfl rfl rfl rfl rfl
  have hidle : ∀ {l : MemOut}, s.memWaiting = false → l.state = s →
      l.state.memWaiting = true → l.out = none ∧ l.portBusy = true ∧ waitOk l.state = true := by
    intro l hwait hl hw
    rw [hl, hwait] at hw
    cases hw
  have hcase := memOut_case m s
  generalize memOut (some m) s = o at hcase
  cases hcase with
  | pass hpass =>
    refine ⟨.quiet hsame rfl rfl fun hw => ?_, fun w ea hf ha => ?_⟩
    · obtain ⟨m', w, ea, hm', hf, ha, -⟩ := (waitOk_iff s).1 h.wait hw
      obtain rfl := Option.some.inj (hm.symm.trans hm')
      rcases hpass with hfault | haccess
      · rw [hf] at hfault
        cases hfault
      · rw [ha] at haccess
        cases haccess
    · rcases hpass with hfault | haccess
      · rw [hf] at hfault
        cases hfault
      · rw [ha] at haccess
        cases haccess
  | wait hf ha hwait =>
    rename_i w ea
    obtain ⟨m', w', ea', hm', -, ha', hun, habsent, -, hle⟩ := (waitOk_iff s).1 h.wait hwait
    obtain rfl := Option.some.inj (hm.symm.trans hm')
    rcases ha with ha | ⟨d, ha⟩
    · obtain ⟨rfl, rfl⟩ := MemAccess.load.inj (Option.some.inj (ha.symm.trans ha'))
      obtain ⟨heffect, hserves⟩ := memWaitTick_spec h hm hf ha hun habsent hle
      refine ⟨heffect, fun w2 ea2 _ ha2 => .inl ?_⟩
      obtain ⟨rfl, rfl⟩ := MemAccess.load.inj (Option.some.inj (ha.symm.trans ha2))
      exact ⟨hun.1, hserves⟩
    · rw [ha] at ha'
      cases ha'
  | refuse hf ha hwait hcheck =>
    refine ⟨.quiet hsame rfl rfl (hidle hwait rfl), fun w ea _ ha2 => .inr ?_⟩
    rcases ha with ha | ⟨d, ha⟩
    · obtain ⟨rfl, rfl⟩ := MemAccess.load.inj (Option.some.inj (ha.symm.trans ha2))
      exact ⟨_, hcheck, rfl⟩
    · rw [ha] at ha2
      cases ha2
  | load hf ha hwait hallowed =>
    obtain ⟨heffect, hserves⟩ := memLoad_spec h hwait hm hf ha hallowed
    refine ⟨heffect, fun w ea _ ha2 => .inl ?_⟩
    obtain ⟨rfl, rfl⟩ := MemAccess.load.inj (Option.some.inj (ha.symm.trans ha2))
    exact ⟨hallowed, hserves⟩
  | store hf ha hwait hallowed =>
    refine ⟨?_, fun w ea _ ha2 => by rw [ha] at ha2; cases ha2⟩
    unfold memStore
    split_ifs with hfull
    · exact .quiet (cacheMove_of_same h.cfg h.cache rfl rfl rfl rfl rfl) rfl rfl fun hw => by
        exact absurd (hwait.symm.trans hw) (by decide)
    · exact .push rfl hf ha hwait hallowed (by omega) rfl rfl rfl rfl

/-- Settles O53: MEM answers with the bytes a program sees, wherever it takes them from. -/
theorem servedLoadDeliversTheNewestBytes : Obligations.ServedLoadDeliversTheNewestBytes := by
  intro s l l' w ea hs hm hf ha hout
  obtain ⟨hok, -⟩ := (microInv_iff s).1 hs
  rw [hm] at hout
  obtain ⟨hallowed, hserves⟩ | ⟨c, hc, hfault⟩ := (memOut_spec hok hm).2 w ea hf ha
  · obtain rfl := hserves l' hout
    exact .inl ⟨hallowed, hf, _, rfl, toNat_memRead s ea w⟩
  · obtain rfl := Option.some.inj (hfault.symm.trans hout)
    refine .inr ⟨fun hallowed => ?_, rfl, c, rfl⟩
    rw [(accessCheck_eq_none_iff _ _ _).2 hallowed] at hc
    cases hc

end Sys2Proof.Machine
end

section
/-! PROOF. Every tick keeps the invariants of cache, store buffer and miss wait (R327, R336), and writes M inside the data
range alone (R62, R76). -/

namespace Sys2Proof.Machine

/-! ## Retirement (R329) -/

/-- Every entry of the store buffer has retired. -/
def allRetired (s : State) : Prop := ∀ e ∈ s.sb, e.retired = true

theorem microInv_of_allRetired {s : State} (h : MemOk s) (hret : allRetired s) : microInv s = true :=
  (microInv_iff s).2 ⟨h, fun e he => hret e (List.dropLast_subset _ he), fun e he => by rw [sbOwned, hret e he, Bool.true_or]⟩

theorem CacheOk.congr {s t : State} (h : CacheOk s) (hcfg : t.cfg = s.cfg) (hlayout : t.layout = s.layout) (hmem : t.mem = s.mem)
    (hl1 : t.l1 = s.l1) : CacheOk t := by
  have hline : ∀ si w, lineAt t si w = lineAt s si w := fun si w => by rw [lineAt, lineAt, hl1]
  refine ⟨by rw [hl1, hcfg, h.sets], fun si hsi => by rw [hl1, hcfg]; exact h.ways si (hcfg ▸ hsi), ?_, fun si w l hl => ?_⟩
  · simp only [hline]
    exact h.unique
  · have hold := h.line si w l ((hline si w).symm.trans hl)
    exact ⟨by rw [hcfg]; exact hold.length, by rw [hcfg]; exact hold.writeBack, by rw [hcfg, hmem, hlayout]; exact hold.byte⟩

/-- An entry that is marked keeps its place, its bytes and its age (R329). -/
theorem sbSearch_markRetired {s t : State} {age : Nat} (hsb : t.sb = markRetired s.sb age) (ea n : Nat)
    (h : sbSearch s ea n = none) : sbSearch t ea n = none := by
  unfold sbSearch at h ⊢
  rw [hsb, markRetired, ← List.map_reverse, find?_map_of_pred _ _ fun e => by split_ifs <;> rfl, h]
  rfl

/-- Marking entries keeps the invariant. -/
theorem MemOk.markRetired {s t : State} {age : Nat} (h : MemOk s) (hcfg : t.cfg = s.cfg) (hlayout : t.layout = s.layout)
    (hmem : t.mem = s.mem) (hl1 : t.l1 = s.l1) (hsb : t.sb = markRetired s.sb age) (hseq : t.sbSeq = s.sbSeq)
    (hem : t.em = s.em) (hwaiting : t.memWaiting = s.memWaiting) (hwait : t.memWait = s.memWait) : MemOk t := by
  refine ⟨hcfg ▸ h.cfg, hmem ▸ h.mem, h.cache.congr hcfg hlayout hmem hl1, ?_, ?_, fun e he => ?_, ?_⟩
  · rw [hsb, length_markRetired, hcfg]
    exact h.cap
  · rw [hsb, Machine.markRetired, List.pairwise_map]
    refine h.ages.imp fun {a b} hab => ?_
    split_ifs <;> exact hab
  · rw [hsb] at he
    obtain ⟨x, hx, rfl⟩ := List.mem_map.1 he
    have hold := h.entries x hx
    rw [sbEntryOk_iff] at hold ⊢
    rw [hlayout, hseq]
    split_ifs <;> exact hold
  · rw [waitOk_iff, hwaiting, hem, hwait, hcfg]
    intro hw
    obtain ⟨m, w, ea, hm, hf, ha, ⟨hallowed, hsearch⟩, habsent, hrest⟩ := (waitOk_iff s).1 h.wait hw
    refine ⟨m, w, ea, hm, hf, ha, ⟨hlayout ▸ hallowed, sbSearch_markRetired hsb _ _ hsearch⟩, ?_, hrest⟩
    rw [lookupWay, hl1, hcfg]
    exact habsent

/-- After a bubble in WB nothing is unretired. -/
theorem allRetired_of_bubble {s : State} (h : microInv s = true) (hmw : s.mw = none) : allRetired s := by
  intro e he
  have howned := ((microInv_iff s).1 h).2.2 e he
  rw [sbOwned, hmw] at howned
  simpa using howned

/-- The retirement of the instruction in MW keeps the memory invariant, and leaves every entry retired (R327, R329). -/
theorem memOk_wbRetired {s : State} {w : MemLatch} (h : microInv s = true) (hmw : s.mw = some w) :
    MemOk (wbRetired w (countCycle s)) ∧ allRetired (wbRetired w (countCycle s)) := by
  obtain ⟨hok, -, howned⟩ := (microInv_iff s).1 h
  cases hage : w.sbAge with
  | none =>
    have hsb : (wbRetired w (countCycle s)).sb = s.sb := by simp only [wbRetired, hage]; rfl
    refine ⟨⟨hok.cfg, hok.mem, hok.cache.congr rfl rfl rfl rfl, hsb ▸ hok.cap, hsb ▸ hok.ages, hsb ▸ hok.entries, ?_⟩, ?_⟩
    · have hwait := hok.wait
      rw [waitOk_iff] at hwait ⊢
      unfold unbuffered sbSearch at hwait ⊢
      rw [hsb]
      exact hwait
    · intro e he
      have := howned e (hsb ▸ he)
      rw [sbOwned, hmw] at this
      simpa [hage] using this
  | some age =>
    have hsb : (wbRetired w (countCycle s)).sb = markRetired s.sb age := by simp only [wbRetired, hage]; rfl
    refine ⟨hok.markRetired rfl rfl rfl rfl hsb rfl rfl rfl rfl, fun e he => ?_⟩
    rw [hsb] at he
    obtain ⟨x, hx, rfl⟩ := List.mem_map.1 he
    have := howned x hx
    rw [sbOwned, hmw] at this
    simp only [Option.any_some, hage, Bool.or_eq_true, Bool.and_eq_true, beq_iff_eq, Option.some.injEq] at this
    split_ifs with heq
    · rfl
    · exact this.resolve_right fun hx => heq hx.2.symm

/-- What the WB step leaves when the tick goes on. -/
def goesOn (s s1 : State) : Prop :=
  (s.mw = none ∧ s1 = countCycle s) ∨ ∃ w u, s.mw = some w ∧ w.fault = none ∧ w.uop = some u ∧ hasValue w.toExLatch
    ∧ stopReasonOf u.instr = none ∧ s1 = wbRetired w (countCycle s)

theorem memOk_of_goesOn {s s1 : State} (h : microInv s = true) (hwb : goesOn s s1) : MemOk s1 ∧ allRetired s1 := by
  obtain ⟨hmw, rfl⟩ | ⟨w, u, hmw, -, -, -, -, rfl⟩ := hwb
  · exact ⟨((microInv_iff (countCycle s)).1 h).1, allRetired_of_bubble h hmw⟩
  · exact memOk_wbRetired h hmw

/-! ## The MEM step -/

theorem memOut_effect {s : State} (h : MemOk s) : MemEffect s s.em (memOut s.em s) := by
  cases hm : s.em with
  | none =>
    refine .quiet (cacheMove_of_same h.cfg h.cache rfl rfl rfl rfl rfl) rfl rfl fun hw => ?_
    obtain ⟨m, w, ea, hm', -⟩ := (waitOk_iff s).1 h.wait hw
    rw [hm] at hm'
    cases hm'
  | some m => exact (memOut_spec h hm).1

/-- A move of bytes keeps the memory invariant. -/
theorem MemOk.of_move {s t : State} {b : Nat → Byte} (h : MemOk s) (hmove : CacheMove s t b) (hseq : t.sbSeq = s.sbSeq)
    (hwait : waitOk t = true) : MemOk t := by
  refine ⟨hmove.cfg ▸ h.cfg, hmove.mem_wf h.mem, hmove.ok, ?_, ?_, ?_, hwait⟩
  · rw [hmove.sb, hmove.cfg]
    exact h.cap
  · rw [hmove.sb]
    exact h.ages
  · intro e he
    have hold := h.entries e (hmove.sb ▸ he)
    rw [sbEntryOk_iff] at hold ⊢
    rwa [hmove.layout, hseq]

/-- A pushed store keeps the memory invariant (R328). -/
theorem MemOk.push {s : State} (h : MemOk s) {w : Width} {ea : Word} (d : Word) (hidle : s.memWaiting = false)
    (hallowed : accessAllowed s.layout ea w.bytes) (hroom : s.sb.length < s.cfg.sbCap) :
    MemOk { s with sbSeq := s.sbSeq + 1, sb := s.sb ++ [pushedEntry s w ea d] } := by
  refine ⟨h.cfg, h.mem, h.cache.congr rfl rfl rfl rfl, ?_, ?_, fun e he => ?_, waitOk_of_not_waiting hidle⟩
  · show (s.sb ++ [_]).length ≤ s.cfg.sbCap
    rw [List.length_append, List.length_singleton]
    omega
  · refine List.pairwise_append.2 ⟨h.ages, List.pairwise_singleton _ _, fun x hx y hy => ?_⟩
    obtain rfl := List.mem_singleton.1 hy
    exact Nat.lt_succ_of_le ((sbEntryOk_iff s x).1 (h.entries x hx)).2.2
  · rw [sbEntryOk_iff]
    rcases List.mem_append.1 he with he | he
    · obtain ⟨h1, h2, h3⟩ := (sbEntryOk_iff s e).1 (h.entries e he)
      exact ⟨h1, h2, Nat.le_succ_of_le h3⟩
    · obtain rfl := List.mem_singleton.1 he
      refine ⟨hallowed, ?_, Nat.le_refl _⟩
      have hfit : 256 ^ w.bytes ≤ 2 ^ 64 := by cases w <;> decide
      have hlt : d.toNat % 256 ^ w.bytes < 256 ^ w.bytes := Nat.mod_lt _ (Nat.pow_pos (by decide))
      show (BitVec.ofNat 64 (d.toNat % 256 ^ w.bytes)).toNat < 256 ^ w.bytes
      rw [BitVec.toNat_ofNat, Nat.mod_eq_of_lt (by omega)]
      exact hlt

/-- What a drain leaves of the buffer: it, or its rest behind a retired head. -/
theorem sb_drainHead {s : State} (h : MemOk s) (count : Bool) :
    (drainHead count s).sb = s.sb ∨ ∃ e, e.retired = true ∧ s.sb = e :: (drainHead count s).sb := by
  obtain ⟨heq, -⟩ | ⟨e, rest, hsb, hret, hmove⟩ := drainHead_cases h.cfg h.cache h.allowed count
  · exact .inl (by rw [heq])
  · exact .inr ⟨e, hret, by rw [hsb, hmove.sb]⟩

/-- A drain keeps the memory invariant, and writes M inside the data range alone. -/
theorem MemOk.drainHead {s : State} (h : MemOk s) (hidle : s.memWaiting = false) (count : Bool) :
    MemOk (drainHead count s) ∧ ∀ a, ¬ inData s.layout a →
      Memory.read (Machine.drainHead count s).mem a = Memory.read s.mem a := by
  obtain ⟨-, hwaiting, -, hseq⟩ := sameWaiting_drainHead count s
  obtain ⟨heq, -⟩ | ⟨e, rest, hsb, -, hmove⟩ := drainHead_cases h.cfg h.cache h.allowed count
  · rw [heq]
    exact ⟨h, fun _ _ => rfl⟩
  · have hsub : ∀ x ∈ rest, x ∈ s.sb := fun x hx => hsb ▸ List.mem_cons_of_mem _ hx
    have hcap := h.cap
    have hages := h.ages
    rw [hsb] at hcap hages
    have hrest : MemOk { s with sb := rest } :=
      ⟨h.cfg, h.mem, h.cache.congr rfl rfl rfl rfl, Nat.le_of_succ_le hcap, (List.pairwise_cons.1 hages).2,
        fun x hx => h.entries x (hsub x hx), waitOk_of_not_waiting hidle⟩
    exact ⟨hrest.of_move hmove hseq (waitOk_of_not_waiting (hwaiting.trans hidle)), hmove.outside⟩

/-- The MEM step after a WB step that left every entry retired: the invariant holds again, a load that waits has stalled,
M is written inside the data range alone, and retired stores give the bytes they gave. -/
structure MemStepOk (s : State) (o : MemOut) (t : State) (stalled : Bool) : Prop where
  inv : microInv t = true
  waiting : t.memWaiting = true → stalled = true
  outside : ∀ a, ¬ inData s.layout a → Memory.read t.mem a = Memory.read s.mem a
  retired : ∀ a, archByte (dropUnretired t) a = archByte s a
  seen : ∀ a, archByte t a = archByte o.state a

/-- What MEM hands to MW. -/
def toMw (o : MemOut) : State := { o.state with mw := o.out.map fun l => { toExLatch := l, sbAge := o.sbAge } }

theorem memStep_eq (emo : Option ExLatch) (s : State) : memStep emo s =
    (if (memOut emo s).portBusy then toMw (memOut emo s) else drainHead true (toMw (memOut emo s)),
      memStalls emo (memOut emo s)) := rfl

theorem dropUnretired_of_allRetired {s : State} (h : allRetired s) : dropUnretired s = s := by
  have hsb : s.sb.filter (fun e => e.retired) = s.sb := List.filter_eq_self.2 h
  rw [dropUnretired, hsb]

/-- Behind retired entries the youngest one, which has not retired, stays in the buffer over a drain. -/
theorem sb_drainHead_concat {s : State} (h : MemOk s) {older : List SbEntry} {e : SbEntry}
    (holder : ∀ x ∈ older, x.retired = true) (hsb : s.sb = older ++ [e]) (he : e.retired = false) (count : Bool) :
    ∃ older', (∀ x ∈ older', x.retired = true) ∧ (drainHead count s).sb = older' ++ [e] := by
  rcases sb_drainHead h count with heq | ⟨x, hx, heq⟩
  · exact ⟨older, holder, heq.trans hsb⟩
  · rw [hsb] at heq
    cases older with
    | nil =>
      obtain ⟨rfl, -⟩ := List.cons.inj heq
      rw [he] at hx
      cases hx
    | cons y older =>
      obtain ⟨-, htail⟩ := List.cons.inj heq
      exact ⟨older, fun z hz => holder z (List.mem_cons_of_mem _ hz), htail.symm⟩

/-- The state the MEM step leaves, once the access is made. -/
def afterMem (o : MemOut) : State := if o.portBusy then toMw o else drainHead true (toMw o)

theorem memStepOk_of_quiet {s : State} {o : MemOut} (h : MemOk s) (hret : allRetired s) (hem : o.state.em = s.em)
    (hmove : CacheMove s o.state (belowByte s)) (hseq : o.state.sbSeq = s.sbSeq)
    (hwaiting : o.state.memWaiting = true → o.out = none ∧ o.portBusy = true ∧ waitOk o.state = true) :
    MemStepOk s o (afterMem o) (memStalls s.em o) := by
  unfold afterMem
  have hwait : waitOk (toMw o) = true := by
    cases hw : o.state.memWaiting with
    | false => exact waitOk_of_not_waiting hw
    | true => exact (hwaiting hw).2.2
  have hmove' : CacheMove s (toMw o) (belowByte s) := hmove.then_keep
    (cacheMove_of_same (hmove.cfg ▸ h.cfg) hmove.ok rfl rfl rfl rfl rfl)
  have hok : MemOk (toMw o) := h.of_move hmove' hseq hwait
  have hret' : allRetired (toMw o) := fun e he => hret e (hmove'.sb ▸ he)
  have hkept : ∀ a, archByte (dropUnretired (toMw o)) a = archByte s a := fun a => by
    rw [dropUnretired_of_allRetired hret', hmove'.archByte]
  split_ifs with hbusy
  · refine ⟨microInv_of_allRetired hok hret', fun hw => ?_, hmove'.outside, hkept, fun _ => rfl⟩
    obtain ⟨m, w, ea, hm, -⟩ := (waitOk_iff _).1 hwait hw
    show memStalls s.em o = true
    rw [memStalls, ← hem, show o.state.em = some m from hm, (hwaiting hw).1]
    rfl
  · have hidle : (toMw o).memWaiting = false := Bool.eq_false_iff.2 fun hw => hbusy (hwaiting hw).2.1
    obtain ⟨hdrained, houtside⟩ := hok.drainHead hidle true
    refine ⟨microInv_of_allRetired hdrained fun e he => hret' e ?_, fun hw => ?_, fun a ha => ?_, fun a => ?_, fun a => ?_⟩
    · rcases sb_drainHead hok true with hsb | ⟨x, -, hsb⟩
      · exact hsb ▸ he
      · rw [hsb]
        exact List.mem_cons_of_mem _ he
    · rw [(sameWaiting_drainHead true (toMw o)).2.1, hidle] at hw
      cases hw
    · rw [houtside a (by rw [hmove'.layout]; exact ha), hmove'.outside a ha]
    · rw [archByte_dropUnretired_drainHead hok.cfg hok.cache hok.allowed, hkept]
    · exact archByte_drainHead hok.cfg hok.cache hok.allowed true a

theorem memStepOk_of_push {s : State} {o : MemOut} {m : ExLatch} {w : Width} {ea d : Word} (h : MemOk s) (hret : allRetired s)
    (hfault : m.fault = none) (hidle : s.memWaiting = false) (hallowed : accessAllowed s.layout ea w.bytes)
    (hroom : s.sb.length < s.cfg.sbCap) (hage : o.sbAge = some (s.sbSeq + 1)) (hout : o.out = some m)
    (hfree : o.portBusy = false)
    (hstate : o.state = { s with sbSeq := s.sbSeq + 1, sb := s.sb ++ [pushedEntry s w ea d] }) :
    MemStepOk s o (afterMem o) (memStalls s.em o) := by
  unfold afterMem
  have hok : MemOk o.state := hstate ▸ h.push d hidle hallowed hroom
  have hok' : MemOk (toMw o) :=
    ⟨hok.cfg, hok.mem, hok.cache.congr rfl rfl rfl rfl, hok.cap, hok.ages, hok.entries, hok.wait⟩
  have hidle' : (toMw o).memWaiting = false := by
    show o.state.memWaiting = false
    rw [hstate]
    exact hidle
  have hsb : (toMw o).sb = s.sb ++ [pushedEntry s w ea d] := by
    show o.state.sb = _
    rw [hstate]
  have hstate' : (toMw o).mem = s.mem ∧ (toMw o).layout = s.layout ∧ (toMw o).cfg = s.cfg ∧ (toMw o).l1 = s.l1 := by
    simp only [toMw, hstate, and_self]
  have hkept : ∀ a, archByte (dropUnretired (toMw o)) a = archByte s a := by
    intro a
    have hfilter : (toMw o).sb.filter (fun e => e.retired) = s.sb := by
      rw [hsb, List.filter_append, List.filter_eq_self.2 hret]
      exact List.append_nil _
    obtain ⟨h1, h2, h3, h4⟩ := hstate'
    refine archByte_congr hfilter ?_
    simp only [belowByte, cachedByte, lookupLine, dropUnretired, h1, h3, h4]
  obtain ⟨hdrained, houtside⟩ := hok'.drainHead hidle' true
  rw [if_neg (by rw [hfree]; decide)]
  refine ⟨?_, fun hw => ?_, fun a ha => ?_, fun a => ?_, fun a => ?_⟩
  · have hmw : (drainHead true (toMw o)).mw = some { toExLatch := m, sbAge := some (s.sbSeq + 1) } := by
      rw [(sameWaiting_drainHead true (toMw o)).1, toMw, hout, hage]
      rfl
    obtain ⟨older, holder, hsb'⟩ := sb_drainHead_concat hok' hret hsb rfl true
    refine (microInv_iff _).2 ⟨hdrained, fun e he => ?_, fun e he => ?_⟩
    · rw [hsb', List.dropLast_concat] at he
      exact holder e he
    · rw [hsb'] at he
      rcases List.mem_append.1 he with he | he
      · rw [sbOwned, holder e he, Bool.true_or]
      · obtain rfl := List.mem_singleton.1 he
        rw [sbOwned, hmw]
        simp [hfault, pushedEntry]
  · rw [(sameWaiting_drainHead true (toMw o)).2.1, hidle'] at hw
    cases hw
  · rw [houtside a (by rw [hstate'.2.1]; exact ha), hstate'.1]
  · rw [archByte_dropUnretired_drainHead hok'.cfg hok'.cache hok'.allowed, hkept]
  · exact archByte_drainHead hok'.cfg hok'.cache hok'.allowed true a

theorem memStep_spec {s : State} (h : MemOk s) (hret : allRetired s) :
    MemStepOk s (memOut s.em s) (memStep s.em s).1 (memStep s.em s).2 := by
  rw [memStep_eq]
  have hem : (memOut s.em s).state.em = s.em := by
    have := sameOutsideMemory_memOut s.em s
    simp only [sameOutsideMemory] at this
    simp only [this]
  cases memOut_effect h with
  | quiet hmove hseq _ hwaiting => exact memStepOk_of_quiet h hret hem hmove hseq hwaiting
  | push _ hfault _ hidle hallowed hroom hage hout hfree hstate =>
    exact memStepOk_of_push h hret hfault hidle hallowed hroom hage hout hfree hstate

/-! ## The tick -/

/-- The invariant is of the memory system and its owner in MW, and of EM while a load waits there. -/
theorem microInv_congr {s t : State} (h : microInv s = true) (hcfg : t.cfg = s.cfg) (hlayout : t.layout = s.layout)
    (hmem : t.mem = s.mem) (hl1 : t.l1 = s.l1) (hsb : t.sb = s.sb) (hseq : t.sbSeq = s.sbSeq) (hmw : t.mw = s.mw)
    (hwaiting : t.memWaiting = s.memWaiting) (hwait : t.memWait = s.memWait)
    (hem : s.memWaiting = true → t.em = s.em) : microInv t = true := by
  obtain ⟨hok, hret, howned⟩ := (microInv_iff s).1 h
  refine (microInv_iff t).2 ⟨⟨hcfg ▸ hok.cfg, hmem ▸ hok.mem, hok.cache.congr hcfg hlayout hmem hl1, ?_, ?_, ?_, ?_⟩, ?_, ?_⟩
  · rw [hsb, hcfg]; exact hok.cap
  · rw [hsb]; exact hok.ages
  · intro e he
    have := hok.entries e (hsb ▸ he)
    rw [sbEntryOk_iff] at this ⊢
    rwa [hlayout, hseq]
  · have hold := hok.wait
    rw [waitOk_iff] at hold ⊢
    intro hw
    obtain ⟨m, w, ea, hm, hrest⟩ := hold (hwaiting.symm.trans hw)
    refine ⟨m, w, ea, (hem (hwaiting.symm.trans hw)).trans hm, ?_⟩
    unfold unbuffered sbSearch lookupWay at hrest ⊢
    rwa [hlayout, hsb, hl1, hcfg, hwait]
  · rw [hsb]; exact hret
  · intro e he
    have := howned e (hsb ▸ he)
    rw [sbOwned] at this ⊢
    rwa [hmw]

/-- What EX, ID and IF leave of the memory system, and of EM behind a stall. -/
theorem memory_after_ex {stalled : Bool} {emo : Option ExLatch} {mwo : Option MemLatch} {deo : Option FetchEntry}
    {s s2 : State} {sig : ExSignals} (hex : exStep stalled emo mwo deo s = .ok (s2, sig)) :
    let t := ifStep sig (idStep sig s2)
    (t.cfg = s.cfg ∧ t.layout = s.layout ∧ t.mem = s.mem ∧ t.l1 = s.l1 ∧ t.sb = s.sb)
      ∧ (t.sbSeq = s.sbSeq ∧ t.mw = s.mw ∧ t.memWaiting = s.memWaiting ∧ t.memWait = s.memWait)
      ∧ t.em = s2.em ∧ (stalled = true → s2.em = s.em) := by
  intro t
  have h1 := sameOutsideEx_exStep hex
  have h2 := sameOutsideFetch_idStep sig s2
  have h3 := sameOutsideFetch_ifStep sig (idStep sig s2)
  simp only [sameOutsideEx, sameOutsideFetch] at h1 h2 h3
  refine ⟨by simp only [t, h1, h2, h3, and_self], by simp only [t, h1, h2, h3, and_self], by simp only [t, h2, h3], fun hst => ?_⟩
  subst hst
  cases hex
  rfl

/-- The tick, as far as the memory system goes: after WB left every entry retired, the MEM step, and nothing else. -/
theorem memory_of_tick {s s1 s2 : State} {sig : ExSignals} (h : microInv s = true) (hwb : goesOn s s1)
    (hex : exStep (memStep s.em s1).2 s.em s.mw s.de (memStep s.em s1).1 = .ok (s2, sig)) :
    MemStepOk s1 (memOut s.em s1) (ifStep sig (idStep sig s2)) (memStep s.em s1).2 := by
  obtain ⟨hok, hret⟩ := memOk_of_goesOn h hwb
  obtain ⟨-, -, hem, -⟩ := latches_after_wb hwb
  have hspec := memStep_spec hok hret
  rw [hem] at hspec
  obtain ⟨⟨hcfg, hlayout, hmem, hl1, hsb⟩, ⟨hseq, hmw, hwaiting, hwait⟩, hem2, hstalled⟩ := memory_after_ex hex
  have hbelow : ∀ a, belowByte (ifStep sig (idStep sig s2)) a = belowByte (memStep s.em s1).1 a := fun a => by
    simp only [belowByte, cachedByte, lookupLine, hcfg, hmem, hl1]
  refine ⟨microInv_congr hspec.inv hcfg hlayout hmem hl1 hsb hseq hmw hwaiting hwait
      fun hw => hem2.trans (hstalled (hspec.waiting hw)), fun hw => hspec.waiting (hwaiting.symm.trans hw),
    fun a ha => (congrArg (fun m => Memory.read m a) hmem).trans (hspec.outside a ha), fun a => ?_, fun a => ?_⟩
  · rw [← hspec.retired a]
    refine archByte_congr ?_ ?_
    · simp only [dropUnretired, hsb]
    · exact hbelow a
  · rw [← hspec.seen a]
    exact archByte_congr hsb (hbelow a)

/-- Settles O51: a tick that ends in WB leaves the memory system alone or marks entries; else the MEM step keeps it. -/
theorem tickKeepsMicroInv : Obligations.TickKeepsMicroInv := by
  intro s t h htick
  by_cases hrun : s.status = .running
  · obtain ⟨w, f, -, -, rfl⟩ | ⟨w, u, r, hmw, -, -, -, -, rfl⟩ | ⟨s1, s2, sig, hwb, hex, rfl⟩ := tick_ok_cases hrun htick
    · exact h
    · obtain ⟨hok, hret⟩ := memOk_wbRetired h hmw
      exact microInv_congr (microInv_of_allRetired hok hret) rfl rfl rfl rfl rfl rfl rfl rfl rfl fun _ => rfl
    · exact (memory_of_tick h hwb hex).inv
  · rw [← next_inj ((tick_of_stopped hrun).symm.trans htick)]
    exact h

/-- Settles O54: M is written by an eviction and by a drain, of lines and entries that differ from it in the data range alone. -/
theorem tickNeverWritesOutsideTheDataRange : Obligations.TickNeverWritesOutsideTheDataRange := by
  intro s t h htick a ha
  by_cases hrun : s.status = .running
  · obtain ⟨w, f, -, -, rfl⟩ | ⟨w, u, r, -, -, -, -, -, rfl⟩ | ⟨s1, s2, sig, hwb, hex, rfl⟩ := tick_ok_cases hrun htick
    · rfl
    · rfl
    · have hmem : s1.mem = s.mem ∧ s1.layout = s.layout := by
        obtain ⟨-, rfl⟩ | ⟨w, u, -, -, -, -, -, rfl⟩ := hwb <;> exact ⟨rfl, rfl⟩
      rw [(memory_of_tick h hwb hex).outside a (by rw [hmem.2]; exact ha), hmem.1]
  · rw [← next_inj ((tick_of_stopped hrun).symm.trans htick)]

end Sys2Proof.Machine
end

section
/-! PROOF. `commit` (R77, R335): the buffer drains without changing a byte a program sees, then the cache does. -/

namespace Sys2Proof.Machine

/-! ## What a drain that does not count leaves alone -/

theorem metrics_writeLine (s : State) (si w a : Nat) (bs : List Byte) : (writeLine s si w a bs).metrics = s.metrics := by
  unfold writeLine
  split <;> rfl

theorem metrics_markDirty (s : State) (si w : Nat) : (markDirty s si w).metrics = s.metrics := by
  unfold markDirty
  split <;> rfl

theorem metrics_install (s : State) (a : Nat) : (install s a).1.metrics = s.metrics := by
  have hvictim : ∀ si w, (writeBackVictim s si w).metrics = s.metrics := by
    intro si w
    unfold writeBackVictim
    split
    · split_ifs <;> rfl
    · rfl
  exact hvictim ..

theorem metrics_drainHead (s : State) : (drainHead false s).metrics = s.metrics := by
  have hbring : ∀ (t : State) a, (bringLine false t a).1.metrics = t.metrics := by
    intro t a
    unfold bringLine
    split
    · exact metrics_install _ a
    · rfl
  have hstore : ∀ (t : State) si w a bs, (storeInLine t si w a bs).metrics = t.metrics := by
    intro t si w a bs
    unfold storeInLine
    split_ifs
    · rw [metrics_markDirty, metrics_writeLine]
    · exact metrics_writeLine t si w a bs
  unfold drainHead
  split
  · rfl
  · split_ifs
    · rw [drainEntry, hstore, hbring]
    · rfl

/-- Everything but cache, store buffer and main memory is the same. -/
def sameOutsideCache (s t : State) : Prop := sameOutsideMemory s t ∧ sameWaiting s t ∧ t.metrics = s.metrics

theorem sameOutsideCache.trans {s t u : State} (h : sameOutsideCache s t) (k : sameOutsideCache t u) : sameOutsideCache s u :=
  ⟨h.1.trans k.1, h.2.1.trans k.2.1, k.2.2.trans h.2.2⟩

theorem sameOutsideCache_drainHead (s : State) : sameOutsideCache s (drainHead false s) :=
  ⟨sameOutsideMemory_drainHead false s, sameWaiting_drainHead false s, metrics_drainHead s⟩

/-! ## Draining the buffer -/

/-- A state of which every entry can drain. -/
structure Drainable (s : State) : Prop where
  cfg : s.cfg.wf = true
  cache : CacheOk s
  allowed : entriesAllowed s
  retired : allRetired s

/-- What draining has kept: the bytes a program sees, the valid ways, and all that is not cache, buffer or M. -/
structure Drains (s t : State) : Prop where
  ok : Drainable t
  seen : ∀ a, archByte t a = archByte s a
  valid : ∀ si w, (lineAt s si w).isSome = true → (lineAt t si w).isSome = true
  frame : sameOutsideCache s t

theorem drains_drainHead {s : State} (h : Drainable s) :
    Drains s (drainHead false s) ∧ (drainHead false s).sb = s.sb.tail := by
  have hframe := sameOutsideCache_drainHead s
  have hseen := archByte_drainHead h.cfg h.cache h.allowed false
  obtain ⟨heq, hhead⟩ | ⟨e, rest, hsb, hret, hmove⟩ := drainHead_cases h.cfg h.cache h.allowed false
  · have hempty : s.sb = [] := by
      cases hsb : s.sb with
      | nil => rfl
      | cons e rest =>
        have := h.retired e (hsb ▸ List.mem_cons_self)
        rw [hhead e rest hsb] at this
        cases this
    rw [heq] at hframe ⊢
    exact ⟨⟨h, fun _ => rfl, fun _ _ => id, hframe⟩, by rw [hempty]; rfl⟩
  · have hsub : ∀ x ∈ (drainHead false s).sb, x ∈ s.sb := fun x hx => by
      rw [hmove.sb] at hx
      exact hsb ▸ List.mem_cons_of_mem _ hx
    refine ⟨⟨⟨hmove.cfg ▸ h.cfg, hmove.ok, fun x hx => ?_, fun x hx => h.retired x (hsub x hx)⟩, hseen, hmove.valid, hframe⟩,
      by rw [hmove.sb, hsb]; rfl⟩
    rw [hmove.layout]
    exact h.allowed x (hsub x hx)

theorem drains_drainAll {n : Nat} {s : State} (h : Drainable s) :
    Drains s (drainAll n s) ∧ (drainAll n s).sb = s.sb.drop n := by
  induction n generalizing s with
  | zero => exact ⟨⟨h, fun _ => rfl, fun _ _ => id, ⟨.rfl, .rfl, rfl⟩⟩, rfl⟩
  | succ n ih =>
    obtain ⟨hhead, hsb⟩ := drains_drainHead h
    obtain ⟨hrest, hsb'⟩ := ih hhead.ok
    refine ⟨⟨hrest.ok, fun a => (hrest.seen a).trans (hhead.seen a), fun si w hl => hrest.valid si w (hhead.valid si w hl),
      hhead.frame.trans hrest.frame⟩, ?_⟩
    rw [drainAll, hsb', hsb, List.drop_tail]

/-! ## Writing the cache back -/

/-- A line of set `si` holds the bytes `b`. -/
def lineHas (c : Config) (b : Nat → Byte) (si : Nat) (l : Line) : Prop :=
  si < c.numSets ∧ l.data.length = c.lineSize ∧ ∀ a, inLine c si l.tag a → l.data[lineOffset c a]? = some (b a)

/-- M after one line has been written back, if it is dirty. -/
def flushLine (c : Config) (si : Nat) (l : Line) (m : Memory) : Memory :=
  if l.dirty then Memory.writeBytes m (lineBase c si l.tag) l.data else m

/-- A line that holds the bytes `b` writes them where it is dirty, and no others. -/
theorem read_flushLine {c : Config} (hc : c.wf = true) {b : Nat → Byte} {si : Nat} {l : Line} (hl : lineHas c b si l)
    (m : Memory) (a : Nat) : (Memory.read m a = b a ∨ (l.dirty = true ∧ inLine c si l.tag a)) →
      Memory.read (flushLine c si l m) a = b a := by
  obtain ⟨hsi, hlen, hdata⟩ := hl
  obtain ⟨hin, hout⟩ := read_writeBytes_line hc hsi hlen m a
  intro ha
  unfold flushLine
  split_ifs with hd
  · by_cases hline : inLine c si l.tag a
    · exact Option.some.inj ((hin hline).symm.trans (hdata a hline))
    · rw [hout hline]
      exact ha.resolve_right fun h => hline h.2
  · exact ha.resolve_right fun h => hd h.1

/-- A dirty line among the ways of a set holds the address. -/
def dirtyIn (c : Config) (si : Nat) (ways : List (Option Line)) (a : Nat) : Prop :=
  ∃ l, some l ∈ ways ∧ l.dirty = true ∧ inLine c si l.tag a

theorem read_flushWays {c : Config} (hc : c.wf = true) {b : Nat → Byte} {si : Nat} {ways : List (Option Line)} {m : Memory}
    (hlines : ∀ l, some l ∈ ways → lineHas c b si l) {a : Nat} (ha : Memory.read m a = b a ∨ dirtyIn c si ways a) :
    Memory.read (flushWays c si ways m) a = b a := by
  induction ways generalizing m with
  | nil => exact ha.resolve_right fun ⟨l, hl, _⟩ => List.not_mem_nil hl
  | cons x rest ih =>
    have hrest : ∀ l, some l ∈ rest → lineHas c b si l := fun l hl => hlines l (List.mem_cons_of_mem _ hl)
    cases x with
    | none =>
      refine ih hrest (ha.imp_right fun ⟨l, hl, hd⟩ => ⟨l, ?_, hd⟩)
      exact (List.mem_cons.1 hl).resolve_left fun h => by cases h
    | some l =>
      have hread := read_flushLine hc (hlines l List.mem_cons_self) m a
      rcases ha with ha | ⟨l', hl', hd⟩
      · exact ih hrest (.inl (hread (.inl ha)))
      · rcases List.mem_cons.1 hl' with heq | hl'
        · obtain rfl := Option.some.inj heq
          exact ih hrest (.inl (hread (.inr hd)))
        · exact ih hrest (.inr ⟨l', hl', hd⟩)

theorem read_flushSets {c : Config} (hc : c.wf = true) {b : Nat → Byte} {si : Nat} {sets : List (List (Option Line))}
    {m : Memory} (hlines : ∀ k ways l, sets[k]? = some ways → some l ∈ ways → lineHas c b (si + k) l) {a : Nat}
    (ha : Memory.read m a = b a ∨ ∃ k ways, sets[k]? = some ways ∧ dirtyIn c (si + k) ways a) :
    Memory.read (flushSets c si sets m) a = b a := by
  induction sets generalizing si m with
  | nil =>
    refine ha.resolve_right ?_
    rintro ⟨k, ways, hk, -⟩
    cases hk
  | cons ways rest ih =>
    have hset : ∀ l, some l ∈ ways → lineHas c b si l := fun l hl => hlines 0 ways l rfl hl
    have hread := read_flushWays hc hset (m := m) (a := a)
    have hrest : ∀ k ways' l, rest[k]? = some ways' → some l ∈ ways' → lineHas c b (si + 1 + k) l := by
      intro k ways' l hk hl
      rw [show si + 1 + k = si + (k + 1) by omega]
      exact hlines (k + 1) ways' l hk hl
    rcases ha with ha | ⟨k, ways', hk, hd⟩
    · exact ih hrest (.inl (hread (.inl ha)))
    · cases k with
      | zero =>
        obtain rfl := Option.some.inj hk
        exact ih hrest (.inl (hread (.inr hd)))
      | succ k =>
        refine ih hrest (.inr ⟨k, ways', hk, ?_⟩)
        rw [show si + 1 + k = si + (k + 1) by omega]
        exact hd

theorem lineAt_flushCache (s : State) (si w : Nat) : lineAt (flushCache s) si w = cleanLine (lineAt s si w) := by
  simp only [lineAt, flushCache, List.getD_eq_getElem?_getD, List.getElem?_map]
  cases s.l1[si]? with
  | none => rfl
  | some ways =>
    simp only [Option.map_some, Option.getD_some, List.getElem?_map]
    cases ways[w]? <;> rfl

theorem lineHas_of_lineAt {s : State} (hc : s.cfg.wf = true) (h : CacheOk s) {si w : Nat} {l : Line}
    (hl : lineAt s si w = some l) : lineHas s.cfg (belowByte s) si l :=
  ⟨set_lt_of_lineAt h hl, (h.line si w l hl).length, fun _ ha => belowByte_of_lineAt hc h hl ha⟩

/-- After the write-back M has every byte below the store buffer. -/
theorem read_flushCache {s : State} (hc : s.cfg.wf = true) (h : CacheOk s) (a : Nat) :
    Memory.read (flushCache s).mem a = belowByte s a := by
  refine read_flushSets hc (fun k ways l hk hl => ?_) ?_
  · obtain ⟨w, hw⟩ := List.mem_iff_getElem?.1 hl
    rw [Nat.zero_add]
    exact lineHas_of_lineAt hc h (lineAt_eq_some_iff.2 ⟨ways, hk, hw⟩)
  · rcases line_cases s a with ⟨w, l, hl, htag⟩ | habsent
    · have hin : inLine s.cfg (setIndex s.cfg a) l.tag a := ⟨rfl, htag.symm⟩
      refine ((h.line _ _ _ hl).byte a hin).imp (fun hread => ?_) fun hd => ?_
      · exact Option.some.inj (hread.symm.trans (belowByte_of_lineAt hc h hl hin))
      · obtain ⟨ways, hset, hw⟩ := lineAt_eq_some_iff.1 hl
        refine ⟨_, ways, hset, l, List.mem_of_getElem? hw, hd.1, ?_⟩
        rw [Nat.zero_add]
        exact hin
    · exact .inl (belowByte_of_absent habsent).symm

/-- The lines stay, and hold what they held. -/
theorem belowByte_flushCache {s : State} (hc : s.cfg.wf = true) (h : CacheOk s) (a : Nat) :
    belowByte (flushCache s) a = belowByte s a := by
  have hlines : ∀ si w l', lineAt (flushCache s) si w = some l' →
      ∃ l, lineAt s si w = some l ∧ l' = { l with dirty := false } := by
    intro si w l' hl'
    rw [lineAt_flushCache, cleanLine, Option.map_eq_some_iff] at hl'
    obtain ⟨l, hl, rfl⟩ := hl'
    exact ⟨l, hl, rfl⟩
  have hok : CacheOk (flushCache s) := by
    refine ⟨(List.length_map ..).trans h.sets, fun si hsi => ?_, ?_, fun si w l' hl' => ?_⟩
    · refine Eq.trans ?_ (h.ways si hsi)
      simp only [flushCache, List.getD_eq_getElem?_getD, List.getElem?_map]
      cases s.l1[si]? <;> simp
    · intro si w w' l l' hl hl' htag
      obtain ⟨k, hk, rfl⟩ := hlines _ _ _ hl
      obtain ⟨k', hk', rfl⟩ := hlines _ _ _ hl'
      exact h.unique si w w' k k' hk hk' htag
    · obtain ⟨l, hl, rfl⟩ := hlines _ _ _ hl'
      refine ⟨(h.line si w l hl).length, fun hd => Bool.noConfusion hd, fun a ha => .inl ?_⟩
      have hbyte := belowByte_of_lineAt hc h hl (a := a) ha
      rw [read_flushCache hc h]
      exact hbyte
  rcases line_cases (flushCache s) a with ⟨w, l', hl', htag⟩ | habsent
  · have hbyte := belowByte_of_lineAt (s := flushCache s) hc hok hl' (a := a) ⟨rfl, htag.symm⟩
    obtain ⟨l, hl, rfl⟩ := hlines _ _ _ hl'
    have hold := belowByte_of_lineAt hc h hl (a := a) ⟨rfl, htag.symm⟩
    exact Option.some.inj (hbyte.symm.trans hold)
  · rw [belowByte_of_absent habsent, read_flushCache hc h]

/-- No line is dirty. -/
def clean (s : State) : Prop := ∀ ways ∈ s.l1, ∀ l ∈ ways, l.all (fun x => !x.dirty) = true

theorem clean_flushCache (s : State) : clean (flushCache s) := by
  intro ways hways l hl
  obtain ⟨ways', -, rfl⟩ := List.mem_map.1 hways
  obtain ⟨l', -, rfl⟩ := List.mem_map.1 hl
  cases l' <;> rfl

theorem flushWays_of_clean (c : Config) (si : Nat) (m : Memory) {ways : List (Option Line)}
    (h : ∀ l ∈ ways, l.all (fun x => !x.dirty) = true) : flushWays c si ways m = m := by
  induction ways with
  | nil => rfl
  | cons x rest ih =>
    have hrest := ih fun l hl => h l (List.mem_cons_of_mem _ hl)
    cases x with
    | none => exact hrest
    | some l =>
      have hl : l.dirty = false := by simpa using h _ List.mem_cons_self
      rw [flushWays, hl]
      exact hrest

theorem flushSets_of_clean (c : Config) (si : Nat) (m : Memory) {sets : List (List (Option Line))}
    (h : ∀ ways ∈ sets, ∀ l ∈ ways, l.all (fun x => !x.dirty) = true) : flushSets c si sets m = m := by
  induction sets generalizing si with
  | nil => rfl
  | cons ways rest ih =>
    rw [flushSets, flushWays_of_clean c si m (h ways List.mem_cons_self)]
    exact ih (si + 1) fun ways' hw => h ways' (List.mem_cons_of_mem _ hw)

theorem cleanLine_of_clean {l : Option Line} (h : l.all (fun x => !x.dirty) = true) : cleanLine l = l := by
  cases l with
  | none => rfl
  | some l =>
    have hl : l.dirty = false := by simpa using h
    rw [cleanLine, Option.map_some, ← hl]

/-- Writing a clean cache back does nothing. -/
theorem flushCache_of_clean {s : State} (h : clean s) : flushCache s = s := by
  have hl1 : s.l1.map (fun ways => ways.map cleanLine) = s.l1 := by
    rw [List.map_congr_left fun ways hw => List.map_congr_left fun l hl => cleanLine_of_clean (h ways hw l hl)]
    simp
  rw [flushCache, flushSets_of_clean s.cfg 0 s.mem h, hl1]

/-! ## Commit -/

theorem commit_of_stopped {s : State} (h : s.status ≠ .running) : commit s = .next (commitEngine s) := if_neg h

theorem drainable_dropUnretired {s : State} (h : microInv s = true) : Drainable (dropUnretired s) := by
  obtain ⟨hok, -⟩ := (microInv_iff s).1 h
  exact ⟨hok.cfg, hok.cache.congr rfl rfl rfl rfl, fun e he => hok.allowed e (List.mem_filter.1 he).1,
    fun e he => (List.mem_filter.1 he).2⟩

/-- A second commit finds nothing to do. -/
theorem commitEngine_of_clean {s : State} (hsb : s.sb = []) (h : clean s) : commitEngine s = s := by
  have hdrop : dropUnretired s = s := dropUnretired_of_allRetired fun e he => by rw [hsb] at he; cases he
  rw [commitEngine, hdrop, hsb]
  exact flushCache_of_clean h

theorem archByte_of_empty {s : State} (h : s.sb = []) (a : Nat) : archByte s a = belowByte s a := by
  rw [archByte_eq_below, h]
  rfl

/-- Settles O55: drain, then write back; neither moves a byte a program sees, and after both M has them all. -/
theorem commitBringsMemoryUpToDate : Obligations.CommitBringsMemoryUpToDate := by
  refine ⟨fun s hrun => if_pos hrun, fun s hs hstopped => ?_⟩
  have hstart := drainable_dropUnretired hs
  obtain ⟨hdrains, hsb⟩ := drains_drainAll (n := (dropUnretired s).sb.length) hstart
  rw [List.drop_length] at hsb
  have hcommit : commitEngine s = flushCache (drainAll (dropUnretired s).sb.length (dropUnretired s)) := rfl
  generalize drainAll (dropUnretired s).sb.length (dropUnretired s) = d at hdrains hsb hcommit
  have hbelow : ∀ a, belowByte d a = archByte (dropUnretired s) a := fun a => by
    rw [← hdrains.seen a, archByte_of_empty hsb]
  obtain ⟨hmemory, hwaiting, hmetrics⟩ := hdrains.frame
  simp only [sameOutsideMemory] at hmemory
  simp only [sameWaiting] at hwaiting
  have hclean := clean_flushCache d
  have hstatus : (flushCache d).status ≠ .running := by
    show d.status ≠ _
    simp only [hmemory]
    exact hstopped
  refine ⟨flushCache d, by rw [commit_of_stopped hstopped, hcommit], fun a => ?_, fun a => ?_, hsb, hclean, ?_, ?_⟩
  · rw [read_flushCache hdrains.ok.cfg hdrains.ok.cache, hbelow]
  · rw [archByte_of_empty (s := flushCache d) hsb, belowByte_flushCache hdrains.ok.cfg hdrains.ok.cache, hbelow]
  · intro si w ways l hset hw
    have hl : (lineAt s si w).isSome = true := by rw [lineAt_eq_some_iff.2 ⟨ways, hset, hw⟩]; rfl
    obtain ⟨l', hl'⟩ := Option.isSome_iff_exists.1 (hdrains.valid si w hl)
    obtain ⟨ways', h1, h2⟩ := lineAt_eq_some_iff.1 ((lineAt_flushCache d si w).trans (congrArg cleanLine hl'))
    exact ⟨ways', _, h1, h2⟩
  · obtain ⟨-, -, -, hregs, hflags, hpc, hstat, -⟩ := id hmemory
    refine ⟨hregs, hflags, hstat, hmetrics, hpc, ?_, ?_⟩
    · simp only [sameMachine, flushCache, hmemory, hwaiting]
      simp [dropUnretired]
    · rw [commit_of_stopped hstatus, commitEngine_of_clean (s := flushCache d) hsb hclean]

end Sys2Proof.Machine
end

section
/-! PROOF. The coupling of the two levels (R4, R245, R336 (7)), stage by stage: what WB, MEM, EX and fetch leave of it. -/

namespace Sys2Proof.Machine

/-! ## One architectural step -/

/-- The architectural level always answers. -/
theorem step_eq_afterStep (u : State) : step u = .next (afterStep u) := by
  have htotal : ∃ v, step u = .next v := by
    by_cases hrun : u.status = .running
    · cases hd : decodeAt u u.pc with
      | ok i =>
        obtain ⟨v, hv, -⟩ := exec_ends i u
        exact ⟨v, (step_of_decode hrun hd).trans hv⟩
      | error c => exact ⟨_, step_of_decodeError hrun hd⟩
    · exact ⟨u, step_of_stopped hrun⟩
  obtain ⟨v, hv⟩ := htotal
  rw [afterStep_eq hv, hv]

theorem frame_afterStep {u : State} (hwf : u.layout.wf u.cfg = true) : (afterStep u).cfg = u.cfg
    ∧ (afterStep u).layout = u.layout ∧ ∀ a, decodeAt (afterStep u) a = decodeAt u a := by
  have hstep := step_eq_afterStep u
  obtain ⟨hlayout, hcfg, -⟩ := step_mem hstep
  exact ⟨hcfg, hlayout, (stepNeverChangesCode u _ hwf hstep).2⟩

theorem errorFree_of_running {u : State} (h : u.status = .running) : errorFree u = true := by
  rw [errorFree, h]

/-- HALT, SYSCALL and TRAP retire and stop the engine. -/
theorem exec_of_stopReason {i : Instr} {r : StopReason} (h : stopReasonOf i = some r) (u : State) :
    exec i u = .next (stopEngine r i.length u) := by
  cases i <;> cases h <;> rfl

/-- An instruction that does not end in an error is counted, and goes on with the engine as it was unless it stops it. -/
theorem retired_of_errorFree {i : Instr} {u v : State} (h : exec i u = .next v) (herr : errorFree v = true) :
    v.metrics.instructionsCommitted = u.metrics.instructionsCommitted + 1
      ∧ (stopReasonOf i = none → v.status = u.status) := by
  cases ends_of_exec h with
  | writes => exact ⟨rfl, fun _ => rfl⟩
  | stops hr => exact ⟨rfl, fun hno => by rw [hr] at hno; cases hno⟩
  | stores => exact ⟨by simp [Metrics.commit], fun _ => by simp⟩
  | raises => cases herr

/-! ## Paths of fetched entries -/

theorem pathFrom_congr {s t : State} (hd : ∀ a, decodeAt t a = decodeAt s a) (hh : t.fetchHalted = s.fetchHalted)
    (hp : t.pcFetch = s.pcFetch) {p : Word} {es : List FetchEntry} (h : pathFrom s p es) : pathFrom t p es := by
  induction es generalizing p with
  | nil =>
    obtain ⟨h1, h2⟩ := h
    exact ⟨hh.trans h1, hp.trans h2⟩
  | cons e rest ih =>
    obtain ⟨hpc, hrest⟩ := h
    refine ⟨hpc, ?_⟩
    cases hf : e.fault with
    | some f =>
      rw [hf] at hrest
      obtain ⟨⟨c, hc, hfc⟩, hnil, hhalt⟩ := hrest
      exact ⟨⟨c, (hd p).trans hc, hfc⟩, hnil, hh.trans hhalt⟩
    | none =>
      rw [hf] at hrest
      obtain ⟨i, n, hi, hu, hn, hseq, hpath⟩ := hrest
      exact ⟨i, n, (hd p).trans hi, hu, hn, hseq, ih hpath⟩

/-- The address at which a path begins. -/
theorem start_of_pathFrom {s : State} {p : Word} {es : List FetchEntry} (h : pathFrom s p es) :
    (es.head?.map fun e => e.pc).getD s.pcFetch = p := by
  cases es with
  | nil => exact h.2
  | cons e rest => exact h.1

/-- What follows MW begins where the architectural level goes on. -/
theorem nextUnretired_eq {s v : State} (h : restCoupled s v) (herr : errorFree v = true) : nextUnretired s = v.pc := by
  unfold restCoupled at h
  unfold nextUnretired
  cases hem : s.em with
  | some l =>
    rw [hem] at h
    exact h.1 herr
  | none =>
    rw [hem] at h
    have hstart := start_of_pathFrom (h herr)
    cases hde : s.de with
    | some e =>
      rw [hde] at hstart
      exact hstart
    | none =>
      rw [hde] at hstart
      cases hfb : s.fb with
      | nil =>
        rw [hfb] at hstart
        exact hstart
      | cons e rest =>
        rw [hfb] at hstart
        exact hstart

/-- The coupling of EM and what is behind it, with the same latches and the same code. -/
theorem restCoupled_congr {s t v : State} (hd : ∀ a, decodeAt t a = decodeAt s a) (hfb : t.fb = s.fb) (hde : t.de = s.de)
    (hem : t.em = s.em) (hh : t.fetchHalted = s.fetchHalted) (hp : t.pcFetch = s.pcFetch) (h : restCoupled s v) :
    restCoupled t v := by
  have hfront : ∀ x, frontCoupled s x → frontCoupled t x := fun x hx herr => by
    rw [hde, hfb]
    exact pathFrom_congr hd hh hp (hx herr)
  unfold restCoupled at h ⊢
  rw [hem]
  cases hl : s.em with
  | none =>
    rw [hl] at h
    exact hfront v h
  | some l =>
    rw [hl] at h
    exact ⟨h.1, fun hrun => ⟨(h.2 hrun).1, hfront _ (h.2 hrun).2⟩⟩

/-! ## The architectural part -/

/-- The architectural parts of the two levels agree, memory aside (R365). -/
structure Agrees (s u : State) : Prop where
  cfg : u.cfg = s.cfg
  layout : u.layout = s.layout
  regs : u.regs = s.regs
  flags : u.flags = s.flags
  pc : u.pc = s.pc
  status : u.status = s.status
  committed : u.metrics.instructionsCommitted = s.metrics.instructionsCommitted
  decode : ∀ a, decodeAt u a = decodeAt s a

/-- The latches while the engine runs. -/
def latchesCoupled (s u : State) : Prop :=
  match s.mw with
  | none => restCoupled s u
  | some w => w.pc = u.pc ∧ mwCoupled w u s ∧ restCoupled s (afterStep u)

theorem coupled_iff (s u : State) : coupled s u ↔ microInv s = true ∧ pipelineLegal s = true ∧ s.layout.wf s.cfg = true
    ∧ Agrees s u ∧ (∀ a, archByte u a = archByte (dropUnretired s) a) ∧ (s.status = .running → latchesCoupled s u) := by
  constructor
  · rintro ⟨hinv, hlegal, hwf, hcfg, hlayout, hregs, hflags, hpc, hstatus, hcommitted, hmem, hdecode, hlatches⟩
    exact ⟨hinv, hlegal, hwf, ⟨hcfg, hlayout, hregs, hflags, hpc, hstatus, hcommitted, hdecode⟩, hmem, hlatches⟩
  · rintro ⟨hinv, hlegal, hwf, ⟨hcfg, hlayout, hregs, hflags, hpc, hstatus, hcommitted, hdecode⟩, hmem, hlatches⟩
    exact ⟨hinv, hlegal, hwf, hcfg, hlayout, hregs, hflags, hpc, hstatus, hcommitted, hmem, hdecode, hlatches⟩

theorem reg_of_regs {s u : State} (h : u.regs = s.regs) (r : Reg) : u.reg r = s.reg r := by rw [State.reg, State.reg, h]

/-- What a register reads after a register is written. -/
theorem reg_setReg_eq (s : State) (r : Reg) (v : Word) (q : Reg) :
    (s.setReg r v).reg q = if r = q then v else s.reg q := by
  split_ifs with h
  · rw [← h, reg_setReg_same]
  · exact reg_setReg_of_ne s v h

theorem regs_of_reg {s u : State} (h : ∀ r, u.reg r = s.reg r) : u.regs = s.regs := by
  apply Vector.ext
  intro k hk
  simpa [reg_eq_getElem] using h ⟨k, hk⟩

/-- The agreement, where the steps after WB leave the architectural part alone and code stays. -/
theorem Agrees.of_sameArch {s t u : State} (h : Agrees s u) (hsame : sameArch s t) (hd : ∀ a, decodeAt t a = decodeAt s a) :
    Agrees t u := by
  obtain ⟨hcfg, hlayout, hregs, hflags, hpc, hstatus, hcommitted, -⟩ := hsame
  exact ⟨h.cfg.trans hcfg.symm, h.layout.trans hlayout.symm, h.regs.trans hregs.symm, h.flags.trans hflags.symm,
    h.pc.trans hpc.symm, h.status.trans hstatus.symm, h.committed.trans hcommitted.symm, fun a => (h.decode a).trans (hd a).symm⟩

/-! ## The WB step -/

/-- Marking entries changes no byte a program sees. -/
theorem archByte_markRetired {s t : State} {age : Nat} (hsb : t.sb = markRetired s.sb age)
    (hbelow : ∀ a, belowByte t a = belowByte s a) (a : Nat) : archByte t a = archByte s a := by
  rw [archByte_eq_below, archByte_eq_below, hsb, hbelow, markRetired, ← List.map_reverse,
    find?_map_of_pred _ _ fun e => by split_ifs <;> rfl]
  cases s.sb.reverse.find? (fun e => e.covers a) with
  | none => rfl
  | some e =>
    simp only [Option.map_some]
    split_ifs <;> rfl

theorem archByte_wbRetired (w : MemLatch) (s : State) (a : Nat) : archByte (wbRetired w s) a = archByte s a := by
  cases hage : w.sbAge with
  | none => exact archByte_congr (by simp only [wbRetired, hage]) rfl
  | some age =>
    have hsb : (wbRetired w s).sb = markRetired s.sb age := by simp only [wbRetired, hage]
    exact archByte_markRetired hsb (fun _ => rfl) a

/-- The instruction in MW retires at both levels with the same result (R234, R245). -/
theorem agrees_wbRetired {s u : State} {w : MemLatch} {i : Instr} (hagrees : Agrees s u) (hwf : s.layout.wf s.cfg = true)
    (hrun : s.status = .running) (hf : w.fault = none) (hv : hasValue w.toExLatch) (hw : mwCoupled w u s)
    (hu : w.uop = some (uopOf i u.pc)) (hrest : restCoupled s (afterStep u)) :
    (Agrees { wbRetired w s with status := (afterStep u).status } (afterStep u))
      ∧ (∀ a, archByte (afterStep u) a = archByte (wbRetired w s) a)
      ∧ exec i u = .next (afterStep u) ∧ errorFree (afterStep u) = true := by
  unfold mwCoupled at hw
  rw [hf] at hw
  obtain ⟨⟨j, hj, huj⟩, herr, ⟨hregs, hflags⟩, hmem⟩ := hw
  have hij : j = i := by
    have := congrArg Uop.instr (Option.some.inj (huj.symm.trans hu))
    rwa [uopOf_instr, uopOf_instr] at this
  subst hij
  have hexec : exec j u = .next (afterStep u) :=
    (step_of_decode (hagrees.status.trans hrun) hj).symm.trans (step_eq_afterStep u)
  obtain ⟨hcfg, hlayout, hdecode⟩ := frame_afterStep (u := u) (by rw [hagrees.layout, hagrees.cfg]; exact hwf)
  refine ⟨⟨hcfg.trans hagrees.cfg, hlayout.trans hagrees.layout, regs_of_reg fun r => ?_, ?_, ?_, rfl, ?_, fun a => ?_⟩,
    fun a => by rw [hmem, archByte_wbRetired], hexec, herr⟩
  · show _ = (wbRetired w s).reg r
    rw [reg_wbRetired hv, hregs, reg_of_regs hagrees.regs]
  · rw [hflags, hagrees.flags]
    rfl
  · exact (nextUnretired_eq hrest herr).symm
  · rw [(retired_of_errorFree hexec herr).1, hagrees.committed]
    rfl
  · rw [hdecode, hagrees.decode]
    rfl

/-! ## The MEM step -/

/-- A latch in EM that the architectural level runs on from: it carries no error, and what it will write is what the
architectural level has written. -/
theorem emCoupled_running {l : ExLatch} {v : State} (h : emCoupled l v) (hrun : (afterStep v).status = .running) :
    l.fault = none ∧ (∀ r, l.rd ≠ some r → (afterStep v).reg r = v.reg r)
      ∧ (isLoad l = false → ∀ r, l.rd = some r → (afterStep v).reg r = l.result.getD 0)
      ∧ (afterStep v).flags = l.flags.getD v.flags := by
  cases hf : l.fault with
  | some f =>
    rw [afterStep_eq ((emCoupled_of_fault hf v).1 h)] at hrun
    cases hrun
  | none =>
    refine ⟨rfl, ?_⟩
    unfold emCoupled at h
    rw [hf] at h
    cases ha : l.access with
    | none =>
      rw [ha] at h
      obtain ⟨-, -, ⟨hregs, hflags⟩, -⟩ := h
      refine ⟨fun r hr => ?_, fun _ r hr => ?_, hflags⟩
      · rw [hregs, if_neg hr]
      · rw [hregs, if_pos hr]
    | some a =>
      rw [ha] at h
      cases a with
      | load w ea =>
        obtain ⟨-, hflags, r, hrd, len, -, hstep⟩ := h
        rw [afterStep_eq hstep] at hrun ⊢
        cases hc : accessCheck v.layout ea w.bytes with
        | some c =>
          rw [loadTo_of_refused hc] at hrun
          cases hrun
        | none =>
          rw [loadTo_of_allowed ((accessCheck_eq_none_iff _ _ _).1 hc), hflags]
          refine ⟨fun q hq => ?_, fun hload => ?_, rfl⟩
          · rw [reg_retire, reg_setReg_eq]
            exact if_neg fun he => hq (by rw [hrd, he])
          · simp only [isLoad, ha] at hload
            cases hload
      | store w ea d =>
        obtain ⟨-, hflags, hrd, len, -, hstep⟩ := h
        rw [afterStep_eq hstep] at hrun ⊢
        cases hc : accessCheck v.layout ea w.bytes with
        | some c =>
          rw [storeFrom_of_refused hc] at hrun
          cases hrun
        | none =>
          rw [storeFrom_of_allowed ((accessCheck_eq_none_iff _ _ _).1 hc), hflags]
          refine ⟨fun q _ => by simp, fun _ r hr => (by rw [hrd] at hr; cases hr), by simp⟩

/-- A latch without an access passes MEM. -/
theorem memOut_of_no_access {m : ExLatch} (ha : m.access = none) (s : State) :
    memOut (some m) s = { state := s, out := some m, sbAge := none, portBusy := false } := by
  cases hf : m.fault with
  | some f => exact memOut_of_fault (by rw [hf]; rfl) s
  | none => simp only [memOut, hf, ha]

/-- A store that leaves MEM has been refused, or its entry pushed. -/
theorem memOut_store {s : State} (h : MemOk s) {m l : ExLatch} {w : Width} {ea d : Word} (hm : s.em = some m)
    (hf : m.fault = none) (ha : m.access = some (.store w ea d)) (hout : (memOut (some m) s).out = some l) :
    (∃ c, accessCheck s.layout ea w.bytes = some c ∧ l = faultLatch m .memoryFault (.memory c ea))
      ∨ (accessAllowed s.layout ea w.bytes ∧ l = m
        ∧ (memOut (some m) s).state = { s with sbSeq := s.sbSeq + 1, sb := s.sb ++ [pushedEntry s w ea d] }) := by
  have hcase := memOut_case m s
  generalize memOut (some m) s = o at hout hcase
  cases hcase with
  | pass hpass =>
    rcases hpass with hp | hp
    · rw [hf] at hp
      cases hp
    · rw [ha] at hp
      cases hp
  | wait _ _ hwait =>
    obtain ⟨m', w', ea', hm', -, ha', -⟩ := (waitOk_iff s).1 h.wait hwait
    obtain rfl := Option.some.inj (hm.symm.trans hm')
    rw [ha] at ha'
    cases ha'
  | refuse _ ha' _ hc =>
    rcases ha' with ha' | ⟨d', ha'⟩
    · rw [ha] at ha'
      cases ha'
    · obtain ⟨rfl, rfl, -⟩ := MemAccess.store.inj (Option.some.inj (ha.symm.trans ha'))
      exact .inl ⟨_, hc, (Option.some.inj hout).symm⟩
  | load _ ha' =>
    rw [ha] at ha'
    cases ha'
  | store _ ha' _ hallowed =>
    obtain ⟨rfl, rfl, rfl⟩ := MemAccess.store.inj (Option.some.inj (ha.symm.trans ha'))
    refine .inr ⟨hallowed, memStore_out hout, ?_⟩
    unfold memStore at hout ⊢
    split_ifs at hout ⊢
    · cases hout
    · rfl

/-- A pushed store is seen by a program (R70, R328). -/
theorem archByte_push (s : State) (w : Width) (ea d : Word) (a : Nat) :
    archByte { s with sbSeq := s.sbSeq + 1, sb := s.sb ++ [pushedEntry s w ea d] } a =
      if ea.toNat ≤ a ∧ a < ea.toNat + w.bytes then wordByte d (a - ea.toNat) else archByte s a := by
  rw [archByte_eq_below, archByte_eq_below, List.reverse_append, List.reverse_singleton, List.singleton_append, List.find?_cons]
  have hcovers := covers_iff (pushedEntry s w ea d) a
  by_cases ha : ea.toNat ≤ a ∧ a < ea.toNat + w.bytes
  · rw [hcovers.2 ha, if_pos ha]
    have hsize := w.bytes_le
    obtain ⟨k, hk⟩ : ∃ k, a - ea.toNat = k := ⟨_, rfl⟩
    have hkw : k < w.bytes := by omega
    show wordByte (BitVec.ofNat 64 (d.toNat % 256 ^ w.bytes)) (a - ea.toNat) = wordByte d (a - ea.toNat)
    have hfit : d.toNat % 256 ^ w.bytes < 2 ^ 64 := lt_of_le_of_lt (Nat.mod_le _ _) d.isLt
    rw [hk, wordByte, wordByte, BitVec.toNat_ofNat, Nat.mod_eq_of_lt hfit]
    apply BitVec.eq_of_toNat_eq
    rw [BitVec.toNat_ofNat, BitVec.toNat_ofNat, show w.bytes = k + (w.bytes - k) by omega, pow_add,
      Nat.mod_mul_right_div_self, Nat.mod_mod_of_dvd]
    exact dvd_pow_self 256 (by omega)
  · have hno : (pushedEntry s w ea d).covers a = false := Bool.eq_false_iff.2 fun h => ha (hcovers.1 h)
    rw [hno, if_neg ha]
    rfl

/-- What MEM hands to WB is what the architectural level does (R234, R336 (7)). -/
theorem mwCoupled_memOut {s v t : State} {l l' : ExLatch} {age : Option Nat} (h : MemOk s) (hem : s.em = some l)
    (hlayout : v.layout = s.layout) (hrun : v.status = .running) (hmem : ∀ a, archByte v a = archByte s a)
    (hcoupled : emCoupled l v) (hout : (memOut (some l) s).out = some l')
    (hseen : ∀ a, archByte t a = archByte (memOut (some l) s).state a) :
    mwCoupled { toExLatch := l', sbAge := age } v t ∧ l'.pc = l.pc := by
  have hspec := memOut_spec h hem
  cases hf : l.fault with
  | some f =>
    rw [memOut_of_fault (by rw [hf]; rfl)] at hout
    obtain rfl := Option.some.inj hout
    refine ⟨?_, rfl⟩
    unfold mwCoupled
    simp only [hf]
    exact (emCoupled_of_fault hf v).1 hcoupled
  | none =>
    unfold emCoupled at hcoupled
    rw [hf] at hcoupled
    cases ha : l.access with
    | none =>
      rw [ha] at hcoupled
      rw [memOut_of_no_access ha] at hout hseen
      obtain rfl := Option.some.inj hout
      refine ⟨?_, rfl⟩
      unfold mwCoupled
      simp only [hf]
      obtain ⟨hnext, herr, hwrites, hsame⟩ := hcoupled
      exact ⟨hnext, herr, hwrites, fun a => by rw [hsame, hmem, hseen]⟩
    | some access =>
      rw [ha] at hcoupled
      cases access with
      | load w ea =>
        obtain ⟨hnext, hflags, r, hrd, len, -, hstep⟩ := hcoupled
        obtain ⟨hallowed, hserves⟩ | ⟨c, hc, hfault⟩ := hspec.2 w ea hf ha
        · obtain rfl := hserves l' hout
          refine ⟨?_, rfl⟩
          rw [loadTo_of_allowed (hlayout ▸ hallowed)] at hstep
          have hafter := afterStep_eq hstep
          have hquiet : ∀ a, archByte (memOut (some l) s).state a = archByte s a := by
            cases hspec.1 with
            | quiet hmove => exact hmove.archByte
            | push hlatch _ haccess =>
              obtain rfl := Option.some.inj hlatch
              rw [ha] at haccess
              cases haccess
          unfold mwCoupled
          simp only [hf, hafter]
          refine ⟨hnext, errorFree_of_running (by exact hrun), ⟨fun q => ?_, ?_⟩, fun a => ?_⟩
          · rw [reg_retire, reg_setReg_eq]
            simp only [hrd, Option.some.injEq, Option.getD_some, memRead_congr hmem]
          · show v.flags = l.flags.getD v.flags
            rw [hflags]
            rfl
          · rw [hseen, hquiet, ← hmem]
            rfl
        · obtain rfl := Option.some.inj (hfault.symm.trans hout)
          rw [loadTo_of_refused (c := c) (by rw [hlayout]; exact hc)] at hstep
          exact ⟨hstep, rfl⟩
      | store w ea d =>
        obtain ⟨hnext, hflags, hrd, len, -, hstep⟩ := hcoupled
        obtain ⟨c, hc, rfl⟩ | ⟨hallowed, rfl, hstate⟩ := memOut_store h hem hf ha hout
        · rw [storeFrom_of_refused (c := c) (by rw [hlayout]; exact hc)] at hstep
          exact ⟨hstep, rfl⟩
        · refine ⟨?_, rfl⟩
          rw [storeFrom_of_allowed (hlayout ▸ hallowed)] at hstep
          have hafter := afterStep_eq hstep
          unfold mwCoupled
          simp only [hf, hafter]
          refine ⟨hnext, errorFree_of_running (by simpa using hrun), ⟨fun q => ?_, ?_⟩, fun a => ?_⟩
          · simp [hrd]
          · simp [hflags]
          · rw [hseen, hstate, archByte_push, archByte_retire, archByte_memWrite, hmem]

end Sys2Proof.Machine
end

section
/-! PROOF. Every tick keeps the two levels coupled (R4, R245, R336 (7), R363, R365). -/

namespace Sys2Proof.Machine

/-! ## Operands (R272 to R274) -/

/-- MW and the register file after WB give one value: that of the register file. -/
theorem resolveFromMw_after_wb {s s1 s' : State} (hwb : goesOn s s1) (hs' : s'.regs = s1.regs) (r : Reg) :
    ∃ s'', resolveFromMw s.mw r s' = .ok (s1.reg r, s'') := by
  have hfile : (∀ w, s.mw = some w → forwardsReg w.toExLatch r = false) →
      ∃ s'', resolveFromMw s.mw r s' = .ok (s1.reg r, s'') := fun hno =>
    ⟨s', by rw [resolveFromMw_of_not_mw hno, reg_of_regs hs']⟩
  obtain ⟨hmw, rfl⟩ | ⟨w, u, hmw, hf, -, hv, -, rfl⟩ := hwb
  · exact hfile fun w hw => by rw [hmw] at hw; cases hw
  · by_cases hrd : w.rd = some r
    · obtain ⟨v, hres⟩ := Option.isSome_iff_exists.1 (hv (by rw [hrd]; rfl))
      rw [hmw, resolveFromMw_of_mw ((forwardsReg_iff _ _).2 ⟨hf, hrd⟩) hres, reg_wbRetired hv, if_pos hrd, hres]
      exact ⟨_, rfl⟩
    · refine hfile fun w' hw' => ?_
      obtain rfl := Option.some.inj (hmw.symm.trans hw')
      exact forwardsReg_eq_false fun _ => hrd

/-- So do MW and the flags after WB. -/
theorem mwFlags_after_wb {s s1 : State} (hwb : goesOn s s1) :
    (s.mw.bind fun w => latchFlags w.toExLatch).getD s1.flags = s1.flags := by
  obtain ⟨hmw, rfl⟩ | ⟨w, u, hmw, hf, -, -, -, rfl⟩ := hwb
  · rw [hmw]
    rfl
  · rw [hmw, Option.bind_some, latchFlags, hf]
    show w.flags.getD (w.flags.getD s.flags) = w.flags.getD s.flags
    cases w.flags <;> rfl

/-- The flags EX resolves: of EM, else of MW, else of the state (R273). -/
theorem resolveFlags_eq (emo : Option ExLatch) (mwo : Option MemLatch) (s : State) : (resolveFlags emo mwo s).1 =
    (emo.bind latchFlags).getD ((mwo.bind fun w => latchFlags w.toExLatch).getD s.flags) := by
  unfold resolveFlags
  cases emo.bind latchFlags <;> cases mwo.bind (fun w => latchFlags w.toExLatch) <;> rfl

/-- The architectural state the instruction in DE meets: behind the one in EM, if there is one. -/
def behindEm (emo : Option ExLatch) (v : State) : State :=
  match emo with
  | none => v
  | some _ => afterStep v

/-- The latch in EM, if there is one, is what the architectural level does next. -/
def emAgrees (emo : Option ExLatch) (v : State) : Prop := ∀ l, emo = some l → emCoupled l v

/-- The operands EX resolves are those of the architectural state behind EM. -/
theorem readsAs_behindEm {s s1 sm v : State} {e : FetchEntry} {i : Instr} (hwb : goesOn s s1) (hregs : v.regs = s1.regs)
    (hflags : v.flags = s1.flags) (hsm : sm.regs = s1.regs ∧ sm.flags = s1.flags)
    (hlayout : sm.layout = (behindEm s.em v).layout) (hlegal : s.em.all emLegal = true) (hem : emAgrees s.em v)
    (hrun : (behindEm s.em v).status = .running) (he : e.uop = some (uopOf i (behindEm s.em v).pc))
    (huse : loadUse s.em e = false) : ReadsAs s.em s.mw i (behindEm s.em v) sm := by
  have hfile : ∀ r (s' : State), s'.regs = sm.regs → ∃ s'', resolveFromMw s.mw r s' = .ok (v.reg r, s'') := by
    intro r s' hs'
    rw [reg_of_regs hregs]
    exact resolveFromMw_after_wb hwb (hs'.trans hsm.1) r
  have hmwFlags : ∀ s' : State, s'.flags = sm.flags → (s.mw.bind fun w => latchFlags w.toExLatch).getD s'.flags = v.flags := by
    intro s' hs'
    rw [hs', hsm.2, mwFlags_after_wb hwb, hflags]
  cases hl : s.em with
  | none =>
    rw [hl] at hlayout
    refine ⟨fun r _ s' hs' => ?_, fun s' hs' _ => ?_, hlayout⟩
    · exact hfile r s' hs'
    · rw [resolveFlags_eq]
      exact hmwFlags s' hs'
  | some l =>
    rw [hl] at hlayout hrun he huse hlegal
    obtain ⟨hf, hother, hown, hfl⟩ := emCoupled_running (hem l hl) hrun
    refine ⟨fun r hr s' hs' => ?_, fun s' hs' _ => ?_, hlayout⟩
    · by_cases hrd : l.rd = some r
      · have hforward := (forwardsReg_iff l r).2 ⟨hf, hrd⟩
        have hpending : loadPending (some l) (some r) = false := by
          simp only [loadUse, he, Bool.or_eq_false_iff] at huse
          rcases hr with hr | hr
          · rw [← hr]
            exact huse.1
          · rw [← hr]
            exact huse.2
        obtain ⟨x, hx⟩ := Option.isSome_iff_exists.1 (em_forwards_value hlegal hpending hforward)
        have hload : isLoad l = false := by
          unfold isLoad
          unfold loadPending at hpending
          split
          · rename_i ha
            simp only [ha, hforward] at hpending
            cases hpending
          · rfl
        refine ⟨countForward s', (resolve_of_em hforward hx _ _).trans ?_⟩
        rw [show (behindEm (some l) v).reg r = l.result.getD 0 from hown hload r hrd, hx]
        rfl
      · rw [resolve_of_not_em fun l' hl' => by
          obtain rfl := Option.some.inj hl'
          exact forwardsReg_eq_false fun _ => hrd]
        rw [show (behindEm (some l) v).reg r = v.reg r from hother r hrd]
        exact hfile r s' hs'
    · rw [resolveFlags_eq, hmwFlags s' hs', Option.bind_some, latchFlags, hf]
      exact hfl.symm

/-! ## The EX step -/

/-- What EX makes of the instruction at the pc of a running architectural state is coupled to it (R249). -/
theorem emCoupled_of_agrees {i : Instr} {x : State} {p : Option Word} {o : ExecOut} (hrun : x.status = .running)
    (hd : decodeAt x x.pc = .ok i) (h : AgreesWithExec i x p o) : emCoupled o.latch x := by
  obtain ⟨huop, -, hfault, hplain, hload, hstore⟩ := h
  have hstep := step_of_decode hrun hd
  have hlen : o.latch.uop.map (fun u => u.len) = some i.length := by rw [huop, Option.map_some, uopOf_len]
  cases hf : o.latch.fault with
  | some f => exact (emCoupled_of_fault hf x).2 (hstep.trans (hfault f hf))
  | none =>
    unfold emCoupled
    rw [hf]
    cases ha : o.latch.access with
    | none =>
      obtain ⟨t, hexec, hmem, herr, hregs, hflags, -⟩ := hplain hf ha
      have hafter := afterStep_eq (hstep.trans hexec)
      simp only [hafter]
      exact ⟨⟨i, hd, huop⟩, herr (errorFree_of_running hrun), ⟨hregs, hflags⟩, hmem.1⟩
    | some a =>
      cases a with
      | load w ea =>
        obtain ⟨-, r, hrd, hflags, hexec⟩ := hload w ea ha
        exact ⟨⟨i, hd, huop⟩, hflags, r, hrd, _, hlen, hstep.trans hexec⟩
      | store w ea d =>
        obtain ⟨-, hrd, hflags, hexec⟩ := hstore w ea d ha
        exact ⟨⟨i, hd, huop⟩, hflags, hrd, _, hlen, hstep.trans hexec⟩

/-- Where the architectural level goes on after the instruction EX has made: to the redirect of a flush, else to the
prediction of Fetch, which for all but transfers is the next instruction. -/
theorem pc_afterStep_of_agrees {i : Instr} {x : State} {e : FetchEntry} {n : Word} {o : ExecOut} (hrun : x.status = .running)
    (hd : decodeAt x x.pc = .ok i) (h : AgreesWithExec i x e.predNext o) (hsound : o.Sound e) (hn : e.predNext = some n)
    (hseq : (∀ y target, ¬ takenTo i y target) → n = x.pc + BitVec.ofNat 64 i.length)
    (herr : errorFree (afterStep x) = true) :
    (o.flush = true → o.haltFetch = false ∧ o.redirect = some (afterStep x).pc)
      ∧ (o.flush = false → n = (afterStep x).pc) := by
  obtain ⟨huop, -, hfault, hplain, hload, hstore⟩ := h
  have hstep := step_of_decode hrun hd
  obtain ⟨-, -, ⟨hf, hhalt, hflush, -, haccess⟩ | ⟨hf, -⟩⟩ := hsound
  · cases ha : o.latch.access with
    | none =>
      obtain ⟨t, hexec, -, -, -, -, hredirect, hnext⟩ := hplain hf ha
      rw [afterStep_eq (hstep.trans hexec)]
      refine ⟨fun hfl => ?_, fun hfl => ?_⟩
      · obtain ⟨m, hm⟩ := Option.isSome_iff_exists.1 (hflush.1 hfl)
        exact ⟨hhalt, by rw [hm, hredirect m hm]⟩
      · have hnone : o.redirect = none := by
          cases hr : o.redirect with
          | none => rfl
          | some m =>
            rw [hr] at hflush
            rw [hflush.2 rfl] at hfl
            cases hfl
        rcases hnext hnone with hp | ⟨hno, hp⟩
        · exact Option.some.inj (hn.symm.trans hp)
        · rw [hp, hseq hno]
    | some a =>
      have hfl : o.flush = false := haccess (by rw [ha]; rfl)
      refine ⟨fun h => (by rw [hfl] at h; cases h), fun _ => ?_⟩
      cases a with
      | load w ea =>
        obtain ⟨hno, r, -, -, hexec⟩ := hload w ea ha
        rw [afterStep_eq (hstep.trans hexec)] at herr ⊢
        rw [hseq hno]
        cases hc : accessCheck x.layout ea w.bytes with
        | some c =>
          rw [loadTo_of_refused hc] at herr
          cases herr
        | none =>
          rw [loadTo_of_allowed ((accessCheck_eq_none_iff _ _ _).1 hc)]
          rfl
      | store w ea d =>
        obtain ⟨hno, -, -, hexec⟩ := hstore w ea d ha
        rw [afterStep_eq (hstep.trans hexec)] at herr ⊢
        rw [hseq hno]
        cases hc : accessCheck x.layout ea w.bytes with
        | some c =>
          rw [storeFrom_of_refused hc] at herr
          cases herr
        | none =>
          rw [storeFrom_of_allowed ((accessCheck_eq_none_iff _ _ _).1 hc)]
          rfl
  · obtain ⟨f, hf⟩ := Option.isSome_iff_exists.1 hf
    rw [afterStep_eq (hstep.trans (hfault f hf))] at herr
    cases herr

/-! ## ID and IF (R237, R238) -/

theorem decodeAt_of_frame {s t : State} (hlayout : t.layout = s.layout) (hmem : t.mem = s.mem) (a : Word) :
    decodeAt t a = decodeAt s a := decodeAt_congr hlayout (fun _ _ _ => by rw [hmem]) a

/-- A fetch extends the path. -/
theorem pathFrom_fetchOne {s : State} {p : Word} {es : List FetchEntry} (hh : s.fetchHalted = false) (h : pathFrom s p es) :
    ∃ e, (fetchOne s).fb = s.fb ++ [e] ∧ (fetchOne s).de = s.de ∧ pathFrom (fetchOne s) p (es ++ [e]) := by
  obtain ⟨c, hd, heq⟩ | ⟨i, hd, heq⟩ := fetchOne_cases s
  · rw [heq]
    refine ⟨_, rfl, rfl, pathFrom_append (s := s) (decodeAt_of_frame rfl rfl) hh h ⟨rfl, ?_⟩⟩
    exact ⟨⟨c, (decodeAt_of_frame (s := s) rfl rfl _).trans hd, rfl⟩, rfl, rfl⟩
  · obtain ⟨hframe, -, hde, hhalted⟩ := sameOutsideFetch_predict (uopOf i s.pcFetch) s
    simp only [sameOutsideFetch] at hframe
    have hdecode : ∀ a, decodeAt (fetchOne s) a = decodeAt s a := by
      rw [heq]
      exact decodeAt_of_frame (by simp only [hframe]) (by simp only [hframe])
    have hnext : (fetchOne s).pcFetch = (predict (uopOf i s.pcFetch) s).1 := by rw [heq]
    have hhalted' : (fetchOne s).fetchHalted = false := by
      rw [heq]
      exact hhalted.trans hh
    refine ⟨_, by rw [heq], by rw [heq]; exact hde, pathFrom_append hdecode hh h ⟨rfl, ?_⟩⟩
    refine ⟨i, _, (hdecode _).trans hd, rfl, rfl, fun hno => ?_, hhalted', hnext⟩
    have hclass : (workOf i).isTransfer = false := by
      cases htransfer : (workOf i).isTransfer with
      | false => rfl
      | true =>
        obtain ⟨x, target, htaken⟩ := exists_takenTo htransfer
        exact absurd htaken (hno x target)
    rw [predict_of_not_transfer hclass]

/-- IF keeps or extends the path, without a flush. -/
theorem pathFrom_ifStep {s : State} {sig : ExSignals} (hflush : sig.flush = false) {p : Word}
    (h : pathFrom s p (s.de.toList ++ s.fb)) : pathFrom (ifStep sig s) p ((ifStep sig s).de.toList ++ (ifStep sig s).fb) := by
  obtain ⟨hfl, -⟩ | ⟨hfl, -⟩ | ⟨-, heq⟩ | ⟨-, hh, heq⟩ := ifStep_cases sig s
  · rw [hflush] at hfl
    cases hfl
  · rw [hflush] at hfl
    cases hfl
  · rw [heq]
    exact h
  · obtain ⟨e, hfb, hde, hpath⟩ := pathFrom_fetchOne hh h
    rw [heq, hfb, hde, ← List.append_assoc]
    exact hpath

/-- What DE and FB hold once DE has been consumed or not. -/
def waitingEntries (sig : ExSignals) (s : State) : List FetchEntry :=
  if sig.deConsumed then s.fb else s.de.toList ++ s.fb

/-- ID keeps the path, without a flush. -/
theorem pathFrom_idStep {s : State} {sig : ExSignals} (hflush : sig.flush = false) {p : Word}
    (h : pathFrom s p (waitingEntries sig s)) :
    pathFrom (idStep sig s) p ((idStep sig s).de.toList ++ (idStep sig s).fb) := by
  unfold waitingEntries at h
  obtain ⟨hfl, -⟩ | ⟨-, hc, heq⟩ | ⟨-, hc, heq⟩ := idStep_cases sig s
  · rw [hflush] at hfl
    cases hfl
  · rw [hc, if_pos rfl] at h
    have hlist : s.fb.head?.toList ++ s.fb.drop 1 = s.fb := by cases s.fb <;> rfl
    rw [heq]
    show pathFrom _ p (s.fb.head?.toList ++ s.fb.drop 1)
    rw [hlist]
    exact pathFrom_congr (s := s) (t := { s with de := s.fb.head?, fb := s.fb.drop 1 }) (decodeAt_of_frame rfl rfl) rfl rfl h
  · rw [hc, if_neg Bool.false_ne_true] at h
    rw [heq]
    exact h

/-- ID and IF keep or extend the path, without a flush. -/
theorem frontCoupled_of_no_flush {s2 x : State} {sig : ExSignals} (hflush : sig.flush = false)
    (h : errorFree x = true → pathFrom s2 x.pc (waitingEntries sig s2)) : frontCoupled (ifStep sig (idStep sig s2)) x :=
  fun herr => pathFrom_ifStep hflush (pathFrom_idStep hflush (h herr))

/-- A flush that redirects fetch starts a path there. -/
theorem frontCoupled_of_redirect {s2 x : State} {sig : ExSignals} (hflush : sig.flush = true)
    (h : errorFree x = true → sig.haltFetch = false ∧ sig.redirect = some x.pc) :
    frontCoupled (ifStep sig (idStep sig s2)) x := by
  intro herr
  obtain ⟨hhalt, hredirect⟩ := h herr
  rw [idStep_of_flush hflush, ifStep_of_redirect hflush hhalt hredirect]
  exact ⟨rfl, rfl⟩

/-! ## EX, ID and IF together -/

/-- Behind the architectural state `x`, the instruction in DE becomes that of EM, coupled, and the path goes on. -/
theorem restCoupled_rest {s sm s2 x : State} {sig : ExSignals}
    (hex : exStep false s.em s.mw sm.de sm = .ok (s2, sig)) (hfront : frontCoupled sm x)
    (hdecode : ∀ a, decodeAt x a = decodeAt sm a)
    (hreads : ∀ e i, e.uop = some (uopOf i x.pc) → loadUse s.em e = false → x.status = .running →
      ReadsAs s.em s.mw i x sm) :
    restCoupled (ifStep sig (idStep sig s2)) x := by
  have hframe := sameOutsideEx_exStep hex
  simp only [sameOutsideEx] at hframe
  have hpath : ∀ {p es}, pathFrom sm p es → pathFrom s2 p es := fun {p es} =>
    pathFrom_congr (decodeAt_of_frame (by simp only [hframe]) (by simp only [hframe])) (by simp only [hframe])
      (by simp only [hframe])
  have hlists : s2.fb = sm.fb ∧ s2.de = sm.de := by simp only [hframe, and_self]
  have hem : (ifStep sig (idStep sig s2)).em = s2.em := by
    have h1 := sameOutsideFetch_ifStep sig (idStep sig s2)
    have h2 := sameOutsideFetch_idStep sig s2
    simp only [sameOutsideFetch] at h1 h2
    simp only [h1, h2]
  have hpc : errorFree x = true → ∀ e, sm.de = some e → e.pc = x.pc := by
    intro herr e he
    have := hfront herr
    rw [he] at this
    exact this.1
  unfold restCoupled
  rw [hem]
  obtain ⟨hst, -⟩ | ⟨-, hde, rfl, rfl⟩ | ⟨-, e, hde, hf, rfl, rfl⟩ | ⟨-, e, hde, hf, -, rfl, rfl⟩ | ⟨-, e, o, hde, hf, huse, ho, rfl, rfl⟩ :=
    exStep_cases hex
  · cases hst
  · refine frontCoupled_of_no_flush rfl fun herr => hpath ?_
    have := hfront herr
    rw [hde] at this
    exact this
  · obtain ⟨f, hf⟩ := Option.isSome_iff_exists.1 hf
    refine ⟨fun herr => hpc herr e hde, fun hrun => ?_⟩
    have hentry := hfront (errorFree_of_running hrun)
    rw [hde] at hentry
    obtain ⟨-, hpoison⟩ := hentry
    rw [hf] at hpoison
    obtain ⟨⟨c, hc, rfl⟩, -⟩ := hpoison
    have hstep := step_of_decodeError hrun ((hdecode _).trans hc)
    refine ⟨(emCoupled_of_fault (l := carryFault e) hf x).2 hstep, fun herr => ?_⟩
    rw [afterStep_eq hstep] at herr
    cases herr
  · refine frontCoupled_of_no_flush rfl fun herr => hpath ?_
    exact hfront herr
  · obtain ⟨hsoundUop, hsoundPc, -⟩ := execute_sound ho
    refine ⟨fun herr => hsoundPc.trans (hpc herr e hde), fun hrun => ?_⟩
    have hentry := hfront (errorFree_of_running hrun)
    rw [hde] at hentry
    obtain ⟨hepc, hnext⟩ := hentry
    rw [hf] at hnext
    obtain ⟨i, n, hi, hu, hn, hseq, hrest⟩ := hnext
    obtain ⟨o', ho', hagrees⟩ := execute_agrees (hreads e i hu huse hrun) hu hepc
    obtain rfl := Except.ok.inj (ho.symm.trans ho')
    have hd := (hdecode _).trans hi
    refine ⟨emCoupled_of_agrees hrun hd hagrees, ?_⟩
    have hgo := pc_afterStep_of_agrees hrun hd hagrees (execute_sound ho) hn hseq
    by_cases hflush : o.flush = true
    · exact frontCoupled_of_redirect hflush fun herr => (hgo herr).1 hflush
    · rw [Bool.not_eq_true] at hflush
      refine frontCoupled_of_no_flush hflush fun herr => hpath ?_
      rw [← (hgo herr).2 hflush]
      show pathFrom sm n o.state.fb
      rw [show o.state.fb = sm.fb from hlists.1]
      exact hrest

end Sys2Proof.Machine
end

section
/-! PROOF. The coupling over a whole tick (R4, R245), and over every run from boot (R312, R365). -/

namespace Sys2Proof.Machine

/-! ## WB of a coupled pair -/

/-- A tick that is counted has changed nothing the coupling speaks of. -/
theorem agrees_countCycle {s u : State} (h : Agrees s u) : Agrees (countCycle s) u :=
  ⟨h.cfg, h.layout, h.regs, h.flags, h.pc, h.status, h.committed,
    fun a => (h.decode a).trans (decodeAt_of_frame (s := s) (t := countCycle s) rfl rfl a).symm⟩

theorem restCoupled_countCycle {s u : State} (h : restCoupled s u) : restCoupled (countCycle s) u :=
  restCoupled_congr (s := s) (decodeAt_of_frame rfl rfl) rfl rfl rfl rfl rfl h

/-- What the retirement of the instruction in MW leaves of a coupled pair, whether or not it stops the engine. -/
theorem retirement_of_coupled {s u : State} {w : MemLatch} {x : Uop} (h : coupled s u) (hrun : s.status = .running)
    (hmw : s.mw = some w) (hf : w.fault = none) (hx : w.uop = some x) (hv : hasValue w.toExLatch) :
    ∃ i, x = uopOf i u.pc ∧ w.pc = u.pc ∧ exec i u = .next (afterStep u) ∧ errorFree (afterStep u) = true
      ∧ Agrees { wbRetired w (countCycle s) with status := (afterStep u).status } (afterStep u)
      ∧ (∀ a, archByte (afterStep u) a = archByte (wbRetired w (countCycle s)) a) ∧ restCoupled s (afterStep u) := by
  obtain ⟨-, -, hwf, hagrees, -, hlatches⟩ := (coupled_iff s u).1 h
  have hlatch := hlatches hrun
  unfold latchesCoupled at hlatch
  rw [hmw] at hlatch
  obtain ⟨hpc, hmwCoupled, hrest⟩ := hlatch
  obtain ⟨i, hi⟩ : ∃ i, w.uop = some (uopOf i u.pc) := by
    have hnext := hmwCoupled
    unfold mwCoupled at hnext
    rw [hf] at hnext
    obtain ⟨⟨i, -, hi⟩, -⟩ := hnext
    exact ⟨i, hi⟩
  obtain ⟨hafter, hmem, hexec, herr⟩ := agrees_wbRetired (s := countCycle s) (agrees_countCycle hagrees) hwf hrun hf hv
    hmwCoupled hi (restCoupled_countCycle hrest)
  exact ⟨i, Option.some.inj (hx.symm.trans hi), hpc, hexec, herr, hafter, hmem, hrest⟩

theorem stepsOfTick_of_bubble {s : State} (h : s.mw = none) : stepsOfTick s = 0 :=
  if_neg fun hs => by rw [h] at hs; exact Bool.noConfusion hs.2

theorem stepsOfTick_of_latch {s : State} {w : MemLatch} (hrun : s.status = .running) (h : s.mw = some w) :
    stepsOfTick s = 1 := if_pos ⟨hrun, by rw [h]; rfl⟩

/-- After WB, where the tick goes on, the architectural level has run the instruction that retired, if there was one. -/
theorem wb_of_coupled {s s1 u : State} (h : coupled s u) (hrun : s.status = .running) (hwb : goesOn s s1) :
    ∃ v, runSteps (stepsOfTick s) u = .next v ∧ Agrees s1 v ∧ v.status = .running ∧ (∀ a, archByte v a = archByte s1 a)
      ∧ restCoupled s1 v := by
  obtain ⟨hinv, -, -, hagrees, hmem, hlatches⟩ := (coupled_iff s u).1 h
  obtain ⟨hmw, rfl⟩ | ⟨w, x, hmw, hf, hx, hv, hr, rfl⟩ := hwb
  · have hlatch := hlatches hrun
    unfold latchesCoupled at hlatch
    rw [hmw] at hlatch
    refine ⟨u, by rw [stepsOfTick_of_bubble hmw]; rfl, agrees_countCycle hagrees, hagrees.status.trans hrun, fun a => ?_,
      restCoupled_countCycle hlatch⟩
    rw [hmem, dropUnretired_of_allRetired (allRetired_of_bubble hinv hmw)]
    rfl
  · obtain ⟨i, rfl, -, hexec, herr, hafter, hseen, hrest⟩ := retirement_of_coupled h hrun hmw hf hx hv
    rw [uopOf_instr] at hr
    have hstatus : (afterStep u).status = s.status := ((retired_of_errorFree hexec herr).2 hr).trans hagrees.status
    rw [hstatus] at hafter
    exact ⟨afterStep u, by rw [stepsOfTick_of_latch hrun hmw]; exact runSteps_one (step_eq_afterStep u), hafter,
      hstatus.trans hrun, hseen, restCoupled_congr (s := s) (decodeAt_of_frame rfl rfl) rfl rfl rfl rfl rfl hrest⟩

/-! ## The steps after WB -/

/-- Code stays as it is over MEM, and so does what the decoder answers (R62). -/
theorem decodeAt_memStep {s1 t : State} {o : MemOut} {stalled : Bool} (h : MemStepOk s1 o t stalled)
    (hlayout : t.layout = s1.layout) (hwf : s1.layout.wf s1.cfg = true) (a : Word) : decodeAt t a = decodeAt s1 a :=
  decodeAt_congr hlayout (fun x hbase hend => h.outside x (not_data_of_code hwf hbase hend)) a

/-- A stalled tick leaves EM and the path behind it, or extends the path. -/
theorem restCoupled_of_stall {sm s2 v : State} {emo : Option ExLatch} {mwo : Option MemLatch} {sig : ExSignals} {l : ExLatch}
    (hex : exStep true emo mwo sm.de sm = .ok (s2, sig)) (hl : sm.em = some l) (h : restCoupled sm v) :
    restCoupled (ifStep sig (idStep sig s2)) v := by
  obtain ⟨-, rfl, rfl⟩ | ⟨hst, -⟩ | ⟨hst, -⟩ | ⟨hst, -⟩ | ⟨hst, -⟩ := exStep_cases hex
  case inl =>
    unfold restCoupled at h ⊢
    obtain ⟨-, -, hem, -⟩ := memory_after_ex hex
    rw [hem, hl]
    rw [hl] at h
    exact ⟨h.1, fun hrun => ⟨(h.2 hrun).1, frontCoupled_of_no_flush rfl (h.2 hrun).2⟩⟩
  all_goals cases hst

/-- Stepping over EM stays in the same layout and code. -/
theorem frame_behindEm {s1 v : State} (hwf : s1.layout.wf s1.cfg = true) (hagrees : Agrees s1 v) (emo : Option ExLatch) :
    (behindEm emo v).layout = s1.layout ∧ ∀ a, decodeAt (behindEm emo v) a = decodeAt s1 a := by
  obtain ⟨-, hlayout, hdecode⟩ := frame_afterStep (u := v) (by rw [hagrees.layout, hagrees.cfg]; exact hwf)
  cases emo with
  | none => exact ⟨hagrees.layout, hagrees.decode⟩
  | some l => exact ⟨hlayout.trans hagrees.layout, fun a => (hdecode a).trans (hagrees.decode a)⟩

section
variable {s s1 s2 v : State} {sig : ExSignals}

/-- MEM leaves the latches behind MW and the code, so their coupling. -/
theorem memStep_frame (hinv : microInv s = true) (hwb : goesOn s s1) (hwf : s1.layout.wf s1.cfg = true) :
    sameOutsideMemory s1 (memStep s.em s1).1 ∧ (memStep s.em s1).1.de = s.de ∧ (memStep s.em s1).1.em = s.em
      ∧ (∀ a, decodeAt (memStep s.em s1).1 a = decodeAt s1 a)
      ∧ ∀ x, restCoupled s1 x → restCoupled (memStep s.em s1).1 x := by
  obtain ⟨hok, hret⟩ := memOk_of_goesOn hinv hwb
  obtain ⟨-, hde1, hem1, -⟩ := latches_after_wb hwb
  have hstep := memStep_spec hok hret
  rw [hem1] at hstep
  have hsame := sameOutsideMemory_memStep s.em s1
  have hframe := hsame
  simp only [sameOutsideMemory] at hframe
  have hdecode := decodeAt_memStep hstep (by simp only [hframe]) hwf
  refine ⟨hsame, by simp only [hframe, hde1], by simp only [hframe, hem1], hdecode, fun x hx => ?_⟩
  exact restCoupled_congr hdecode (by simp only [hframe]) (by simp only [hframe]) (by simp only [hframe])
    (by simp only [hframe]) (by simp only [hframe]) hx

/-- Where MEM does not stall, the instruction in DE moves on behind the one that was in EM. -/
theorem restCoupled_behindEm (hinv : microInv s = true) (hlegal : pipelineLegal s = true) (hwb : goesOn s s1)
    (hwf : s1.layout.wf s1.cfg = true) (hagrees : Agrees s1 v)
    (hex : exStep (memStep s.em s1).2 s.em s.mw s.de (memStep s.em s1).1 = .ok (s2, sig))
    (hst : (memStep s.em s1).2 = false) (hagree : emAgrees s.em v)
    (hfront : frontCoupled (memStep s.em s1).1 (behindEm s.em v)) :
    restCoupled (ifStep sig (idStep sig s2)) (behindEm s.em v) := by
  obtain ⟨hframe, hde, -, hdecode, -⟩ := memStep_frame hinv hwb hwf
  simp only [sameOutsideMemory] at hframe
  obtain ⟨-, -, hemLegal, -⟩ := (pipelineLegal_iff s).1 hlegal
  obtain ⟨hlayout, hbehind⟩ := frame_behindEm hwf hagrees s.em
  rw [hst, ← hde] at hex
  refine restCoupled_rest hex hfront (fun a => (hbehind a).trans (hdecode a).symm) fun e i he huse hx => ?_
  exact readsAs_behindEm hwb hagrees.regs hagrees.flags ⟨by simp only [hframe], by simp only [hframe]⟩
    (by rw [hlayout]; simp only [hframe]) hemLegal hagree hx he huse

/-- The latches after a tick that went on from coupled ones. -/
theorem latchesCoupled_rest (hinv : microInv s = true) (hlegal : pipelineLegal s = true) (hwb : goesOn s s1)
    (hwf : s1.layout.wf s1.cfg = true) (hagrees : Agrees s1 v) (hrun : v.status = .running)
    (hmem : ∀ a, archByte v a = archByte s1 a) (hrest : restCoupled s1 v)
    (hex : exStep (memStep s.em s1).2 s.em s.mw s.de (memStep s.em s1).1 = .ok (s2, sig)) :
    latchesCoupled (ifStep sig (idStep sig s2)) v := by
  obtain ⟨-, -, hem1, -⟩ := latches_after_wb hwb
  have hok := (memOk_of_goesOn hinv hwb).1
  have hseen := (memory_of_tick hinv hwb hex).seen
  obtain ⟨-, hde, hem, -, hkeep⟩ := memStep_frame hinv hwb hwf
  have hrestM := hkeep v hrest
  have hlatch := hrestM
  obtain ⟨-, ⟨-, hmw, -⟩, -⟩ := memory_after_ex hex
  have hgoOn := restCoupled_behindEm hinv hlegal hwb hwf hagrees hex
  have hstalled : (memStep s.em s1).2 = memStalls s.em (memOut s.em s1) := rfl
  unfold restCoupled at hlatch
  unfold latchesCoupled
  rw [hmw, mw_memStep]
  cases hl : s.em with
  | none =>
    rw [hem, hl] at hlatch
    rw [hl] at hgoOn hstalled
    exact hgoOn hstalled (fun l hl => by cases hl) hlatch
  | some l =>
    rw [hem, hl] at hlatch
    obtain ⟨hpc, hnext⟩ := hlatch
    obtain ⟨hcoupled, hfront⟩ := hnext hrun
    have hagree : emAgrees (some l) v := fun l' hl' => Option.some.inj hl' ▸ hcoupled
    cases hout : (memOut (some l) s1).out with
    | none =>
      have hst : (memStep s.em s1).2 = true := by rw [hstalled, hl, memStalls, hout]; rfl
      rw [hst, ← hde] at hex
      exact restCoupled_of_stall hex (hem.trans hl) hrestM
    | some l' =>
      have hst : (memStep s.em s1).2 = false := by rw [hstalled, hl, memStalls, hout]; rfl
      rw [hl] at hgoOn hst hseen
      obtain ⟨hmwc, hpc'⟩ := mwCoupled_memOut (age := (memOut (some l) s1).sbAge) hok (hem1.trans hl) hagrees.layout hrun hmem
        hcoupled hout hseen
      exact ⟨hpc'.trans (hpc (errorFree_of_running hrun)), hmwc, hgoOn hst hagree hfront⟩

end

/-! ## The tick -/

/-- Settles O58: WB retires what the architectural level runs, and the steps after it keep the latches coupled. -/
theorem tickKeepsCoupling : Obligations.TickKeepsCoupling := by
  intro s u t h htick
  have hinv' := fun hinv => tickKeepsMicroInv s t hinv htick
  obtain ⟨hinv, hlegal, hwf, hagrees, hmem, hlatches⟩ := (coupled_iff s u).1 h
  by_cases hrun : s.status = .running
  · obtain ⟨w, f, hmw, hf, rfl⟩ | ⟨w, x, r, hmw, hf, hx, hv, hr, rfl⟩ | ⟨s1, s2, sig, hwb, hex, rfl⟩ := tick_ok_cases hrun htick
    · have hlatch := hlatches hrun
      unfold latchesCoupled at hlatch
      rw [hmw] at hlatch
      obtain ⟨hpc, hmwc, -⟩ := hlatch
      unfold mwCoupled at hmwc
      rw [hf] at hmwc
      refine ⟨stoppedWith f.kind f.message u, by rw [stepsOfTick_of_latch hrun hmw]; exact runSteps_one hmwc, (coupled_iff _ _).2
        ⟨hinv' hinv, hlegal, hwf, ⟨hagrees.cfg, hagrees.layout, hagrees.regs, hagrees.flags, hagrees.pc, ?_,
          hagrees.committed, hagrees.decode⟩, hmem, fun hs => by cases hs⟩⟩
      show Status.error f.kind u.pc f.message = .error f.kind w.pc f.message
      rw [hpc]
    · obtain ⟨i, rfl, hpc, hexec, herr, hafter, hseen, -⟩ := retirement_of_coupled h hrun hmw hf hx hv
      rw [uopOf_instr] at hr
      have hstop := next_inj (hexec.symm.trans (exec_of_stopReason hr u))
      have hret := (memOk_wbRetired hinv hmw).2
      refine ⟨_, by rw [stepsOfTick_of_latch hrun hmw]; exact runSteps_one (step_eq_afterStep u), (coupled_iff _ _).2
        ⟨hinv' hinv, hlegal, hwf, ⟨hafter.cfg, hafter.layout, hafter.regs, hafter.flags, hafter.pc, ?_, hafter.committed,
          hafter.decode⟩, fun a => ?_, fun hs => by cases hs⟩⟩
      · have hexit : (afterStep u).reg exitReg = (wbRetired w (countCycle s)).reg exitReg := reg_of_regs hafter.regs exitReg
        show _ = Status.halted r ((wbRetired w (countCycle s)).reg exitReg) w.pc
        rw [← hexit, hpc, hstop]
        rfl
      · rw [hseen, dropUnretired_of_allRetired (s := wbStopped w r (countCycle s)) hret]
        rfl
    · obtain ⟨v, hv, hagreesV, hrunV, hmemV, hrest⟩ := wb_of_coupled h hrun hwb
      have hsame := sameArch_rest hex
      have hwf1 : s1.layout.wf s1.cfg = true := by
        obtain ⟨-, rfl⟩ | ⟨w, x, -, -, -, -, -, rfl⟩ := hwb <;> exact hwf
      have hstep := memory_of_tick hinv hwb hex
      refine ⟨v, hv, (coupled_iff _ _).2 ⟨hinv' hinv, pipelineLegal_tick hlegal htick, ?_,
        hagreesV.of_sameArch hsame (decodeAt_memStep hstep hsame.2.1 hwf1), fun a => ?_, fun _ => ?_⟩⟩
      · rw [hsame.1, hsame.2.1]
        exact hwf1
      · rw [hstep.retired, hmemV]
      · exact latchesCoupled_rest hinv hlegal hwb hwf1 hagreesV hrunV hmemV hrest hex
  · obtain rfl := next_inj ((tick_of_stopped hrun).symm.trans htick)
    exact ⟨u, by rw [show stepsOfTick s = 0 from if_neg fun hs => hrun hs.1]; rfl, h⟩

end Sys2Proof.Machine
end

section
/-! PROOF. Every run from boot: the pipeline agrees with the architectural level (R245, R365), whatever the predictor holds
(R312). -/

namespace Sys2Proof.Machine

/-! ## Runs of the architectural level -/

/-- A run goes on from where its first part has ended. -/
theorem runSteps_add {a : Nat} {u v : State} (h : runSteps a u = .next v) (b : Nat) : runSteps (a + b) u = runSteps b v := by
  induction a generalizing u with
  | zero =>
    obtain rfl := next_inj h
    rw [Nat.zero_add]
  | succ a ih =>
    rw [show a + 1 + b = a + b + 1 by omega]
    rw [runSteps, step_eq_afterStep] at h ⊢
    exact ih h

theorem runSteps_of_stopped {u : State} (h : u.status ≠ .running) (k : Nat) : runSteps k u = .next u := by
  induction k with
  | zero => rfl
  | succ k ih =>
    rw [runSteps, step_of_stopped h]
    exact ih

/-- Two runs of one state that have both stopped have stopped in the same state. -/
theorem runSteps_stopped_unique {u v w : State} {a b : Nat} (ha : runSteps a u = .next v) (hb : runSteps b u = .next w)
    (hv : v.status ≠ .running) (hw : w.status ≠ .running) : v = w := by
  rcases Nat.le_total a b with hle | hle
  · obtain ⟨d, rfl⟩ := Nat.exists_eq_add_of_le hle
    rw [runSteps_add ha, runSteps_of_stopped hv] at hb
    exact next_inj hb
  · obtain ⟨d, rfl⟩ := Nat.exists_eq_add_of_le hle
    rw [runSteps_add hb, runSteps_of_stopped hw] at ha
    exact (next_inj ha).symm

/-! ## What ticks count -/

/-- The architectural instructions a pipeline state stands for: those retired, and the one that has raised an error. -/
def stepCount (s : State) : Nat := s.metrics.instructionsCommitted + if errorFree s then 0 else 1

theorem stepCount_of_errorFree {s : State} (h : errorFree s = true) : stepCount s = s.metrics.instructionsCommitted := by
  rw [stepCount, h]
  rfl

theorem stepCount_tick {s t : State} (h : tick s = .next t) : stepCount t = stepCount s + stepsOfTick s := by
  by_cases hrun : s.status = .running
  · rw [stepCount_of_errorFree (errorFree_of_running hrun)]
    obtain ⟨w, f, hmw, -, rfl⟩ | ⟨w, x, r, hmw, -, -, -, -, rfl⟩ | ⟨s1, s2, sig, hwb, hex, rfl⟩ := tick_ok_cases hrun h
    · rw [stepsOfTick_of_latch hrun hmw]
      rfl
    · rw [stepsOfTick_of_latch hrun hmw]
      rfl
    · obtain ⟨-, -, -, -, -, hstatus, hcommitted, -⟩ := sameArch_rest hex
      have hrun1 : s1.status = .running := by
        obtain ⟨-, rfl⟩ | ⟨w, x, -, -, -, -, -, rfl⟩ := hwb <;> exact hrun
      rw [stepCount_of_errorFree (errorFree_of_running (hstatus.trans hrun1)), hcommitted]
      obtain ⟨hmw, rfl⟩ | ⟨w, x, hmw, -, -, -, -, rfl⟩ := hwb
      · rw [stepsOfTick_of_bubble hmw]
        rfl
      · rw [stepsOfTick_of_latch hrun hmw]
        rfl
  · obtain rfl := next_inj ((tick_of_stopped hrun).symm.trans h)
    rw [show stepsOfTick s = 0 from if_neg fun hs => hrun hs.1, Nat.add_zero]

/-! ## A stopped engine has no unretired store -/

/-- A stopped engine has no entry that has not retired: the stop was that of the instruction in MW. -/
def stoppedRetired (s : State) : Prop := s.status ≠ .running → allRetired s

theorem stoppedRetired_tick {s t : State} (hinv : microInv s = true) (hs : stoppedRetired s) (h : tick s = .next t) :
    stoppedRetired t := by
  by_cases hrun : s.status = .running
  · obtain ⟨w, f, hmw, hf, rfl⟩ | ⟨w, x, r, hmw, -, -, -, -, rfl⟩ | ⟨s1, s2, sig, hwb, hex, rfl⟩ := tick_ok_cases hrun h
    · intro _ e he
      have howned := ((microInv_iff s).1 hinv).2.2 e he
      rw [sbOwned, hmw] at howned
      simpa [hf] using howned
    · exact fun _ => (memOk_wbRetired hinv hmw).2
    · obtain ⟨-, -, -, -, -, hstatus, -⟩ := sameArch_rest hex
      refine fun hstopped => absurd (hstatus.trans ?_) hstopped
      obtain ⟨-, rfl⟩ | ⟨w, x, -, -, -, -, -, rfl⟩ := hwb <;> exact hrun
  · obtain rfl := next_inj ((tick_of_stopped hrun).symm.trans h)
    exact hs

/-! ## Runs of the pipeline -/

/-- A run of the pipeline is coupled to the run of the architectural level that its ticks count. -/
theorem coupled_runTicks {n : Nat} {s t u : State} (h : coupled s u) (hs : stoppedRetired s) (hticks : runTicks n s = .next t) :
    ∃ k v, runSteps k u = .next v ∧ coupled t v ∧ stoppedRetired t ∧ stepCount t = stepCount s + k := by
  induction n generalizing s u with
  | zero =>
    obtain rfl := next_inj hticks
    exact ⟨0, u, rfl, h, hs, rfl⟩
  | succ n ih =>
    rw [runTicks] at hticks
    split at hticks
    · rename_i s1 h1
      obtain ⟨v, hv, hcoupled⟩ := tickKeepsCoupling s u s1 h h1
      obtain ⟨k, x, hx, hcoupled', hretired, hcount⟩ := ih hcoupled (stoppedRetired_tick h.1 hs h1) hticks
      refine ⟨stepsOfTick s + k, x, (runSteps_add hv k).trans hx, hcoupled', hretired, ?_⟩
      rw [hcount, stepCount_tick h1, Nat.add_assoc]
    · cases hticks
    · cases hticks

/-- A booted engine is coupled to itself, whatever the two predictors hold. -/
theorem coupled_booted {c : Config} {image : Image} {l : Layout} {s : State} (h : boot c image l = .ok s)
    (btb btb' : List (Option BtbEntry)) (pht pht' : List (BitVec 2)) (ras ras' : List Word) :
    coupled (bootedWith btb pht ras s) (bootedWith btb' pht' ras' s) ∧ stoppedRetired (bootedWith btb pht ras s)
      ∧ stepCount (bootedWith btb pht ras s) = 0 := by
  obtain ⟨hc, hl, rfl⟩ := boot_ok h
  have hm : (placeImage [] image).wf = true := Memory.wf_placeImage rfl image
  refine ⟨⟨microInv_initial l true hc hm, pipelineLegal_initial (c := c) (m := placeImage [] image) l true, hl, rfl, rfl, rfl, rfl,
    rfl, rfl, rfl, fun _ => rfl, fun _ => rfl, fun _ _ => ⟨rfl, rfl⟩⟩, fun hs => absurd rfl hs, rfl⟩

/-- Settles O59: the coupling over the ticks of a run, from a booted engine coupled to itself. -/
theorem ticksRefineSteps : Obligations.TicksRefineSteps := by
  rintro c image l s0 s t btb pht ras n hboot rfl hticks
  obtain ⟨hstart, hretired, hzero⟩ := coupled_booted hboot btb btb pht pht ras ras
  obtain ⟨k, u, hu, hcoupled, -, hcount⟩ := coupled_runTicks hstart hretired hticks
  obtain ⟨-, -, -, hagrees, hmem, -⟩ := (coupled_iff t u).1 hcoupled
  rw [hzero, Nat.zero_add] at hcount
  exact ⟨u, by rw [← hu, ← hcount]; rfl, hagrees.regs, hagrees.flags, hagrees.pc, hagrees.status, hagrees.committed, hmem⟩

/-- Settles O60: both runs are coupled to runs of one architectural state, and those have stopped in the same state. -/
theorem predictorChangesNoResult : Obligations.PredictorChangesNoResult := by
  intro c image l s t1 t2 btb pht ras n1 n2 hboot hticks1 hticks2 hstop1 hstop2
  obtain ⟨hstart1, hretired1, -⟩ := coupled_booted hboot s.btb s.btb s.pht s.pht s.ras s.ras
  obtain ⟨hstart2, hretired2, -⟩ := coupled_booted hboot btb s.btb pht s.pht ras s.ras
  obtain ⟨k1, u1, hu1, hcoupled1, hdone1, -⟩ := coupled_runTicks hstart1 hretired1 hticks1
  obtain ⟨k2, u2, hu2, hcoupled2, hdone2, -⟩ := coupled_runTicks hstart2 hretired2 hticks2
  obtain ⟨-, -, -, h1, hmem1, -⟩ := (coupled_iff t1 u1).1 hcoupled1
  obtain ⟨-, -, -, h2, hmem2, -⟩ := (coupled_iff t2 u2).1 hcoupled2
  rw [dropUnretired_of_allRetired (hdone1 hstop1)] at hmem1
  rw [dropUnretired_of_allRetired (hdone2 hstop2)] at hmem2
  obtain rfl := runSteps_stopped_unique hu1 hu2 (by rw [h1.status]; exact hstop1) (by rw [h2.status]; exact hstop2)
  exact ⟨h1.status.symm.trans h2.status, h1.regs.symm.trans h2.regs, h1.flags.symm.trans h2.flags, h1.pc.symm.trans h2.pc,
    h1.committed.symm.trans h2.committed, fun a => (hmem1 a).symm.trans (hmem2 a)⟩

end Sys2Proof.Machine
end
